-- ==== Sys2Proof/Word.lean ====
section
/-! DEFINITION. Word types of the Scelequel machine: marks, addresses, register values that carry a mark, and the
sparse tables that hold the many like units of a package. -/

namespace Sys2Proof

/-- A byte of memory. -/
abbrev Byte := BitVec 8

/-- A 16-bit parcel (R75). -/
abbrev Parcel := BitVec 16

/-- A 64-bit word: an x register, an address, a control register. -/
abbrev Word := BitVec 64

/-- A 16-bit set of tenant origins (R10, R475). -/
abbrev Mark := BitVec 16

/-- A value together with its mark. -/
structure Tagged (w : Nat) where
  val : BitVec w
  mark : Mark
  deriving DecidableEq, Repr

/-- Join of two marks (Table 1.12). -/
abbrev Mark.join (a b : Mark) : Mark := a ||| b

/-- A sparse table: keys strictly rising, one entry a key. -/
abbrev Table (α : Type) := List (Nat × α)

/-- The entry of a key. -/
def Table.get? {α : Type} : Table α → Nat → Option α
  | [], _ => none
  | (k, v) :: t, i => if k = i then some v else Table.get? t i

/-- Writes the entry of a key, keeping keys strictly rising. -/
def Table.set {α : Type} : Table α → Nat → α → Table α
  | [], i, a => [(i, a)]
  | (k, v) :: t, i, a =>
    if i < k then (i, a) :: (k, v) :: t
    else if k = i then (i, a) :: t
    else (k, v) :: Table.set t i a

/-- Removes the entry of a key. -/
def Table.erase {α : Type} : Table α → Nat → Table α
  | [], _ => []
  | (k, v) :: t, i => if k = i then t else (k, v) :: Table.erase t i

/-- Keys strictly rising. -/
def Table.sorted {α : Type} : Table α → Bool
  | [] => true
  | [_] => true
  | (a, _) :: (b, y) :: t => decide (a < b) && Table.sorted ((b, y) :: t)

end Sys2Proof
end

