-- ==== Sys2Proof/Config.lean ====
section
/-! DEFINITION. What one package fixes and the spec leaves open: constants without a body, so that nothing can be
proved of their values. Each is a function of a plain counter of the state, or of the operands it depends on. -/

namespace Sys2Proof.Config

/-- The value drawn for the n-th open choice of a run: a Boolean (DESIGN CHOICE, log entry 12). -/
opaque freeBool : Nat → Bool

/-- The value drawn for the n-th open choice of a run: a byte (DESIGN CHOICE, log entry 12). -/
opaque freeByte : Nat → Byte

/-- The value drawn for the n-th open choice of a run: a 64-bit word (DESIGN CHOICE, log entry 12). -/
opaque freeWord : Nat → Word

/-- The fuse words 0 to 10 of the part as manufactured (R498, Table 21.3; DESIGN CHOICE, log entry 13). -/
opaque fuse : Nat → Word

/-- The identity private key less 1, modulo n - 1, in fuses outside the map (R498; DESIGN CHOICE, log entry 13). -/
opaque identityKey : Nat

/-- The n-th value of the SEC's random source; DBGNONCE is one more than it modulo 2^64 - 1 (R497; DESIGN CHOICE, log entry 13). -/
opaque randomSource : Nat → Nat

/-- The public key that comes with the SEC firmware image at the n-th reset, X and Y (R497; DESIGN CHOICE, log entry 14). -/
opaque firmwareKey : Nat → Nat × Nat

/-- The signature of the SEC firmware image at the n-th reset, r and s (R497; DESIGN CHOICE, log entry 14). -/
opaque firmwareSignature : Nat → Nat × Nat

/-- The security version of the SEC firmware image at the n-th reset (R497; DESIGN CHOICE, log entry 14). -/
opaque firmwareVersion : Nat → Nat

/-- SHA-256 digest of the SEC firmware image at the n-th reset (R497; DESIGN CHOICE, log entry 14). -/
opaque firmwareDigest : Nat → BitVec 256

/-- Address at which the SEC firmware starts (R495; DESIGN CHOICE, log entry 14). -/
opaque secEntry : Word

/-- Address at which HT0 of a die's DCP starts (Table 22.4; DESIGN CHOICE, log entry 14). -/
opaque dcpEntry : Nat → Word

/-- The n-th measured junction temperature in degrees Celsius (Table 22.1; DESIGN CHOICE, log entry 15). -/
opaque measuredTj : Nat → BitVec 8

/-- The n-th measured package power in W (Table 22.2; DESIGN CHOICE, log entry 15). -/
opaque measuredPower : Nat → BitVec 16

/-- Whether the sparing map fixed at reset uses a quadrant's spare cluster (R444; DESIGN CHOICE, log entry 100). -/
opaque spareUsed : Nat → Bool

/-- The n-th measured utilisation in percent is this value modulo 101 (Table 22.1; DESIGN CHOICE, log entry 15). -/
opaque measuredUtil : Nat → Nat

/-- Whether another package answers the n-th remote request, refuses it, or stays silent: 0 answers, 1 refuses, any
other value is silence (R456; DESIGN CHOICE, log entry 16). -/
opaque remoteVerdict : Nat → Nat

/-- Whether the host answers the n-th access to its memory; otherwise it stays silent (R458; DESIGN CHOICE, log entry 16). -/
opaque hostAnswers : Nat → Bool

/-- The bytes, as one number, that another package returns to the n-th remote request (R456; DESIGN CHOICE, log entry 16). -/
opaque remoteData : Nat → Nat

/-- The mark with which another package's bytes arrive: the sender's, or 0x0000 where the sender's partition has FED = 0, which
this package does not see (R477; DESIGN CHOICE, log entry 16). -/
opaque remoteMark : Nat → Mark

end Sys2Proof.Config
end

