-- ==== Sys2Proof/Syntax.lean ====
section
/-! DEFINITION. The abstract syntax: one constructor for each row of the opcode table. The rows with an encoding
carry the fields that Tables 3.2 to 3.9 and the entries of the chapters give; the rows without one are the machine's
own steps (spec/95_what_each_step_holds.md) and carry what names the place where they happen. -/

namespace Sys2Proof

/-- A register number, 0 to 31 (R88). -/
abbrev Reg := BitVec 5

/-- A mask register number, 0 to 7 (R81). -/
abbrev KReg := BitVec 3

/-- The value window of a long-latency form (R84): VER 01 and LA. LA = 0 opens no window. -/
structure Win where
  ver1 : Bool
  la : BitVec 4
  deriving DecidableEq, Repr

/-- The three write forms of a control register (R128). -/
inductive CsOp where
  | w | s | c
  deriving DecidableEq, Repr

/-- The lane formats of the TF field (Table 3.3). -/
inductive FpTy where
  | f32 | bf16 | f16
  deriving DecidableEq, Repr

/-- The byte formats of the TD field (Table 3.3). -/
inductive DotTy where
  | i8 | ui8 | e4m3 | e5m2
  deriving DecidableEq, Repr

/-- The element types of Table 3.3, in the order of their codes 0x0 to 0xB. -/
inductive ETy where
  | f32 | f16 | bf16 | e4m3 | e5m2 | e4m3c | e5m2c | i8 | ui8 | i32 | i16 | i64
  deriving DecidableEq, Repr

/-- A request that reaches an agent of this package from another package (R315, R454, R473). The kinds are those of
the accesses that R456, R315 and R224 name. -/
inductive RemoteKind where
  | load | store | amo | acas | ldv | stv | reclaim | deliver | record | decrement
  deriving DecidableEq, Repr

/-- An incoming remote request: the requester, its SGID, the address, the length in bytes, the data with its mark,
and for an AMO, ACAS or versioned request its operation, compare value or version. -/
structure RemoteReq where
  kind : RemoteKind
  chip : BitVec 19
  unit : BitVec 13
  sgid : BitVec 16
  addr : Word
  len : Nat
  data : Nat
  mark : Mark
  aux : Word
  deriving DecidableEq, Repr

/-- Who sends a mailbox message: the oldest one that waits at an engine, or the DCP of a thread's die (R137). -/
inductive MailSrc where
  | engine
  | dcp (unit : BitVec 13) (ht : BitVec 2) (msg : BitVec 60) (mark : Mark)
  deriving DecidableEq, Repr

/-- Where an uncorrectable error strikes (R446): a location of memory, the register file of a thread, or a context
set held in the context store of a core. -/
inductive PoisonSite where
  | mem (loc : Nat)
  | regFile (unit : BitVec 13) (ht : BitVec 2)
  | ctxStore (unit : BitVec 13) (set : BitVec 2)
  deriving DecidableEq, Repr

/-- The registers that the management port reads (R521). -/
inductive SmbusReg where
  | pwrst (die : BitVec 3) | pkgpwr | devst | fuse0 | fuse1
  deriving DecidableEq, Repr

/-- The register files that an external debugger reaches (R507): `pc` is the program counter, and word n mod 16 of the
image of stream slot n / 16 is `slot` n. -/
inductive DebugFile where
  | x | v | k | csr | pc | slot
  deriving DecidableEq, Repr

/-- One access of an external debugger (R507, R499). -/
inductive DebugAccess where
  | readReg (unit : BitVec 13) (set ht : BitVec 2) (file : DebugFile) (n : BitVec 6)
  | readRegMark (unit : BitVec 13) (set ht : BitVec 2) (file : DebugFile) (n : BitVec 6)
  | writeReg (unit : BitVec 13) (set ht : BitVec 2) (file : DebugFile) (n : BitVec 6) (val : BitVec 256) (mark : Mark)
  | readCtl (part : BitVec 6) (block : BitVec 13) (off : BitVec 21)
  | writeCtl (part : BitVec 6) (block : BitVec 13) (off : BitVec 21) (val : Word)
  | readByte (loc : Nat)
  | writeByte (loc : Nat) (val : Byte)
  | readMark (loc : Nat)
  | writeMark (loc : Nat) (mark : Mark)
  | advance (lcs : BitVec 8)
  deriving DecidableEq, Repr

/-- The instructions and machine steps of the opcode table. -/
inductive Instr where
  /-- ADD (R112). -/
  | add (d a b : Reg)
  /-- SUB (R112). -/
  | sub (d a b : Reg)
  /-- AND (R112). -/
  | and (d a b : Reg)
  /-- OR (R112). -/
  | or (d a b : Reg)
  /-- XOR (R112). -/
  | xor (d a b : Reg)
  /-- SLL (R112). -/
  | sll (d a b : Reg)
  /-- SRL (R112). -/
  | srl (d a b : Reg)
  /-- SRA (R112). -/
  | sra (d a b : Reg)
  /-- SLT (R112). -/
  | slt (d a b : Reg)
  /-- SLTU (R112). -/
  | sltu (d a b : Reg)
  /-- MIN (R112). -/
  | min (d a b : Reg)
  /-- MAX (R112). -/
  | max (d a b : Reg)
  /-- MINU (R112). -/
  | minu (d a b : Reg)
  /-- MAXU (R112). -/
  | maxu (d a b : Reg)
  /-- MUL (R112). -/
  | mul (d a b : Reg) (w : Win)
  /-- MULH (R112). -/
  | mulh (d a b : Reg) (w : Win)
  /-- MULHU (R112). -/
  | mulhu (d a b : Reg) (w : Win)
  /-- DIV (R113). -/
  | div (d a b : Reg) (w : Win)
  /-- DIVU (R113). -/
  | divu (d a b : Reg) (w : Win)
  /-- REM (R113). -/
  | rem (d a b : Reg) (w : Win)
  /-- REMU (R113). -/
  | remu (d a b : Reg) (w : Win)
  /-- ADDI (R115). -/
  | addi (d b : Reg) (imm : Word)
  /-- ANDI (R115). -/
  | andi (d b : Reg) (imm : Word)
  /-- ORI (R115). -/
  | ori (d b : Reg) (imm : Word)
  /-- XORI (R115). -/
  | xori (d b : Reg) (imm : Word)
  /-- SLLI (R115). -/
  | slli (d b : Reg) (sh : BitVec 6)
  /-- SRLI (R115). -/
  | srli (d b : Reg) (sh : BitVec 6)
  /-- SRAI (R115). -/
  | srai (d b : Reg) (sh : BitVec 6)
  /-- SLTI (R115). -/
  | slti (d b : Reg) (imm : Word)
  /-- SLTIU (R115). -/
  | sltiu (d b : Reg) (imm : Word)
  /-- LI (R116). -/
  | li (d : Reg) (imm : Word)
  /-- CLZ (R117). -/
  | clz (d a : Reg)
  /-- CTZ (R117). -/
  | ctz (d a : Reg)
  /-- POPC (R117). -/
  | popc (d a : Reg)
  /-- BREV (R117). -/
  | brev (d a : Reg)
  /-- BEXT (R118). -/
  | bext (d a b : Reg)
  /-- BINS (R118). -/
  | bins (d a b : Reg)
  /-- MV (R119). -/
  | mv (d a : Reg)
  /-- CMOV (R119). -/
  | cmov (d a b : Reg)
  /-- LD (R121). -/
  | ld (z : BitVec 2) (d a : Reg) (off : Word)
  /-- ST (R121). -/
  | st (z : BitVec 2) (d a : Reg) (off : Word)
  /-- LDP (R122). -/
  | ldp (z : BitVec 2) (d a : Reg) (off : Word)
  /-- STP (R122). -/
  | stp (z : BitVec 2) (d a : Reg) (off : Word)
  /-- BEQ (R123). -/
  | beq (a b : Reg) (off : Word)
  /-- BNE (R123). -/
  | bne (a b : Reg) (off : Word)
  /-- BLT (R123). -/
  | blt (a b : Reg) (off : Word)
  /-- BGE (R123). -/
  | bge (a b : Reg) (off : Word)
  /-- BLTU (R123). -/
  | bltu (a b : Reg) (off : Word)
  /-- BGEU (R123). -/
  | bgeu (a b : Reg) (off : Word)
  /-- J (R124). -/
  | j (off : Word)
  /-- JAL (R124). -/
  | jal (off : Word)
  /-- JR (R125). -/
  | jr (a : Reg)
  /-- JALR (R125). -/
  | jalr (d a : Reg)
  /-- BQPUSH (R127). -/
  | bqpush (a : Reg)
  /-- CSRR (R128). -/
  | csrr (d : Reg) (c : BitVec 6)
  /-- CSRW (R128). -/
  | csrw (d : Reg) (c : BitVec 6)
  /-- CSRS (R128). -/
  | csrs (d : Reg) (c : BitVec 6)
  /-- CSRC (R128). -/
  | csrc (d : Reg) (c : BitVec 6)
  /-- CPLAUNCH_READ (R366). -/
  | cplaunchRead (d : Reg)
  /-- CTXP_WRITE (R435). -/
  | ctxpWrite (op : CsOp) (d : Reg)
  /-- TRAP (R131). -/
  | trap (imm : BitVec 6)
  /-- BRK (R131). -/
  | brk (imm : BitVec 6)
  /-- WFE (R134). -/
  | wfe (line : BitVec 6)
  /-- EVSIG (R136). -/
  | evsig (a : Reg)
  /-- MBRD (R139). -/
  | mbrd (d : Reg)
  /-- VADD (R144). -/
  | vadd (f : FpTy) (d a b : Reg) (k : KReg)
  /-- VSUB (R144). -/
  | vsub (f : FpTy) (d a b : Reg) (k : KReg)
  /-- VMUL (R144). -/
  | vmul (f : FpTy) (d a b : Reg) (k : KReg)
  /-- VFMA (R144). -/
  | vfma (f : FpTy) (d a b : Reg) (k : KReg)
  /-- VFMS (R144). -/
  | vfms (f : FpTy) (d a b : Reg) (k : KReg)
  /-- VFNMA (R144). -/
  | vfnma (f : FpTy) (d a b : Reg) (k : KReg)
  /-- VFNMS (R144). -/
  | vfnms (f : FpTy) (d a b : Reg) (k : KReg)
  /-- VMIN (R145). -/
  | vmin (f : FpTy) (d a b : Reg) (k : KReg)
  /-- VMAX (R145). -/
  | vmax (f : FpTy) (d a b : Reg) (k : KReg)
  /-- VABS (R146). -/
  | vabs (f : FpTy) (d a : Reg) (k : KReg)
  /-- VNEG (R146). -/
  | vneg (f : FpTy) (d a : Reg) (k : KReg)
  /-- VRCP (R147). -/
  | vrcp (f : FpTy) (d a : Reg) (k : KReg) (w : Win)
  /-- VRSQ (R147). -/
  | vrsq (f : FpTy) (d a : Reg) (k : KReg) (w : Win)
  /-- VSQRT (R147). -/
  | vsqrt (f : FpTy) (d a : Reg) (k : KReg) (w : Win)
  /-- VDIV (R144). -/
  | vdiv (f : FpTy) (d a b : Reg) (k : KReg) (w : Win)
  /-- VEXP2 (R147). -/
  | vexp2 (f : FpTy) (d a : Reg) (k : KReg) (w : Win)
  /-- VCMP (R148). -/
  | vcmp (f : FpTy) (p : BitVec 3) (d : KReg) (a b : Reg) (k : KReg)
  /-- VSEL (R150). -/
  | vsel (z : BitVec 2) (d a b : Reg) (k : KReg)
  /-- VCVT (R157). -/
  | vcvt (src dst : ETy) (sat : Bool) (part : BitVec 3) (ctid : BitVec 2) (d a : Reg) (k : KReg)
  /-- VCLASS (R149). -/
  | vclass (f : FpTy) (d a : Reg) (k : KReg)
  /-- VIADD (R151). -/
  | viadd (z m : BitVec 2) (d a b : Reg) (k : KReg)
  /-- VISUB (R151). -/
  | visub (z m : BitVec 2) (d a b : Reg) (k : KReg)
  /-- VIMUL (R151). -/
  | vimul (z m : BitVec 2) (d a b : Reg) (k : KReg)
  /-- VSH (R151). -/
  | vsh (z m : BitVec 2) (d a b : Reg) (k : KReg)
  /-- VAND (R151). -/
  | vand (z : BitVec 2) (d a b : Reg) (k : KReg)
  /-- VOR (R151). -/
  | vor (z : BitVec 2) (d a b : Reg) (k : KReg)
  /-- VXOR (R151). -/
  | vxor (z : BitVec 2) (d a b : Reg) (k : KReg)
  /-- VDOT4 (R152). -/
  | vdot4 (t : DotTy) (d a b : Reg) (k : KReg) (w : Win)
  /-- VRED (R153). -/
  | vred (f : FpTy) (op : BitVec 2) (d a : Reg) (k : KReg) (w : Win)
  /-- VBCAST (R154). -/
  | vbcast (z : BitVec 2) (lane : BitVec 5) (d a : Reg) (k : KReg)
  /-- VPERM (R154). -/
  | vperm (z : BitVec 2) (zhi : Bool) (d a b : Reg) (k : KReg)
  /-- VMVX (R155). -/
  | vmvx (z : BitVec 2) (lane : BitVec 5) (d a : Reg)
  /-- VMXV (R155). -/
  | vmxv (z : BitVec 2) (d a : Reg) (k : KReg)
  /-- VLD (R160). -/
  | vld (z : BitVec 2) (d a : Reg) (off : Word) (k : KReg)
  /-- VST (R160). -/
  | vst (z : BitVec 2) (d a : Reg) (off : Word) (k : KReg)
  /-- VLDI (R161). -/
  | vldi (d : Reg) (imm : BitVec 32)
  /-- KOP (R156). -/
  | kop (op : BitVec 2) (d a b : KReg)
  /-- KPOP (R156). -/
  | kpop (d : Reg) (a : KReg)
  /-- BQB (R162). -/
  | bqb (n : BitVec 6)
  /-- ACCZ (R165). -/
  | accz (a : Reg)
  /-- ACCW (R166). -/
  | accw (bf prod : Bool) (d a b : Reg) (k : KReg)
  /-- ACCRD (R167). -/
  | accrd (bf : Bool) (d a : Reg) (w : Win)
  /-- SOPEN (R180). -/
  | sopen (n : BitVec 2) (a : Reg) (wr vec : Bool)
  /-- SOPENX (R180). -/
  | sopenx (n : BitVec 2) (a : Reg) (wr vec : Bool)
  /-- SADV (R181). -/
  | sadv (n : BitVec 2) (a : Reg)
  /-- STEND (R182). -/
  | stend (d : Reg) (n : BitVec 2)
  /-- SCLOSE (R183). -/
  | sclose (n : BitVec 2)
  /-- SSAVE (R184). -/
  | ssave (n : BitVec 2) (a : Reg)
  /-- SREST (R184). -/
  | srest (n : BitVec 2) (a : Reg)
  /-- FOPEN (R194). -/
  | fopen (n : Bool) (a : Reg) (start : BitVec 32)
  /-- FADV (R195). -/
  | fadv (n : Bool) (a : Reg)
  /-- FTEND (R195). -/
  | ftend (d : KReg) (n : Bool)
  /-- FCLOSE (R194). -/
  | fclose (n : Bool)
  /-- FISECT (R196). -/
  | fisect (d : KReg)
  /-- FUNION (R196). -/
  | funion (d : KReg)
  /-- BMAND (R198). -/
  | bmand (andn : Bool) (d a b : Reg)
  /-- BMPFX (R199). -/
  | bmpfx (inc : Bool) (d a b : Reg)
  /-- SPACK (R201). -/
  | spack (z : BitVec 2) (d a : Reg) (k : KReg)
  /-- SUNPK (R202). -/
  | sunpk (z : BitVec 2) (d a b : Reg) (k : KReg)
  /-- REP (R185). -/
  | rep (len : BitVec 5) (cnt : BitVec 16)
  /-- REPX (R185). -/
  | repx (len : BitVec 5) (a : Reg)
  /-- HACC (R204). -/
  | hacc (op : BitVec 2) (i32 : Bool) (start : BitVec 3) (d a b : Reg)
  /-- HPROBE (R205). -/
  | hprobe (i32 : Bool) (d a b : Reg) (w : Win)
  /-- WIDF (R272). -/
  | widf (d : Reg) (n : BitVec 3)
  /-- WIDR (R273). -/
  | widr (d a b : Reg)
  /-- SPAWN (R274). -/
  | spawn (a : Reg) (gh pri here : Bool)
  /-- SPAWND (R276). -/
  | spawnd (d a : Reg) (gh pri : Bool)
  /-- SUSP (R278). -/
  | susp (a b : Reg)
  /-- JOIN (R279). -/
  | join (d a : Reg)
  /-- GDONE (R281). -/
  | gdone (d a : Reg)
  /-- GLAUNCH (R282). -/
  | glaunch (d a : Reg)
  /-- SSTEP (R283). -/
  | sstep (d a : Reg)
  /-- VOTE (R285). -/
  | vote (a : Reg) (dom : BitVec 6)
  /-- XSEND (R287). -/
  | xsend (a : Reg) (dom : BitVec 6) (start : BitVec 16) (len : BitVec 8)
  /-- BARA (R289). -/
  | bara (dom : BitVec 6)
  /-- BARW (R290). -/
  | barw (d a : Reg)
  /-- WQPUT (R291). -/
  | wqput (d a b : Reg)
  /-- WQTAKE (R292). -/
  | wqtake (d : Reg)
  /-- RINJ (R262). -/
  | rinj (d a b : Reg)
  /-- MTSET (R263). -/
  | mtset (d a : Reg) (e : BitVec 6)
  /-- MTCLR (R264). -/
  | mtclr (d a : Reg)
  /-- RSTAT (R265). -/
  | rstat (d a : Reg)
  /-- RDRAIN (R266). -/
  | rdrain (d a : Reg)
  /-- RTAKE (R267). -/
  | rtake (d : Reg)
  /-- LDG (R347). -/
  | ldg (z : BitVec 2) (d a : Reg) (off : Word) (w : Win)
  /-- STG (R347). -/
  | stg (z : BitVec 2) (d a : Reg) (off : Word)
  /-- LDV (R349). -/
  | ldv (d a : Reg) (off : Word) (w : Win)
  /-- STV (R349). -/
  | stv (d a : Reg) (off : Word)
  /-- RECLAIM (R350). -/
  | reclaim (d a b : Reg)
  /-- LLOCK (R352). -/
  | llock (a : Reg)
  /-- SUNLK (R353). -/
  | sunlk (d a : Reg)
  /-- AMO (R355). -/
  | amo (z : BitVec 2) (op : BitVec 4) (ord : BitVec 2) (sc : BitVec 3) (d a b : Reg) (w : Win)
  /-- ACAS (R356). -/
  | acas (z : BitVec 2) (ord : BitVec 2) (sc : BitVec 3) (d a b : Reg) (w : Win)
  /-- FENCE (R358). -/
  | fence (kind : BitVec 2) (sc : BitVec 3)
  /-- CBWAIT (R360). -/
  | cbwait (d a : Reg) (buf : BitVec 6)
  /-- CBREL (R361). -/
  | cbrel (a : Reg) (buf : BitVec 6)
  /-- CBCLM (R360). -/
  | cbclm (d a : Reg) (buf : BitVec 6)
  /-- CBPUB (R361). -/
  | cbpub (a : Reg) (buf : BitVec 6)
  /-- CB_PUBLISH (R311). -/
  | cbPublish (cl : BitVec 9) (buf : BitVec 6)
  /-- CB_RELEASE (R311). -/
  | cbRelease (cl : BitVec 9) (buf : BitVec 6)
  /-- VERSIONED_REQUEST (R314). -/
  | versionedRequest (cl : BitVec 9)
  /-- LOCK_GRANT (R308). -/
  | lockGrant (cl : BitVec 9) (bit : BitVec 9)
  /-- CPSET (R394). -/
  | cpset (a : Reg) (sel : BitVec 7)
  /-- CPGO (R395). -/
  | cpgo (d a : Reg)
  /-- CPSTAT (R396). -/
  | cpstat (d a : Reg)
  /-- IXPOST (R397). -/
  | ixpost (d a : Reg) (sleep : Bool)
  /-- MLEASE (R398). -/
  | mlease (n : BitVec 7)
  /-- MFMT (R400). -/
  | mfmt (a : Reg) (c : BitVec 17)
  /-- MMA (R402). -/
  | mma (d a b : Reg) (acc : Bool)
  /-- MCONV (R403). -/
  | mconv (d a b : Reg) (acc : Bool)
  /-- MDRAIN (R404). -/
  | mdrain (d : Reg)
  /-- MSTAT (R405). -/
  | mstat (d : Reg)
  /-- PMASK (R407). -/
  | pmask (a : Reg) (op : BitVec 2)
  /-- LDROWS (R409). -/
  | ldrows (d a : Reg) (line : BitVec 6)
  /-- STROWS (R409). -/
  | strows (d a : Reg) (line : BitVec 6)
  /-- EPUSH (R410). -/
  | epush (a b : Reg)
  /-- EPOP (R406). -/
  | epop (d : Reg) (w : Win)
  /-- CTAB (R411). -/
  | ctab (d a : Reg) (fmt : Bool) (ctid : BitVec 2)
  /-- CTABG (R412). -/
  | ctabg (d : Reg) (fmt : Bool) (ctid : BitVec 2)
  /-- COPY_RUN (R369). -/
  | copyRun (unit : BitVec 13) (tid : BitVec 16)
  /-- COPY_FINISH (R370). -/
  | copyFinish (unit : BitVec 13) (tid : BitVec 16)
  /-- INDIRECT_RUN (R373). -/
  | indirectRun (cl : BitVec 9)
  /-- INDIRECT_FINISH (R374). -/
  | indirectFinish (cl : BitVec 9)
  /-- MAILBOX_DELIVERY (R137). -/
  | mailboxDelivery (src : MailSrc)
  /-- ROW_UNIT_RUN (R376). -/
  | rowUnitRun (unit : BitVec 13)
  /-- LEASE_GRANT (R380). -/
  | leaseGrant (cl : BitVec 9) (half : Bool)
  /-- CHUNK_STEP (R382). -/
  | chunkStep (cl : BitVec 9) (half : Bool)
  /-- OUTPUT_STEP (R382). -/
  | outputStep (cl : BitVec 9) (half : Bool)
  /-- MARKER_COMPLETE (R410). -/
  | markerComplete (unit : BitVec 13) (ix : Nat)
  /-- CTXSEL (R436). -/
  | ctxsel (op set : BitVec 2) (d a : Reg)
  /-- HTRES_RESUME (R429). -/
  | htresResume (d a b : Reg)
  /-- HTRES_PREEMPT_MILESTONE (R430). -/
  | htresPreemptMilestone (d a b : Reg)
  /-- HTRES_PREEMPT_SAFEPOINT (R431). -/
  | htresPreemptSafepoint (d a b : Reg)
  /-- HTRES_PARK (R429). -/
  | htresPark (d a b : Reg)
  /-- HTRES_END (R429). -/
  | htresEnd (d a b : Reg)
  /-- PSET (R441). -/
  | pset (d a b : Reg)
  /-- QSET (R443). -/
  | qset (sel : BitVec 3) (d a : Reg)
  /-- SLINV (R447). -/
  | slinv (a b : Reg) (ty : BitVec 2) (part : BitVec 6)
  /-- MLREV (R437). -/
  | mlrev (d a : Reg)
  /-- MKRD (R481). -/
  | mkrd (s : BitVec 2) (d a : Reg)
  /-- MKCTX (R482). -/
  | mkctx (a : Reg)
  /-- MKJOIN (R483). -/
  | mkjoin (v : Bool) (d a b : Reg)
  /-- GATESUB (R489). -/
  | gatesub (d a : Reg) (wait evt : Bool) (line : BitVec 6)
  /-- GATEST (R490). -/
  | gatest (d a : Reg)
  /-- FUSERD (R503). -/
  | fuserd (d : Reg) (word : BitVec 6)
  /-- MEASX (R505). -/
  | measx (a : Reg) (n : BitVec 3)
  /-- ATTEST (R506). -/
  | attest (d a : Reg) (part : BitVec 6)
  /-- DBGOPEN (R507). -/
  | dbgopen (d a : Reg)
  /-- DCP_EVENT_APPEND (R428). -/
  | dcpEventAppend (die : BitVec 3)
  /-- RESERVATION_CHECK (R215). -/
  | reservationCheck (part : BitVec 6)
  /-- GANG_TIMEOUT (R216). -/
  | gangTimeout (part : BitVec 6) (gang : BitVec 32)
  /-- INITIAL_ENQUEUE (R219). -/
  | initialEnqueue (gh : BitVec 16)
  /-- CONTINUATION_START (R227). -/
  | continuationStart (unit : BitVec 13) (ht : BitVec 2)
  /-- GROUP_END (R220). -/
  | groupEnd (gh : BitVec 16)
  /-- XSEND_DELIVERY (R288). -/
  | xsendDelivery (ix : Nat)
  /-- DEADLINE (R432). -/
  | deadline (gh : BitVec 16)
  /-- DEADLINE_FORCE (R432). -/
  | deadlineForce (unit : BitVec 13) (ht : BitVec 2)
  /-- BEAT_BOUNDARY (R244). -/
  | beatBoundary (q : BitVec 5) (seg : BitVec 2)
  /-- PAIR_COPY (R248). -/
  | pairCopy (q : BitVec 5) (stop : BitVec 4)
  /-- SEGMENT_PARK (R257). -/
  | segmentPark (q : BitVec 5) (seg : BitVec 2)
  /-- SEGMENT_RESUME (R258). -/
  | segmentResume (q : BitVec 5) (seg : BitVec 2)
  /-- MAILBOX_WRITE (R461). -/
  | mailboxWrite (ch : BitVec 4)
  /-- MAILBOX_READ (R461). -/
  | mailboxRead (ch : BitVec 4)
  /-- MAILBOX_LAUNCH (R462). -/
  | mailboxLaunch (ch : BitVec 4)
  /-- CONFIG_PCHIP (R463). -/
  | configPchip (ch : BitVec 4)
  /-- CONFIG_SYSN (R463). -/
  | configSysn (ch : BitVec 4)
  /-- CONFIG_SGID (R463). -/
  | configSgid (ch : BitVec 4)
  /-- CONFIG_CHIPST (R463). -/
  | configChipst (ch : BitVec 4)
  /-- CONFIG_CHCFG (R463). -/
  | configChcfg (ch : BitVec 4)
  /-- CONFIG_TMASTER (R463). -/
  | configTmaster (ch : BitVec 4)
  /-- CONFIG_TSET (R465). -/
  | configTset (ch : BitVec 4)
  /-- CONFIG_RECBASE (R463). -/
  | configRecbase (ch : BitVec 4)
  /-- CONFIG_RECLEN (R463). -/
  | configReclen (ch : BitVec 4)
  /-- CONFIG_RECMODE (R473). -/
  | configRecmode (ch : BitVec 4)
  /-- CONFIG_PCAP (R516). -/
  | configPcap (ch : BitVec 4)
  /-- HOST_EVENT_WRITE (R464). -/
  | hostEventWrite (ch : BitVec 4)
  /-- REQUEST_TIMEOUT (R456). -/
  | requestTimeout (unit : BitVec 13) (ht : BitVec 2)
  /-- ILLEGAL_INSTRUCTION (R99). -/
  | illegalInstruction (finfo : Word)
  /-- EMULATION_TRAP (R100). -/
  | emulationTrap (finfo : Word)
  /-- STREAM_FETCH (R176). -/
  | streamFetch (n : BitVec 2)
  /-- CB_CLAIM (R311). -/
  | cbClaim (cl : BitVec 9) (buf : BitVec 6)
  /-- CB_TAKE (R311). -/
  | cbTake (cl : BitVec 9) (buf : BitVec 6)
  /-- REMOTE_REQUEST (R315). -/
  | remoteRequest (r : RemoteReq)
  /-- TRANSLATION_WALK (R318). -/
  | translationWalk (part : BitVec 6) (va : Word)
  /-- POLICY_USE_EXPIRY (R488). -/
  | policyUseExpiry (part : BitVec 6) (ix : Nat)
  /-- WAITTO (R320). -/
  | waitto (eSide : Bool)
  /-- WAIT_SATISFIED (R134). -/
  | waitSatisfied (eSide : Bool)
  /-- LAUNCH_PROMOTION (R215). -/
  | launchPromotion (part : BitVec 6)
  /-- READY_PROMOTION (R226). -/
  | readyPromotion (unit : BitVec 13) (level : BitVec 2)
  /-- RSEG_WRITE (R242). -/
  | rsegWrite (q : BitVec 5) (seg : BitVec 2) (val : Word)
  /-- RCFG_WRITE (R240). -/
  | rcfgWrite (q : BitVec 5) (val : Word)
  /-- CBCFG_WRITE (R310). -/
  | cbcfgWrite (cl : BitVec 9) (buf : BitVec 6) (val : Word)
  /-- SLOT_TABLE_WRITE (R476). -/
  | slotTableWrite (part : BitVec 6) (off : BitVec 21) (val : Word)
  /-- KCTL_WRITE (R500). -/
  | kctlWrite (off : BitVec 21) (val : Word)
  /-- SECDB_WRITE (R496). -/
  | secdbWrite (val : Tagged 64)
  /-- CONTROL_REGISTER_WRITE (R298). -/
  | controlRegisterWrite (block : BitVec 13) (off : BitVec 21) (val : Word)
  /-- QREM_EXPIRY (R436). -/
  | qremExpiry (unit : BitVec 13)
  /-- SOFTERR (R445). -/
  | softerr (unit : BitVec 13) (str : BitVec 3) (addr : Word)
  /-- POISON (R446). -/
  | poison (site : PoisonSite)
  /-- RETIREMENT (R444). -/
  | retirement (unit : BitVec 13)
  /-- MAILBOX_COMMAND_WRITE (R460). -/
  | mailboxCommandWrite (ch : BitVec 4) (off : BitVec 12) (val : BitVec 512) (data : Nat)
  /-- REPLAY_ENTRY (R474). -/
  | replayEntry (part : BitVec 6)
  /-- FREQUENCY_CHANGE (R514). -/
  | frequencyChange (die : BitVec 3) (util power current : BitVec 11)
  /-- THERMAL_THROTTLE (R517). -/
  | thermalThrottle (die : BitVec 3) (tj : BitVec 8)
  /-- THERMAL_RELEASE (R517). -/
  | thermalRelease (die : BitVec 3) (tj : BitVec 8)
  /-- THERMAL_TRIP (R517). -/
  | thermalTrip (die : BitVec 3) (tj : BitVec 8)
  /-- SMBUS_BLOCK_READ (R521). -/
  | smbusBlockRead (reg : SmbusReg)
  /-- EXTERNAL_DEBUGGER_ACCESS (R507). -/
  | externalDebuggerAccess (a : DebugAccess)
  /-- LINK_TRAINING (R457). -/
  | linkTraining (port : BitVec 4) (up : Bool)
  /-- NOP (R130). -/
  | nop
  /-- EXIT (R132). -/
  | exit
  /-- WFM (R138). -/
  | wfm
  /-- REPBRK (R189). -/
  | repbrk
  /-- TRIG (R280). -/
  | trig
  /-- MREL (R399). -/
  | mrel
  /-- TRET (R426). -/
  | tret
  /-- KWIPE (R504). -/
  | kwipe
  /-- GATE_RUN (R486). -/
  | gateRun
  /-- JOIN_DECREMENT (R224). -/
  | joinDecrement
  /-- SAFE_POINT_PARK (R431). -/
  | safePointPark
  /-- SECDB_READ (R496). -/
  | secdbRead
  /-- TIME_LOCK_LOSS (R466). -/
  | timeLockLoss
  /-- TIME_LOCK_REGAIN (R466). -/
  | timeLockRegain
  /-- RESET (R518). -/
  | reset
  /-- BRINGUP_STAGE (R519). -/
  | bringupStage
  /-- SMBUS_RESET_REQUEST (R521). -/
  | smbusResetRequest
  deriving DecidableEq, Repr

end Sys2Proof
end

