-- ==== Sys2Proof/Machine/State.lean ====
section
/-! DEFINITION. The state of a package: every register, table, queue and engine that the spec names, as plain data.
Units that a package has many of are sparse tables keyed by their number; a unit that a table does not list has the
reset value of its record. -/

namespace Sys2Proof.Machine

open Sys2Proof

/-! ## Threads -/

/-- The name of a hardware thread: unit number (Table 11.2; 0x1440 for the SEC, R44), context set, thread number. -/
structure ThreadId where
  unit : Nat
  set : Nat
  ht : Nat
  deriving DecidableEq, Repr

/-- Key of a thread in the thread table. -/
def ThreadId.key (t : ThreadId) : Nat := t.unit * 16 + t.set * 4 + t.ht

/-- The register files of a thread (R10, R11). -/
structure Regs where
  x : Vector (Tagged 64) 32
  v : Vector (Tagged 256) 32
  k : Vector (Tagged 32) 8
  deriving DecidableEq, Repr

/-- The control registers that a thread holds (Table 1.2) and that are no view of another field. `gcp`, `priv` and
`intrap` are the held fields of STATUS; `statusMark` and `wstatMark` are the marks of STATUS and WSTAT. -/
structure Csrs where
  gcp : Bool
  priv : Bool
  intrap : Bool
  statusMark : Mark
  wstatMark : Mark
  cause : Tagged 64
  epc : Tagged 64
  aepc : Tagged 64
  faddr : Tagged 64
  finfo : Tagged 64
  tvec : Tagged 64
  evec : Tagged 64
  fflags : Tagged 64
  frm : Tagged 64
  cmark : Mark
  lwin : Tagged 64
  widb : Tagged 64
  mstep : Tagged 64
  shadows : Vector (Tagged 64) 7
  deriving DecidableEq, Repr

/-- One decoded E-side instruction waiting for issue (R31): its address and length, its place in program order, the
FINFO that R42 gives it, the x operands captured at decode (R32) and, for a REP or REPX, its pass count (R425). -/
structure EEntry where
  addr : Word
  len : Nat
  instr : Instr
  finfo : Word
  seq : Nat
  caps : List (Nat × Tagged 64)
  passes : Option Nat
  deriving DecidableEq, Repr

/-- The wheel (R19, R185 to R188): ACT, LEN, REPCNT and REPIX of WSTAT, the body entries, the address of the first,
the place in program order of the next entry to issue, the wheel mark WM. -/
structure Wheel where
  act : Bool
  len : Nat
  repcnt : Nat
  repix : Nat
  body : List EEntry
  waddr : Word
  place : Nat
  wm : Mark
  deriving DecidableEq, Repr

/-- The branch-outcome queue, oldest first, with its mark BQM (R20). -/
structure OutcomeQueue where
  outs : List Bool
  bqm : Mark
  deriving DecidableEq, Repr

/-- A register file that a value window names (Table 17.3). -/
inductive RegFile where
  | x | v | k
  deriving DecidableEq, Repr

/-- An open value window (R84): destination, the value and mark that readers in the window receive, and the places in
program order of the instruction that opened it and of the last instruction covered. -/
structure Window where
  file : RegFile
  reg : Nat
  old : Tagged 256
  start : Nat
  last : Nat
  deriving DecidableEq, Repr

/-- A window saved in a frame (Table 17.3): destination, the value that readers in the window receive (R84), stored
result, instructions left, and how many of the frame's E-side instructions stand before the one that opened it, which
the window does not cover. (DEDUCED, log entry 29.) -/
structure SavedWindow where
  file : RegFile
  reg : Nat
  old : Tagged 256
  result : Tagged 256
  left : Nat
  skip : Nat
  deriving DecidableEq, Repr

/-- A trap frame or resume frame (Table 17.3). `keys` names the slots whose marks a REPX that waits in it joins when its
passes begin (R188; DEDUCED, log entry 39). -/
structure Frame where
  valid : Bool
  eq : List Word
  rcnt : Nat
  rout : Bool
  prep : Bool
  pcnt : Nat
  wbody : Word
  wact : Bool
  wlen : Nat
  wrepcnt : Nat
  wrepix : Nat
  bq : OutcomeQueue
  windows : List SavedWindow
  keys : List Nat
  deriving DecidableEq, Repr

/-- A fault found on a fetched stream element (R176): cause, address and FINFO. -/
structure FetchFault where
  code : Nat
  addr : Word
  finfo : Word
  deriving DecidableEq, Repr

/-- An element that a read slot has fetched ahead (R176), or the fault recorded for it. -/
structure Fetched where
  bits : Nat
  mark : Mark
  fault : Option FetchFault
  deriving DecidableEq, Repr

/-- A stream slot (R172 to R176, Table 6.5); `daddr` is the address of the descriptor or image that opened it, which
R171 puts into FADDR. -/
structure Slot where
  opened : Bool
  wr : Bool
  vec : Bool
  indirect : Bool
  desc : BitVec 512
  daddr : Word
  pos : Nat
  sm : Mark
  fetched : List Fetched
  deriving DecidableEq, Repr

/-- A fibre slot (R191 to R196): the number of the current entry (its coordinate in bitmap form), its value index, its
coordinate. `seek` is the least coordinate still sought when a coordinate read has faulted ahead of its use (R193). -/
structure Fibre where
  opened : Bool
  desc : BitVec 512
  entry : Nat
  vidx : Nat
  coord : Nat
  seek : Option Nat
  ended : Bool
  pres : Bool
  err : Bool
  fm : Mark
  deriving DecidableEq, Repr

/-- A continuation record (Table 8.5). -/
structure ContRec where
  code : Word
  frame : Word
  join : BitVec 32
  flags : BitVec 32
  wid : Word
  succ : Word
  aff : Word
  arg0 : Word
  arg1 : Word
  deriving DecidableEq, Repr

/-- The continuation that a thread runs: its record as started, its home address with the unit whose space 00 that
address uses, its partition, and whether its successor decrements have been made. -/
structure Cont where
  record : ContRec
  home : Word
  unit : Nat
  part : Nat
  trigd : Bool
  deriving DecidableEq, Repr

/-- What a thread is doing (R433, Table 17.7). -/
inductive Run where
  | idle | running | parkedFault | parkedPre
  deriving DecidableEq, Repr

/-- A wait in progress on one side: KIND and INDEX of Table 11.14 (KIND 0 for a hold that is no blocked wait), the
partner, and when it began. -/
structure Wait where
  kind : Nat
  index : Nat
  unit : Nat
  chip : Nat
  since : Nat
  deriving DecidableEq, Repr

/-- What a thread still waits for after an instruction whose push has already happened: an event line (IXPOST with
SLEEP, R397) or a gate request (GATESUB with WAIT, R489); or for its end, which HTRES END began (R429). -/
inductive Hold where
  | line (n : Nat) (since : Nat)
  | gate (id : Nat) (since : Nat)
  | ending
  deriving DecidableEq, Repr

/-- Requests of the scheduler on a thread (R430 to R432): a milestone request that waits for its milestone, one whose
milestone has occurred, a safe-point request; `force` is when a deadline park is due. -/
structure Requests where
  pending : Bool
  milestone : Bool
  safe : Bool
  force : Option Nat
  deriving DecidableEq, Repr

/-- Answer of another package to a thread's remote request (R456). -/
inductive Answer where
  | data (val : Nat) (mark : Mark)
  | refused
  deriving DecidableEq, Repr

/-- A remote request that a thread has sent: when, to which chip, and the answer if it has come (R456). -/
structure RemoteWait where
  since : Nat
  chip : Nat
  answer : Option Answer
  deriving DecidableEq, Repr

/-- An XSEND that its checks have passed and that waits for PEND (R287): EPOCH at its issue, the source bytes' address and
location, the length, the destination, VSN, and the marks of its operands and its descriptor. -/
structure Sending where
  epoch : BitVec 16
  src : Word
  loc : Nat
  len : Nat
  dst : Word
  vsn : Bool
  mark : Mark
  deriving DecidableEq, Repr

/-- A hardware thread (R10, Table 17.7). -/
structure Thread where
  regs : Regs
  pc : Word
  csr : Csrs
  wheel : Wheel
  bq : OutcomeQueue
  /-- Instructions left in a BQB range, and whether they are suppressed (R162). -/
  rcnt : Nat
  rout : Bool
  equeue : List EEntry
  windows : List Window
  /-- Place in program order of the next instruction. -/
  seq : Nat
  slots : Vector Slot 4
  fibres : Vector Fibre 2
  pend : Bool
  lines : BitVec 64
  mailbox : List (Tagged 64)
  rowMask : Tagged 1024
  /-- Arrival records (R284): domain and epoch of the valid ones. -/
  arrivals : Table (BitVec 16)
  cont : Option Cont
  trapFrame : Frame
  resumeFrame : Frame
  run : Run
  lockLost : Bool
  aWait : Option Wait
  eWait : Option Wait
  hold : Option Hold
  reqs : Requests
  remote : Option RemoteWait
  /-- When an access of the scheduler for the thread's continuation found no answer (R456). -/
  asking : Option Nat
  /-- The XSEND of the thread that waits for PEND (R287). -/
  sending : Option Sending
  /-- The thread that the HTRES END or the MLREV of this thread acts on while it waits (R429, R437). -/
  target : Option ThreadId
  /-- The last value of TBASE that the thread read (R465). -/
  tread : Word
  deriving DecidableEq, Repr

/-- Where the instruction being executed issues from: the A-side (or decode, for what decode finds illegal), the
E-side straight from decode, the head of the E-queue, or the wheel. -/
inductive Source where
  | access | decode | queue | wheel
  deriving DecidableEq, Repr

/-- The instruction being executed: its address, its length in bytes, the FINFO of R42, where it issues from, its
captured operands, its place in program order. (DESIGN CHOICE, log entry 10.) -/
structure Latch where
  addr : Word
  len : Nat
  finfo : Word
  src : Source
  caps : List (Nat × Tagged 64)
  seq : Nat
  deriving DecidableEq, Repr

/-! ## Memory -/

/-- Memory: the listed bytes (strictly rising addresses, none of them zero), the marks of lines and blocks by the
location of their first byte (none of them zero), and the poisoned granules and blocks (R28, R304, R305, R446). -/
structure Memory where
  cells : List Host.Cell
  marks : Table Mark
  poison : List Nat
  deriving DecidableEq, Repr

/-- Where an address lies: a location of the package, virtual space, another package, or a control block. -/
inductive Target where
  | loc (l : Nat)
  | virt
  | remote (chip : Nat)
  | ctl (block off : Nat)
  deriving DecidableEq, Repr

/-- A leaf entry as an access uses it (Table 11.11): page size, TGT, physical address of the access, CEIL, CHIP, W,
level. -/
structure Leaf where
  size : Nat
  tgt : Nat
  pa : Nat
  ceil : Mark
  chip : Nat
  w : Bool
  level : Nat
  deriving DecidableEq, Repr

/-- A part of a virtual access within one page: its place in the access, its length, its leaf. -/
structure Piece where
  at_ : Nat
  len : Nat
  leaf : Leaf
  deriving DecidableEq, Repr

/-- A range of bytes as an engine holds it once its address has been translated: address, length, target, pages. -/
structure Region where
  addr : Word
  len : Nat
  target : Target
  pieces : List Piece
  deriving DecidableEq, Repr

/-! ## Clusters and engines -/

/-- The format context of a core's set (R379, R400, R433) with its save area. -/
structure FmtCtx where
  c : BitVec 17
  area : Word
  deriving DecidableEq, Repr

/-- A matrix result element with its mark (Table 14.6, R406). -/
structure ResultElem where
  word : Word
  mark : Mark
  deriving DecidableEq, Repr

/-- A recorded matrix fault (R386): the thread whose command failed, cause, address, STEP, SEQ, FINFO mark bits. -/
structure MatFault where
  thread : Nat
  code : Nat
  addr : Word
  step : Nat
  seq : Nat
  deriving DecidableEq, Repr

/-- What a core keeps for each context set beside the threads (R433, R434). -/
structure CtxSet where
  loaded : Bool
  gh : BitVec 16
  part : BitVec 6
  qrem : BitVec 32
  qremAt : Nat
  mark : Mark
  fmt : FmtCtx
  outb : Bool
  results : List ResultElem
  fault : Option MatFault
  deriving DecidableEq, Repr

/-- A core: the selected set and its four sets (R434, Table 17.8), the mark of CTXP, and the thread that each side last
took a turn of (R30). -/
structure CoreState where
  sel : Nat
  ctxpMark : Mark
  sets : Vector CtxSet 4
  lastA : Nat
  lastE : Nat
  deriving DecidableEq, Repr

/-- Where a copy is: queued, claiming a slot, moving, moved with its status known, or finished (R369, R370, Table 15.4). -/
inductive CopyPhase where
  | queued | waiting | moving | moved | done
  deriving DecidableEq, Repr

/-- A copy of a copy core or copy unit (R366 to R370): identifier, starting thread, latched shadows, M_L, LWIN and
partition as latched, phase, ST, BYTES, mark of the message, slot claimed and the destination base in it, whether a LOAD of its thread's set has hidden
its status (R434), and when a request of it found no answer (R456). -/
structure Copy where
  id : Nat
  thread : ThreadId
  shadows : Vector (BitVec 64) 7
  ml : Mark
  lwin : Word
  part : Nat
  phase : CopyPhase
  st : Nat
  bytes : Nat
  mark : Mark
  slot : Option (Nat × Word)
  hidden : Bool
  since : Option Nat
  deriving DecidableEq, Repr

/-- An indirect copy (R372 to R374). -/
structure Indirect where
  id : Nat
  thread : ThreadId
  base : Word
  ibase : Word
  pack : Word
  ctl : Word
  lwin : Word
  part : Nat
  mp : Mark
  phase : CopyPhase
  st : Nat
  count : Nat
  mark : Mark
  since : Option Nat
  deriving DecidableEq, Repr

/-- A command of a row unit (R376, R409): its number, the starting thread, direction, the selected rows and the packed
area as translated at issue, the header, event line, result mark, partition and LWIN, and when a request of it found no
answer (R456). -/
structure RowCmd where
  id : Nat
  thread : ThreadId
  store : Bool
  rows : List Region
  header : BitVec 1024
  packed : Region
  line : Nat
  mark : Mark
  part : Nat
  lwin : Word
  since : Option Nat
  deriving DecidableEq, Repr

/-- An engine marker (R410): the queue it stands in (0 copies, 1 indirect copies, 2 and 3 the matrix halves, 4 the row
unit), its thread and line, and the numbers of the earlier commands of the thread in that queue that had not completed
when it was pushed. -/
structure Marker where
  queue : Nat
  thread : ThreadId
  line : Nat
  ids : List Nat
  deriving DecidableEq, Repr

/-- The engines of a cluster or channel core: the copy core or copy unit with its identifier counter, its commands in
launch order and the status of its last 64 copies, the indirect engine, the row unit, and the markers. -/
structure Engines where
  copyNext : BitVec 16
  copies : List Copy
  copyHist : List Copy
  indNext : BitVec 16
  inds : List Indirect
  rows : List RowCmd
  rowSeq : Nat
  markers : List Marker
  deriving DecidableEq, Repr

/-- A matrix operand of an accepted command (R401): KIND 0 with its scratchpad offset and pitch, or KIND 1 with the
tile's number and its staged registers. -/
inductive MatSrc where
  | spad (offset pitch : Nat)
  | tile (tno : Nat) (rows : List (BitVec 256))
  deriving DecidableEq, Repr

/-- The A operand of a convolution (Table 15.7). -/
structure Conv where
  xbase : Nat
  nb : Nat
  h : Nat
  w : Nat
  cin : Nat
  fh : Nat
  fw : Nat
  sh : Nat
  sw : Nat
  ph : Nat
  pw : Nat
  dh : Nat
  dw : Nat
  p : Nat
  q : Nat
  m0 : Nat
  deriving DecidableEq, Repr

/-- A code table in one generation (R61, R62, R411): lengths, generation number, mark. -/
structure CodeTab where
  lens : List Nat
  gen : BitVec 16
  mark : Mark
  deriving DecidableEq, Repr

/-- An accepted matrix command (R381, R402): sequence number, thread, shapes, operands, format context and the four code
tables of a coded A and B as latched, ACC, its LWIN; then its progress: next step, accumulators, flags, the mark of R387
so far, OUTB, a fault met, and the lines of A and B that met poison. -/
structure MatCmd where
  seq : BitVec 32
  thread : ThreadId
  m : Nat
  n : Nat
  k : Nat
  a : MatSrc
  b : MatSrc
  cOff : Nat
  cPitch : Nat
  conv : Option Conv
  fmt : FmtCtx
  tabsA : List CodeTab
  tabsB : List CodeTab
  acc : Bool
  lwin : Word
  step : Nat
  sums : List (BitVec 32)
  flags : BitVec 5
  mark : Mark
  outb : Bool
  fault : Option (Nat × Word)
  badA : List Nat
  badB : List Nat
  deriving DecidableEq, Repr

/-- A finished command whose flags MDRAIN has not merged yet (R404). -/
structure Drained where
  thread : Nat
  flags : BitVec 5
  mark : Mark
  deriving DecidableEq, Repr

/-- One half of a matrix unit (R378 to R383, Table 14.7): the lease (thread, commands left), the waiting requests in
order, how often each was passed over, the queue, counters, finished commands not yet drained, and the work that a
revocation saved for a thread. -/
structure Half where
  lease : Option (ThreadId × Nat)
  lastHolder : Option ThreadId
  requests : List (ThreadId × Nat)
  queue : List MatCmd
  seqNext : BitVec 32
  doneCnt : BitVec 32
  drained : List Drained
  saved : List (ThreadId × List MatCmd)
  deriving DecidableEq, Repr

/-- A circular buffer (Tables 11.8, 11.9, R310, R311): CBCFG, a held write, the CBSTAT counters, slots marked
published or released, operations of engines not yet performed, and the waiting claimers and takers with what they
were granted. -/
structure CircBuf where
  cfg : Word
  heldCfg : Option Word
  free : Nat
  filled : Nat
  pclm : Nat
  ctake : Nat
  ppend : Nat
  cheld : Nat
  published : List Nat
  released : List Nat
  ops : List (Bool × Nat)
  claimers : List (Nat × Option Nat)
  takers : List (Nat × Option Nat)
  deriving DecidableEq, Repr

/-- A held lock bit (R308): holder and count; the waiting threads in order of issue. -/
structure LockBit where
  holder : Option (Nat × Nat)
  waiters : List Nat
  deriving DecidableEq, Repr

/-- One live cell of a versioned word (R313): which of the two it is, its version and its value. Cell 0 is the word's
bytes in the window; cell 1 lies in the shadow store. -/
structure VCell where
  shadow : Bool
  ver : BitVec 16
  val : Word
  deriving DecidableEq, Repr

/-- A versioned request that waits at its word's home: the requester, a thread (by key), a send (by its number), or
another package, which only stores; whether it came through the unit's remote request agent (R315); what it asks, and what
it was given. -/
structure VReq where
  who : Option Nat
  far : Bool
  store : Bool
  loc : Nat
  ver : BitVec 16
  val : Tagged 64
  part : Nat
  result : Option (Tagged 64)
  failed : Option Mark
  deriving DecidableEq, Repr

/-- An entry of a work-sharing queue (R236, R291). -/
structure Share where
  gh : BitVec 16
  lo : Word
  hi : Word
  chunk : Nat
  mark : Mark
  deriving DecidableEq, Repr

/-- The header and payload of an operand tile (Table 9.2, R240): `bad` holds the offsets of its poisoned granules (R446),
`removal` the KIND with which it is to be written back (R257, R258, R266). -/
structure Tile where
  tag : BitVec 16
  need : Nat
  lap : Nat
  fmt : BitVec 4
  home : Nat
  seq : BitVec 16
  src : Nat
  mark : Mark
  payload : List Host.Cell
  bad : List Nat
  removal : Option Nat
  deriving DecidableEq, Repr

/-- A junction-table entry (R246). -/
structure Junction where
  valid : Bool
  etag : BitVec 16
  wtag : BitVec 16
  template : ContRec
  mark : Mark
  fires : Nat
  misses : Nat
  deriving DecidableEq, Repr

/-- A captured pair on its way into a pair slot, and when its meeting fired (R247, R248). -/
structure Capture where
  slot : Nat
  at_ : Nat
  entry : Nat
  e : Tile
  w : Tile
  template : ContRec
  mark : Mark
  deriving DecidableEq, Repr

/-- An RINJ in progress (R262): its thread's key, its direction, and when its read began. -/
structure Inject where
  who : Nat
  east : Bool
  since : Option Nat
  deriving DecidableEq, Repr

/-- A ring stop: RSTOP with a held write, resident tiles, injection queues and the injections in progress, junction table,
captures and the end of the last copy, the pair slots in use with the line of the record that each serves, recovery queue,
parked tiles, bypass (R241, R246 to R253, R257, R259). -/
structure Stop where
  rstop : Word
  held : Option Word
  e : Option Tile
  w : Option Tile
  injE : List Tile
  injW : List Tile
  rinjs : List Inject
  junctions : Table Junction
  captures : List Capture
  copied : Nat
  slots : List (Nat × Nat)
  recovery : List (Tagged 64)
  parkE : Option Tile
  parkW : Option Tile
  bypass : Bool
  deriving DecidableEq, Repr

/-- A cluster. -/
structure Cluster where
  ceil0 : BitVec 16
  ceil1 : BitVec 16
  vwcfg : Table Word
  cbs : Table CircBuf
  locks : Table LockBit
  vcells : Table (List VCell)
  vreqs : List VReq
  tabs : Table CodeTab
  oldTabs : List (Nat × CodeTab)
  half0 : Half
  half1 : Half
  shares : List Share
  stop : Stop
  deriving DecidableEq, Repr

/-- A ring segment (Table 9.3, R244, R256, R265): `parkReq` asks for its park (R257), `force` for the removal of its
tiles at the next boundary (R266), `beatAt` is the time of that boundary, none while the beat counter stands. -/
structure Segment where
  owner : BitVec 16
  en : Bool
  parked : Bool
  laplim : BitVec 4
  held : Option Word
  beat : Nat
  seq : BitVec 16
  injected : BitVec 32
  retired : BitVec 32
  fired : BitVec 32
  missed : BitVec 32
  recovered : BitVec 32
  mark : Mark
  parkReq : Bool
  force : Bool
  beatAt : Option Nat
  deriving DecidableEq, Repr

/-- An RDRAIN in progress (R266): its thread's key, its segment, and the fired counter and segment mark as EN fell. -/
structure Drain where
  who : Nat
  seg : Nat
  fell : Option (Tagged 32)
  deriving DecidableEq, Repr

/-- The ring control of a quadrant (Table 9.1), and the RDRAINs in progress. -/
structure Quadrant where
  seg : BitVec 2
  held : Option (BitVec 2)
  segs : Vector Segment 4
  drains : List Drain
  deriving DecidableEq, Repr

/-! ## Scheduler -/

/-- A record in a ready queue (R226, R228): record, home with the unit whose space 00 it uses, partition, time of entry
at its level. -/
structure Ready where
  record : ContRec
  home : Word
  unit : Nat
  part : Nat
  since : Nat
  deriving DecidableEq, Repr

/-- A ready queue: four levels, oldest first, and of each level the spill area that QSET gave and the number of records
that have gone to it (R226, R443); `asking` is when a spill area found no answer (R456). -/
structure ReadyQueue where
  levels : Vector (List Ready) 4
  spill : Vector Word 4
  spilled : Vector Nat 4
  asking : Option Nat
  deriving DecidableEq, Repr

/-- A launch in a launch queue or the gang assembly area (R214, R215): record, number, channel, priority, time of
arrival at that priority. -/
structure QLaunch where
  record : BitVec 1024
  num : BitVec 32
  channel : Option Nat
  pri : Nat
  since : Nat
  deriving DecidableEq, Repr

/-- A launch in service (R218, R230): its record, number, channel, groups placed, groups ended, the groups whose
completion bit could not be set (R525), whether its completion has been posted, and when its first continuation
started. -/
structure Launch where
  record : BitVec 1024
  num : BitVec 32
  part : Nat
  channel : Option Nat
  placed : Nat
  ended : Nat
  lost : List Nat
  completed : Bool
  firstAt : Option Nat
  deriving DecidableEq, Repr

/-- The place of one thread of a group: core, context set, hardware thread, first 64-byte unit and units of its local
part. -/
structure Place where
  unit : Nat
  set : Nat
  ht : Nat
  lbase : Nat
  llen : Nat
  deriving DecidableEq, Repr

/-- The range of a group in one cluster: first line, lines, versioned lines (R219). -/
structure SpadRange where
  cluster : Nat
  base : Nat
  len : Nat
  vlen : Nat
  deriving DecidableEq, Repr

/-- A group that holds its reservation (R218 to R220, R229). `launch` is the key of its launch; `sent` lists the threads
whose initial record is enqueued, until all are (R214); `asking` is when an access of the scheduler for the group found no
answer (R456). -/
structure Group where
  launch : Nat
  index : Nat
  part : Nat
  first : Nat
  cores : Nat
  places : List Place
  ranges : List SpadRange
  live : Nat
  sent : List Nat
  enqueued : Bool
  safeTable : List (Word × BitVec 32 × BitVec 32)
  hasTable : Bool
  milestoneReq : Bool
  deadlinePosted : Bool
  asking : Option Nat
  deriving DecidableEq, Repr

/-- A successor decrement on its way (R225): the record's address, the mark it joins, the unit where it arose, and the
partition; `unit` is the one whose space 00 its address lies in, `since` is when its request found no answer (R456). -/
structure Decrement where
  addr : Word
  mark : Mark
  source : Nat
  part : Nat
  lwin : Word
  unit : Nat
  since : Option Nat
  deriving DecidableEq, Repr

/-- The bytes of an XSEND on their way (R288), with a number of its own: those that have still to be written, the count
that PEND carries, and when its request to another package found no answer (R456). -/
structure Send where
  id : Nat
  thread : ThreadId
  part : Nat
  dom : Nat
  epoch : BitVec 16
  vsn : Bool
  dst : Word
  count : Nat
  data : List Byte
  mark : Mark
  since : Option Nat
  deriving DecidableEq, Repr

/-- A barrier domain (Table 8.9, R233, R283, R285). -/
structure Domain where
  dcfg : Word
  held : Option Word
  epoch : BitVec 16
  pend : Nat
  arr : Nat
  mtb : Word
  mtbNow : Option Nat
  vote : Bool
  voteMark : Mark
  lastVote : Word
  lastVoteMark : Mark
  deriving DecidableEq, Repr

/-- A gang being assembled (R217). -/
structure Gang where
  id : BitVec 32
  since : Nat
  members : List QLaunch
  deriving DecidableEq, Repr

/-- A use entry of the release gate (R488). -/
structure UseEntry where
  hash : BitVec 256
  used : Nat
  expiry : Word
  deriving DecidableEq, Repr

/-- A translation that a cache slice holds (R318): the partition, the slice, the page and its leaf entry. -/
structure Xlat where
  part : Nat
  slice : Nat
  vbase : Nat
  size : Nat
  leaf : Word
  deriving DecidableEq, Repr

/-- A partition (R439 to R443, R463, R475, R488). -/
structure Partition where
  base : Nat
  len : Nat
  queue : List QLaunch
  nextNum : BitVec 32
  gangs : List Gang
  domains : Table Domain
  troot : Word
  wdexp : BitVec 6
  slots : Table Word
  porig : Word
  heldSlots : List (Nat × Word)
  sgid : BitVec 16
  recBase : Word
  recLen : Word
  recMode : BitVec 2
  recPos : Nat
  recFull : Bool
  recUsed : List Nat
  /-- Entries that the region has not taken yet, with their positions, and when it found no answer (R473, R456). -/
  recHeld : List (Nat × List Byte × Mark)
  recSince : Option Nat
  replayStart : Option (Nat × Word)
  minbw : BitVec 16
  bwclass : BitVec 2
  ovBase : Option Word
  ovCount : Nat
  ovHeld : List (List Byte × Mark)
  /-- When the overflow area found no answer (R456). -/
  ovSince : Option Nat
  uses : List UseEntry
  deriving DecidableEq, Repr

/-! ## Dies, host, security, power -/

/-- An event record on its way to a DCP event queue (R428, Table 17.5): the 64 bytes as one number, its mark. -/
structure DcpRec where
  word : BitVec 512
  mark : Mark
  source : Nat
  deriving DecidableEq, Repr

/-- A die: the DCP event queue (placed or not, base, records, next slot), the waiting records in order, PWRST and the
thermal limit (Table 22.1, R517), when its frequency last changed, and when a matrix unit of it last ran. -/
structure Die where
  evPlaced : Bool
  evBase : Word
  evLen : Nat
  evNext : Nat
  waiting : List DcpRec
  fclk : BitVec 11
  why : BitVec 3
  thermal : Option (BitVec 11)
  freqAt : Option Nat
  thermAt : Option Nat
  mxuAt : Option Nat
  deriving DecidableEq, Repr

/-- A host event waiting in the engine (Table 19.5). -/
structure HostEvent where
  head : Word
  detail : Word
  tbase : Word
  mark : Mark
  deriving DecidableEq, Repr

/-- A channel page (Tables 19.1, 19.2); `since` is when an access of its first command found no answer (R456). -/
structure Channel where
  chcfg : Word
  evbase : Word
  evlen : Word
  evhead : BitVec 32
  evtail : BitVec 32
  cmds : List (BitVec 512)
  events : List HostEvent
  qfull : Bool
  since : Option Nat
  deriving DecidableEq, Repr

/-- A request in the release gate (R486 to R490); `since` is when an access of it found no answer (R456). -/
structure GateReq where
  id : Nat
  thread : ThreadId
  part : Nat
  req : BitVec 256
  lwin : Word
  mg : Mark
  line : Option Nat
  since : Option Nat
  deriving DecidableEq, Repr

/-- A finished request of the gate (Table 20.7). -/
structure GateDone where
  id : Nat
  part : Nat
  st : Nat
  slot : Nat
  bytes : Nat
  mark : Mark
  deriving DecidableEq, Repr

/-- The release gate. -/
structure Gate where
  next : BitVec 16
  queue : List GateReq
  hist : List GateDone
  deriving DecidableEq, Repr

/-- An entry of the key store (Table 21.5). -/
structure KeyEntry where
  x : BitVec 256
  y : BitVec 256
  v : Bool
  deriving DecidableEq, Repr

/-- The security core's own registers (Table 21.1). `lcs` is the lifecycle byte if it has advanced since
manufacture; `nonceIx` is the number of the draw that DBGNONCE holds, unless
the external debugger has written it (`nonceSet`). -/
structure Sec where
  doorbells : List (Tagged 64)
  wiped : Bool
  dbg : Bool
  halted : Bool
  nonceIx : Nat
  nonceSet : Option Word
  meas : Vector (BitVec 256) 8
  keys : Table KeyEntry
  lcs : Option (BitVec 8)
  debugOut : BitVec 256
  deriving DecidableEq, Repr

/-- Which side of a thread, or which machine step, moves next (DESIGN CHOICE, log entry 2). -/
inductive Turn where
  | access (t : ThreadId)
  | execute (t : ThreadId)
  | hold (t : ThreadId)
  | event (i : Instr)
  | correct (add : Bool)
  | sync
  | idle
  deriving DecidableEq, Repr

/-- A turn together with the ticks that pass with it, and whether an E-side instruction that decode finds is left in
the E-queue. -/
structure Slate where
  turn : Turn
  ticks : Nat
  defer : Bool
  deriving DecidableEq, Repr

/-- The package-wide registers (R453, R455, R463, R515, R520) and the clock. -/
structure Package where
  pchip : BitVec 19
  sysn : Nat
  failed : List Nat
  tmaster : BitVec 19
  tbaseOff : Word
  corrAt : Option Nat
  /-- When the last synchronisation flit of the time master arrived (R466). -/
  syncAt : Nat
  locked : Bool
  pcap : BitVec 16
  devst : BitVec 8
  stopped : Bool
  portsUp : BitVec 16
  retired : List Nat
  spared : List Nat
  softAt : Table Nat
  smbus : Word
  resets : Nat
  nextLaunch : Nat
  deriving DecidableEq, Repr

/-- The state of a package. -/
structure State where
  threads : Table Thread
  cur : ThreadId
  latch : Latch
  agenda : List Slate
  now : Nat
  /-- The turn of the current tick that the default schedule gives next (DESIGN CHOICE, log entry 2). -/
  rota : Nat
  free : Nat
  code : List Host.Cell
  mem : Memory
  cores : Table CoreState
  clusters : Table Cluster
  engines : Table Engines
  quads : Table Quadrant
  ready : Table ReadyQueue
  parts : Table Partition
  launches : Table Launch
  groups : Table Group
  decs : List Decrement
  sends : List Send
  mails : List (ThreadId × Tagged 64 × Option Nat)
  dies : Table Die
  channels : Table Channel
  /-- The translations that the cache slices hold, the oldest of each slice first (R318). -/
  xlats : List Xlat
  gate : Gate
  sec : Sec
  pkg : Package
  deriving DecidableEq, Repr

/-- Why the machine stops with a fault. -/
inductive Fault where
  /-- Raised by `step` when the agenda gives the turn to a thread or an engine while every arithmetic clock of the
  package is stopped, after a thermal trip (R517): only a reset, the host and the management port act then. Safe: no
  state follows. -/
  | clocksStopped
  deriving DecidableEq, Repr

/-- Why an instruction has no meaning. -/
inductive Refusal where
  /-- Raised by `exec` for a constructor that has no meaning yet. Safe: no state follows. -/
  | notModelled (mnemonic : String)
  deriving DecidableEq, Repr

/-! ## Values after reset -/

/-- A register value with mark 0x0000. -/
def plain {w : Nat} (v : BitVec w) : Tagged w := ⟨v, 0⟩

/-- The register files at reset (R11; DESIGN CHOICE, log entry 1). -/
def Regs.fresh : Regs :=
  { x := Vector.replicate 32 (plain 0)
    v := Vector.replicate 32 (plain 0)
    k := (Vector.replicate 8 (plain 0)).set 0 (plain 0xFFFFFFFF) }

/-- The control registers at reset (Tables 1.3 to 1.10; DESIGN CHOICE, log entry 1). -/
def Csrs.fresh : Csrs :=
  { gcp := false, priv := true, intrap := false, statusMark := 0, wstatMark := 0
    cause := plain 0, epc := plain 0, aepc := plain 0, faddr := plain 0, finfo := plain 0
    tvec := plain 0, evec := plain 0, fflags := plain 0, frm := plain 0, cmark := 0
    lwin := plain 0x8000000080000000, widb := plain 0, mstep := plain 0
    shadows := Vector.replicate 7 (plain 0) }

/-- An empty frame (R424). -/
def Frame.empty : Frame :=
  { valid := false, eq := [], rcnt := 0, rout := false, prep := false, pcnt := 0, wbody := 0
    wact := false, wlen := 0, wrepcnt := 0, wrepix := 0, bq := ⟨[], 0⟩, windows := [], keys := [] }

/-- A closed stream slot. -/
def Slot.closed : Slot :=
  { opened := false, wr := false, vec := false, indirect := false, desc := 0, daddr := 0, pos := 0, sm := 0
    fetched := [] }

/-- A closed fibre slot. -/
def Fibre.closed : Fibre :=
  { opened := false, desc := 0, entry := 0, vidx := 0, coord := 0, seek := none, ended := false, pres := false, err := false
    fm := 0 }

/-- An empty wheel. -/
def Wheel.empty : Wheel :=
  { act := false, len := 0, repcnt := 0, repix := 0, body := [], waddr := 0, place := 0, wm := 0 }

/-- No request. -/
def Requests.none : Requests := ⟨false, false, false, .none⟩

/-- A hardware thread after reset: idle, every register at its reset value. -/
def Thread.fresh : Thread :=
  { regs := Regs.fresh, pc := 0, csr := Csrs.fresh, wheel := Wheel.empty, bq := ⟨[], 0⟩, rcnt := 0, rout := false
    equeue := [], windows := [], seq := 1, slots := Vector.replicate 4 Slot.closed
    fibres := Vector.replicate 2 Fibre.closed, pend := false, lines := 0, mailbox := [], rowMask := plain 0
    arrivals := [], cont := none, trapFrame := Frame.empty, resumeFrame := Frame.empty, run := .idle
    lockLost := false, aWait := none, eWait := none, hold := none, reqs := Requests.none, remote := none
    asking := none, sending := none, target := none, tread := 0 }

/-- A context set after reset (R434). -/
def CtxSet.fresh (loaded : Bool) : CtxSet :=
  { loaded := loaded, gh := 0, part := 0, qrem := 0, qremAt := 0, mark := 0, fmt := ⟨0, 0⟩, outb := false
    results := [], fault := none }

/-- A core after reset: set 0 selected and loaded (Table 17.8). -/
def CoreState.fresh : CoreState :=
  { sel := 0, ctxpMark := 0
    sets := (Vector.replicate 4 (CtxSet.fresh false)).set 0 (CtxSet.fresh true), lastA := 3, lastE := 3 }

/-- The engines of a cluster or channel core after reset (R366, R374). -/
def Engines.fresh : Engines :=
  { copyNext := 0, copies := [], copyHist := [], indNext := 0, inds := [], rows := [], rowSeq := 0, markers := [] }

/-- A matrix half after reset (Table 14.5). -/
def Half.fresh : Half :=
  { lease := none, lastHolder := none, requests := [], queue := [], seqNext := 0, doneCnt := 0, drained := []
    saved := [] }

/-- A ring stop after reset (Table 9.4). -/
def Stop.fresh : Stop :=
  { rstop := 0, held := none, e := none, w := none, injE := [], injW := [], rinjs := [], junctions := [], captures := []
    copied := 0, slots := [], recovery := [], parkE := none, parkW := none, bypass := false }

/-- A cluster after reset (Tables 11.7 to 11.10). -/
def Cluster.fresh : Cluster :=
  { ceil0 := 0xFFFF, ceil1 := 0xFFFF, vwcfg := [], cbs := [], locks := [], vcells := [], vreqs := [], tabs := []
    oldTabs := [], half0 := Half.fresh, half1 := Half.fresh, shares := [], stop := Stop.fresh }

/-- A circular buffer after reset. -/
def CircBuf.fresh : CircBuf :=
  { cfg := 0, heldCfg := none, free := 0, filled := 0, pclm := 0, ctake := 0, ppend := 0, cheld := 0
    published := [], released := [], ops := [], claimers := [], takers := [] }

/-- A code table after reset (R61): every E4M3 length 4, every E5M2 length 5, generation 0. -/
def CodeTab.fresh (e5m2 : Bool) : CodeTab :=
  if e5m2 then ⟨List.replicate 32 5, 0, 0⟩ else ⟨List.replicate 16 4, 0, 0⟩

/-- A ring segment after reset (Table 9.3). -/
def Segment.fresh : Segment :=
  { owner := 0, en := false, parked := false, laplim := 2, held := none, beat := 0, seq := 0, injected := 0
    retired := 0, fired := 0, missed := 0, recovered := 0, mark := 0, parkReq := false, force := false
    beatAt := none }

/-- A quadrant after reset (Table 9.1). -/
def Quadrant.fresh : Quadrant :=
  { seg := 0, held := none, segs := Vector.replicate 4 Segment.fresh, drains := [] }

/-- An empty ready queue. -/
def ReadyQueue.fresh : ReadyQueue :=
  { levels := Vector.replicate 4 [], spill := Vector.replicate 4 0, spilled := Vector.replicate 4 0, asking := none }

/-- A barrier domain after reset (Table 8.9). -/
def Domain.fresh : Domain :=
  { dcfg := 0, held := none, epoch := 0, pend := 0, arr := 0, mtb := 0, mtbNow := none, vote := true
    voteMark := 0, lastVote := 0, lastVoteMark := 0 }

/-- A partition after reset (Tables 11.12, 11.13, 20.1, 20.2, R442, R455). -/
def Partition.fresh : Partition :=
  { base := 0, len := 0, queue := [], nextNum := 0, gangs := [], domains := [], troot := 0, wdexp := 0x1E
    slots := [], porig := 0, heldSlots := [], sgid := 0, recBase := 0, recLen := 0, recMode := 0, recPos := 0
    recFull := false, recUsed := [], recHeld := [], recSince := none, replayStart := none, minbw := 0, bwclass := 0
    ovBase := none, ovCount := 0, ovHeld := [], ovSince := none, uses := [] }

/-- A die after reset (Table 22.1). -/
def Die.fresh : Die :=
  { evPlaced := false, evBase := 0, evLen := 0, evNext := 0, waiting := [], fclk := 0x44C, why := 0
    thermal := none, freqAt := none, thermAt := none, mxuAt := none }

/-- A channel page after reset (Tables 19.1, 19.2). -/
def Channel.fresh (chcfg : Word) : Channel :=
  { chcfg := chcfg, evbase := 0, evlen := 0, evhead := 0, evtail := 0, cmds := [], events := [], qfull := false
    since := none }

/-- The security core's registers after the n-th reset (R497). -/
def Sec.fresh (n : Nat) (lcs : Option (BitVec 8)) : Sec :=
  { doorbells := [], wiped := false, dbg := false, halted := false, nonceIx := n, nonceSet := none, meas := Vector.replicate 8 0
    keys := [], lcs := lcs, debugOut := 0 }

/-- The package registers after the n-th reset (R453, R455, R519). -/
def Package.fresh (n : Nat) : Package :=
  { pchip := 0, sysn := 1, failed := [], tmaster := 0, tbaseOff := 0, corrAt := none, syncAt := 0
    locked := true, pcap := 2000, devst := 0x01
    stopped := false, portsUp := 0, retired := [], spared := [], softAt := [], smbus := 0, resets := n
    nextLaunch := 0 }

/-- The latch before the first instruction. -/
def Latch.empty : Latch :=
  { addr := 0, len := 0, finfo := 0, src := .access, caps := [], seq := 1 }

/-- The package right after reset (R455, R518, R519): bring-up is about to run its first stage. Partition 0 covers the
whole package and channel 0 is enabled (Tables 17.10, 19.2). -/
def State.reset : State :=
  { threads := [], cur := ⟨0, 0, 0⟩, latch := Latch.empty, agenda := [], now := 0, rota := 0, free := 0, code := []
    mem := ⟨[], [], []⟩, cores := [], clusters := [], engines := [], quads := [], ready := []
    parts := [(0, { Partition.fresh with len := 4096 })]
    launches := [], groups := [], decs := [], sends := [], mails := [], dies := []
    channels := [(0, Channel.fresh 0x1D)], xlats := [], gate := ⟨0, [], []⟩, sec := Sec.fresh 0 none, pkg := Package.fresh 0 }

end Sys2Proof.Machine
end

