-- ==== Sys2Proof/Machine/Bits.lean ====
section
/-! DEFINITION. Bits, fields, bytes and lists: the small arithmetic every other file uses. -/

namespace Sys2Proof.Machine

open Sys2Proof

/-- Bits [hi:lo] of a number. -/
def bits (x hi lo : Nat) : Nat := x / 2 ^ lo % 2 ^ (hi + 1 - lo)

/-- Bit i of a number. -/
def bit (x i : Nat) : Bool := x / 2 ^ i % 2 == 1

/-- Bits [hi:lo] of a word, as a number. -/
def field (x : Word) (hi lo : Nat) : Nat := bits x.toNat hi lo

/-- A word from a number, modulo 2^64. -/
abbrev word (n : Nat) : Word := BitVec.ofNat 64 n

/-- 1 for true, 0 for false. -/
def b2n (b : Bool) : Nat := if b then 1 else 0

/-- The word with bits [hi:lo] replaced by v. -/
def setField (x : Word) (hi lo v : Nat) : Word :=
  word (x.toNat - field x hi lo * 2 ^ lo + v % 2 ^ (hi + 1 - lo) * 2 ^ lo)

/-- The low n bits of v read as a signed integer (Table 1.12). -/
def sint (n v : Nat) : Int :=
  let u := v % 2 ^ n
  if 2 * u < 2 ^ n then (u : Int) else (u : Int) - (2 ^ n : Nat)

/-- An integer modulo 2^n. -/
def wrap (n : Nat) (v : Int) : Nat := (v % ((2 ^ n : Nat) : Int)).toNat

/-- SignExt(v, n) of Table 1.12, to 64 bits. -/
def signExt (v n : Nat) : Word := word (wrap 64 (sint n v))

/-- The little-endian number of a list of bytes. -/
def ofBytes : List Byte → Nat
  | [] => 0
  | b :: t => b.toNat + 256 * ofBytes t

/-- The n low bytes of a number, least significant first (R3). -/
def toBytes : Nat → Nat → List Byte
  | 0, _ => []
  | n + 1, v => BitVec.ofNat 8 v :: toBytes n (v / 256)

/-- The number whose 64-bit words are listed, the first lowest. -/
def ofWords : List Nat → Nat
  | [] => 0
  | w :: t => w % 2 ^ 64 + 2 ^ 64 * ofWords t

/-- Number of set bits among the low n. -/
def popcount : Nat → Nat → Nat
  | 0, _ => 0
  | n + 1, v => v % 2 + popcount n (v / 2)

/-- Number of bits of a number: 0 for 0, otherwise one more than the place of its leading one. -/
def bitLen (v : Nat) : Nat := if v = 0 then 0 else Nat.log2 v + 1

/-- Number of trailing zero bits among n, n for zero. -/
def ctz : Nat → Nat → Nat
  | 0, _ => 0
  | n + 1, v => if v % 2 = 1 then 0 else 1 + ctz n (v / 2)

/-- The low n bits in reverse order. -/
def bitRev : Nat → Nat → Nat
  | 0, _ => 0
  | n + 1, v => v % 2 * 2 ^ n + bitRev n (v / 2)

/-- Whether every multiple of `n` bits below is aligned: address a is a multiple of n. -/
def aligned (a n : Nat) : Bool := a % n == 0

/-- Join of a list of marks. -/
def joins (ms : List Mark) : Mark := ms.foldl (· ||| ·) 0

/-- The element of a list, or a default. -/
def nth {α : Type} (l : List α) (n : Nat) (d : α) : α := l.getD n d

/-- The list with element n replaced; unchanged when n is out of range. -/
def setNth {α : Type} : List α → Nat → α → List α
  | [], _, _ => []
  | _ :: t, 0, a => a :: t
  | x :: t, n + 1, a => x :: setNth t n a

/-- The list without element n. -/
def dropNth {α : Type} : List α → Nat → List α
  | [], _ => []
  | _ :: t, 0 => t
  | x :: t, n + 1 => x :: dropNth t n

/-- Place of the first element that meets a test. -/
def place {α : Type} (p : α → Bool) : List α → Option Nat
  | [] => none
  | a :: t => if p a then some 0 else (place p t).map (· + 1)

/-- The lowest number below n that meets a test. -/
def firstNat (n : Nat) (p : Nat → Bool) : Option Nat := (List.range n).find? p

/-- Numbers a, a + 1, …, a + n - 1. -/
def span (a n : Nat) : List Nat := (List.range n).map (a + ·)

/-- The multiples of g whose g-byte line meets [a, a + n). -/
def linesOf (a n g : Nat) : List Nat :=
  if n = 0 then [] else (span (a / g) ((a + n - 1) / g + 1 - a / g)).map (· * g)

/-- Lane i of width w of a register value (R12). -/
def lane {n : Nat} (v : BitVec n) (w i : Nat) : Nat := v.toNat / 2 ^ (w * i) % 2 ^ w

/-- The value whose lanes of width w are the listed numbers, lane 0 first. -/
def ofLanes (n w : Nat) (l : List Nat) : BitVec n :=
  BitVec.ofNat n (l.foldr (fun x acc => x % 2 ^ w + 2 ^ w * acc) 0)

/-- All lanes of width w of a register value, lane 0 first. -/
def toLanes {n : Nat} (v : BitVec n) (w : Nat) : List Nat := (List.range (n / w)).map (lane v w)

end Sys2Proof.Machine
end

