-- ==== Sys2Proof/Machine/Crypto.lean ====
section
/-! DEFINITION. The cryptography that the SEC and the release gate name (R485, R497, R506): SHA-256 of FIPS 180-4, the
P-256 curve with ECDSA of FIPS 186-5, and the deterministic k of RFC 6979. The spec cites these standards and does not
repeat them (PRESUMED, log entry 21). A byte string of 32 bytes stands as the number whose big-endian bytes it is. -/

namespace Sys2Proof.Machine

open Sys2Proof

/-! ## Byte strings -/

/-- The n big-endian bytes of a number. -/
def beBytes (n v : Nat) : List Byte := (toBytes n v).reverse

/-- The number whose big-endian bytes are listed. -/
def ofBe (bs : List Byte) : Nat := ofBytes bs.reverse

/-- Word i of a 32-byte string as an 8-byte read returns it (R496). -/
def strWord (v : BitVec 256) (i : Nat) : Word := word (ofBytes (((beBytes 32 v.toNat).drop (8 * i)).take 8))

/-- A 32-byte string with word i replaced. -/
def strPut (v : BitVec 256) (i : Nat) (w : Word) : BitVec 256 :=
  let bs := beBytes 32 v.toNat
  BitVec.ofNat 256 (ofBe (bs.take (8 * i) ++ toBytes 8 w.toNat ++ bs.drop (8 * i + 8)))

/-! ## SHA-256 -/

/-- The round constants. -/
def shaK : List (BitVec 32) :=
  [0x428A2F98, 0x71374491, 0xB5C0FBCF, 0xE9B5DBA5, 0x3956C25B, 0x59F111F1, 0x923F82A4, 0xAB1C5ED5] ++
  [0xD807AA98, 0x12835B01, 0x243185BE, 0x550C7DC3, 0x72BE5D74, 0x80DEB1FE, 0x9BDC06A7, 0xC19BF174] ++
  [0xE49B69C1, 0xEFBE4786, 0x0FC19DC6, 0x240CA1CC, 0x2DE92C6F, 0x4A7484AA, 0x5CB0A9DC, 0x76F988DA] ++
  [0x983E5152, 0xA831C66D, 0xB00327C8, 0xBF597FC7, 0xC6E00BF3, 0xD5A79147, 0x06CA6351, 0x14292967] ++
  [0x27B70A85, 0x2E1B2138, 0x4D2C6DFC, 0x53380D13, 0x650A7354, 0x766A0ABB, 0x81C2C92E, 0x92722C85] ++
  [0xA2BFE8A1, 0xA81A664B, 0xC24B8B70, 0xC76C51A3, 0xD192E819, 0xD6990624, 0xF40E3585, 0x106AA070] ++
  [0x19A4C116, 0x1E376C08, 0x2748774C, 0x34B0BCB5, 0x391C0CB3, 0x4ED8AA4A, 0x5B9CCA4F, 0x682E6FF3] ++
  [0x748F82EE, 0x78A5636F, 0x84C87814, 0x8CC70208, 0x90BEFFFA, 0xA4506CEB, 0xBEF9A3F7, 0xC67178F2]

/-- The initial hash value. -/
def shaInit : List (BitVec 32) := [0x6A09E667, 0xBB67AE85, 0x3C6EF372, 0xA54FF53A, 0x510E527F, 0x9B05688C, 0x1F83D9AB, 0x5BE0CD19]

/-- The eight working variables of a round. -/
structure ShaVars where
  a : BitVec 32
  b : BitVec 32
  c : BitVec 32
  d : BitVec 32
  e : BitVec 32
  f : BitVec 32
  g : BitVec 32
  h : BitVec 32
  deriving DecidableEq, Repr

/-- One round with its constant and schedule word. -/
def ShaVars.round (v : ShaVars) (k w : BitVec 32) : ShaVars :=
  let s1 := v.e.rotateRight 6 ^^^ v.e.rotateRight 11 ^^^ v.e.rotateRight 25
  let ch := (v.e &&& v.f) ^^^ (~~~v.e &&& v.g)
  let t1 := v.h + s1 + ch + k + w
  let s0 := v.a.rotateRight 2 ^^^ v.a.rotateRight 13 ^^^ v.a.rotateRight 22
  let maj := (v.a &&& v.b) ^^^ (v.a &&& v.c) ^^^ (v.b &&& v.c)
  ⟨t1 + (s0 + maj), v.a, v.b, v.c, v.d + t1, v.e, v.f, v.g⟩

/-- The words of the schedule that follow 16 words, n of them; the list holds the last 16, oldest first. -/
def shaSchedule : Nat → List (BitVec 32) → List (BitVec 32)
  | 0, _ => []
  | n + 1, l =>
    let x := nth l 1 0
    let y := nth l 14 0
    let s0 := x.rotateRight 7 ^^^ x.rotateRight 18 ^^^ (x >>> 3)
    let s1 := y.rotateRight 17 ^^^ y.rotateRight 19 ^^^ (y >>> 10)
    let w := s1 + nth l 9 0 + s0 + nth l 0 0
    w :: shaSchedule n (l.drop 1 ++ [w])

/-- The hash value after one block of 64 bytes. -/
def shaBlock (h : List (BitVec 32)) (block : List Byte) : List (BitVec 32) :=
  let w := (List.range 16).map fun i => BitVec.ofNat 32 (ofBe ((block.drop (4 * i)).take 4))
  let v0 : ShaVars := ⟨nth h 0 0, nth h 1 0, nth h 2 0, nth h 3 0, nth h 4 0, nth h 5 0, nth h 6 0, nth h 7 0⟩
  let v := (shaK.zip (w ++ shaSchedule 48 w)).foldl (fun v p => v.round p.1 p.2) v0
  List.zipWith (· + ·) h [v.a, v.b, v.c, v.d, v.e, v.f, v.g, v.h]

/-- The hash value after n blocks. -/
def shaBlocks : Nat → List (BitVec 32) → List Byte → List (BitVec 32)
  | 0, h, _ => h
  | n + 1, h, bs => shaBlocks n (shaBlock h (bs.take 64)) (bs.drop 64)

/-- A message with its padding. -/
def shaPad (m : List Byte) : List Byte :=
  m ++ 0x80#8 :: List.replicate ((119 - m.length % 64) % 64) 0 ++ beBytes 8 (8 * m.length)

/-- SHA-256 of a byte string, as a number. -/
def sha256 (m : List Byte) : Nat :=
  let p := shaPad m
  (shaBlocks (p.length / 64) shaInit p).foldl (fun n w => n * 2 ^ 32 + w.toNat) 0

/-- SHA-256(a ‖ b) of two 32-byte strings: how a measurement register is extended (R497, R505). -/
def extend (a b : BitVec 256) : BitVec 256 := BitVec.ofNat 256 (sha256 (beBytes 32 a.toNat ++ beBytes 32 b.toNat))

/-- HMAC with SHA-256 under a key of 32 bytes, as a 32-byte string. -/
def hmac (key m : List Byte) : List Byte :=
  let k := key ++ List.replicate (64 - key.length) 0
  beBytes 32 (sha256 (k.map (· ^^^ 0x5C#8) ++ beBytes 32 (sha256 (k.map (· ^^^ 0x36#8) ++ m))))

/-! ## P-256 -/

/-- The prime of the field. -/
def p256 : Nat := 2 ^ 256 - 2 ^ 224 + 2 ^ 192 + 2 ^ 96 - 1

/-- The order of the group. -/
def n256 : Nat := 0xFFFFFFFF00000000FFFFFFFFFFFFFFFFBCE6FAADA7179E84F3B9CAC2FC632551

/-- The coefficient b of the curve y² = x³ - 3x + b. -/
def b256 : Nat := 0x5AC635D8AA3A93E7B3EBBD55769886BC651D06B0CC53B0F63BCE3C3E27D2604B

/-- A point of the curve; none is the point at infinity. -/
abbrev Point := Option (Nat × Nat)

/-- The generator. -/
def g256 : Point := some
  (0x6B17D1F2E12C4247F8BCE6E563A440F277037D812DEB33A0F4A13945D898C296,
   0x4FE342E2FE1A7F9B8EE7EB4A7C0F9E162BCE33576B315ECECBB6406837BF51F5)

/-- x^e mod m from the top bit of the low n bits of e; `acc` holds the power of the bits above. -/
def powMod (m x e : Nat) : Nat → Nat → Nat
  | 0, acc => acc
  | n + 1, acc =>
    let a := acc * acc % m
    powMod m x e n (if bit e n then a * x % m else a)

/-- The inverse modulo a prime of 256 bits (Fermat). -/
def invMod (m x : Nat) : Nat := powMod m x (m - 2) 256 (1 % m)

/-- Whether two coordinates are a point of the curve (R500). -/
def onCurve (x y : Nat) : Bool :=
  decide (x < p256) && decide (y < p256) && y * y % p256 == (x * x * x + (p256 - 3) * x + b256) % p256

/-- Sum of two points. -/
def addPoint : Point → Point → Point
  | none, q => q
  | p, none => p
  | some (x1, y1), some (x2, y2) =>
    if x1 = x2 ∧ (y1 + y2) % p256 = 0 then none
    else
      let l := if x1 = x2 then (3 * x1 * x1 + p256 - 3) * invMod p256 (2 * y1 % p256) % p256
        else (y2 + p256 - y1) * invMod p256 ((x2 + p256 - x1) % p256) % p256
      let x := (l * l + 2 * p256 - x1 - x2) % p256
      some (x, (l * (x1 + p256 - x) + p256 - y1) % p256)

/-- k times a point, from the top bit of the low n bits of k. -/
def mulPoint (k : Nat) (q : Point) : Nat → Point → Point
  | 0, acc => acc
  | n + 1, acc =>
    let d := addPoint acc acc
    mulPoint k q n (if bit k n then addPoint d q else d)

/-- ECDSA verification of a digest with a public key (FIPS 186-5). -/
def ecdsaVerify (x y e r s : Nat) : Bool :=
  if !onCurve x y || r == 0 || s == 0 || decide (n256 ≤ r) || decide (n256 ≤ s) then false
  else
    let w := invMod n256 s
    match addPoint (mulPoint (e * w % n256) g256 256 none) (mulPoint (r * w % n256) (some (x, y)) 256 none) with
    | none => false
    | some (px, _) => px % n256 == r

/-- The k of RFC 6979: candidates of the generator until one lies in 1 to n - 1 and gives r and s that are not 0. -/
def signWith (d e : Nat) : Nat → List Byte → List Byte → Nat × Nat
  | 0, _, _ => (0, 0)
  | fuel + 1, key, v =>
    let v1 := hmac key v
    let k := ofBe v1
    let again : Nat × Nat :=
      let key1 := hmac key (v1 ++ [0])
      signWith d e fuel key1 (hmac key1 v1)
    if k = 0 ∨ n256 ≤ k then again
    else
      let r := ((mulPoint k g256 256 none).map (·.1)).getD 0 % n256
      let s := invMod n256 k * ((e + r * d) % n256) % n256
      if r = 0 ∨ s = 0 then again else (r, s)

/-- ECDSA signature of a digest with a private key, k as RFC 6979 gives (R506). -/
def ecdsaSign (d e : Nat) : Nat × Nat :=
  let seed := beBytes 32 d ++ beBytes 32 (e % n256)
  let v := List.replicate 32 (1#8)
  let key := List.replicate 32 (0#8)
  let key1 := hmac key (v ++ [0] ++ seed)
  let v1 := hmac key1 v
  let key2 := hmac key1 (v1 ++ [1] ++ seed)
  signWith d e 64 key2 (hmac key2 v1)

end Sys2Proof.Machine
end

