-- ==== Sys2Proof/WellFormed.lean ====
section
/-! DEFINITION. Well-formed instructions: the field rules of chapter 3 and of each form's entry, and immediates that
the prefixes left (at most four parcels, R79) can hold. -/

namespace Sys2Proof

/-- The value window that an instruction without PSC has (R83). -/
def Win.none : Win := ⟨false, 0⟩

/-- LA = 0 is written as no window (R83). -/
def Win.ok (w : Win) : Bool := w.la != 0 || !w.ver1

/-- PSC parcels that a window needs. -/
def Win.need (w : Win) : Nat := if w.la == 0 then 0 else 1

/-- Whether a value is the zero-extension of its low W bits (R92). -/
def fitsZ (W : Nat) (v : Word) : Bool := decide (v.toNat < 2 ^ W)

/-- Whether a value is the sign-extension of its low W bits (R92). -/
def fitsS (W : Nat) (v : Word) : Bool := decide ((v + BitVec.ofNat 64 (2 ^ W / 2)).toNat < 2 ^ W)

/-- PXR parcels that an RI, BR or LI form needs: `b` is the second register, if the form has one (R81, R104). -/
def needRI (d : Reg) (b : Option Reg) : Nat :=
  if decide (d.toNat < 16) && (match b with | some b => b == d | none => true) then 0 else 1

/-- PXR parcels that an RR form with no B field needs. -/
def need2 (d a : Reg) (k : KReg) : Nat :=
  if decide (d.toNat < 16) && decide (a.toNat < 16) && k == 0 then 0 else 1

/-- PXR parcels that an RR form with a B field needs. -/
def need3 (d a b : Reg) (k : KReg) : Nat := if need2 d a k == 0 && b == d then 0 else 1

/-- PXR parcels that an M form needs. -/
def needM (d a : Reg) (k : KReg) : Nat := need2 d a k

/-- Lanes of the width that a Z field names (R12, Table 3.3). -/
def lanesZ (z : BitVec 2) : Nat := 32 / 2 ^ z.toNat

/-- The control-register numbers of Table 1.2. -/
def csNumbers : List Nat :=
  [0x00, 0x01, 0x02, 0x03, 0x04, 0x05, 0x06, 0x07, 0x08, 0x09, 0x0A, 0x0B, 0x0C, 0x0D, 0x0E, 0x0F, 0x10, 0x11, 0x12,
   0x13, 0x14, 0x18, 0x19, 0x1A, 0x1B, 0x1C, 0x1D, 0x1E, 0x1F, 0x20, 0x21, 0x22, 0x23, 0x24, 0x25]

/-- Width in bits of an element type (Table 2.1); a coded type counts as its elements' 8 bits. -/
def ETy.width : ETy → Nat
  | .f32 | .i32 => 32
  | .f16 | .bf16 | .i16 => 16
  | .e4m3 | .e5m2 | .e4m3c | .e5m2c | .i8 | .ui8 => 8
  | .i64 => 64

/-- Coded block types. -/
def ETy.coded : ETy → Bool
  | .e4m3c | .e5m2c => true
  | _ => false

/-- Integer types. -/
def ETy.isInt : ETy → Bool
  | .i8 | .ui8 | .i32 | .i16 | .i64 => true
  | _ => false

/-- The uncoded 8-bit floats. -/
def ETy.fp8 : ETy → Bool
  | .e4m3 | .e5m2 => true
  | _ => false

/-- The legal combinations of VCVT (R157, R159). -/
def vcvtRule (src dst : ETy) (sat : Bool) (part : BitVec 3) (ctid : BitVec 2) (d a : Reg) (k : KReg) : Bool :=
  if src.coded then
    dst.fp8 && part == 0 && ctid == 0 && !a.getLsbD 0
  else if dst.coded then
    src.fp8 && part == 0 && !d.getLsbD 0 && k == 0
  else
    ctid == 0 &&
    decide (part.toNat * min src.width dst.width < max src.width dst.width) &&
    (!sat ||
      (match dst with
       | .f32 | .f16 | .bf16 => false
       | .e4m3 | .e5m2 | .e4m3c | .e5m2c => true
       | .i8 | .ui8 | .i32 | .i16 | .i64 => src.isInt && decide (dst.width < src.width)))

/-- The element type of a code of Table 3.3, 0x0 to 0xB; a reserved code has none. -/
def ETy.ofCode (c : BitVec 4) : Option ETy :=
  match c.toNat with
  | 0 => some .f32 | 1 => some .f16 | 2 => some .bf16 | 3 => some .e4m3 | 4 => some .e5m2 | 5 => some .e4m3c
  | 6 => some .e5m2c | 7 => some .i8 | 8 => some .ui8 | 9 => some .i32 | 10 => some .i16 | 11 => some .i64
  | _ => none

/-- The code of an element type (Table 3.3). -/
def ETy.code : ETy → BitVec 4
  | .f32 => 0 | .f16 => 1 | .bf16 => 2 | .e4m3 => 3 | .e5m2 => 4 | .e4m3c => 5
  | .e5m2c => 6 | .i8 => 7 | .ui8 => 8 | .i32 => 9 | .i16 => 10 | .i64 => 11

/-- A valid format context (R400, Table 15.5). -/
def mfmtOk (c : BitVec 17) : Bool :=
  match ETy.ofCode (c.extractLsb' 0 4), ETy.ofCode (c.extractLsb' 4 4), ETy.ofCode (c.extractLsb' 8 4) with
  | some at', some bt, some ct =>
    let f8 (t : ETy) := t.fp8 || t.coded
    let i8 (t : ETy) := t == .i8 || t == .ui8
    let kinds := (f8 at' && f8 bt) || (i8 at' && i8 bt) || (at' == bt && (at' == .bf16 || at' == .f16))
    let out := if i8 at' then ct == .i32 else ct == .f32 || ct == .bf16 || ct == .f16 || ct.fp8
    let sat := !c.getLsbD 12 || ct.fp8
    let ids := (c.extractLsb' 13 2 == 0 || at'.coded) && (c.extractLsb' 15 2 == 0 || bt.coded)
    kinds && out && sat && ids
  | _, _, _ => false

/-- Whether an instruction keeps the field rules of its encoding. A machine step of the table has no encoding and no
rule of this kind. -/
def Instr.WellFormed : Instr → Bool
  | .add _ _ _ => true
  | .sub _ _ _ => true
  | .and _ _ _ => true
  | .or _ _ _ => true
  | .xor _ _ _ => true
  | .sll _ _ _ => true
  | .srl _ _ _ => true
  | .sra _ _ _ => true
  | .slt _ _ _ => true
  | .sltu _ _ _ => true
  | .min _ _ _ => true
  | .max _ _ _ => true
  | .minu _ _ _ => true
  | .maxu _ _ _ => true
  | .mul _ _ _ w => w.ok
  | .mulh _ _ _ w => w.ok
  | .mulhu _ _ _ w => w.ok
  | .div _ _ _ w => w.ok
  | .divu _ _ _ w => w.ok
  | .rem _ _ _ w => w.ok
  | .remu _ _ _ w => w.ok
  | .addi d b imm => fitsS (6 + 10 * (4 - needRI d (some b))) imm
  | .andi d b imm => fitsZ (6 + 10 * (4 - needRI d (some b))) imm
  | .ori d b imm => fitsZ (6 + 10 * (4 - needRI d (some b))) imm
  | .xori d b imm => fitsZ (6 + 10 * (4 - needRI d (some b))) imm
  | .slli _ _ _ => true
  | .srli _ _ _ => true
  | .srai _ _ _ => true
  | .slti d b imm => fitsS (6 + 10 * (4 - needRI d (some b))) imm
  | .sltiu d b imm => fitsZ (6 + 10 * (4 - needRI d (some b))) imm
  | .li d imm => fitsS (6 + 10 * (4 - needRI d none)) imm
  | .clz _ _ => true
  | .ctz _ _ => true
  | .popc _ _ => true
  | .brev _ _ => true
  | .bext _ _ _ => true
  | .bins _ _ _ => true
  | .mv _ _ => true
  | .cmov _ _ _ => true
  | .ld _ d a off => fitsS (10 * (4 - needM d a 0)) off
  | .st _ d a off => fitsS (10 * (4 - needM d a 0)) off
  | .ldp z d a off => z.getLsbD 1 && !d.getLsbD 0 && fitsS (10 * (4 - needM d a 0)) off
  | .stp z d a off => z.getLsbD 1 && !d.getLsbD 0 && fitsS (10 * (4 - needM d a 0)) off
  | .beq a b off => fitsS (6 + 10 * (4 - needRI a (some b))) off
  | .bne a b off => fitsS (6 + 10 * (4 - needRI a (some b))) off
  | .blt a b off => fitsS (6 + 10 * (4 - needRI a (some b))) off
  | .bge a b off => fitsS (6 + 10 * (4 - needRI a (some b))) off
  | .bltu a b off => fitsS (6 + 10 * (4 - needRI a (some b))) off
  | .bgeu a b off => fitsS (6 + 10 * (4 - needRI a (some b))) off
  | .j off => fitsS 50 off
  | .jal off => fitsS 50 off
  | .jr _ => true
  | .jalr _ _ => true
  | .bqpush _ => true
  | .csrr _ c => csNumbers.contains c.toNat && c != 0x1f
  | .csrw _ c => csNumbers.contains c.toNat && c != 0x14
  | .csrs _ c => csNumbers.contains c.toNat && c != 0x14
  | .csrc _ c => csNumbers.contains c.toNat && c != 0x14
  | .cplaunchRead _ => true
  | .ctxpWrite _ _ => true
  | .nop => true
  | .trap _ => true
  | .brk _ => true
  | .exit => true
  | .wfe _ => true
  | .evsig _ => true
  | .wfm => true
  | .mbrd _ => true
  | .vadd _ _ _ _ _ => true
  | .vsub _ _ _ _ _ => true
  | .vmul _ _ _ _ _ => true
  | .vfma _ _ _ _ _ => true
  | .vfms _ _ _ _ _ => true
  | .vfnma _ _ _ _ _ => true
  | .vfnms _ _ _ _ _ => true
  | .vmin _ _ _ _ _ => true
  | .vmax _ _ _ _ _ => true
  | .vabs _ _ _ _ => true
  | .vneg _ _ _ _ => true
  | .vrcp _ _ _ _ w => w.ok
  | .vrsq _ _ _ _ w => w.ok
  | .vsqrt _ _ _ _ w => w.ok
  | .vdiv _ _ _ _ _ w => w.ok
  | .vexp2 _ _ _ _ w => w.ok
  | .vcmp _ _ _ _ _ _ => true
  | .vsel _ _ _ _ _ => true
  | .vcvt src dst sat part ctid d a k => vcvtRule src dst sat part ctid d a k
  | .vclass _ _ _ _ => true
  | .viadd _ m _ _ _ _ => m != 3
  | .visub _ m _ _ _ _ => m != 3
  | .vimul _ _ _ _ _ _ => true
  | .vsh _ m _ _ _ _ => m != 3
  | .vand _ _ _ _ _ => true
  | .vor _ _ _ _ _ => true
  | .vxor _ _ _ _ _ => true
  | .vdot4 _ _ _ _ _ w => w.ok
  | .vred _ op _ _ _ w => op != 3 && w.ok && true
  | .vbcast z lane _ _ _ => decide (lane.toNat < lanesZ z)
  | .vperm _ _ _ _ _ _ => true
  | .vmvx z lane _ _ => decide (lane.toNat < lanesZ z)
  | .vmxv _ _ _ _ => true
  | .vld _ d a off k => fitsS (10 * (3 - needM d a k)) off
  | .vst _ d a off k => fitsS (10 * (3 - needM d a k)) off
  | .vldi d imm => fitsS (6 + 10 * (3 - needRI d none)) (imm.signExtend 64)
  | .kop _ _ _ _ => true
  | .kpop _ _ => true
  | .bqb n => decide (n.toNat < 33)
  | .accz _ => true
  | .accw _ prod _ _ b _ => prod || b == 0
  | .accrd _ _ _ w => w.ok
  | .sopen _ _ _ _ => true
  | .sopenx _ _ _ _ => true
  | .sadv _ _ => true
  | .stend _ _ => true
  | .sclose _ => true
  | .ssave _ _ => true
  | .srest _ _ => true
  | .fopen _ a start => fitsZ (10 * (3 - need2 0 a 0)) (start.setWidth 64)
  | .fadv _ _ => true
  | .ftend _ _ => true
  | .fclose _ => true
  | .fisect _ => true
  | .funion _ => true
  | .bmand _ _ _ _ => true
  | .bmpfx _ _ _ _ => true
  | .spack _ _ _ _ => true
  | .sunpk _ _ _ _ _ => true
  | .rep _ _ => true
  | .repx _ _ => true
  | .repbrk => true
  | .streamFetch _ => true
  | .hacc op _ _ _ _ _ => op != 3
  | .hprobe _ _ _ _ w => w.ok
  | .widf _ n => decide (n.toNat < 6)
  | .widr _ _ _ => true
  | .spawn _ _ _ _ => true
  | .spawnd _ _ _ _ => true
  | .susp _ _ => true
  | .join _ _ => true
  | .trig => true
  | .gdone _ _ => true
  | .glaunch _ _ => true
  | .sstep _ _ => true
  | .vote _ _ => true
  | .xsend a _ _ len => decide (a.toNat < 16) && len != 0
  | .bara _ => true
  | .barw _ _ => true
  | .wqput _ _ _ => true
  | .wqtake d => !d.getLsbD 0
  | .rinj _ _ _ => true
  | .mtset _ _ _ => true
  | .mtclr _ _ => true
  | .rstat _ _ => true
  | .rdrain _ _ => true
  | .rtake _ => true
  | .ldg _ d a off w => w.ok && fitsS (10 * (3 - needM d a 0 - w.need)) off
  | .stg _ d a off => fitsS (10 * (3 - needM d a 0)) off
  | .ldv d a off w => w.ok && !d.getLsbD 0 && fitsS (10 * (3 - needM d a 0 - w.need)) off
  | .stv d a off => !d.getLsbD 0 && fitsS (10 * (3 - needM d a 0)) off
  | .reclaim _ _ _ => true
  | .llock _ => true
  | .sunlk _ _ => true
  | .amo z op _ sc _ _ _ w => w.ok && z.getLsbD 1 && decide (op.toNat < 9) && sc != 7
  | .acas z _ sc _ _ _ w => w.ok && z.getLsbD 1 && sc != 7
  | .fence _ sc => sc != 7
  | .cbwait _ _ _ => true
  | .cbrel _ _ => true
  | .cbclm _ _ _ => true
  | .cbpub _ _ => true
  | .cbClaim _ _ => true
  | .cbPublish _ _ => true
  | .cbTake _ _ => true
  | .cbRelease _ _ => true
  | .versionedRequest _ => true
  | .lockGrant _ _ => true
  | .remoteRequest _ => true
  | .translationWalk _ _ => true
  | .cpset _ _ => true
  | .cpgo _ _ => true
  | .cpstat _ _ => true
  | .ixpost _ _ _ => true
  | .mlease n => n != 0 && decide (n.toNat < 65)
  | .mrel => true
  | .mfmt _ c => mfmtOk c
  | .mma d a b _ => !d.getLsbD 0 && !b.getLsbD 0 && !a.getLsbD 0
  | .mconv d _ b _ => !d.getLsbD 0 && !b.getLsbD 0
  | .mdrain _ => true
  | .mstat _ => true
  | .pmask _ _ => true
  | .ldrows _ _ _ => true
  | .strows _ _ _ => true
  | .epush _ _ => true
  | .epop _ w => w.ok
  | .ctab _ _ _ _ => true
  | .ctabg _ _ _ => true
  | .copyRun _ _ => true
  | .copyFinish _ _ => true
  | .indirectRun _ => true
  | .indirectFinish _ => true
  | .mailboxDelivery _ => true
  | .rowUnitRun _ => true
  | .leaseGrant _ _ => true
  | .chunkStep _ _ => true
  | .outputStep _ _ => true
  | .markerComplete _ _ => true
  | .tret => true
  | .ctxsel op _ d _ => op != 0 || d == 0
  | .htresResume _ _ _ => true
  | .htresPreemptMilestone _ _ _ => true
  | .htresPreemptSafepoint _ _ _ => true
  | .htresPark _ _ _ => true
  | .htresEnd _ _ _ => true
  | .pset _ _ _ => true
  | .qset _ _ _ => true
  | .slinv _ _ ty _ => ty != 3
  | .mlrev _ _ => true
  | .mkrd s _ a => s != 3 || decide (a.toNat < 8)
  | .mkctx _ => true
  | .mkjoin _ _ _ _ => true
  | .gatesub _ _ _ _ _ => true
  | .gatest _ _ => true
  | .fuserd _ _ => true
  | .kwipe => true
  | .measx _ n => n != 7
  | .attest _ _ _ => true
  | .dbgopen _ _ => true
  | .gateRun => true
  | .policyUseExpiry _ _ => true
  | .dcpEventAppend _ => true
  | .waitto _ => true
  | .waitSatisfied _ => true
  | .reservationCheck _ => true
  | .launchPromotion _ => true
  | .gangTimeout _ _ => true
  | .initialEnqueue _ => true
  | .continuationStart _ _ => true
  | .readyPromotion _ _ => true
  | .joinDecrement => true
  | .groupEnd _ => true
  | .xsendDelivery _ => true
  | .deadline _ => true
  | .deadlineForce _ _ => true
  | .safePointPark => true
  | .beatBoundary _ _ => true
  | .pairCopy _ _ => true
  | .segmentPark _ _ => true
  | .segmentResume _ _ => true
  | .rsegWrite _ _ _ => true
  | .rcfgWrite _ _ => true
  | .cbcfgWrite _ _ _ => true
  | .slotTableWrite _ _ _ => true
  | .kctlWrite _ _ => true
  | .secdbWrite _ => true
  | .secdbRead => true
  | .controlRegisterWrite _ _ _ => true
  | .qremExpiry _ => true
  | .softerr _ _ _ => true
  | .poison _ => true
  | .retirement _ => true
  | .mailboxCommandWrite _ _ _ _ => true
  | .mailboxWrite _ => true
  | .mailboxRead _ => true
  | .mailboxLaunch _ => true
  | .configPchip _ => true
  | .configSysn _ => true
  | .configSgid _ => true
  | .configChipst _ => true
  | .configChcfg _ => true
  | .configTmaster _ => true
  | .configTset _ => true
  | .configRecbase _ => true
  | .configReclen _ => true
  | .configRecmode _ => true
  | .configPcap _ => true
  | .hostEventWrite _ => true
  | .requestTimeout _ _ => true
  | .timeLockLoss => true
  | .timeLockRegain => true
  | .replayEntry _ => true
  | .frequencyChange _ _ _ _ => true
  | .thermalThrottle _ _ => true
  | .thermalRelease _ _ => true
  | .thermalTrip _ _ => true
  | .reset => true
  | .bringupStage => true
  | .smbusBlockRead _ => true
  | .smbusResetRequest => true
  | .illegalInstruction _ => true
  | .emulationTrap _ => true
  | .externalDebuggerAccess _ => true
  | .linkTraining _ _ => true

end Sys2Proof
end

