-- ==== Sys2Proof/Decode.lean ====
section
/-! DEFINITION. The decoder, total on any parcels: prefixes (R75 to R83), the nine base formats (R87 to R93) and the
opcode map (R94 to R100), and after it an encoder. What the decoder finds illegal it reports by name, as the ILL or
EMU that the machine takes, with the FINFO of R42. -/

namespace Sys2Proof

/-! ## Prefixes -/

/-- An instruction cut into its parcels' fields: page, PXR, PXI parcels in order, PSC, base parcel (R75 to R80). -/
structure Raw where
  page : BitVec 4
  pxr : Option (BitVec 10)
  pxi : List (BitVec 10)
  psc : Option (BitVec 10)
  base : Parcel
  deriving DecidableEq, Repr

/-- The prefixes read so far; `bad` when one of them breaks R79, `n` their number. -/
structure Prefixes where
  pg : Option (BitVec 4)
  pxr : Option (BitVec 10)
  pxi : List (BitVec 10)
  psc : Option (BitVec 10)
  bad : Bool
  n : Nat
  deriving DecidableEq, Repr

/-- No prefix read. -/
def Prefixes.none : Prefixes := ⟨.none, .none, [], .none, false, 0⟩

/-- The opcode field of a parcel (R75). -/
def opField (p : Parcel) : BitVec 6 := p.extractLsb' 10 6

/-- Reads one prefix parcel (Table 3.1, R79). -/
def Prefixes.add (a : Prefixes) (p : Parcel) : Prefixes :=
  let f := p.extractLsb' 0 10
  match (opField p).toNat with
  | 0x3C => { a with
      pg := (match a.pg with | .none => some (f.extractLsb' 0 4) | some g => some g)
      bad := a.bad || a.pg.isSome || f.extractLsb' 4 6 != 0, n := a.n + 1 }
  | 0x3D => { a with pxr := some f, bad := a.bad || a.pxr.isSome, n := a.n + 1 }
  | 0x3E => { a with pxi := a.pxi ++ [f], n := a.n + 1 }
  | _ => { a with
      psc := some f
      bad := a.bad || a.psc.isSome || f.getLsbD 9 || f.extractLsb' 0 4 != 0, n := a.n + 1 }

/-- What the parcels at an address hold: an instruction of `n` prefixes, one whose prefixes are illegal, or parcels
that run out. -/
inductive Scan where
  | raw (r : Raw) (n : Nat)
  | illegal (base : Parcel) (page : BitVec 4) (n : Nat)
  | short
  deriving DecidableEq, Repr

/-- Cuts an instruction from a list of parcels (R75, R79). -/
def scan : List Parcel → Prefixes → Scan
  | [], _ => .short
  | p :: ps, a =>
    if (opField p).toNat < 0x3C then
      if a.bad then .illegal p (a.pg.getD 0) a.n
      else .raw ⟨a.pg.getD 0, a.pxr, a.pxi, a.psc, p⟩ a.n
    else if a.n = 4 then .illegal p (a.pg.getD 0) 4
    else scan ps (a.add p)

/-! ## Fields -/

/-- The opcode of the base parcel. -/
def Raw.op (r : Raw) : BitVec 6 := opField r.base

/-- The field at [9:6] without its high bit. -/
def Raw.hi (r : Raw) : BitVec 4 := r.base.extractLsb' 6 4

/-- HF of PXR. -/
def Raw.hf (r : Raw) : Bool := match r.pxr with | some x => x.getLsbD 9 | none => false

/-- HS of PXR. -/
def Raw.hs (r : Raw) : Bool := match r.pxr with | some x => x.getLsbD 8 | none => false

/-- The register field at [9:6] with its high bit (R88). -/
def Raw.d (r : Raw) : Reg := BitVec.ofBool r.hf ++ r.hi

/-- The register field at [5:2] with its high bit (R88). -/
def Raw.a (r : Raw) : Reg := BitVec.ofBool r.hs ++ r.base.extractLsb' 2 4

/-- The third register: PXR.B, or the field at [9:6] without PXR (R81). -/
def Raw.b (r : Raw) : Reg := match r.pxr with | some x => x.extractLsb' 3 5 | none => r.d

/-- The mask register (R81). -/
def Raw.k (r : Raw) : KReg := match r.pxr with | some x => x.extractLsb' 0 3 | none => 0

/-- The field at [1:0]. -/
def Raw.s (r : Raw) : BitVec 2 := r.base.extractLsb' 0 2

/-- The field at [5:0]. -/
def Raw.i6 (r : Raw) : BitVec 6 := r.base.extractLsb' 0 6

/-- The field at [9:0]. -/
def Raw.i10 (r : Raw) : BitVec 10 := r.base.extractLsb' 0 10

/-- PXR.B is 0 when PXR is present (R79, R111). -/
def Raw.bZero (r : Raw) : Bool := match r.pxr with | some x => x.extractLsb' 3 5 == 0 | none => true

/-- No PXI parcel. -/
def Raw.noPxi (r : Raw) : Bool := r.pxi.isEmpty

/-- No PSC parcel. -/
def Raw.noPsc (r : Raw) : Bool := r.psc.isNone

/-- No PXR parcel. -/
def Raw.noPxr (r : Raw) : Bool := r.pxr.isNone

/-- The immediate of R80 as an unsigned number: PXI parcels above a base field of `n` bits. -/
def Raw.immNat (r : Raw) (n : Nat) (low : Nat) : Nat :=
  r.pxi.foldl (fun acc x => acc * 1024 + x.toNat) 0 * 2 ^ n + low

/-- The immediate zero-extended (R92). -/
def Raw.immZ {m : Nat} (r : Raw) (n : Nat) (low : BitVec m) : Word := BitVec.ofNat 64 (r.immNat n low.toNat)

/-- The immediate sign-extended from its total width (R92). -/
def Raw.immS {m : Nat} (r : Raw) (n : Nat) (low : BitVec m) : Word :=
  let W := 10 * r.pxi.length + n
  let u := r.immNat n low.toNat
  if 2 * u < 2 ^ W then BitVec.ofNat 64 u else BitVec.ofNat 64 u - BitVec.ofNat 64 (2 ^ W)

/-- The signed immediate of a parcel with no immediate field of its own (R86). -/
def Raw.off (r : Raw) : Word := r.immS 0 (0 : BitVec 1)

/-- The control immediate (R89). -/
def Raw.cimm (r : Raw) : Word := r.immZ 0 (0 : BitVec 1)

/-- The value window of the PSC parcel; LA = 0 opens none (R83, R84). -/
def Raw.win (r : Raw) : Win :=
  match r.psc with
  | some p => if p.extractLsb' 4 4 == 0 then Win.none else ⟨p.getLsbD 8, p.extractLsb' 4 4⟩
  | none => Win.none

/-- Prefixes of an RR form: PXI only when `c`, PSC only when `l`, a mask only when `k` (Table 3.4). -/
def Raw.rr (r : Raw) (c l k : Bool) : Bool := (c || r.noPxi) && (l || r.noPsc) && (k || r.k == 0)

/-- Prefixes of an M form: no B, PSC only when `l`, a mask only when `k` (Table 3.4). -/
def Raw.mem (r : Raw) (l k : Bool) : Bool := r.bZero && (l || r.noPsc) && (k || r.k == 0)

/-- PXR of an SY form: HF, B and K are 0 (R129). -/
def Raw.syPxr (r : Raw) : Bool := !r.hf && r.bZero && r.k == 0

/-- The lane format of a TF code (Table 3.3). -/
def fpTy (s : BitVec 2) : FpTy := if s == 0 then .f32 else if s == 1 then .bf16 else .f16

/-- The TF code of a lane format. -/
def FpTy.code : FpTy → BitVec 2
  | .f32 => 0 | .bf16 => 1 | .f16 => 2

/-- The byte format of a TD code (Table 3.3). -/
def dotTy (s : BitVec 2) : DotTy :=
  if s == 0 then .i8 else if s == 1 then .ui8 else if s == 2 then .e4m3 else .e5m2

/-- The TD code of a byte format. -/
def DotTy.code : DotTy → BitVec 2
  | .i8 => 0 | .ui8 => 1 | .e4m3 => 2 | .e5m2 => 3

/-- An instruction when its field rules hold. -/
def guardI (c : Bool) (i : Instr) : Option Instr := if c then some i else none

/-- The instruction of a VCVT control immediate (Table 5.5). -/
def vcvtOf (c : Word) (d a : Reg) (k : KReg) : Instr :=
  .vcvt ((ETy.ofCode (c.extractLsb' 4 4)).getD .f32) ((ETy.ofCode (c.extractLsb' 0 4)).getD .f32) (c.getLsbD 9)
    (c.extractLsb' 10 3) (c.extractLsb' 13 2) d a k

/-- The legal control immediates of VCVT (R157). -/
def vcvtOk (c : Word) (d a : Reg) (k : KReg) : Bool :=
  decide (c.toNat < 2 ^ 15) && !c.getLsbD 8 &&
  (match ETy.ofCode (c.extractLsb' 4 4), ETy.ofCode (c.extractLsb' 0 4) with
   | some s, some t => vcvtRule s t (c.getLsbD 9) (c.extractLsb' 10 3) (c.extractLsb' 13 2) d a k
   | _, _ => false)

/-- The SY forms (Table 4.5). -/
def decodeSy (r : Raw) : Option Instr :=
  let ok := r.noPsc && r.noPxi && r.syPxr
  let imm := ok && !r.hs
  match r.hi.toNat with
  | 0 => guardI (imm && r.i6 == 0) .nop
  | 1 => guardI imm (.trap r.i6)
  | 2 => guardI imm (.brk r.i6)
  | 3 => guardI (imm && r.i6 == 0) .exit
  | 4 => guardI imm (.wfe r.i6)
  | 5 => guardI (ok && r.s == 0) (.evsig r.a)
  | 6 => guardI (imm && r.i6 == 0) .wfm
  | 7 => guardI (ok && r.s == 0) (.mbrd r.a)
  | _ => none

/-! ## Pages -/

/-- The forms of page 0 (Tables 3.6 to 3.9). -/
def decodePage0 (r : Raw) : Option Instr :=
  match r.op.toNat with
  | 0x00 => guardI (r.rr false false false && r.s == 0) (.add r.d r.a r.b)
  | 0x01 => guardI (r.rr false false false && r.s == 0) (.sub r.d r.a r.b)
  | 0x02 => guardI (r.rr false false false && r.s == 0) (.and r.d r.a r.b)
  | 0x03 => guardI (r.rr false false false && r.s == 0) (.or r.d r.a r.b)
  | 0x04 => guardI (r.rr false false false && r.s == 0) (.xor r.d r.a r.b)
  | 0x05 => guardI (r.rr false false false && r.s == 0) (.sll r.d r.a r.b)
  | 0x06 => guardI (r.rr false false false && r.s == 0) (.srl r.d r.a r.b)
  | 0x07 => guardI (r.rr false false false && r.s == 0) (.sra r.d r.a r.b)
  | 0x08 => guardI (r.rr false false false && r.s == 0) (.slt r.d r.a r.b)
  | 0x09 => guardI (r.rr false false false && r.s == 0) (.sltu r.d r.a r.b)
  | 0x0a => guardI (r.rr false false false && r.s == 0) (.min r.d r.a r.b)
  | 0x0b => guardI (r.rr false false false && r.s == 0) (.max r.d r.a r.b)
  | 0x0c => guardI (r.rr false false false && r.s == 0) (.minu r.d r.a r.b)
  | 0x0d => guardI (r.rr false false false && r.s == 0) (.maxu r.d r.a r.b)
  | 0x0e => guardI (r.rr false true false && r.s == 0) (.mul r.d r.a r.b r.win)
  | 0x0f => guardI (r.rr false true false && r.s == 0) (.mulh r.d r.a r.b r.win)
  | 0x10 => guardI (r.rr false true false && r.s == 0) (.mulhu r.d r.a r.b r.win)
  | 0x11 => guardI (r.rr false true false && r.s == 0) (.div r.d r.a r.b r.win)
  | 0x12 => guardI (r.rr false true false && r.s == 0) (.divu r.d r.a r.b r.win)
  | 0x13 => guardI (r.rr false true false && r.s == 0) (.rem r.d r.a r.b r.win)
  | 0x14 => guardI (r.rr false true false && r.s == 0) (.remu r.d r.a r.b r.win)
  | 0x15 => guardI (r.noPsc && r.k == 0 && !r.hs) (.addi r.d r.b (r.immS 6 r.i6))
  | 0x1c => guardI (r.noPsc && r.k == 0 && !r.hs) (.slti r.d r.b (r.immS 6 r.i6))
  | 0x16 => guardI (r.noPsc && r.k == 0 && !r.hs) (.andi r.d r.b (r.immZ 6 r.i6))
  | 0x17 => guardI (r.noPsc && r.k == 0 && !r.hs) (.ori r.d r.b (r.immZ 6 r.i6))
  | 0x18 => guardI (r.noPsc && r.k == 0 && !r.hs) (.xori r.d r.b (r.immZ 6 r.i6))
  | 0x1d => guardI (r.noPsc && r.k == 0 && !r.hs) (.sltiu r.d r.b (r.immZ 6 r.i6))
  | 0x19 => guardI (r.noPsc && r.noPxi && r.k == 0 && !r.hs) (.slli r.d r.b r.i6)
  | 0x1a => guardI (r.noPsc && r.noPxi && r.k == 0 && !r.hs) (.srli r.d r.b r.i6)
  | 0x1b => guardI (r.noPsc && r.noPxi && r.k == 0 && !r.hs) (.srai r.d r.b r.i6)
  | 0x1e => guardI (r.noPsc && r.k == 0 && !r.hs && r.bZero) (.li r.d (r.immS 6 r.i6))
  | 0x1f => guardI (r.rr false false false && r.s == 0 && r.bZero) (.clz r.d r.a)
  | 0x20 => guardI (r.rr false false false && r.s == 0 && r.bZero) (.ctz r.d r.a)
  | 0x21 => guardI (r.rr false false false && r.s == 0 && r.bZero) (.popc r.d r.a)
  | 0x22 => guardI (r.rr false false false && r.s == 0 && r.bZero) (.brev r.d r.a)
  | 0x25 => guardI (r.rr false false false && r.s == 0 && r.bZero) (.mv r.d r.a)
  | 0x23 => guardI (r.rr false false false && r.s == 0) (.bext r.d r.a r.b)
  | 0x24 => guardI (r.rr false false false && r.s == 0) (.bins r.d r.a r.b)
  | 0x26 => guardI (r.rr false false false && r.s == 0) (.cmov r.d r.a r.b)
  | 0x27 => guardI (r.mem false false) (.ld r.s r.d r.a r.off)
  | 0x28 => guardI (r.mem false false) (.st r.s r.d r.a r.off)
  | 0x29 => guardI (r.mem false false && r.s.getLsbD 1 && !r.d.getLsbD 0) (.ldp r.s r.d r.a r.off)
  | 0x2a => guardI (r.mem false false && r.s.getLsbD 1 && !r.d.getLsbD 0) (.stp r.s r.d r.a r.off)
  | 0x2b => guardI (r.noPsc && r.k == 0 && !r.hs) (.beq r.d r.b (r.immS 6 r.i6))
  | 0x2c => guardI (r.noPsc && r.k == 0 && !r.hs) (.bne r.d r.b (r.immS 6 r.i6))
  | 0x2d => guardI (r.noPsc && r.k == 0 && !r.hs) (.blt r.d r.b (r.immS 6 r.i6))
  | 0x2e => guardI (r.noPsc && r.k == 0 && !r.hs) (.bge r.d r.b (r.immS 6 r.i6))
  | 0x2f => guardI (r.noPsc && r.k == 0 && !r.hs) (.bltu r.d r.b (r.immS 6 r.i6))
  | 0x30 => guardI (r.noPsc && r.k == 0 && !r.hs) (.bgeu r.d r.b (r.immS 6 r.i6))
  | 0x31 => guardI (r.noPsc && r.noPxr) (.j (r.immS 10 r.i10))
  | 0x32 => guardI (r.noPsc && r.noPxr) (.jal (r.immS 10 r.i10))
  | 0x33 => guardI (r.rr false false false && r.s == 0 && r.bZero && r.d == 0) (.jr r.a)
  | 0x34 => guardI (r.rr false false false && r.s == 0 && r.bZero) (.jalr r.d r.a)
  | 0x35 => guardI (r.rr false false false && r.s == 0 && r.bZero && r.d == 0) (.bqpush r.a)
  | 0x36 =>
    guardI (r.noPsc && r.noPxi && r.k == 0 && !r.hs && r.bZero && csNumbers.contains r.i6.toNat)
      (if r.i6 == 0x1f then .cplaunchRead r.d else .csrr r.d r.i6)
  | 0x37 =>
    guardI (r.noPsc && r.noPxi && r.k == 0 && !r.hs && r.bZero && csNumbers.contains r.i6.toNat)
      (if r.i6 == 0x14 then .ctxpWrite .w r.d else .csrw r.d r.i6)
  | 0x38 =>
    guardI (r.noPsc && r.noPxi && r.k == 0 && !r.hs && r.bZero && csNumbers.contains r.i6.toNat)
      (if r.i6 == 0x14 then .ctxpWrite .s r.d else .csrs r.d r.i6)
  | 0x39 =>
    guardI (r.noPsc && r.noPxi && r.k == 0 && !r.hs && r.bZero && csNumbers.contains r.i6.toNat)
      (if r.i6 == 0x14 then .ctxpWrite .c r.d else .csrc r.d r.i6)
  | 0x3a => decodeSy r
  | _ => none

/-- The forms of page 1 (Tables 3.6 to 3.9). -/
def decodePage1 (r : Raw) : Option Instr :=
  match r.op.toNat with
  | 0x00 => guardI (r.rr false false true && r.s != 3) (.vadd (fpTy r.s) r.d r.a r.b r.k)
  | 0x01 => guardI (r.rr false false true && r.s != 3) (.vsub (fpTy r.s) r.d r.a r.b r.k)
  | 0x02 => guardI (r.rr false false true && r.s != 3) (.vmul (fpTy r.s) r.d r.a r.b r.k)
  | 0x03 => guardI (r.rr false false true && r.s != 3) (.vfma (fpTy r.s) r.d r.a r.b r.k)
  | 0x04 => guardI (r.rr false false true && r.s != 3) (.vfms (fpTy r.s) r.d r.a r.b r.k)
  | 0x05 => guardI (r.rr false false true && r.s != 3) (.vfnma (fpTy r.s) r.d r.a r.b r.k)
  | 0x06 => guardI (r.rr false false true && r.s != 3) (.vfnms (fpTy r.s) r.d r.a r.b r.k)
  | 0x07 => guardI (r.rr false false true && r.s != 3) (.vmin (fpTy r.s) r.d r.a r.b r.k)
  | 0x08 => guardI (r.rr false false true && r.s != 3) (.vmax (fpTy r.s) r.d r.a r.b r.k)
  | 0x09 => guardI (r.rr false false true && r.s != 3 && r.bZero) (.vabs (fpTy r.s) r.d r.a r.k)
  | 0x0a => guardI (r.rr false false true && r.s != 3 && r.bZero) (.vneg (fpTy r.s) r.d r.a r.k)
  | 0x13 => guardI (r.rr false false true && r.s != 3 && r.bZero) (.vclass (fpTy r.s) r.d r.a r.k)
  | 0x0b => guardI (r.rr false true true && r.s != 3 && r.bZero) (.vrcp (fpTy r.s) r.d r.a r.k r.win)
  | 0x0c => guardI (r.rr false true true && r.s != 3 && r.bZero) (.vrsq (fpTy r.s) r.d r.a r.k r.win)
  | 0x0d => guardI (r.rr false true true && r.s != 3 && r.bZero) (.vsqrt (fpTy r.s) r.d r.a r.k r.win)
  | 0x0f => guardI (r.rr false true true && r.s != 3 && r.bZero) (.vexp2 (fpTy r.s) r.d r.a r.k r.win)
  | 0x0e => guardI (r.rr false true true && r.s != 3) (.vdiv (fpTy r.s) r.d r.a r.b r.k r.win)
  | 0x10 =>
    guardI (r.rr true false true && r.s != 3 && r.d.toNat < 8 && r.cimm < 8)
      (.vcmp (fpTy r.s) (r.cimm.setWidth 3) (r.d.setWidth 3) r.a r.b r.k)
  | 0x11 => guardI (r.rr false false true) (.vsel r.s r.d r.a r.b r.k)
  | 0x12 =>
    guardI (r.rr true false true && r.s == 0 && r.bZero && vcvtOk r.cimm r.d r.a r.k)
      (vcvtOf r.cimm r.d r.a r.k)
  | 0x14 => guardI (r.rr true false true && r.cimm < 3) (.viadd r.s (r.cimm.setWidth 2) r.d r.a r.b r.k)
  | 0x15 => guardI (r.rr true false true && r.cimm < 3) (.visub r.s (r.cimm.setWidth 2) r.d r.a r.b r.k)
  | 0x17 => guardI (r.rr true false true && r.cimm < 3) (.vsh r.s (r.cimm.setWidth 2) r.d r.a r.b r.k)
  | 0x16 => guardI (r.rr true false true && r.cimm < 4) (.vimul r.s (r.cimm.setWidth 2) r.d r.a r.b r.k)
  | 0x18 => guardI (r.rr true false true && r.cimm == 0) (.vand r.s r.d r.a r.b r.k)
  | 0x19 => guardI (r.rr true false true && r.cimm == 0) (.vor r.s r.d r.a r.b r.k)
  | 0x1a => guardI (r.rr true false true && r.cimm == 0) (.vxor r.s r.d r.a r.b r.k)
  | 0x1b => guardI (r.rr false true true) (.vdot4 (dotTy r.s) r.d r.a r.b r.k r.win)
  | 0x1c =>
    guardI (r.rr true true true && r.s != 3 && r.bZero && r.cimm < 3)
      (.vred (fpTy r.s) (r.cimm.setWidth 2) r.d r.a r.k r.win)
  | 0x1d =>
    guardI (r.rr true false true && r.bZero && decide (r.cimm.toNat < lanesZ r.s))
      (.vbcast r.s (r.cimm.setWidth 5) r.d r.a r.k)
  | 0x1e => guardI (r.rr true false true && r.cimm < 2) (.vperm r.s (r.cimm == 1) r.d r.a r.b r.k)
  | 0x1f =>
    guardI (r.rr true false false && r.bZero && decide (r.cimm.toNat < lanesZ r.s))
      (.vmvx r.s (r.cimm.setWidth 5) r.d r.a)
  | 0x20 => guardI (r.rr false false true && r.bZero) (.vmxv r.s r.d r.a r.k)
  | 0x21 => guardI (r.mem false true) (.vld r.s r.d r.a r.off r.k)
  | 0x22 => guardI (r.mem false true) (.vst r.s r.d r.a r.off r.k)
  | 0x23 =>
    guardI (r.noPsc && r.k == 0 && !r.hs && r.bZero && fitsS 32 (r.immS 6 r.i6))
      (.vldi r.d ((r.immS 6 r.i6).setWidth 32))
  | 0x24 =>
    guardI (r.rr false false false && r.d.toNat < 8 && r.a.toNat < 8 && r.b.toNat < 8)
      (.kop r.s (r.d.setWidth 3) (r.a.setWidth 3) (r.b.setWidth 3))
  | 0x25 => guardI (r.rr false false false && r.s == 0 && r.bZero && r.a.toNat < 8) (.kpop r.d (r.a.setWidth 3))
  | 0x26 => guardI (r.noPsc && r.noPxi && r.k == 0 && !r.hs && r.bZero && r.d == 0 && r.i6.toNat < 33) (.bqb r.i6)
  | 0x27 => guardI (r.rr false false false && r.s == 0 && r.bZero && r.d == 0) (.accz r.a)
  | 0x28 =>
    guardI (r.rr true false true && r.s.toNat < 2 && r.cimm < 2 && (r.cimm == 1 || r.bZero))
      (.accw (r.s == 1) (r.cimm == 1) r.d r.a (if r.cimm == 1 then r.b else 0) r.k)
  | 0x29 => guardI (r.rr false true false && r.s.toNat < 2 && r.bZero) (.accrd (r.s == 1) r.d r.a r.win)
  | _ => none

/-- The forms of page 2 (Tables 3.6 to 3.9). A PXR parcel before REP or REPX raises ILL, since Table 3.4 gives their formats
none. (DEDUCED, log entry 92.) -/
def decodePage2 (r : Raw) : Option Instr :=
  match r.op.toNat with
  | 0x00 =>
    guardI (r.rr true false false && r.bZero && r.d == 0 && r.cimm < 4)
      (.sopen r.s r.a (r.cimm.getLsbD 0) (r.cimm.getLsbD 1))
  | 0x01 =>
    guardI (r.rr true false false && r.bZero && r.d == 0 && r.cimm < 4)
      (.sopenx r.s r.a (r.cimm.getLsbD 0) (r.cimm.getLsbD 1))
  | 0x02 => guardI (r.rr false false false && r.bZero && r.d == 0) (.sadv r.s r.a)
  | 0x05 => guardI (r.rr false false false && r.bZero && r.d == 0) (.ssave r.s r.a)
  | 0x06 => guardI (r.rr false false false && r.bZero && r.d == 0) (.srest r.s r.a)
  | 0x03 => guardI (r.rr false false false && r.bZero && r.a == 0) (.stend r.d r.s)
  | 0x04 => guardI (r.rr false false false && r.bZero && r.a == 0 && r.d == 0) (.sclose r.s)
  | 0x07 =>
    guardI (r.rr true false false && r.bZero && r.d == 0 && r.s.toNat < 2 && decide (r.cimm.toNat < 2 ^ 32))
      (.fopen (r.s == 1) r.a (r.cimm.setWidth 32))
  | 0x08 => guardI (r.rr false false false && r.bZero && r.d == 0 && r.s.toNat < 2) (.fadv (r.s == 1) r.a)
  | 0x09 =>
    guardI (r.rr false false false && r.bZero && r.a == 0 && r.d.toNat < 8 && r.s.toNat < 2)
      (.ftend (r.d.setWidth 3) (r.s == 1))
  | 0x0a => guardI (r.rr false false false && r.bZero && r.a == 0 && r.d == 0 && r.s.toNat < 2) (.fclose (r.s == 1))
  | 0x0b =>
    guardI (r.rr false false false && r.bZero && r.a == 0 && r.s == 0 && r.d.toNat < 8)
      (.fisect (r.d.setWidth 3))
  | 0x0c =>
    guardI (r.rr false false false && r.bZero && r.a == 0 && r.s == 0 && r.d.toNat < 8)
      (.funion (r.d.setWidth 3))
  | 0x0d => guardI (r.rr false false false && r.s.toNat < 2) (.bmand (r.s == 1) r.d r.a r.b)
  | 0x0e => guardI (r.rr false false false && r.s.toNat < 2) (.bmpfx (r.s == 1) r.d r.a r.b)
  | 0x0f => guardI (r.rr false false true && r.bZero) (.spack r.s r.d r.a r.k)
  | 0x10 => guardI (r.rr false false true) (.sunpk r.s r.d r.a r.b r.k)
  | 0x11 =>
    guardI (r.noPsc && r.noPxr && decide ((r.immZ 5 (r.base.extractLsb' 0 5)).toNat < 65536))
      (.rep (r.base.extractLsb' 5 5) ((r.immZ 5 (r.base.extractLsb' 0 5)).setWidth 16))
  | 0x12 =>
    guardI (r.noPsc && r.noPxi && r.k == 0 && !r.hs && r.bZero && !r.base.getLsbD 0)
      (.repx (r.base.extractLsb' 1 5) r.d)
  | 0x13 => guardI (r.rr false false false && r.bZero && r.a == 0 && r.d == 0 && r.s == 0) .repbrk
  | _ => none

/-- The forms of page 3 (Tables 3.6 to 3.9). -/
def decodePage3 (r : Raw) : Option Instr :=
  match r.op.toNat with
  | 0x00 =>
    guardI (r.rr true false false && r.s == 0 && r.bZero && r.a == 0 && r.cimm < 6)
      (.widf r.d (r.cimm.setWidth 3))
  | 0x01 => guardI (r.rr false false false && r.s == 0) (.widr r.d r.a r.b)
  | 0x0e => guardI (r.rr false false false && r.s == 0) (.wqput r.d r.a r.b)
  | 0x10 => guardI (r.rr false false false && r.s == 0) (.rinj r.d r.a r.b)
  | 0x02 =>
    guardI (r.rr true false false && r.s == 0 && r.bZero && r.d == 0 && r.cimm < 8)
      (.spawn r.a (r.cimm.getLsbD 0) (r.cimm.getLsbD 1) (r.cimm.getLsbD 2))
  | 0x03 =>
    guardI (r.rr true false false && r.s == 0 && r.bZero && r.cimm < 4)
      (.spawnd r.d r.a (r.cimm.getLsbD 0) (r.cimm.getLsbD 1))
  | 0x04 => guardI (r.rr false false false && r.s == 0 && r.d == 0) (.susp r.a r.b)
  | 0x05 => guardI (r.rr false false false && r.s == 0 && r.bZero) (.join r.d r.a)
  | 0x07 => guardI (r.rr false false false && r.s == 0 && r.bZero) (.gdone r.d r.a)
  | 0x08 => guardI (r.rr false false false && r.s == 0 && r.bZero) (.glaunch r.d r.a)
  | 0x09 => guardI (r.rr false false false && r.s == 0 && r.bZero) (.sstep r.d r.a)
  | 0x0d => guardI (r.rr false false false && r.s == 0 && r.bZero) (.barw r.d r.a)
  | 0x12 => guardI (r.rr false false false && r.s == 0 && r.bZero) (.mtclr r.d r.a)
  | 0x13 => guardI (r.rr false false false && r.s == 0 && r.bZero) (.rstat r.d r.a)
  | 0x14 => guardI (r.rr false false false && r.s == 0 && r.bZero) (.rdrain r.d r.a)
  | 0x06 => guardI (r.rr false false false && r.s == 0 && r.bZero && r.d == 0 && r.a == 0) .trig
  | 0x0a =>
    guardI (r.rr true false false && r.s == 0 && r.bZero && r.d == 0 && r.cimm < 64)
      (.vote r.a (r.cimm.setWidth 6))
  | 0x0b =>
    guardI (r.rr true false false && r.s == 0 && r.bZero && r.d == 0 && decide (r.cimm.toNat < 2 ^ 30) && r.cimm.extractLsb' 22 8 != 0)
      (.xsend r.a (r.cimm.setWidth 6) (r.cimm.extractLsb' 6 16) (r.cimm.extractLsb' 22 8))
  | 0x0c =>
    guardI (r.rr true false false && r.s == 0 && r.bZero && r.d == 0 && r.a == 0 && r.cimm < 64)
      (.bara (r.cimm.setWidth 6))
  | 0x0f => guardI (r.rr false false false && r.s == 0 && r.bZero && r.a == 0 && !r.d.getLsbD 0) (.wqtake r.d)
  | 0x11 => guardI (r.rr true false false && r.s == 0 && r.bZero && r.cimm < 64) (.mtset r.d r.a (r.cimm.setWidth 6))
  | 0x15 => guardI (r.rr false false false && r.s == 0 && r.bZero && r.a == 0) (.rtake r.d)
  | _ => none

/-- The forms of page 4 (Tables 3.6 to 3.9). -/
def decodePage4 (r : Raw) : Option Instr :=
  match r.op.toNat with
  | 0x00 => guardI (r.mem true false) (.ldg r.s r.d r.a r.off r.win)
  | 0x01 => guardI (r.mem false false) (.stg r.s r.d r.a r.off)
  | 0x02 => guardI (r.mem true false && r.s == 3 && !r.d.getLsbD 0) (.ldv r.d r.a r.off r.win)
  | 0x03 => guardI (r.mem false false && r.s == 3 && !r.d.getLsbD 0) (.stv r.d r.a r.off)
  | 0x04 => guardI (r.rr false false false && r.s == 0) (.reclaim r.d r.a r.b)
  | 0x05 => guardI (r.rr false false false && r.s == 0 && r.bZero && r.d == 0) (.llock r.a)
  | 0x06 => guardI (r.rr false false false && r.s == 0 && r.bZero) (.sunlk r.d r.a)
  | 0x07 =>
    guardI (r.rr true true false && r.s.getLsbD 1 && decide (r.cimm.toNat < 512) && decide ((r.cimm.extractLsb' 0 4).toNat < 9) && r.cimm.extractLsb' 6 3 != 7)
      (.amo r.s (r.cimm.extractLsb' 0 4) (r.cimm.extractLsb' 4 2) (r.cimm.extractLsb' 6 3) r.d r.a r.b r.win)
  | 0x08 =>
    guardI (r.rr true true false && r.s.getLsbD 1 && decide (r.cimm.toNat < 512) && r.cimm.extractLsb' 0 4 == 0 && r.cimm.extractLsb' 6 3 != 7)
      (.acas r.s (r.cimm.extractLsb' 4 2) (r.cimm.extractLsb' 6 3) r.d r.a r.b r.win)
  | 0x09 =>
    guardI (r.rr true false false && r.s == 0 && r.bZero && r.d == 0 && r.a == 0 && r.cimm < 32 && r.cimm.extractLsb' 2 3 != 7)
      (.fence (r.cimm.setWidth 2) (r.cimm.extractLsb' 2 3))
  | 0x0a => guardI (r.rr true false false && r.s == 0 && r.bZero && r.cimm < 64) (.cbwait r.d r.a (r.cimm.setWidth 6))
  | 0x0c => guardI (r.rr true false false && r.s == 0 && r.bZero && r.cimm < 64) (.cbclm r.d r.a (r.cimm.setWidth 6))
  | 0x0b =>
    guardI (r.rr true false false && r.s == 0 && r.bZero && r.d == 0 && r.cimm < 64)
      (.cbrel r.a (r.cimm.setWidth 6))
  | 0x0d =>
    guardI (r.rr true false false && r.s == 0 && r.bZero && r.d == 0 && r.cimm < 64)
      (.cbpub r.a (r.cimm.setWidth 6))
  | _ => none

/-- The forms of page 5 (Tables 3.6 to 3.9). -/
def decodePage5 (r : Raw) : Option Instr :=
  match r.op.toNat with
  | 0x00 =>
    guardI (r.rr true false false && r.s == 0 && r.bZero && r.d == 0 && r.cimm < 128)
      (.cpset r.a (r.cimm.setWidth 7))
  | 0x01 => guardI (r.rr false false false && r.s == 0 && r.bZero) (.cpgo r.d r.a)
  | 0x02 => guardI (r.rr false false false && r.s == 0 && r.bZero) (.cpstat r.d r.a)
  | 0x03 => guardI (r.rr true false false && r.s == 0 && r.bZero && r.cimm < 2) (.ixpost r.d r.a (r.cimm == 1))
  | 0x04 =>
    guardI (r.rr true false false && r.s == 0 && r.bZero && r.d == 0 && r.a == 0 && r.cimm != 0 && r.cimm < 65)
      (.mlease (r.cimm.setWidth 7))
  | 0x05 => guardI (r.rr false false false && r.s == 0 && r.bZero && r.d == 0 && r.a == 0) .mrel
  | 0x06 =>
    guardI (r.rr true false false && r.s == 0 && r.bZero && r.d == 0 && decide (r.cimm.toNat < 2 ^ 17) && mfmtOk (r.cimm.setWidth 17))
      (.mfmt r.a (r.cimm.setWidth 17))
  | 0x07 =>
    guardI (r.rr true false false && r.s == 0 && !r.d.getLsbD 0 && !r.b.getLsbD 0 && !r.a.getLsbD 0 && r.cimm < 2)
      (.mma r.d r.a r.b (r.cimm == 1))
  | 0x08 =>
    guardI (r.rr true false false && r.s == 0 && !r.d.getLsbD 0 && !r.b.getLsbD 0 && r.cimm < 2)
      (.mconv r.d r.a r.b (r.cimm == 1))
  | 0x09 => guardI (r.rr false false false && r.s == 0 && r.bZero && r.a == 0) (.mdrain r.d)
  | 0x0a => guardI (r.rr false false false && r.s == 0 && r.bZero && r.a == 0) (.mstat r.d)
  | 0x0b =>
    guardI (r.rr true false false && r.s == 0 && r.bZero && r.d == 0 && r.cimm < 4)
      (.pmask r.a (r.cimm.setWidth 2))
  | 0x0c => guardI (r.rr true false false && r.s == 0 && r.bZero && r.cimm < 64) (.ldrows r.d r.a (r.cimm.setWidth 6))
  | 0x0d => guardI (r.rr true false false && r.s == 0 && r.bZero && r.cimm < 64) (.strows r.d r.a (r.cimm.setWidth 6))
  | 0x0e => guardI (r.rr false false false && r.s == 0 && r.d == 0) (.epush r.a r.b)
  | 0x0f => guardI (r.rr false true false && r.s == 0 && r.bZero && r.a == 0) (.epop r.d r.win)
  | 0x10 =>
    guardI (r.rr true false false && r.s == 0 && r.bZero && r.cimm < 8)
      (.ctab r.d r.a (r.cimm.getLsbD 0) (r.cimm.extractLsb' 1 2))
  | 0x11 =>
    guardI (r.rr true false false && r.s == 0 && r.bZero && r.a == 0 && r.cimm < 8)
      (.ctabg r.d (r.cimm.getLsbD 0) (r.cimm.extractLsb' 1 2))
  | _ => none

/-- The forms of page 6 (Tables 3.6 to 3.9). -/
def decodePage6 (r : Raw) : Option Instr :=
  match r.op.toNat with
  | 0x00 => guardI (r.rr false false false && r.s == 0 && r.bZero && r.d == 0 && r.a == 0) .tret
  | 0x01 =>
    guardI (r.rr true false false && r.s == 0 && r.bZero && r.cimm < 16 && (r.cimm.setWidth 2 != (0 : BitVec 2) || r.d == 0))
      (.ctxsel (r.cimm.setWidth 2) (r.cimm.extractLsb' 2 2) r.d r.a)
  | 0x02 => guardI (r.rr false false false && r.s == 0) (.htresResume r.d r.a r.b)
  | 0x03 => guardI (r.rr false false false && r.s == 0) (.pset r.d r.a r.b)
  | 0x04 => guardI (r.rr true false false && r.s == 0 && r.bZero && r.cimm < 8) (.qset (r.cimm.setWidth 3) r.d r.a)
  | 0x05 =>
    guardI (r.rr true false false && r.s == 0 && r.d == 0 && decide (r.cimm.toNat < 256) && r.cimm.setWidth 2 != (3 : BitVec 2))
      (.slinv r.a r.b (r.cimm.setWidth 2) (r.cimm.extractLsb' 2 6))
  | 0x06 => guardI (r.rr false false false && r.s == 0 && r.bZero) (.mlrev r.d r.a)
  | _ => none

/-- The forms of page 7 (Tables 3.6 to 3.9). -/
def decodePage7 (r : Raw) : Option Instr :=
  match r.op.toNat with
  | 0x00 => guardI (r.rr false false false && r.bZero && (r.s != 3 || decide (r.a.toNat < 8))) (.mkrd r.s r.d r.a)
  | 0x01 => guardI (r.rr false false false && r.s == 0 && r.bZero && r.d == 0) (.mkctx r.a)
  | 0x02 => guardI (r.rr false false false && r.s.toNat < 2) (.mkjoin (r.s == 1) r.d r.a r.b)
  | 0x03 =>
    guardI (r.rr true false false && r.s == 0 && r.bZero && decide (r.cimm.toNat < 256))
      (.gatesub r.d r.a (r.cimm.getLsbD 0) (r.cimm.getLsbD 7) (r.cimm.extractLsb' 1 6))
  | 0x04 => guardI (r.rr false false false && r.s == 0 && r.bZero) (.gatest r.d r.a)
  | 0x05 =>
    guardI (r.rr true false false && r.s == 0 && r.bZero && r.a == 0 && r.cimm < 64)
      (.fuserd r.d (r.cimm.setWidth 6))
  | 0x06 => guardI (r.rr false false false && r.s == 0 && r.bZero && r.d == 0 && r.a == 0) .kwipe
  | 0x07 =>
    guardI (r.rr true false false && r.s == 0 && r.bZero && r.d == 0 && r.cimm < 7)
      (.measx r.a (r.cimm.setWidth 3))
  | 0x08 => guardI (r.rr true false false && r.s == 0 && r.bZero && r.cimm < 64) (.attest r.d r.a (r.cimm.setWidth 6))
  | 0x09 => guardI (r.rr false false false && r.s == 0 && r.bZero) (.dbgopen r.d r.a)
  | _ => none

/-- The forms of page 8 (Tables 3.6 to 3.9). -/
def decodePage8 (r : Raw) : Option Instr :=
  match r.op.toNat with
  | 0x00 =>
    guardI (r.rr true false false && r.s == 0 && r.cimm < 128 && r.cimm.setWidth 2 != (3 : BitVec 2) && r.cimm.extractLsb' 3 1 == 0)
      (.hacc (r.cimm.setWidth 2) (r.cimm.getLsbD 2) (r.cimm.extractLsb' 4 3) r.d r.a r.b)
  | 0x01 =>
    guardI (r.rr true true false && r.s == 0 && r.cimm < 8 && r.cimm.setWidth 2 == (0 : BitVec 2))
      (.hprobe (r.cimm.getLsbD 2) r.d r.a r.b r.win)
  | _ => none

/-- The instruction of a raw word of pages 0 to 8, if it is one (R99). -/
def decodeRaw (r : Raw) : Option Instr :=
  match r.page.toNat with
  | 0 => decodePage0 r
  | 1 => decodePage1 r
  | 2 => decodePage2 r
  | 3 => decodePage3 r
  | 4 => decodePage4 r
  | 5 => decodePage5 r
  | 6 => decodePage6 r
  | 7 => decodePage7 r
  | 8 => decodePage8 r
  | _ => none

/-- FINFO of ILL and EMU (R42). (DEDUCED, log entry 23.) -/
def illFinfo (base : Parcel) (page : BitVec 4) (n : Nat) : Word :=
  ((BitVec.ofNat 3 n ++ page ++ base : BitVec 23)).setWidth 64

/-- What the decoder finds: an instruction with its length in bytes and the FINFO it would have, an encoding that is
illegal or that only a handler knows, or parcels that run out. -/
inductive Decoded where
  | instr (i : Instr) (len : Nat) (finfo : Word)
  | illegal (finfo : Word) (len : Nat)
  | emulate (finfo : Word) (len : Nat)
  | short
  deriving DecidableEq, Repr

/-- Decodes the instruction that a list of parcels begins with (R79, R82, R99, R100). -/
def decode (ps : List Parcel) : Decoded :=
  match scan ps Prefixes.none with
  | .short => .short
  | .illegal b g n => .illegal (illFinfo b g n) (2 * (n + 1))
  | .raw r n =>
    let f := illFinfo r.base r.page n
    if r.page.toNat > 8 then .emulate f (2 * (n + 1))
    else match decodeRaw r with
      | some i => .instr i (2 * (n + 1)) f
      | none => .illegal f (2 * (n + 1))

/-! ## The table's words -/

/-- The parcels of a table word: with 32 bits, the prefix parcel stands first whichever half of the number holds it. -/
def tableParcels (nbits w : Nat) : List Parcel :=
  let lo := BitVec.ofNat 16 w
  let up := BitVec.ofNat 16 (w / 65536)
  let zeros : List Parcel := [0, 0, 0, 0, 0]
  if nbits ≤ 16 then lo :: zeros
  else if (opField up).toNat < 0x3C then lo :: up :: zeros else up :: lo :: zeros

/-- The instruction that the decoder reads from a table word. -/
def decodeTableWord (nbits w : Nat) : Option Instr :=
  match decode (tableParcels nbits w) with
  | .instr i _ _ => some i
  | _ => none

/-! ## The encoder -/

/-- The low `10 * n` bits of a number as n PXI parcels, most significant first (R80). -/
def pxiOf : Nat → Nat → List (BitVec 10)
  | 0, _ => []
  | n + 1, q => BitVec.ofNat 10 (q / 2 ^ (10 * n)) :: pxiOf n q

/-- The fewest PXI parcels that hold a zero-extended immediate above `n` base bits (R104). -/
def pxiZ (n : Nat) (v : Word) : Nat :=
  if fitsZ n v then 0 else if fitsZ (n + 10) v then 1 else if fitsZ (n + 20) v then 2
  else if fitsZ (n + 30) v then 3 else 4

/-- The fewest PXI parcels that hold a sign-extended immediate above `n` base bits (R104). -/
def pxiS (n : Nat) (v : Word) : Nat :=
  if n == 0 && v == 0 then 0
  else if n != 0 && fitsS n v then 0 else if fitsS (n + 10) v then 1 else if fitsS (n + 20) v then 2
  else if fitsS (n + 30) v then 3 else 4

/-- A PXR parcel's fields. -/
def pxrOf (d a b : Reg) (k : KReg) : BitVec 10 :=
  BitVec.ofBool (d.getLsbD 4) ++ BitVec.ofBool (a.getLsbD 4) ++ b ++ k

/-- A PSC parcel's fields, when the window needs one. -/
def pscOf (w : Win) : Option (BitVec 10) :=
  if w.la == 0 then none else some ((0 : BitVec 1) ++ BitVec.ofBool w.ver1 ++ w.la ++ (0 : BitVec 4))

/-- A base parcel in RR layout. -/
def baseRR (op : Nat) (d a : Reg) (s : BitVec 2) : Parcel :=
  BitVec.ofNat 6 op ++ d.extractLsb' 0 4 ++ a.extractLsb' 0 4 ++ s

/-- An RR form with a B field. -/
def rr3 (page op : Nat) (d a b : Reg) (s : BitVec 2) (k : KReg) (c : Word) (w : Win) : Raw :=
  ⟨BitVec.ofNat 4 page, if need3 d a b k == 0 then none else some (pxrOf d a b k), pxiOf (pxiZ 0 c) c.toNat, pscOf w,
    baseRR op d a s⟩

/-- An RR form without a B field. -/
def rr2 (page op : Nat) (d a : Reg) (s : BitVec 2) (k : KReg) (c : Word) (w : Win) : Raw :=
  ⟨BitVec.ofNat 4 page, if need2 d a k == 0 then none else some (pxrOf d a 0 k), pxiOf (pxiZ 0 c) c.toNat, pscOf w,
    baseRR op d a s⟩

/-- An M form. -/
def mF (page op : Nat) (z : BitVec 2) (d a : Reg) (k : KReg) (off : Word) (w : Win) : Raw :=
  ⟨BitVec.ofNat 4 page, if needM d a k == 0 then none else some (pxrOf d a 0 k), pxiOf (pxiS 0 off) off.toNat, pscOf w,
    baseRR op d a z⟩

/-- A base parcel with a 6-bit immediate. -/
def baseRI (op : Nat) (d : Reg) (i : BitVec 6) : Parcel := BitVec.ofNat 6 op ++ d.extractLsb' 0 4 ++ i

/-- An RI or BR form with a given number of PXI parcels. -/
def riN (page op : Nat) (d : Reg) (b : Option Reg) (imm : Word) (n : Nat) : Raw :=
  ⟨BitVec.ofNat 4 page, if needRI d b == 0 then none else some (pxrOf d 0 (b.getD 0) 0),
    pxiOf n (imm.toNat / 64), none, baseRI op d (imm.setWidth 6)⟩

/-- An RI or BR form of page 0 with a sign-extended immediate. -/
def riS (op : Nat) (d : Reg) (b : Option Reg) (imm : Word) : Raw := riN 0 op d b imm (pxiS 6 imm)

/-- An RI form of page 0 with a zero-extended immediate. -/
def riZ (op : Nat) (d : Reg) (b : Option Reg) (imm : Word) : Raw := riN 0 op d b imm (pxiZ 6 imm)

/-- A shift by an immediate. -/
def riI (op : Nat) (d : Reg) (b : Option Reg) (sh : BitVec 6) : Raw := riN 0 op d b (sh.setWidth 64) 0

/-- An RI form of another page with a sign-extended immediate and no source. -/
def riP (page op : Nat) (d : Reg) (imm : Word) : Raw := riN page op d none imm (pxiS 6 imm)

/-- BQB. -/
def riQ (n : BitVec 6) : Raw := riN 1 0x26 0 none (n.setWidth 64) 0

/-- A J form. -/
def jF (op : Nat) (off : Word) : Raw :=
  ⟨0, none, pxiOf (pxiS 10 off) (off.toNat / 1024), none, BitVec.ofNat 6 op ++ off.extractLsb' 0 10⟩

/-- A CS form. -/
def csF (op : Nat) (d : Reg) (c : BitVec 6) : Raw := riN 0 op d none (c.setWidth 64) 0

/-- An SY form with an immediate. -/
def syI (f : Nat) (i : BitVec 6) : Raw := ⟨0, none, [], none, BitVec.ofNat 6 0x3A ++ BitVec.ofNat 4 f ++ i⟩

/-- An SY form with a register. -/
def syR (f : Nat) (a : Reg) : Raw :=
  ⟨0, if a.toNat < 16 then none else some (pxrOf 0 a 0 0), [], none,
    BitVec.ofNat 6 0x3A ++ BitVec.ofNat 4 f ++ a.extractLsb' 0 4 ++ (0 : BitVec 2)⟩

/-- REP. -/
def wiF (len : BitVec 5) (cnt : BitVec 16) : Raw :=
  ⟨2, none, pxiOf (pxiZ 5 (cnt.setWidth 64)) (cnt.toNat / 32), none,
    BitVec.ofNat 6 0x11 ++ len ++ cnt.extractLsb' 0 5⟩

/-- REPX. -/
def wrF (len : BitVec 5) (a : Reg) : Raw :=
  ⟨2, if a.toNat < 16 then none else some (pxrOf a 0 0 0), [], none,
    BitVec.ofNat 6 0x12 ++ a.extractLsb' 0 4 ++ len ++ (0 : BitVec 1)⟩

/-- One bit as a 2-bit field. -/
def bit2 (b : Bool) : BitVec 2 := (0 : BitVec 1) ++ BitVec.ofBool b

/-- Two options as a control immediate, the first in bit 0. -/
def bits2 (a b : Bool) : Word := (BitVec.ofBool b ++ BitVec.ofBool a).setWidth 64

/-- Three options as a control immediate, the first in bit 0. -/
def bits3 (a b c : Bool) : Word := (BitVec.ofBool c ++ BitVec.ofBool b ++ BitVec.ofBool a).setWidth 64

/-- The control immediate of VCVT (Table 5.5). -/
def vcvtImm (src dst : ETy) (sat : Bool) (part : BitVec 3) (ctid : BitVec 2) : Word :=
  (ctid ++ part ++ BitVec.ofBool sat ++ (0 : BitVec 1) ++ src.code ++ dst.code).setWidth 64

/-- The fields of an instruction's encoding; a machine step has none. -/
def rawOf : Instr → Option Raw

  | .add d a b => some (rr3 0 0x0 d a b 0 0 0 Win.none)
  | .sub d a b => some (rr3 0 0x1 d a b 0 0 0 Win.none)
  | .and d a b => some (rr3 0 0x2 d a b 0 0 0 Win.none)
  | .or d a b => some (rr3 0 0x3 d a b 0 0 0 Win.none)
  | .xor d a b => some (rr3 0 0x4 d a b 0 0 0 Win.none)
  | .sll d a b => some (rr3 0 0x5 d a b 0 0 0 Win.none)
  | .srl d a b => some (rr3 0 0x6 d a b 0 0 0 Win.none)
  | .sra d a b => some (rr3 0 0x7 d a b 0 0 0 Win.none)
  | .slt d a b => some (rr3 0 0x8 d a b 0 0 0 Win.none)
  | .sltu d a b => some (rr3 0 0x9 d a b 0 0 0 Win.none)
  | .min d a b => some (rr3 0 0xa d a b 0 0 0 Win.none)
  | .max d a b => some (rr3 0 0xb d a b 0 0 0 Win.none)
  | .minu d a b => some (rr3 0 0xc d a b 0 0 0 Win.none)
  | .maxu d a b => some (rr3 0 0xd d a b 0 0 0 Win.none)
  | .mul d a b w => some (rr3 0 0xe d a b 0 0 0 w)
  | .mulh d a b w => some (rr3 0 0xf d a b 0 0 0 w)
  | .mulhu d a b w => some (rr3 0 0x10 d a b 0 0 0 w)
  | .div d a b w => some (rr3 0 0x11 d a b 0 0 0 w)
  | .divu d a b w => some (rr3 0 0x12 d a b 0 0 0 w)
  | .rem d a b w => some (rr3 0 0x13 d a b 0 0 0 w)
  | .remu d a b w => some (rr3 0 0x14 d a b 0 0 0 w)
  | .addi d b imm => some (riS 0x15 d (some b) imm)
  | .andi d b imm => some (riZ 0x16 d (some b) imm)
  | .ori d b imm => some (riZ 0x17 d (some b) imm)
  | .xori d b imm => some (riZ 0x18 d (some b) imm)
  | .slli d b sh => some (riI 0x19 d (some b) sh)
  | .srli d b sh => some (riI 0x1a d (some b) sh)
  | .srai d b sh => some (riI 0x1b d (some b) sh)
  | .slti d b imm => some (riS 0x1c d (some b) imm)
  | .sltiu d b imm => some (riZ 0x1d d (some b) imm)
  | .li d imm => some (riS 0x1e d none imm)
  | .clz d a => some (rr2 0 0x1f d a 0 0 0 Win.none)
  | .ctz d a => some (rr2 0 0x20 d a 0 0 0 Win.none)
  | .popc d a => some (rr2 0 0x21 d a 0 0 0 Win.none)
  | .brev d a => some (rr2 0 0x22 d a 0 0 0 Win.none)
  | .bext d a b => some (rr3 0 0x23 d a b 0 0 0 Win.none)
  | .bins d a b => some (rr3 0 0x24 d a b 0 0 0 Win.none)
  | .mv d a => some (rr2 0 0x25 d a 0 0 0 Win.none)
  | .cmov d a b => some (rr3 0 0x26 d a b 0 0 0 Win.none)
  | .ld z d a off => some (mF 0 0x27 z d a 0 off Win.none)
  | .st z d a off => some (mF 0 0x28 z d a 0 off Win.none)
  | .ldp z d a off => some (mF 0 0x29 z d a 0 off Win.none)
  | .stp z d a off => some (mF 0 0x2a z d a 0 off Win.none)
  | .beq a b off => some (riS 0x2b a (some b) off)
  | .bne a b off => some (riS 0x2c a (some b) off)
  | .blt a b off => some (riS 0x2d a (some b) off)
  | .bge a b off => some (riS 0x2e a (some b) off)
  | .bltu a b off => some (riS 0x2f a (some b) off)
  | .bgeu a b off => some (riS 0x30 a (some b) off)
  | .j off => some (jF 0x31 off)
  | .jal off => some (jF 0x32 off)
  | .jr a => some (rr2 0 0x33 0 a 0 0 0 Win.none)
  | .jalr d a => some (rr2 0 0x34 d a 0 0 0 Win.none)
  | .bqpush a => some (rr2 0 0x35 0 a 0 0 0 Win.none)
  | .csrr d c => some (csF 0x36 d c)
  | .csrw d c => some (csF 0x37 d c)
  | .csrs d c => some (csF 0x38 d c)
  | .csrc d c => some (csF 0x39 d c)
  | .cplaunchRead d => some (csF 0x36 d 0x1f)
  | .ctxpWrite op d => some (csF (match op with | .w => 0x37 | .s => 0x38 | .c => 0x39) d 0x14)
  | .nop => some (syI 0 0)
  | .trap imm => some (syI 1 imm)
  | .brk imm => some (syI 2 imm)
  | .exit => some (syI 3 0)
  | .wfe line => some (syI 4 line)
  | .evsig a => some (syR 5 a)
  | .wfm => some (syI 6 0)
  | .mbrd d => some (syR 7 d)
  | .vadd f d a b k => some (rr3 1 0x0 d a b f.code k 0 Win.none)
  | .vsub f d a b k => some (rr3 1 0x1 d a b f.code k 0 Win.none)
  | .vmul f d a b k => some (rr3 1 0x2 d a b f.code k 0 Win.none)
  | .vfma f d a b k => some (rr3 1 0x3 d a b f.code k 0 Win.none)
  | .vfms f d a b k => some (rr3 1 0x4 d a b f.code k 0 Win.none)
  | .vfnma f d a b k => some (rr3 1 0x5 d a b f.code k 0 Win.none)
  | .vfnms f d a b k => some (rr3 1 0x6 d a b f.code k 0 Win.none)
  | .vmin f d a b k => some (rr3 1 0x7 d a b f.code k 0 Win.none)
  | .vmax f d a b k => some (rr3 1 0x8 d a b f.code k 0 Win.none)
  | .vabs f d a k => some (rr2 1 0x9 d a f.code k 0 Win.none)
  | .vneg f d a k => some (rr2 1 0xa d a f.code k 0 Win.none)
  | .vrcp f d a k w => some (rr2 1 0xb d a f.code k 0 w)
  | .vrsq f d a k w => some (rr2 1 0xc d a f.code k 0 w)
  | .vsqrt f d a k w => some (rr2 1 0xd d a f.code k 0 w)
  | .vdiv f d a b k w => some (rr3 1 0xe d a b f.code k 0 w)
  | .vexp2 f d a k w => some (rr2 1 0xf d a f.code k 0 w)
  | .vcmp f p d a b k => some (rr3 1 0x10 (d.setWidth 5) a b f.code k (p.setWidth 64) Win.none)
  | .vsel z d a b k => some (rr3 1 0x11 d a b z k 0 Win.none)
  | .vcvt src dst sat part ctid d a k => some (rr2 1 0x12 d a 0 k (vcvtImm src dst sat part ctid) Win.none)
  | .vclass f d a k => some (rr2 1 0x13 d a f.code k 0 Win.none)
  | .viadd z m d a b k => some (rr3 1 0x14 d a b z k (m.setWidth 64) Win.none)
  | .visub z m d a b k => some (rr3 1 0x15 d a b z k (m.setWidth 64) Win.none)
  | .vimul z m d a b k => some (rr3 1 0x16 d a b z k (m.setWidth 64) Win.none)
  | .vsh z m d a b k => some (rr3 1 0x17 d a b z k (m.setWidth 64) Win.none)
  | .vand z d a b k => some (rr3 1 0x18 d a b z k 0 Win.none)
  | .vor z d a b k => some (rr3 1 0x19 d a b z k 0 Win.none)
  | .vxor z d a b k => some (rr3 1 0x1a d a b z k 0 Win.none)
  | .vdot4 t d a b k w => some (rr3 1 0x1b d a b t.code k 0 w)
  | .vred f op d a k w => some (rr2 1 0x1c d a f.code k (op.setWidth 64) w)
  | .vbcast z lane d a k => some (rr2 1 0x1d d a z k (lane.setWidth 64) Win.none)
  | .vperm z zhi d a b k => some (rr3 1 0x1e d a b z k (if zhi then 1 else 0) Win.none)
  | .vmvx z lane d a => some (rr2 1 0x1f d a z 0 (lane.setWidth 64) Win.none)
  | .vmxv z d a k => some (rr2 1 0x20 d a z k 0 Win.none)
  | .vld z d a off k => some (mF 1 0x21 z d a k off Win.none)
  | .vst z d a off k => some (mF 1 0x22 z d a k off Win.none)
  | .vldi d imm => some (riP 1 0x23 d (imm.signExtend 64))
  | .kop op d a b => some (rr3 1 0x24 (d.setWidth 5) (a.setWidth 5) (b.setWidth 5) op 0 0 Win.none)
  | .kpop d a => some (rr2 1 0x25 d (a.setWidth 5) 0 0 0 Win.none)
  | .bqb n => some (riQ n)
  | .accz a => some (rr2 1 0x27 0 a 0 0 0 Win.none)
  | .accw bf prod d a b k => some (if prod then rr3 1 0x28 d a b (if bf then 1 else 0) k 1 Win.none else rr2 1 0x28 d a (if bf then 1 else 0) k 0 Win.none)
  | .accrd bf d a w => some (rr2 1 0x29 d a (if bf then 1 else 0) 0 0 w)
  | .sopen n a wr vec => some (rr2 2 0x0 0 a n 0 (bits2 wr vec) Win.none)
  | .sopenx n a wr vec => some (rr2 2 0x1 0 a n 0 (bits2 wr vec) Win.none)
  | .sadv n a => some (rr2 2 0x2 0 a n 0 0 Win.none)
  | .stend d n => some (rr2 2 3 d 0 n 0 0 Win.none)
  | .sclose n => some (rr2 2 4 0 0 n 0 0 Win.none)
  | .ssave n a => some (rr2 2 0x5 0 a n 0 0 Win.none)
  | .srest n a => some (rr2 2 0x6 0 a n 0 0 Win.none)
  | .fopen n a start => some (rr2 2 7 0 a (bit2 n) 0 (start.setWidth 64) Win.none)
  | .fadv n a => some (rr2 2 8 0 a (bit2 n) 0 0 Win.none)
  | .ftend d n => some (rr2 2 9 (d.setWidth 5) 0 (bit2 n) 0 0 Win.none)
  | .fclose n => some (rr2 2 0xa 0 0 (bit2 n) 0 0 Win.none)
  | .fisect d => some (rr2 2 0xb (d.setWidth 5) 0 0 0 0 Win.none)
  | .funion d => some (rr2 2 0xc (d.setWidth 5) 0 0 0 0 Win.none)
  | .bmand m d a b => some (rr3 2 0xd d a b (bit2 m) 0 0 Win.none)
  | .bmpfx m d a b => some (rr3 2 0xe d a b (bit2 m) 0 0 Win.none)
  | .spack z d a k => some (rr2 2 0xf d a z k 0 Win.none)
  | .sunpk z d a b k => some (rr3 2 0x10 d a b z k 0 Win.none)
  | .rep len cnt => some (wiF len cnt)
  | .repx len a => some (wrF len a)
  | .repbrk => some (rr2 2 0x13 0 0 0 0 0 Win.none)
  | .streamFetch _ => none
  | .hacc op i32 start d a b => some (rr3 8 0 d a b 0 0 ((start ++ (0 : BitVec 1) ++ BitVec.ofBool i32 ++ op).setWidth 64) Win.none)
  | .hprobe i32 d a b w => some (rr3 8 1 d a b 0 0 (if i32 then 4 else 0) w)
  | .widf d n => some (rr2 3 0x0 d 0 0 0 (n.setWidth 64) Win.none)
  | .widr d a b => some (rr3 3 0x1 d a b 0 0 0 Win.none)
  | .spawn a gh pri here => some (rr2 3 0x2 0 a 0 0 (bits3 gh pri here) Win.none)
  | .spawnd d a gh pri => some (rr2 3 0x3 d a 0 0 (bits2 gh pri) Win.none)
  | .susp a b => some (rr3 3 0x4 0 a b 0 0 0 Win.none)
  | .join d a => some (rr2 3 0x5 d a 0 0 0 Win.none)
  | .trig => some (rr2 3 0x6 0 0 0 0 0 Win.none)
  | .gdone d a => some (rr2 3 0x7 d a 0 0 0 Win.none)
  | .glaunch d a => some (rr2 3 0x8 d a 0 0 0 Win.none)
  | .sstep d a => some (rr2 3 0x9 d a 0 0 0 Win.none)
  | .vote a dom => some (rr2 3 0xa 0 a 0 0 (dom.setWidth 64) Win.none)
  | .xsend a dom start len => some (rr2 3 0xb 0 a 0 0 ((len ++ start ++ dom).setWidth 64) Win.none)
  | .bara dom => some (rr2 3 0xc 0 0 0 0 (dom.setWidth 64) Win.none)
  | .barw d a => some (rr2 3 0xd d a 0 0 0 Win.none)
  | .wqput d a b => some (rr3 3 0xe d a b 0 0 0 Win.none)
  | .wqtake d => some (rr2 3 0xf d 0 0 0 0 Win.none)
  | .rinj d a b => some (rr3 3 0x10 d a b 0 0 0 Win.none)
  | .mtset d a e => some (rr2 3 0x11 d a 0 0 (e.setWidth 64) Win.none)
  | .mtclr d a => some (rr2 3 0x12 d a 0 0 0 Win.none)
  | .rstat d a => some (rr2 3 0x13 d a 0 0 0 Win.none)
  | .rdrain d a => some (rr2 3 0x14 d a 0 0 0 Win.none)
  | .rtake d => some (rr2 3 0x15 d 0 0 0 0 Win.none)
  | .ldg z d a off w => some (mF 4 0 z d a 0 off w)
  | .stg z d a off => some (mF 4 1 z d a 0 off Win.none)
  | .ldv d a off w => some (mF 4 2 3 d a 0 off w)
  | .stv d a off => some (mF 4 3 3 d a 0 off Win.none)
  | .reclaim d a b => some (rr3 4 0x4 d a b 0 0 0 Win.none)
  | .llock a => some (rr2 4 0x5 0 a 0 0 0 Win.none)
  | .sunlk d a => some (rr2 4 0x6 d a 0 0 0 Win.none)
  | .amo z op ord sc d a b w => some (rr3 4 7 d a b z 0 ((sc ++ ord ++ op).setWidth 64) w)
  | .acas z ord sc d a b w => some (rr3 4 8 d a b z 0 ((sc ++ ord ++ (0 : BitVec 4)).setWidth 64) w)
  | .fence kind sc => some (rr2 4 0x9 0 0 0 0 ((sc ++ kind).setWidth 64) Win.none)
  | .cbwait d a buf => some (rr2 4 0xa d a 0 0 (buf.setWidth 64) Win.none)
  | .cbrel a buf => some (rr2 4 0xb 0 a 0 0 (buf.setWidth 64) Win.none)
  | .cbclm d a buf => some (rr2 4 0xc d a 0 0 (buf.setWidth 64) Win.none)
  | .cbpub a buf => some (rr2 4 0xd 0 a 0 0 (buf.setWidth 64) Win.none)
  | .cbClaim _ _ => none
  | .cbPublish _ _ => none
  | .cbTake _ _ => none
  | .cbRelease _ _ => none
  | .versionedRequest _ => none
  | .lockGrant _ _ => none
  | .remoteRequest _ => none
  | .translationWalk _ _ => none
  | .cpset a sel => some (rr2 5 0x0 0 a 0 0 (sel.setWidth 64) Win.none)
  | .cpgo d a => some (rr2 5 0x1 d a 0 0 0 Win.none)
  | .cpstat d a => some (rr2 5 0x2 d a 0 0 0 Win.none)
  | .ixpost d a sleep => some (rr2 5 0x3 d a 0 0 (if sleep then 1 else 0) Win.none)
  | .mlease n => some (rr2 5 0x4 0 0 0 0 (n.setWidth 64) Win.none)
  | .mrel => some (rr2 5 0x5 0 0 0 0 0 Win.none)
  | .mfmt a c => some (rr2 5 0x6 0 a 0 0 (c.setWidth 64) Win.none)
  | .mma d a b acc => some (rr3 5 0x7 d a b 0 0 (if acc then 1 else 0) Win.none)
  | .mconv d a b acc => some (rr3 5 0x8 d a b 0 0 (if acc then 1 else 0) Win.none)
  | .mdrain d => some (rr2 5 0x9 d 0 0 0 0 Win.none)
  | .mstat d => some (rr2 5 0xa d 0 0 0 0 Win.none)
  | .pmask a op => some (rr2 5 0xb 0 a 0 0 (op.setWidth 64) Win.none)
  | .ldrows d a line => some (rr2 5 0xc d a 0 0 (line.setWidth 64) Win.none)
  | .strows d a line => some (rr2 5 0xd d a 0 0 (line.setWidth 64) Win.none)
  | .epush a b => some (rr3 5 0xe 0 a b 0 0 0 Win.none)
  | .epop d w => some (rr2 5 0xf d 0 0 0 0 w)
  | .ctab d a fmt ctid => some (rr2 5 0x10 d a 0 0 ((ctid ++ BitVec.ofBool fmt).setWidth 64) Win.none)
  | .ctabg d fmt ctid => some (rr2 5 0x11 d 0 0 0 ((ctid ++ BitVec.ofBool fmt).setWidth 64) Win.none)
  | .copyRun _ _ => none
  | .copyFinish _ _ => none
  | .indirectRun _ => none
  | .indirectFinish _ => none
  | .mailboxDelivery _ => none
  | .rowUnitRun _ => none
  | .leaseGrant _ _ => none
  | .chunkStep _ _ => none
  | .outputStep _ _ => none
  | .markerComplete _ _ => none
  | .tret => some (rr2 6 0x0 0 0 0 0 0 Win.none)
  | .ctxsel op set d a => some (rr2 6 0x1 d a 0 0 ((set ++ op).setWidth 64) Win.none)
  | .htresResume d a b => some (rr3 6 0x2 d a b 0 0 0 Win.none)
  | .htresPreemptMilestone d a b => some (rr3 6 2 d a b 0 0 0 Win.none)
  | .htresPreemptSafepoint d a b => some (rr3 6 2 d a b 0 0 0 Win.none)
  | .htresPark d a b => some (rr3 6 2 d a b 0 0 0 Win.none)
  | .htresEnd d a b => some (rr3 6 2 d a b 0 0 0 Win.none)
  | .pset d a b => some (rr3 6 0x3 d a b 0 0 0 Win.none)
  | .qset sel d a => some (rr2 6 0x4 d a 0 0 (sel.setWidth 64) Win.none)
  | .slinv a b ty part => some (rr3 6 0x5 0 a b 0 0 ((part ++ ty).setWidth 64) Win.none)
  | .mlrev d a => some (rr2 6 0x6 d a 0 0 0 Win.none)
  | .mkrd s d a => some (rr2 7 0 d a s 0 0 Win.none)
  | .mkctx a => some (rr2 7 0x1 0 a 0 0 0 Win.none)
  | .mkjoin v d a b => some (rr3 7 2 d a b (bit2 v) 0 0 Win.none)
  | .gatesub d a wait evt line => some (rr2 7 0x3 d a 0 0 ((BitVec.ofBool evt ++ line ++ BitVec.ofBool wait).setWidth 64) Win.none)
  | .gatest d a => some (rr2 7 0x4 d a 0 0 0 Win.none)
  | .fuserd d word => some (rr2 7 0x5 d 0 0 0 (word.setWidth 64) Win.none)
  | .kwipe => some (rr2 7 0x6 0 0 0 0 0 Win.none)
  | .measx a n => some (rr2 7 0x7 0 a 0 0 (n.setWidth 64) Win.none)
  | .attest d a part => some (rr2 7 0x8 d a 0 0 (part.setWidth 64) Win.none)
  | .dbgopen d a => some (rr2 7 0x9 d a 0 0 0 Win.none)
  | .gateRun => none
  | .policyUseExpiry _ _ => none
  | .dcpEventAppend _ => none
  | .waitto _ => none
  | .waitSatisfied _ => none
  | .reservationCheck _ => none
  | .launchPromotion _ => none
  | .gangTimeout _ _ => none
  | .initialEnqueue _ => none
  | .continuationStart _ _ => none
  | .readyPromotion _ _ => none
  | .joinDecrement => none
  | .groupEnd _ => none
  | .xsendDelivery _ => none
  | .deadline _ => none
  | .deadlineForce _ _ => none
  | .safePointPark => none
  | .beatBoundary _ _ => none
  | .pairCopy _ _ => none
  | .segmentPark _ _ => none
  | .segmentResume _ _ => none
  | .rsegWrite _ _ _ => none
  | .rcfgWrite _ _ => none
  | .cbcfgWrite _ _ _ => none
  | .slotTableWrite _ _ _ => none
  | .kctlWrite _ _ => none
  | .secdbWrite _ => none
  | .secdbRead => none
  | .controlRegisterWrite _ _ _ => none
  | .qremExpiry _ => none
  | .softerr _ _ _ => none
  | .poison _ => none
  | .retirement _ => none
  | .mailboxCommandWrite _ _ _ _ => none
  | .mailboxWrite _ => none
  | .mailboxRead _ => none
  | .mailboxLaunch _ => none
  | .configPchip _ => none
  | .configSysn _ => none
  | .configSgid _ => none
  | .configChipst _ => none
  | .configChcfg _ => none
  | .configTmaster _ => none
  | .configTset _ => none
  | .configRecbase _ => none
  | .configReclen _ => none
  | .configRecmode _ => none
  | .configPcap _ => none
  | .hostEventWrite _ => none
  | .requestTimeout _ _ => none
  | .timeLockLoss => none
  | .timeLockRegain => none
  | .replayEntry _ => none
  | .frequencyChange _ _ _ _ => none
  | .thermalThrottle _ _ => none
  | .thermalRelease _ _ => none
  | .thermalTrip _ _ => none
  | .reset => none
  | .bringupStage => none
  | .smbusBlockRead _ => none
  | .smbusResetRequest => none
  | .illegalInstruction _ => none
  | .emulationTrap _ => none
  | .externalDebuggerAccess _ => none
  | .linkTraining _ _ => none

/-- The parcels of a raw word in the order PG, PXR, PXI, PSC, base (R104). -/
def Raw.parcels (r : Raw) : List Parcel :=
  (if r.page == 0 then [] else [((0x3C : BitVec 6) ++ (0 : BitVec 6) ++ r.page : Parcel)]) ++
  (match r.pxr with | some x => [((0x3D : BitVec 6) ++ x : Parcel)] | none => []) ++
  r.pxi.map (fun x => ((0x3E : BitVec 6) ++ x : Parcel)) ++
  (match r.psc with | some x => [((0x3F : BitVec 6) ++ x : Parcel)] | none => []) ++ [r.base]

/-- Prefix parcels of a raw word. -/
def Raw.count (r : Raw) : Nat := r.parcels.length - 1

/-- The parcels of a well-formed instruction that has an encoding, as the assembler of R104 chooses them. -/
def encode (i : Instr) : Option (List Parcel) :=
  if i.WellFormed then (rawOf i).map Raw.parcels else none

end Sys2Proof
end

