-- ==== Sys2Proof/Machine/Operands.lean ====
section
/-! DEFINITION. What each instruction reads, writes and names (Tables 3.6 to 3.9 and the entries of the forms), and
the side it issues on (R29). The operand marks of R36, the hazards of R32, R33 and R179 and the pops of R16 rest on
it. -/

namespace Sys2Proof.Machine

open Sys2Proof

/-- The registers that an instruction reads as operands and writes, whether it accesses memory, the stream and fibre
slots it names, and whether it issues on the E-side. The destination that a mask or a partial write keeps is not among
the registers read. -/
structure Uses where
  xr : List Nat
  xw : List Nat
  vr : List Nat
  vw : List Nat
  kr : List Nat
  kw : List Nat
  mem : Bool
  slots : List Nat
  fibres : List Nat
  eSide : Bool
  deriving DecidableEq, Repr

/-- An instruction without operands, on the A-side. -/
def Uses.none : Uses := ⟨[], [], [], [], [], [], false, [], [], false⟩

/-- The operands of each form. -/
def usesOf : Instr → Uses
  | .add d a b => { Uses.none with xr := [a.toNat, b.toNat], xw := [d.toNat] }
  | .sub d a b => { Uses.none with xr := [a.toNat, b.toNat], xw := [d.toNat] }
  | .and d a b => { Uses.none with xr := [a.toNat, b.toNat], xw := [d.toNat] }
  | .or d a b => { Uses.none with xr := [a.toNat, b.toNat], xw := [d.toNat] }
  | .xor d a b => { Uses.none with xr := [a.toNat, b.toNat], xw := [d.toNat] }
  | .sll d a b => { Uses.none with xr := [a.toNat, b.toNat], xw := [d.toNat] }
  | .srl d a b => { Uses.none with xr := [a.toNat, b.toNat], xw := [d.toNat] }
  | .sra d a b => { Uses.none with xr := [a.toNat, b.toNat], xw := [d.toNat] }
  | .slt d a b => { Uses.none with xr := [a.toNat, b.toNat], xw := [d.toNat] }
  | .sltu d a b => { Uses.none with xr := [a.toNat, b.toNat], xw := [d.toNat] }
  | .min d a b => { Uses.none with xr := [a.toNat, b.toNat], xw := [d.toNat] }
  | .max d a b => { Uses.none with xr := [a.toNat, b.toNat], xw := [d.toNat] }
  | .minu d a b => { Uses.none with xr := [a.toNat, b.toNat], xw := [d.toNat] }
  | .maxu d a b => { Uses.none with xr := [a.toNat, b.toNat], xw := [d.toNat] }
  | .mul d a b _ => { Uses.none with xr := [a.toNat, b.toNat], xw := [d.toNat] }
  | .mulh d a b _ => { Uses.none with xr := [a.toNat, b.toNat], xw := [d.toNat] }
  | .mulhu d a b _ => { Uses.none with xr := [a.toNat, b.toNat], xw := [d.toNat] }
  | .div d a b _ => { Uses.none with xr := [a.toNat, b.toNat], xw := [d.toNat] }
  | .divu d a b _ => { Uses.none with xr := [a.toNat, b.toNat], xw := [d.toNat] }
  | .rem d a b _ => { Uses.none with xr := [a.toNat, b.toNat], xw := [d.toNat] }
  | .remu d a b _ => { Uses.none with xr := [a.toNat, b.toNat], xw := [d.toNat] }
  | .addi d b _ => { Uses.none with xr := [b.toNat], xw := [d.toNat] }
  | .andi d b _ => { Uses.none with xr := [b.toNat], xw := [d.toNat] }
  | .ori d b _ => { Uses.none with xr := [b.toNat], xw := [d.toNat] }
  | .xori d b _ => { Uses.none with xr := [b.toNat], xw := [d.toNat] }
  | .slli d b _ => { Uses.none with xr := [b.toNat], xw := [d.toNat] }
  | .srli d b _ => { Uses.none with xr := [b.toNat], xw := [d.toNat] }
  | .srai d b _ => { Uses.none with xr := [b.toNat], xw := [d.toNat] }
  | .slti d b _ => { Uses.none with xr := [b.toNat], xw := [d.toNat] }
  | .sltiu d b _ => { Uses.none with xr := [b.toNat], xw := [d.toNat] }
  | .li d _ => { Uses.none with xw := [d.toNat] }
  | .clz d a => { Uses.none with xr := [a.toNat], xw := [d.toNat] }
  | .ctz d a => { Uses.none with xr := [a.toNat], xw := [d.toNat] }
  | .popc d a => { Uses.none with xr := [a.toNat], xw := [d.toNat] }
  | .brev d a => { Uses.none with xr := [a.toNat], xw := [d.toNat] }
  | .bext d a b => { Uses.none with xr := [a.toNat, b.toNat], xw := [d.toNat] }
  | .bins d a b => { Uses.none with xr := [a.toNat, b.toNat, d.toNat], xw := [d.toNat] }
  | .mv d a => { Uses.none with xr := [a.toNat], xw := [d.toNat] }
  | .cmov d a b => { Uses.none with xr := [a.toNat, b.toNat, d.toNat], xw := [d.toNat] }
  | .ld _ d a _ => { Uses.none with xr := [a.toNat], xw := [d.toNat], mem := true }
  | .st _ d a _ => { Uses.none with xr := [a.toNat, d.toNat], mem := true }
  | .ldp _ d a _ => { Uses.none with xr := [a.toNat], xw := [d.toNat, d.toNat + 1], mem := true }
  | .stp _ d a _ => { Uses.none with xr := [a.toNat, d.toNat, d.toNat + 1], mem := true }
  | .beq a b _ => { Uses.none with xr := [a.toNat, b.toNat] }
  | .bne a b _ => { Uses.none with xr := [a.toNat, b.toNat] }
  | .blt a b _ => { Uses.none with xr := [a.toNat, b.toNat] }
  | .bge a b _ => { Uses.none with xr := [a.toNat, b.toNat] }
  | .bltu a b _ => { Uses.none with xr := [a.toNat, b.toNat] }
  | .bgeu a b _ => { Uses.none with xr := [a.toNat, b.toNat] }
  | .j _ => Uses.none
  | .jal _ => { Uses.none with xw := [1] }
  | .jr a => { Uses.none with xr := [a.toNat] }
  | .jalr d a => { Uses.none with xr := [a.toNat], xw := [d.toNat] }
  | .bqpush a => { Uses.none with xr := [a.toNat] }
  | .csrr d _ => { Uses.none with xw := [d.toNat] }
  | .csrw d _ => { Uses.none with xr := [d.toNat] }
  | .csrs d _ => { Uses.none with xr := [d.toNat] }
  | .csrc d _ => { Uses.none with xr := [d.toNat] }
  | .cplaunchRead d => { Uses.none with xw := [d.toNat] }
  | .ctxpWrite _ d => { Uses.none with xr := [d.toNat] }
  | .trap _ => Uses.none
  | .brk _ => Uses.none
  | .wfe _ => Uses.none
  | .evsig a => { Uses.none with xr := [a.toNat] }
  | .mbrd d => { Uses.none with xw := [d.toNat] }
  | .vadd _ d a b k => { Uses.none with vr := [a.toNat, b.toNat], vw := [d.toNat], kr := [k.toNat], eSide := true }
  | .vsub _ d a b k => { Uses.none with vr := [a.toNat, b.toNat], vw := [d.toNat], kr := [k.toNat], eSide := true }
  | .vmul _ d a b k => { Uses.none with vr := [a.toNat, b.toNat], vw := [d.toNat], kr := [k.toNat], eSide := true }
  | .vfma _ d a b k => { Uses.none with vr := [a.toNat, b.toNat, d.toNat], vw := [d.toNat], kr := [k.toNat], eSide := true }
  | .vfms _ d a b k => { Uses.none with vr := [a.toNat, b.toNat, d.toNat], vw := [d.toNat], kr := [k.toNat], eSide := true }
  | .vfnma _ d a b k => { Uses.none with vr := [a.toNat, b.toNat, d.toNat], vw := [d.toNat], kr := [k.toNat], eSide := true }
  | .vfnms _ d a b k => { Uses.none with vr := [a.toNat, b.toNat, d.toNat], vw := [d.toNat], kr := [k.toNat], eSide := true }
  | .vmin _ d a b k => { Uses.none with vr := [a.toNat, b.toNat], vw := [d.toNat], kr := [k.toNat], eSide := true }
  | .vmax _ d a b k => { Uses.none with vr := [a.toNat, b.toNat], vw := [d.toNat], kr := [k.toNat], eSide := true }
  | .vabs _ d a k => { Uses.none with vr := [a.toNat], vw := [d.toNat], kr := [k.toNat], eSide := true }
  | .vneg _ d a k => { Uses.none with vr := [a.toNat], vw := [d.toNat], kr := [k.toNat], eSide := true }
  | .vrcp _ d a k _ => { Uses.none with vr := [a.toNat], vw := [d.toNat], kr := [k.toNat], eSide := true }
  | .vrsq _ d a k _ => { Uses.none with vr := [a.toNat], vw := [d.toNat], kr := [k.toNat], eSide := true }
  | .vsqrt _ d a k _ => { Uses.none with vr := [a.toNat], vw := [d.toNat], kr := [k.toNat], eSide := true }
  | .vdiv _ d a b k _ => { Uses.none with vr := [a.toNat, b.toNat], vw := [d.toNat], kr := [k.toNat], eSide := true }
  | .vexp2 _ d a k _ => { Uses.none with vr := [a.toNat], vw := [d.toNat], kr := [k.toNat], eSide := true }
  | .vcmp _ _ d a b k => { Uses.none with vr := [a.toNat, b.toNat], kr := [k.toNat], kw := [d.toNat], eSide := true }
  | .vsel _ d a b k => { Uses.none with vr := [a.toNat, b.toNat], vw := [d.toNat], kr := [k.toNat], eSide := true }
  | .vcvt src dst _ _ _ d a k => { Uses.none with vr := if src.coded then [a.toNat, a.toNat + 1] else [a.toNat], vw := if dst.coded then [d.toNat, d.toNat + 1] else [d.toNat], kr := [k.toNat], eSide := true }
  | .vclass _ d a k => { Uses.none with vr := [a.toNat], vw := [d.toNat], kr := [k.toNat], eSide := true }
  | .viadd _ _ d a b k => { Uses.none with vr := [a.toNat, b.toNat], vw := [d.toNat], kr := [k.toNat], eSide := true }
  | .visub _ _ d a b k => { Uses.none with vr := [a.toNat, b.toNat], vw := [d.toNat], kr := [k.toNat], eSide := true }
  | .vimul _ _ d a b k => { Uses.none with vr := [a.toNat, b.toNat], vw := [d.toNat], kr := [k.toNat], eSide := true }
  | .vsh _ _ d a b k => { Uses.none with vr := [a.toNat, b.toNat], vw := [d.toNat], kr := [k.toNat], eSide := true }
  | .vand _ d a b k => { Uses.none with vr := [a.toNat, b.toNat], vw := [d.toNat], kr := [k.toNat], eSide := true }
  | .vor _ d a b k => { Uses.none with vr := [a.toNat, b.toNat], vw := [d.toNat], kr := [k.toNat], eSide := true }
  | .vxor _ d a b k => { Uses.none with vr := [a.toNat, b.toNat], vw := [d.toNat], kr := [k.toNat], eSide := true }
  | .vdot4 _ d a b k _ => { Uses.none with vr := [a.toNat, b.toNat, d.toNat], vw := [d.toNat], kr := [k.toNat], eSide := true }
  | .vred _ _ d a k _ => { Uses.none with vr := [a.toNat], vw := [d.toNat], kr := [k.toNat], eSide := true }
  | .vbcast _ _ d a k => { Uses.none with vr := [a.toNat], vw := [d.toNat], kr := [k.toNat], eSide := true }
  | .vperm _ _ d a b k => { Uses.none with vr := [a.toNat, b.toNat], vw := [d.toNat], kr := [k.toNat], eSide := true }
  | .vmvx _ _ d a => { Uses.none with xw := [d.toNat], vr := [a.toNat], eSide := true }
  | .vmxv _ d a k => { Uses.none with xr := [a.toNat], vw := [d.toNat], kr := [k.toNat], eSide := true }
  | .vld _ d a _ k => { Uses.none with xr := [a.toNat], vw := [d.toNat], kr := [k.toNat], mem := true, eSide := true }
  | .vst _ d a _ k => { Uses.none with xr := [a.toNat], vr := [d.toNat], kr := [k.toNat], mem := true, eSide := true }
  | .vldi d _ => { Uses.none with vw := [d.toNat], eSide := true }
  | .kop _ d a b => { Uses.none with kr := [a.toNat, b.toNat], kw := [d.toNat], eSide := true }
  | .kpop d a => { Uses.none with xw := [d.toNat], kr := [a.toNat], eSide := true }
  | .bqb _ => { Uses.none with eSide := true }
  | .accz a => { Uses.none with xr := [a.toNat], mem := true, eSide := true }
  | .accw _ prod d a b k => { Uses.none with xr := [a.toNat], vr := if prod then [d.toNat, b.toNat] else [d.toNat], kr := [k.toNat], mem := true, eSide := true }
  | .accrd _ d a _ => { Uses.none with xr := [a.toNat], vw := [d.toNat], mem := true, eSide := true }
  | .sopen n a _ _ => { Uses.none with xr := [a.toNat], slots := [n.toNat], mem := true }
  | .sopenx n a _ _ => { Uses.none with xr := [a.toNat], slots := [n.toNat], mem := true }
  | .sadv n a => { Uses.none with xr := [a.toNat], slots := [n.toNat] }
  | .stend d n => { Uses.none with xw := [d.toNat], slots := [n.toNat], eSide := true }
  | .sclose n => { Uses.none with slots := [n.toNat] }
  | .ssave n a => { Uses.none with xr := [a.toNat], slots := [n.toNat], mem := true }
  | .srest n a => { Uses.none with xr := [a.toNat], slots := [n.toNat], mem := true }
  | .fopen n a _ => { Uses.none with xr := [a.toNat], fibres := [b2n n], mem := true }
  | .fadv n a => { Uses.none with xr := [a.toNat], fibres := [b2n n], eSide := true }
  | .ftend d n => { Uses.none with kw := [d.toNat], fibres := [b2n n], eSide := true }
  | .fclose n => { Uses.none with fibres := [b2n n] }
  | .fisect d => { Uses.none with kw := [d.toNat], fibres := [0, 1], eSide := true }
  | .funion d => { Uses.none with kw := [d.toNat], fibres := [0, 1], eSide := true }
  | .bmand _ d a b => { Uses.none with vr := [a.toNat, b.toNat], vw := [d.toNat], eSide := true }
  | .bmpfx _ d a b => { Uses.none with vr := [a.toNat, b.toNat], vw := [d.toNat], eSide := true }
  | .spack _ d a k => { Uses.none with xr := [a.toNat], vr := [d.toNat], kr := [k.toNat], mem := true, eSide := true }
  | .sunpk _ d a b k => { Uses.none with xr := [a.toNat, b.toNat], vw := [d.toNat], kr := [k.toNat], mem := true, eSide := true }
  | .rep _ _ => Uses.none
  | .repx _ a => { Uses.none with xr := [a.toNat] }
  | .hacc _ _ _ d a b => { Uses.none with xr := [a.toNat], vr := [d.toNat, b.toNat], mem := true }
  | .hprobe _ d a b _ => { Uses.none with xr := [a.toNat], vr := [b.toNat], vw := [d.toNat], mem := true }
  | .widf d _ => { Uses.none with xw := [d.toNat] }
  | .widr d a b => { Uses.none with xr := [a.toNat, b.toNat, d.toNat], xw := [d.toNat] }
  | .spawn a _ _ _ => { Uses.none with xr := [a.toNat] }
  | .spawnd d a _ _ => { Uses.none with xr := [a.toNat, d.toNat] }
  | .susp a b => { Uses.none with xr := [a.toNat, b.toNat] }
  | .join d a => { Uses.none with xr := [a.toNat], xw := [d.toNat] }
  | .gdone d a => { Uses.none with xr := [a.toNat], xw := [d.toNat] }
  | .glaunch d a => { Uses.none with xr := [a.toNat], xw := [d.toNat] }
  | .sstep d a => { Uses.none with xr := [a.toNat], xw := [d.toNat] }
  | .vote a _ => { Uses.none with xr := [a.toNat] }
  | .xsend a _ _ _ => { Uses.none with xr := [a.toNat] }
  | .bara _ => Uses.none
  | .barw d a => { Uses.none with xr := [a.toNat], xw := [d.toNat] }
  | .wqput d a b => { Uses.none with xr := [a.toNat, b.toNat, d.toNat] }
  | .wqtake d => { Uses.none with xw := [d.toNat, d.toNat + 1] }
  | .rinj d a b => { Uses.none with xr := [a.toNat, b.toNat], xw := [d.toNat] }
  | .mtset d a _ => { Uses.none with xr := [a.toNat, d.toNat] }
  | .mtclr d a => { Uses.none with xr := [a.toNat], xw := [d.toNat] }
  | .rstat d a => { Uses.none with xr := [a.toNat], xw := [d.toNat] }
  | .rdrain d a => { Uses.none with xr := [a.toNat], xw := [d.toNat] }
  | .rtake d => { Uses.none with xw := [d.toNat] }
  | .ldg _ d a _ _ => { Uses.none with xr := [a.toNat], xw := [d.toNat], mem := true }
  | .stg _ d a _ => { Uses.none with xr := [a.toNat, d.toNat], mem := true }
  | .ldv d a _ _ => { Uses.none with xr := [a.toNat, d.toNat + 1], xw := [d.toNat], mem := true }
  | .stv d a _ => { Uses.none with xr := [a.toNat, d.toNat, d.toNat + 1], mem := true }
  | .reclaim d a b => { Uses.none with xr := [a.toNat, b.toNat, d.toNat], mem := true }
  | .llock a => { Uses.none with xr := [a.toNat] }
  | .sunlk d a => { Uses.none with xr := [a.toNat], xw := [d.toNat] }
  | .amo _ _ _ _ d a b _ => { Uses.none with xr := [a.toNat, b.toNat], xw := [d.toNat], mem := true }
  | .acas _ _ _ d a b _ => { Uses.none with xr := [a.toNat, b.toNat, d.toNat], xw := [d.toNat], mem := true }
  | .fence _ _ => Uses.none
  | .cbwait d a _ => { Uses.none with xr := [a.toNat], xw := [d.toNat] }
  | .cbrel a _ => { Uses.none with xr := [a.toNat] }
  | .cbclm d a _ => { Uses.none with xr := [a.toNat], xw := [d.toNat] }
  | .cbpub a _ => { Uses.none with xr := [a.toNat] }
  | .cbPublish _ _ => Uses.none
  | .cbRelease _ _ => Uses.none
  | .versionedRequest _ => Uses.none
  | .lockGrant _ _ => Uses.none
  | .cpset a _ => { Uses.none with xr := [a.toNat], mem := true }
  | .cpgo d a => { Uses.none with xr := [a.toNat], xw := [d.toNat], mem := true }
  | .cpstat d a => { Uses.none with xr := [a.toNat], xw := [d.toNat] }
  | .ixpost d a _ => { Uses.none with xr := [a.toNat], xw := [d.toNat], mem := true }
  | .mlease _ => Uses.none
  | .mfmt a _ => { Uses.none with xr := [a.toNat] }
  | .mma d a b _ => { Uses.none with xr := [a.toNat, a.toNat + 1, b.toNat, b.toNat + 1, d.toNat, d.toNat + 1] }
  | .mconv d a b _ => { Uses.none with xr := [a.toNat, b.toNat, b.toNat + 1, d.toNat, d.toNat + 1], mem := true }
  | .mdrain d => { Uses.none with xw := [d.toNat] }
  | .mstat d => { Uses.none with xw := [d.toNat] }
  | .pmask a _ => { Uses.none with xr := [a.toNat], mem := true }
  | .ldrows d a _ => { Uses.none with xr := [a.toNat, d.toNat], mem := true }
  | .strows d a _ => { Uses.none with xr := [a.toNat, d.toNat], mem := true }
  | .epush a b => { Uses.none with xr := [a.toNat, b.toNat] }
  | .epop d _ => { Uses.none with xw := [d.toNat] }
  | .ctab d a _ _ => { Uses.none with xr := [a.toNat], xw := [d.toNat], mem := true }
  | .ctabg d _ _ => { Uses.none with xw := [d.toNat] }
  | .copyRun _ _ => Uses.none
  | .copyFinish _ _ => Uses.none
  | .indirectRun _ => Uses.none
  | .indirectFinish _ => Uses.none
  | .mailboxDelivery _ => Uses.none
  | .rowUnitRun _ => Uses.none
  | .leaseGrant _ _ => Uses.none
  | .chunkStep _ _ => Uses.none
  | .outputStep _ _ => Uses.none
  | .markerComplete _ _ => Uses.none
  | .ctxsel _ _ d a => { Uses.none with xr := [a.toNat, d.toNat] }
  | .htresResume d a b => { Uses.none with xr := [a.toNat, b.toNat], xw := [d.toNat] }
  | .htresPreemptMilestone d a b => { Uses.none with xr := [a.toNat, b.toNat], xw := [d.toNat] }
  | .htresPreemptSafepoint d a b => { Uses.none with xr := [a.toNat, b.toNat], xw := [d.toNat] }
  | .htresPark d a b => { Uses.none with xr := [a.toNat, b.toNat], xw := [d.toNat] }
  | .htresEnd d a b => { Uses.none with xr := [a.toNat, b.toNat], xw := [d.toNat] }
  | .pset d a b => { Uses.none with xr := [a.toNat, b.toNat, d.toNat] }
  | .qset _ d a => { Uses.none with xr := [a.toNat, d.toNat] }
  | .slinv a b _ _ => { Uses.none with xr := [a.toNat, b.toNat] }
  | .mlrev d a => { Uses.none with xr := [a.toNat], xw := [d.toNat] }
  | .mkrd s d a => { Uses.none with xr := if s == 0 || s == 2 then [a.toNat] else [], vr := if s == 1 then [a.toNat] else [], kr := if s == 3 then [a.toNat] else [], xw := [d.toNat], mem := s == 2 }
  | .mkctx a => { Uses.none with xr := [a.toNat] }
  | .mkjoin v d a b => { Uses.none with xr := if v then [b.toNat] else [a.toNat, b.toNat], vr := if v then [a.toNat] else [], xw := if v then [] else [d.toNat], vw := if v then [d.toNat] else [] }
  | .gatesub d a _ _ _ => { Uses.none with xr := [a.toNat], xw := [d.toNat] }
  | .gatest d a => { Uses.none with xr := [a.toNat], xw := [d.toNat] }
  | .fuserd d _ => { Uses.none with xw := [d.toNat] }
  | .measx a _ => { Uses.none with xr := [a.toNat], mem := true }
  | .attest d a _ => { Uses.none with xr := [a.toNat], xw := [d.toNat], mem := true }
  | .dbgopen d a => { Uses.none with xr := [a.toNat], xw := [d.toNat], mem := true }
  | .dcpEventAppend _ => Uses.none
  | .reservationCheck _ => Uses.none
  | .gangTimeout _ _ => Uses.none
  | .initialEnqueue _ => Uses.none
  | .continuationStart _ _ => Uses.none
  | .groupEnd _ => Uses.none
  | .xsendDelivery _ => Uses.none
  | .deadline _ => Uses.none
  | .deadlineForce _ _ => Uses.none
  | .beatBoundary _ _ => Uses.none
  | .pairCopy _ _ => Uses.none
  | .segmentPark _ _ => Uses.none
  | .segmentResume _ _ => Uses.none
  | .mailboxWrite _ => Uses.none
  | .mailboxRead _ => Uses.none
  | .mailboxLaunch _ => Uses.none
  | .configPchip _ => Uses.none
  | .configSysn _ => Uses.none
  | .configSgid _ => Uses.none
  | .configChipst _ => Uses.none
  | .configChcfg _ => Uses.none
  | .configTmaster _ => Uses.none
  | .configTset _ => Uses.none
  | .configRecbase _ => Uses.none
  | .configReclen _ => Uses.none
  | .configRecmode _ => Uses.none
  | .configPcap _ => Uses.none
  | .hostEventWrite _ => Uses.none
  | .requestTimeout _ _ => Uses.none
  | .illegalInstruction _ => Uses.none
  | .emulationTrap _ => Uses.none
  | .streamFetch _ => Uses.none
  | .cbClaim _ _ => Uses.none
  | .cbTake _ _ => Uses.none
  | .remoteRequest _ => Uses.none
  | .translationWalk _ _ => Uses.none
  | .policyUseExpiry _ _ => Uses.none
  | .waitto _ => Uses.none
  | .waitSatisfied _ => Uses.none
  | .launchPromotion _ => Uses.none
  | .readyPromotion _ _ => Uses.none
  | .rsegWrite _ _ _ => Uses.none
  | .rcfgWrite _ _ => Uses.none
  | .cbcfgWrite _ _ _ => Uses.none
  | .slotTableWrite _ _ _ => Uses.none
  | .kctlWrite _ _ => Uses.none
  | .secdbWrite _ => Uses.none
  | .controlRegisterWrite _ _ _ => Uses.none
  | .qremExpiry _ => Uses.none
  | .softerr _ _ _ => Uses.none
  | .poison _ => Uses.none
  | .retirement _ => Uses.none
  | .mailboxCommandWrite _ _ _ _ => Uses.none
  | .replayEntry _ => Uses.none
  | .frequencyChange _ _ _ _ => Uses.none
  | .thermalThrottle _ _ => Uses.none
  | .thermalRelease _ _ => Uses.none
  | .thermalTrip _ _ => Uses.none
  | .smbusBlockRead _ => Uses.none
  | .externalDebuggerAccess _ => Uses.none
  | .linkTraining _ _ => Uses.none
  | .nop => Uses.none
  | .exit => Uses.none
  | .wfm => Uses.none
  | .repbrk => { Uses.none with eSide := true }
  | .trig => Uses.none
  | .mrel => Uses.none
  | .tret => Uses.none
  | .kwipe => Uses.none
  | .gateRun => Uses.none
  | .joinDecrement => Uses.none
  | .safePointPark => Uses.none
  | .secdbRead => Uses.none
  | .timeLockLoss => Uses.none
  | .timeLockRegain => Uses.none
  | .reset => Uses.none
  | .bringupStage => Uses.none
  | .smbusResetRequest => Uses.none

end Sys2Proof.Machine
end

