-- ==== Sys2Proof/Machine/Ops.lean ====
section
/-! DEFINITION. The named operations over threads: units and partitions, registers with marks and value windows,
control fields, fetching, the DCP event queue, parking, taking an exception and returning from one. -/

namespace Sys2Proof.Machine

open Sys2Proof

/-- The outcome of an instruction. -/
abbrev Out := Host.Outcome State Fault Refusal

/-! ## Units -/

/-- A compute core (Table 11.2). -/
def isCompute (u : Nat) : Bool := decide (u < 0x1000)

/-- A channel core (Table 11.2). -/
def isChannel (u : Nat) : Bool := decide (0x1200 ≤ u) && decide (u < 0x1380)

/-- A DCP (Table 11.2). -/
def isDcp (u : Nat) : Bool := decide (0x1380 ≤ u) && decide (u < 0x1388)

/-- The SEC, by the number of its control block (R44). -/
def isSec (u : Nat) : Bool := u == 0x1440

/-- The kind code of STATUS.UNIT (Table 1.3). -/
def kindCode (u : Nat) : Nat := if isCompute u then 0 else if isChannel u then 1 else if isDcp u then 2 else 3

/-- The compute die of a unit (R296, R522); die 0 for the SEC (R44). -/
def dieOf (u : Nat) : Nat :=
  if isCompute u then u / 512
  else if decide (0x1000 ≤ u) && decide (u < 0x1200) then (u - 0x1000) / 64
  else if isChannel u then (u - 0x1200) / 48
  else if isDcp u then u - 0x1380
  else 0

/-- The logical cluster of a compute core (R296). -/
def clusterOf (u : Nat) : Nat := u / 8

/-! ## Tables of units -/

/-- The thread of a key. -/
def State.threadAt (s : State) (k : Nat) : Thread := (s.threads.get? k).getD Thread.fresh

/-- A thread. -/
def State.thread (s : State) (t : ThreadId) : Thread := s.threadAt t.key

/-- Writes a thread. -/
def State.setThread (s : State) (t : ThreadId) (x : Thread) : State :=
  { s with threads := s.threads.set t.key x }

/-- The thread whose instruction runs. -/
def State.me (s : State) : Thread := s.thread s.cur

/-- Writes the thread whose instruction runs. -/
def State.setMe (s : State) (x : Thread) : State := s.setThread s.cur x

/-- A core. -/
def State.core (s : State) (u : Nat) : CoreState := (s.cores.get? u).getD CoreState.fresh

/-- Writes a core. -/
def State.setCore (s : State) (u : Nat) (c : CoreState) : State := { s with cores := s.cores.set u c }

/-- A context set of a core (R434). -/
def State.ctxSet (s : State) (u i : Nat) : CtxSet := (s.core u).sets.getD i (CtxSet.fresh false)

/-- Writes a context set of a core. -/
def State.setCtxSet (s : State) (u i : Nat) (x : CtxSet) : State :=
  s.setCore u { s.core u with sets := (s.core u).sets.setIfInBounds i x }

/-- A cluster. -/
def State.cluster (s : State) (j : Nat) : Cluster := (s.clusters.get? j).getD Cluster.fresh

/-- Writes a cluster. -/
def State.setCluster (s : State) (j : Nat) (c : Cluster) : State := { s with clusters := s.clusters.set j c }

/-- The engines of a cluster (by 0x1000 + j) or channel core. -/
def State.eng (s : State) (u : Nat) : Engines := (s.engines.get? u).getD Engines.fresh

/-- Writes the engines of a cluster or channel core. -/
def State.setEng (s : State) (u : Nat) (e : Engines) : State := { s with engines := s.engines.set u e }

/-- The ring control of a quadrant. -/
def State.quad (s : State) (q : Nat) : Quadrant := (s.quads.get? q).getD Quadrant.fresh

/-- Writes the ring control of a quadrant. -/
def State.setQuad (s : State) (q : Nat) (x : Quadrant) : State := { s with quads := s.quads.set q x }

/-- The ready queue of a cluster (by 0x1000 + j) or channel core. -/
def State.readyQ (s : State) (u : Nat) : ReadyQueue := (s.ready.get? u).getD ReadyQueue.fresh

/-- Writes a ready queue. -/
def State.setReady (s : State) (u : Nat) (r : ReadyQueue) : State := { s with ready := s.ready.set u r }

/-- A partition. -/
def State.part (s : State) (p : Nat) : Partition := (s.parts.get? p).getD Partition.fresh

/-- Writes a partition. -/
def State.setPart (s : State) (p : Nat) (x : Partition) : State := { s with parts := s.parts.set p x }

/-- A die. -/
def State.die (s : State) (d : Nat) : Die := (s.dies.get? d).getD Die.fresh

/-- Writes a die. -/
def State.setDie (s : State) (d : Nat) (x : Die) : State := { s with dies := s.dies.set d x }

/-- A mailbox channel. -/
def State.channel (s : State) (c : Nat) : Channel := (s.channels.get? c).getD (Channel.fresh 0)

/-- Writes a mailbox channel. -/
def State.setChannel (s : State) (c : Nat) (x : Channel) : State := { s with channels := s.channels.set c x }

/-- The number of this package (R453). -/
def State.chip (s : State) : Nat := s.pkg.pchip.toNat

/-- The package time base (R22, R465). -/
def State.tbase (s : State) : Word := word s.now + s.pkg.tbaseOff

/-- The engines' key of a thread's core: its cluster's, or the channel core's own. -/
def engKey (u : Nat) : Nat := if isCompute u then 0x1000 + clusterOf u else u

/-- The index with which the next free value is drawn (DESIGN CHOICE, log entry 12). -/
def State.ix (s : State) : Nat := s.free * 2 ^ 128 + s.now

/-! ## Partitions -/

/-- The partition of a compute core (R439): the one whose interval holds its global index. -/
def State.partOfCore (s : State) (u : Nat) : Option Nat :=
  (s.parts.find? fun p => decide (p.2.base ≤ u) && decide (u < p.2.base + p.2.len)).map (·.1)

/-- Whether a thread counts as a member of every partition (R523). -/
def everyPart (u : Nat) : Bool := isDcp u || isSec u

/-- The partition of a thread; none for a core outside every partition (R523). -/
def State.partOf (s : State) (t : ThreadId) : Option Nat :=
  if isCompute t.unit then s.partOfCore t.unit
  else if isChannel t.unit then (s.thread t).cont.map (·.part)
  else some 0

/-- The partition of a thread, 0 where it has none (R523). -/
def State.partIx (s : State) (t : ThreadId) : Nat := (s.partOf t).getD 0

/-- The partitions of the cores of a cluster, the lowest core's first, each once (R440). -/
def State.partsOfCluster (s : State) (j : Nat) : List Nat :=
  ((span (8 * j) 8).filterMap s.partOfCore).eraseDups

/-! ## Marks -/

/-- Keys beside the register numbers under which an E-side instruction that has not issued keeps CMARK, FRM and LWIN as
they stood before an MKCTX or a CSRW that follows it in program order (R482, R35, R128). -/
def cmarkKey : Nat := 200

/-- Key of FRM (R35). -/
def frmKey : Nat := 201

/-- Key of LWIN (R128). -/
def lwinKey : Nat := 202

/-- Key under which a body entry keeps what an x register held before the long-latency instruction whose window covers
its first passes (R84). -/
def oldKey (n : Nat) : Nat := 300 + n

/-- Key under which a body entry keeps the last place of that window. -/
def lastKey (n : Nat) : Nat := 400 + n

/-- What an entry keeps under a key. -/
def capOf (caps : List (Nat × Tagged 64)) (key : Nat) : Option (Tagged 64) := (caps.find? fun c => c.1 == key).map (·.2)

/-- What an entry at a place has captured of an x register: within the window that its pass lies in, the value from before
(R32, R84). -/
def capAt (caps : List (Nat × Tagged 64)) (n seq : Nat) : Option (Tagged 64) :=
  match capOf caps (lastKey n) with
  | some l => if seq ≤ l.val.toNat then capOf caps (oldKey n) else capOf caps n
  | none => capOf caps n

/-- What the running E-side instruction keeps under a key. -/
def State.kept (s : State) (key : Nat) : Option (Tagged 64) :=
  if s.latch.src = .queue ∨ s.latch.src = .wheel then capOf s.latch.caps key else none

/-- Leaves a value with every E-side instruction that has not issued and that keeps none under the key. (DEDUCED, log entry 38.) -/
def State.keep (s : State) (key : Nat) (v : Tagged 64) : State :=
  let f (e : EEntry) : EEntry := if e.caps.any (·.1 == key) then e else { e with caps := e.caps ++ [(key, v)] }
  let t := s.me
  s.setMe { t with equeue := t.equeue.map f, wheel := { t.wheel with body := t.wheel.body.map f } }

/-- CMARK as the running instruction sees it. -/
def State.cmarkNow (s : State) : Mark := ((s.kept cmarkKey).map (·.mark)).getD s.me.csr.cmark

/-- What every result mark includes: CMARK, and the wheel mark for an instruction issued from the wheel (R36, R188). -/
def State.base (s : State) : Mark := s.cmarkNow ||| (if s.latch.src = .wheel then s.me.wheel.wm else 0)

/-- Joins a mark into CMARK (R37), as later and pending instructions see it. -/
def State.joinCmark (s : State) (m : Mark) : State :=
  let f (e : EEntry) : EEntry :=
    { e with caps := e.caps.map fun c => if c.1 = cmarkKey then (c.1, ⟨c.2.val, c.2.mark ||| m⟩) else c }
  let t := s.me
  s.setMe { t with csr := { t.csr with cmark := t.csr.cmark ||| m }, equeue := t.equeue.map f
                   wheel := { t.wheel with body := t.wheel.body.map f } }

/-! ## Registers -/

/-- Whether the running instruction is on the E-side. -/
def State.onE (s : State) : Bool := s.latch.src != .access

/-- The open window that covers the running instruction and a register (R84). -/
def State.windowOn (s : State) (f : RegFile) (n : Nat) : Option Window :=
  s.me.windows.find? fun w => w.file == f && w.reg == n && decide (w.start < s.latch.seq) && decide (s.latch.seq ≤ w.last)

/-- The value that a register file holds for an x register (R11). -/
def Regs.getX (r : Regs) (n : Nat) : Tagged 64 := if n = 0 then plain 0 else r.x.getD n (plain 0)

/-- The value that a register file holds for a v register. -/
def Regs.getV (r : Regs) (n : Nat) : Tagged 256 := r.v.getD n (plain 0)

/-- The value that a register file holds for a k register (R11). -/
def Regs.getK (r : Regs) (n : Nat) : Tagged 32 := if n = 0 then plain 0xFFFFFFFF else r.k.getD n (plain 0)

/-- Writes an x register; a write to x0 is discarded (R11). -/
def Regs.setX (r : Regs) (n : Nat) (v : Tagged 64) : Regs :=
  if n = 0 then r else { r with x := r.x.setIfInBounds n v }

/-- Writes a v register. -/
def Regs.setV (r : Regs) (n : Nat) (v : Tagged 256) : Regs := { r with v := r.v.setIfInBounds n v }

/-- Writes a k register; a write to k0 is discarded (R11). -/
def Regs.setK (r : Regs) (n : Nat) (v : Tagged 32) : Regs :=
  if n = 0 then r else { r with k := r.k.setIfInBounds n v }

/-- X(n) with its mark: the value captured at decode on the E-side (R32), the value from before the window (R84), or
the register. -/
def State.readX (s : State) (n : Nat) : Tagged 64 :=
  match (if s.latch.src = .queue ∨ s.latch.src = .wheel then capAt s.latch.caps n s.latch.seq else none) with
  | some c => c
  | none =>
    if n = 0 then plain 0
    else match s.windowOn .x n with
      | some w => ⟨w.old.val.setWidth 64, w.old.mark⟩
      | none => s.me.regs.getX n

/-- V(n) with its mark (R84). -/
def State.readV (s : State) (n : Nat) : Tagged 256 :=
  match s.windowOn .v n with
  | some w => w.old
  | none => s.me.regs.getV n

/-- K(n) with its mark (R11). -/
def State.readK (s : State) (n : Nat) : Tagged 32 := s.me.regs.getK n

/-- The value of X(n). -/
def State.x (s : State) (r : Reg) : Word := (s.readX r.toNat).val

/-- The mark of X(n). -/
def State.xm (s : State) (r : Reg) : Mark := (s.readX r.toNat).mark

/-- The windows without those on a register: a write within a window ends it (R84; DEDUCED, log entry 24). -/
def closeWindows (f : RegFile) (n : Nat) (ws : List Window) : List Window :=
  ws.filter fun w => !(w.file == f && w.reg == n)

/-- WriteX of Table 1.12. -/
def State.writeX (s : State) (n : Nat) (v : Word) (m : Mark) : State :=
  let t := s.me
  s.setMe { t with regs := t.regs.setX n ⟨v, m⟩, windows := closeWindows .x n t.windows }

/-- Writes a whole v register that is bound to no slot. -/
def State.putV (s : State) (n : Nat) (v : BitVec 256) (m : Mark) : State :=
  let t := s.me
  s.setMe { t with regs := t.regs.setV n ⟨v, m⟩, windows := closeWindows .v n t.windows }

/-- Writes a k register. -/
def State.writeK (s : State) (n : Nat) (v : BitVec 32) (m : Mark) : State :=
  let t := s.me
  s.setMe { t with regs := t.regs.setK n ⟨v, m⟩, windows := closeWindows .k n t.windows }

/-- Writes a result x register with the base mark joined. -/
def State.result (s : State) (d : Reg) (v : Word) (m : Mark) : State := s.writeX d.toNat v (m ||| s.base)

/-- The length of a value window in instructions (R84). -/
def winLen (w : Win) : Nat := if w.ver1 then 4 * w.la.toNat else w.la.toNat

/-- Instructions of a window still to come (R86): the pending E-side ones that it covers and those that decode has not
taken. `next` is the place of the next instruction that decode takes. (DEDUCED, log entry 33.) -/
def windowLeft (w : Window) (pend : List Nat) (next : Nat) : Nat :=
  (pend.filter fun q => decide (w.start < q) && decide (q ≤ w.last)).length + (w.last + 1 - next)

/-- Instructions that the wheel has still to issue, over its passes. -/
def wheelLeft (w : Wheel) : Nat := if w.act then (w.len + 1 - w.repix) + w.repcnt * (w.len + 1) else 0

/-- The places of the wheel's instructions that have still to issue; a window covers at most 60. -/
def wheelPlaces (w : Wheel) : List Nat := span w.place (Nat.min (wheelLeft w) 64)

/-- Body length of a REP or REPX. -/
def bodyLen : Instr → Nat
  | .rep l _ => l.toNat + 1
  | .repx l _ => l.toNat + 1
  | _ => 0

/-- How many places an entry takes: its own, and for a REP whose passes have not begun those of its passes. -/
def EEntry.size (e : EEntry) : Nat := 1 + e.passes.getD 0 * bodyLen e.instr

/-- The places of an entry. -/
def EEntry.places (e : EEntry) : List Nat := span e.seq (Nat.min e.size 64)

/-- The places of a thread's E-side instructions that have not issued. -/
def Thread.eplaces (t : Thread) : List Nat := t.equeue.flatMap (·.places) ++ wheelPlaces t.wheel

/-- Whether a window still covers an instruction that has not issued, the running one apart (R84). -/
def State.stillOpen (s : State) (w : Window) : Bool :=
  windowLeft w (s.me.eplaces.filter (· != s.latch.seq)) (Nat.max s.me.seq (s.latch.seq + 1)) != 0

/-- Whether a fifth window would have to wait (R85): four windows, none of them on the destination, still cover the
running instruction or one that has not issued. (DEDUCED, log entry 34.) -/
def State.windowsFull (s : State) (w : Win) (f : RegFile) (d : Nat) : Bool :=
  let covers (o : Window) : Bool := decide (o.start < s.latch.seq) && decide (s.latch.seq ≤ o.last)
  w.la != 0 &&
    decide (4 ≤ (s.me.windows.filter fun o => (covers o || s.stillOpen o) && !(o.file == f && o.reg == d)).length)

/-- Opens the window of a long-latency instruction over the instructions that follow it (R84): readers in it receive
`old`. Windows of which every instruction has issued are dropped. -/
def State.openWindow (s : State) (w : Win) (f : RegFile) (d : Nat) (old : Tagged 256) : State :=
  if w.la = 0 then s
  else
    let t := s.me
    let live := t.windows.filter s.stillOpen
    s.setMe { t with windows := live ++ [⟨f, d, old, s.latch.seq, s.latch.seq + winLen w⟩] }

/-- Writes the x result of a long-latency instruction and opens its window. -/
def State.resultL (s : State) (w : Win) (d : Reg) (v : Word) (m : Mark) : State :=
  let o := s.me.regs.getX d.toNat
  let s1 := s.result d v m
  if d = 0 then s1 else s1.openWindow w .x d.toNat ⟨o.val.setWidth 256, o.mark⟩

/-! ## Why an instruction does not complete -/

/-- What a refused request leaves in a recording region (R473, R474): a refusal that reached a partition from a chip, for a unit
and an address, or a recorded refusal that a replay used. -/
inductive DenialNote where
  | response (part chip unit : Nat) (addr : Word)
  | used (part pos : Nat)
  deriving DecidableEq, Repr

/-- A request that another package or the host refused (R456), with KIND and detail of the event that it posts on
channel 0, if it posts one. -/
structure Denial where
  event : Option (Nat × Word)
  note : Option DenialNote
  deriving DecidableEq, Repr

/-- A trap with its cause, address and information, and the refused request from which it comes, if it comes from one; or
a wait with the KIND, INDEX and partner of Table 11.14 (KIND 0 for a wait that is no blocked wait), or a request to
another package that stays without an answer (R456). -/
inductive Halt where
  | trap (code : Nat) (addr info : Word) (defer : Bool) (slot : Nat) (denial : Option Denial)
  | wait (kind index unit chip : Nat)
  | silent (chip : Nat)
  deriving DecidableEq, Repr

/-- What a meaning computes: the state after the instruction's effect, or why it does not complete. -/
abbrev Run? := Except Halt State

/-- A trap that is no deferred fault. -/
def trapWith {α : Type} (code : Nat) (addr info : Word) : Except Halt α := .error (.trap code addr info false 0 none)

/-- ILL, with FINFO of R42. -/
def ill {α : Type} (s : State) : Except Halt α := trapWith 0x01 0 s.latch.finfo

/-- ARITH with a code in FINFO[63:56], a detail in FINFO[55:0] and FADDR. -/
def arith {α : Type} (code detail : Nat) (addr : Word) : Except Halt α :=
  trapWith 0x05 addr (word (code * 2 ^ 56 + detail % 2 ^ 56))

/-- BOUNDS with the reason of R43 and the write bit. (DEDUCED, log entry 40.) -/
def bounds {α : Type} (addr : Word) (reason : Nat) (write : Bool) : Except Halt α :=
  trapWith 0x06 addr (word (b2n write + 2 * reason))

/-- A hold that is no blocked wait. -/
def holdOn {α : Type} : Except Halt α := .error (.wait 0 0 0 0)

/-- A blocked wait (R320, Table 11.14). -/
def waitOn {α : Type} (kind index unit chip : Nat) : Except Halt α := .error (.wait kind index unit chip)

/-! ## Control fields -/

/-- WSTAT of a wheel (Table 1.8). -/
def wstatOf (act : Bool) (len repcnt repix : Nat) : Word :=
  word (repcnt * 2 ^ 32 + b2n act * 2 ^ 15 + len * 2 ^ 8 + repix)

/-- The outcomes as a number, bit 0 the oldest. -/
def outsNat : List Bool → Nat
  | [] => 0
  | b :: t => b2n b + 2 * outsNat t

/-- BQSTAT of a queue (Table 1.9). -/
def bqstatOf (q : OutcomeQueue) : Word :=
  word (q.bqm.toNat * 2 ^ 48 + q.outs.length * 2 ^ 32 + outsNat q.outs)

/-- WSTAT as it reads: the saved state while INTRAP = 1 (R41). -/
def Thread.wstat (t : Thread) : Word :=
  if t.csr.intrap then wstatOf t.trapFrame.wact t.trapFrame.wlen t.trapFrame.wrepcnt t.trapFrame.wrepix
  else wstatOf t.wheel.act t.wheel.len t.wheel.repcnt t.wheel.repix

/-- The branch-outcome queue as BQSTAT shows it (R41). -/
def Thread.bqShown (t : Thread) : OutcomeQueue := if t.csr.intrap then t.trapFrame.bq else t.bq

/-- STATUS of a thread (Table 1.3). -/
def statusOf (t : ThreadId) (x : Thread) : Word :=
  word (t.ht * 2 ^ 11 + kindCode t.unit * 2 ^ 8 + b2n (x.wstat.getLsbD 15) * 8 + b2n x.csr.gcp * 4
    + b2n x.csr.priv * 2 + b2n x.csr.intrap)

/-- LWIN's local range as first byte and length (Table 1.10). -/
def lwinLocal (l : Word) : Nat × Nat := (64 * field l 19 10, 64 * field l 31 21)

/-- LWIN's scratchpad range as first line and number of lines (Table 1.10). -/
def lwinSpad (l : Word) : Nat × Nat := (field l 50 40, field l 63 52)

/-- Sets an event line of a thread (R133). -/
def State.setLine (s : State) (t : ThreadId) (n : Nat) : State :=
  s.setThread t { s.thread t with lines := (s.thread t).lines ||| (1#64 <<< n) }

/-! ## Fetching -/

/-- A byte of the code store; what is not loaded reads 0xFF (DESIGN CHOICE, log entry 4). -/
def codeByte (c : List Host.Cell) (a : Nat) : Byte :=
  match c.find? (fun x => x.1 == a) with
  | some x => x.2
  | none => 0xFF

/-- Loads a byte into the code store, keeping addresses strictly rising and no byte equal to 0xFF listed. -/
def codePut : List Host.Cell → Nat → Byte → List Host.Cell
  | [], a, b => if b = 0xFF then [] else [(a, b)]
  | (k, v) :: t, a, b =>
    if a < k then (if b = 0xFF then (k, v) :: t else (a, b) :: (k, v) :: t)
    else if k = a then (if b = 0xFF then t else (a, b) :: t)
    else (k, v) :: codePut t a b

/-- Loads parcels, little-endian, from an address on (R75). -/
def codeLoad : List Host.Cell → Nat → List Parcel → List Host.Cell
  | c, _, [] => c
  | c, a, p :: t =>
    codeLoad (codePut (codePut c a (p.setWidth 8)) ((a + 1) % 2 ^ 64) ((p >>> 8).setWidth 8)) ((a + 2) % 2 ^ 64) t

/-- The parcel at an address of the code store. -/
def parcelAt (c : List Host.Cell) (a : Word) : Parcel :=
  codeByte c (a + 1).toNat ++ codeByte c a.toNat

/-- The five parcels that the longest instruction takes (R75). -/
def fetch (c : List Host.Cell) (a : Word) : List Parcel :=
  [parcelAt c a, parcelAt c (a + 2), parcelAt c (a + 4), parcelAt c (a + 6), parcelAt c (a + 8)]

/-- An instruction found at an address, its length in bytes and the FINFO of R42. -/
structure Found where
  instr : Instr
  len : Nat
  finfo : Word
  deriving DecidableEq, Repr

/-- The instruction at an address: what decode reads, or the step that decode's refusal raises (R99, R100). -/
def findInstr (c : List Host.Cell) (a : Word) : Found :=
  match decode (fetch c a) with
  | .instr i n fi => ⟨i, n, fi⟩
  | .emulate fi n => ⟨.emulationTrap fi, n, fi⟩
  | .illegal fi n => ⟨.illegalInstruction fi, n, fi⟩
  | .short => ⟨.illegalInstruction 0, 2, 0⟩

/-- The registers that an E-side instruction captures, with their values and marks (R32). -/
def State.capture (s : State) (i : Instr) : List (Nat × Tagged 64) :=
  if (usesOf i).eSide then (usesOf i).xr.map fun n => (n, s.readX n) else []

/-- The state in which an instruction at a place is read. -/
def State.atPlace (s : State) (seq : Nat) : State := { s with latch := { s.latch with src := .access, seq := seq } }

/-- An E-queue entry fetched from an address (R40, R425), at its place in program order. (DEDUCED, log entry 18.) -/
def State.refetch (s : State) (a : Word) (seq : Nat) (passes : Option Nat) : EEntry :=
  let f := findInstr s.code a
  { addr := a, len := f.len, instr := f.instr, finfo := f.finfo, seq := seq, caps := (s.atPlace seq).capture f.instr
    passes := passes }

/-- n instructions read into the wheel from an address on (R186). -/
def State.readBody (s : State) : Nat → Word → List EEntry
  | 0, _ => []
  | n + 1, a =>
    let f := findInstr s.code a
    ⟨a, f.len, f.instr, f.finfo, 0, [], none⟩ :: State.readBody s n (a + word f.len)

/-- The x registers that a body writes. -/
def bodyWrites (b : List EEntry) : List Nat := b.flatMap fun e => (usesOf e.instr).xw

/-- What a body entry captures of an x register at the place of its REP: the register, and where a window covers the first
passes what the register held before, with the window's last place (R32, R84). -/
def State.captureX (s : State) (n : Nat) : List (Nat × Tagged 64) :=
  (n, s.me.regs.getX n) :: match s.windowOn .x n with
    | some w => [(oldKey n, ⟨w.old.val.setWidth 64, w.old.mark⟩), (lastKey n, plain (word w.last))]
    | none => []

/-- Captures the x operands of a body's entries at decode (R32), those of passes past a window as they are there (R84); a
register that the body writes is read at each issue (R187). (DEDUCED, log entry 39.) -/
def State.captureBody (s : State) (b : List EEntry) : List EEntry :=
  let ws := bodyWrites b
  b.map fun e => { e with caps := ((usesOf e.instr).xr.filter fun n => !ws.contains n).flatMap s.captureX }

/-- A body of n instructions fetched again from an address on (R40, R426), its first pass at a place. -/
def State.refetchBody (s : State) (n : Nat) (a : Word) (seq : Nat) : List EEntry :=
  (s.atPlace seq).captureBody (s.readBody n a)

/-! ## The DCP event queue -/

/-- The 64-byte event record of Table 17.5. -/
def dcpRecord (kind : Nat) (t : ThreadId) (chip : Nat) (w1 w2 w3 w4 w5 tb : Word) (m : Mark) : BitVec 512 :=
  BitVec.ofNat 512 (ofWords
    [ kind * 2 ^ 56 + t.ht % 4 * 2 ^ 54 + t.set % 4 * 2 ^ 52 + t.unit % 2 ^ 13 * 2 ^ 19 + chip % 2 ^ 19,
      w1.toNat, w2.toNat, w3.toNat, w4.toNat, w5.toNat, tb.toNat, m.toNat ])

/-- Posts a record to the event queue of a die's DCP: it waits at its source until its slot is free (R428). -/
def State.postDcp (s : State) (die kind : Nat) (t : ThreadId) (w1 w2 w3 w4 w5 : Word) (m : Mark) : State :=
  let r : DcpRec := ⟨dcpRecord kind t s.chip w1 w2 w3 w4 w5 s.tbase m, m, t.unit⟩
  s.setDie die { s.die die with waiting := (s.die die).waiting ++ [r] }

/-! ## Releases -/

/-- Frees every lock bit that a thread holds and marks its lock state lost (R309). (DEDUCED, log entry 43.) -/
def State.loseLocks (s : State) (t : ThreadId) : State :=
  let s1 := s.setThread t { s.thread t with lockLost := true }
  if isCompute t.unit then
    let j := clusterOf t.unit
    let c := s1.cluster j
    let free (l : Nat × LockBit) : Option (Nat × LockBit) :=
      let w := l.2.waiters.filter (· != t.key)
      let h := match l.2.holder with
        | some (k, n) => if k = t.key then none else some (k, n)
        | none => none
      if h.isNone && w.isEmpty then none else some (l.1, ⟨h, w⟩)
    s1.setCluster j { c with locks := c.locks.filterMap free }
  else s1

/-- Ends the lease of a half that a thread holds (Table 14.5). -/
def Half.endLease (h : Half) (t : ThreadId) : Half :=
  match h.lease with
  | some (u, _) => if u = t then { h with lease := none, lastHolder := some t } else h
  | none => h

/-- Ends the leases that a thread holds. -/
def State.endLeases (s : State) (t : ThreadId) : State :=
  if isCompute t.unit then
    let c := s.cluster (clusterOf t.unit)
    s.setCluster (clusterOf t.unit) { c with half0 := c.half0.endLease t, half1 := c.half1.endLease t }
  else s

/-- Takes the waiting requests of a thread away: a wait that a trap or a park abandons (R320). -/
def State.dropRequests (s : State) (t : ThreadId) : State :=
  let rm (h : Half) : Half := { h with requests := h.requests.filter fun r => r.1 != t }
  let drop (c : Cluster) : Cluster :=
    { c with half0 := rm c.half0, half1 := rm c.half1
             cbs := c.cbs.map fun b => (b.1, { b.2 with claimers := b.2.claimers.filter (·.1 != t.key)
                                                        takers := b.2.takers.filter (·.1 != t.key) })
             vreqs := c.vreqs.filter fun r => r.who != some t.key
             stop := { c.stop with rinjs := c.stop.rinjs.filter fun r => r.who != t.key } }
  { s with clusters := s.clusters.map (fun c => (c.1, drop c.2))
           quads := s.quads.map fun q => (q.1, { q.2 with drains := q.2.drains.filter fun r => r.who != t.key }) }

/-! ## Frames -/

/-- The E-side instructions, n at most, that stand one after another from an address and a place on. -/
def eRun (c : List Host.Cell) : Nat → Word → Nat → List EEntry
  | 0, _, _ => []
  | n + 1, a, seq =>
    let f := findInstr c a
    if (usesOf f.instr).eSide then ⟨a, f.len, f.instr, f.finfo, seq, [], none⟩ :: eRun c n (a + word f.len) (seq + 1)
    else []

/-- The E-side work of a thread that decode has taken and that has not completed, outside the wheel, oldest first (R425):
the running instruction first when decode gave it to the E-side directly. -/
def State.decodedE (s : State) : List EEntry :=
  if s.latch.src = .decode then
    [⟨s.latch.addr, s.latch.len, .nop, s.latch.finfo, s.latch.seq, [], none⟩] ++ s.me.equeue
  else s.me.equeue

/-- Address of the next instruction that decode takes after a trap of the running instruction. -/
def State.nextAt (s : State) : Word := if s.latch.src = .decode then s.latch.addr + word s.latch.len else s.me.pc

/-- The place of that instruction. -/
def State.nextSeq (s : State) : Nat := if s.latch.src = .decode then s.latch.seq + 1 else s.me.seq

/-- The E-side instructions that decode has not taken and that precede the oldest A-side instruction not yet issued, as far
as the 32 entries of the frame go (R40, R424, R425). -/
def State.aheadE (s : State) : List EEntry := eRun s.code (32 - s.decodedE.length) s.nextAt s.nextSeq

/-- The E-side instructions that a trap saves (R425): those that precede AEPC and have not completed, outside the wheel.
At a trap of the A-side decode has taken them all. -/
def State.pendingE (s : State) : List EEntry := if s.onE then s.decodedE ++ s.aheadE else s.decodedE

/-- The value of a register as a window holds it. -/
def Regs.wide (r : Regs) (f : RegFile) (n : Nat) : Tagged 256 :=
  match f with
  | .x => ⟨(r.getX n).val.setWidth 256, (r.getX n).mark⟩
  | .v => r.getV n
  | .k => ⟨(r.getK n).val.setWidth 256, (r.getK n).mark⟩

/-- Writes a register from the value that a window holds. -/
def Regs.setWide (r : Regs) (f : RegFile) (n : Nat) (v : Tagged 256) : Regs :=
  match f with
  | .x => r.setX n ⟨v.val.setWidth 64, v.mark⟩
  | .v => r.setV n v
  | .k => r.setK n ⟨v.val.setWidth 32, v.mark⟩

/-- A slot without the elements that it has fetched ahead (R177). -/
def Slot.unfetched (x : Slot) : Slot := { x with fetched := [] }

/-- Moves a thread's in-flight work into a frame (R40, R425, R86): the destinations of open windows get back the
values from before, and the results are kept. `pend` is the pending E-side work, `next` the place of the next
instruction that decode takes. -/
def saveFrame (t : Thread) (pend : List EEntry) (next : Nat) : Frame × Thread :=
  let places := pend.flatMap (·.places) ++ wheelPlaces t.wheel
  let live := t.windows.filter fun w => windowLeft w places next != 0
  -- the E-side instructions before the one that opened a window, which it does not cover
  let before (w : Window) : Nat :=
    Nat.min (wheelLeft t.wheel) (w.start + 1 - t.wheel.place) + (pend.map fun e => Nat.min e.size (w.start + 1 - e.seq)).sum
  let saved := live.map fun w =>
    ⟨w.file, w.reg, w.old, t.regs.wide w.file w.reg, windowLeft w places next, before w⟩
  let regs := live.foldl (fun r w => r.setWide w.file w.reg w.old) t.regs
  let prep := pend.findSome? (·.passes)
  let fr : Frame :=
    { valid := true, eq := pend.map (·.addr), rcnt := t.rcnt, rout := t.rout, prep := prep.isSome
      pcnt := prep.getD 0, wbody := if t.wheel.act then t.wheel.waddr else 0, wact := t.wheel.act
      wlen := t.wheel.len, wrepcnt := t.wheel.repcnt, wrepix := t.wheel.repix, bq := t.bq
      windows := saved, keys := pend.flatMap fun e => if e.passes.isSome then e.caps.map (·.1) else [] }
  (fr, { t with regs := regs, windows := [], equeue := [], wheel := { Wheel.empty with len := t.wheel.len, wm := t.wheel.wm }
                bq := ⟨[], 0⟩, rcnt := 0
                slots := t.slots.map Slot.unfetched, aWait := none, eWait := none, hold := none
                remote := none })

/-- The entries of a frame fetched again, numbered from a place on, and the place after them; the REP whose passes have
not begun takes its count from PCNT, and names the slots whose marks it joins (R425, R426, R188). -/
def State.refetchAll (s : State) (f : Frame) : List Word → Nat → List EEntry × Nat
  | [], q => ([], q)
  | a :: t, q =>
    let e := s.refetch a q none
    let e' := if bodyLen e.instr != 0 && f.prep then
        { e with passes := some f.pcnt, caps := f.keys.map fun k => (k, plain 0) } else e
    let (r, n) := State.refetchAll s f t (q + e'.size)
    (e' :: r, n)

/-- Resumes the in-flight work that a frame holds for a thread (R426); `eq` is the list of entry addresses. The wheel
comes first in program order, then the entries. The windows stand reopened as the entries capture their operands: one
before a window's end reads the value from before, and any other the stored result (R86). -/
def State.restoreFrame (s : State) (tid : ThreadId) (f : Frame) (eq : List Word) : State :=
  let t := s.thread tid
  let p := t.seq + 1
  let wins := f.windows.map fun w => (⟨w.file, w.reg, w.old, t.seq + w.skip, t.seq + w.skip + w.left⟩ : Window)
  let regs := f.windows.foldl (fun r w => r.setWide w.file w.reg w.result) t.regs
  let s0 := { s.setThread tid { t with regs := regs, windows := wins.map fun w => { w with start := 0 } } with cur := tid }
  let body := if f.wbody = 0 then [] else s0.refetchBody (f.wlen + 1) f.wbody p
  let wheel : Wheel :=
    { act := f.wact, len := f.wlen, repcnt := f.wrepcnt, repix := f.wrepix, body := body, waddr := f.wbody
      place := p, wm := t.wheel.wm }
  let (q, next) := s0.refetchAll f eq (p + wheelLeft wheel)
  -- a REP that waits holds its body in the wheel again (R425)
  let wheel := match q.find? fun e => e.passes.isSome with
    | some e =>
      let a := e.addr + word e.len
      if f.wact then wheel else { wheel with waddr := a, body := s0.refetchBody (bodyLen e.instr) a (e.seq + 1) }
    | none => wheel
  let u := { t with regs := regs, windows := wins, equeue := q, wheel := wheel, bq := f.bq, rcnt := f.rcnt
                    rout := f.rout, seq := next, aWait := none, eWait := none, hold := none }
  { s with threads := s.threads.set tid.key u }

/-! ## Parking and taking an exception -/

/-- Parks the running thread by fault and posts its PARK record (R40, R44); `addr` and `info` are those of a double
trap, or the registers'. -/
def State.parkFault (s : State) (addr info : Word) (m : Mark) : State :=
  let t := s.me
  let s1 := s.setMe { t with run := .parkedFault }
  let s2 := s1.endLeases s.cur
  s2.postDcp (dieOf s.cur.unit) 1 s.cur t.csr.cause.val t.csr.epc.val t.csr.aepc.val addr info
    (joins [t.csr.cause.mark, t.csr.epc.mark, t.csr.aepc.mark, t.csr.faddr.mark, t.csr.finfo.mark, m])

/-- CAUSE (Table 1.4). -/
def causeWord (defer whl eSide sys : Bool) (slot code : Nat) : Word :=
  word (b2n defer * 2 ^ 31 + b2n whl * 2 ^ 30 + b2n eSide * 2 ^ 29 + b2n sys * 2 ^ 28 + slot % 4 * 2 ^ 24
    + code % 64)

/-- The resume address of the A-side at a trap of the E-side: the oldest A-side instruction not yet issued, past the E-side
instructions that the frame takes (R40, R425). (DEDUCED, log entry 35.) -/
def State.aSideAt (s : State) : Word := s.aheadE.foldl (fun a e => a + word e.len) s.nextAt

/-- TrapEntry (R40). `m` is the join of CMARK and the marks of the trapping instruction's operands. (DEDUCED, log entry 37.) -/
def State.trapEntry (s : State) (code : Nat) (addr info : Word) (defer : Bool) (slot : Nat) (m : Mark) : State :=
  let e := s.onE
  let s0 := (s.loseLocks s.cur).dropRequests s.cur
  let t := s0.me
  if t.csr.intrap then
    let old := t.csr.cause.val
    let cause := setField (setField (setField old 5 0 0x2F) 29 29 (b2n e)) 28 28 1
    let csr := { t.csr with cause := ⟨cause, t.csr.cause.mark ||| m⟩
                            finfo := ⟨word (code % 64), t.csr.finfo.mark ||| m⟩ }
    let s1 := s0.setMe { t with csr := csr, equeue := [], windows := [], rcnt := 0, aWait := none, eWait := none
                                hold := none, remote := none, asking := none, sending := none, target := none
                                slots := t.slots.map Slot.unfetched }
    s1.parkFault addr info m
  else
    -- TRAP and BRK are not executed again
    let next := if e then s.nextSeq + s.aheadE.length else s.latch.seq + b2n (code == 3 || code == 4)
    let (fr, t1) := saveFrame t s.pendingE next
    let epc := if code = 3 ∨ code = 4 then s.latch.addr + word s.latch.len else s.latch.addr
    let aepc := if e then s.aSideAt else epc
    let vec := (if code = 2 then t.csr.evec.val else t.csr.tvec.val) &&& ~~~ 3#64
    let sys := decide (0x20 ≤ code) || vec == 0
    let csr := { t1.csr with cause := ⟨causeWord defer (s.latch.src = .wheel) e sys slot code, m⟩
                             epc := ⟨epc, m⟩, aepc := ⟨aepc, m⟩, faddr := ⟨addr, m⟩, finfo := ⟨info, m⟩
                             intrap := !sys, statusMark := if sys then t1.csr.statusMark else t1.csr.statusMark ||| m }
    let s1 := s0.setMe { t1 with csr := csr, trapFrame := fr, pc := if sys then t1.pc else vec
                                 asking := none, sending := none, target := none }
    if sys then s1.parkFault addr info m else s1

/-- TRET (R426), and the resumption of a thread parked by fault (R429): EPC stands for the oldest entry when the
E-side trapped outside the wheel, unless the cause is DOUBLE (DEDUCED, log entry 25). Elements that a handler's time
let the read slots fetch are dropped, so that every slot fetches again after the stores that precede (R177). No mark
changes. -/
def State.trapReturn (s : State) (tid : ThreadId) : State :=
  let t := s.thread tid
  let f := t.trapFrame
  let cause := t.csr.cause.val
  let eq := match f.eq with
    | [] => []
    | a :: rest =>
      if cause.getLsbD 29 && !cause.getLsbD 30 && field cause 5 0 != 0x2F then t.csr.epc.val :: rest else a :: rest
  let csr := { t.csr with intrap := false }
  let s1 := s.setThread tid { t with windows := [], csr := csr, slots := t.slots.map Slot.unfetched
                                     trapFrame := { f with valid := false }, pc := t.csr.aepc.val }
  if f.valid then s1.restoreFrame tid f eq else s1

/-! ## Completing, trapping, waiting -/

/-- Join of the marks of the running instruction's operands (R40). (DEDUCED, log entry 36.) -/
def State.operandMarks (s : State) (i : Instr) : Mark :=
  joins ((usesOf i).xr.map (fun n => (s.readX n).mark) ++ (usesOf i).vr.map (fun n => (s.readV n).mark)
    ++ (usesOf i).kr.map (fun n => (s.readK n).mark))

/-- FINFO of WAITTO (Table 11.14). (DEDUCED, log entry 49.) -/
def waitInfo (kind index unit chip : Nat) : Word :=
  word (kind * 2 ^ 56 + index % 256 * 2 ^ 48 + unit % 2 ^ 13 * 2 ^ 19 + chip % 2 ^ 19)

/-- The wait in progress on the side of the running instruction. -/
def State.myWait (s : State) : Option Wait := if s.onE then s.me.eWait else s.me.aWait

/-- Records a wait on the side of the running instruction. -/
def State.setWait (s : State) (w : Option Wait) : State :=
  if s.onE then s.setMe { s.me with eWait := w } else s.setMe { s.me with aWait := w }

/-- When the wait of the running instruction began (R320): a lock bit that passes to another holder leaves it the same
wait. -/
def State.waitSince (s : State) (kind : Nat) : Nat :=
  match s.myWait with
  | some w => if w.kind = kind then w.since else s.now
  | none => s.now

/-- Whether the watchdog's limit is reached (R320). -/
def State.waitOver (s : State) (kind since : Nat) : Bool :=
  let e := (s.part (s.partIx s.cur)).wdexp.toNat
  kind != 0 && e != 0 && decide (2 ^ e ≤ s.now - since)

/-- The state in which the effect of an A-side instruction begins: the program counter past it. -/
def State.advance (s : State) : State :=
  s.setMe { s.me with pc := s.latch.addr + word s.latch.len, seq := s.latch.seq + 1, aWait := none }

/-- Whether every earlier E-side instruction has completed, every pass of the wheel included. -/
def State.eIdle (s : State) : Bool := s.me.equeue.isEmpty && !s.me.wheel.act

end Sys2Proof.Machine
end

