-- ==== Sys2Proof/Machine/Flags.lean ====
section
/-! DEFINITION. Number formats, rounding and flags (chapter "Number formats, rounding and the order of sums"): the
binary formats, exact values, Round, the arithmetic of lanes, conversions, coded blocks and the long accumulator. -/

namespace Sys2Proof.Machine

open Sys2Proof

/-- The flags of Table 1.6 that an operation raises: bit 4 NV, 3 DZ, 2 OF, 1 UF, 0 NX. -/
abbrev FFlags := BitVec 5

/-- NV. -/
def fNV : FFlags := 16
/-- DZ. -/
def fDZ : FFlags := 8
/-- OF. -/
def fOF : FFlags := 4
/-- UF. -/
def fUF : FFlags := 2
/-- NX. -/
def fNX : FFlags := 1

/-- A binary format (Table 2.2): exponent and fraction widths, bias, and whether the top exponent is kept for infinity
and NaN (false for E4M3). -/
structure Fmt where
  k : Nat
  p : Nat
  bias : Nat
  ieee : Bool
  deriving DecidableEq, Repr

/-- FP32. -/
def fmt32 : Fmt := ⟨8, 23, 127, true⟩
/-- FP16. -/
def fmt16 : Fmt := ⟨5, 10, 15, true⟩
/-- BF16. -/
def fmtBf : Fmt := ⟨8, 7, 127, true⟩
/-- E4M3. -/
def fmtE4 : Fmt := ⟨4, 3, 7, false⟩
/-- E5M2. -/
def fmtE5 : Fmt := ⟨5, 2, 15, true⟩

/-- Width of a format in bits. -/
def Fmt.width (f : Fmt) : Nat := 1 + f.k + f.p

/-- The format of the TF field. -/
def fmtOf : FpTy → Fmt
  | .f32 => fmt32
  | .bf16 => fmtBf
  | .f16 => fmt16

/-- A value of a format: a NaN, signalling or quiet; an infinity by its sign; or (-1)^neg * m * 2^e. -/
inductive FVal where
  | nan (signalling : Bool)
  | inf (neg : Bool)
  | fin (neg : Bool) (m : Nat) (e : Int)
  deriving DecidableEq, Repr

/-- The canonical NaN (R51). -/
def Fmt.canon (f : Fmt) : Nat :=
  if f.ieee then (2 ^ f.k - 1) * 2 ^ f.p + 2 ^ (f.p - 1) else 2 ^ (f.k + f.p) - 1

/-- The sign bit in place. -/
def Fmt.sign (f : Fmt) (neg : Bool) : Nat := b2n neg * 2 ^ (f.k + f.p)

/-- The bits of an infinity. -/
def Fmt.infBits (f : Fmt) (neg : Bool) : Nat := f.sign neg + (2 ^ f.k - 1) * 2 ^ f.p

/-- The bits of the maximum finite value (Table 2.2). -/
def Fmt.maxBits (f : Fmt) (neg : Bool) : Nat :=
  f.sign neg + (if f.ieee then (2 ^ f.k - 1) * 2 ^ f.p - 1 else 2 ^ (f.k + f.p) - 2)

/-- Exponent of the minimum subnormal. -/
def Fmt.low (f : Fmt) : Int := 1 - f.bias - f.p

/-- The value of a bit pattern (R49, R51). -/
def Fmt.unpack (f : Fmt) (v : Nat) : FVal :=
  let neg := bit v (f.k + f.p)
  let e := v / 2 ^ f.p % 2 ^ f.k
  let m := v % 2 ^ f.p
  if e = 2 ^ f.k - 1 ∧ f.ieee then (if m = 0 then .inf neg else .nan (m / 2 ^ (f.p - 1) % 2 == 0))
  else if e = 2 ^ f.k - 1 ∧ m = 2 ^ f.p - 1 then .nan false
  else if e = 0 then .fin neg m f.low
  else .fin neg (2 ^ f.p + m) (f.low + (e - 1 : Nat))

/-! ## Rounding -/

/-- m / 2^s rounded to an integer in a mode (R52): 0 RNE, 1 RTZ, 2 RDN, 3 RUP, 4 RNA. -/
def roundShift (mode : Nat) (neg : Bool) (m s : Nat) : Nat :=
  let q := m / 2 ^ s
  let r := m % 2 ^ s
  if r = 0 then q
  else match mode with
    | 0 => if 2 * r > 2 ^ s ∨ (2 * r = 2 ^ s ∧ q % 2 = 1) then q + 1 else q
    | 1 => q
    | 2 => if neg then q + 1 else q
    | 3 => if neg then q else q + 1
    | _ => if 2 * r ≥ 2 ^ s then q + 1 else q

/-- Rounds m * 2^e to a multiple of 2^q: the integer multiple, and whether it is exact. -/
def roundTo (mode : Nat) (neg : Bool) (m : Nat) (e q : Int) : Nat × Bool :=
  if q ≤ e then (m * 2 ^ (e - q).toNat, true)
  else (roundShift mode neg m (q - e).toNat, m % 2 ^ (q - e).toNat == 0)

/-- The result on overflow (Table 2.3). -/
def Fmt.overflow (f : Fmt) (mode : Nat) (sat neg : Bool) : Nat :=
  let big := if f.ieee then f.infBits neg else f.canon
  if sat then f.maxBits neg
  else match mode with
    | 1 => f.maxBits neg
    | 2 => if neg then big else f.maxBits neg
    | 3 => if neg then f.maxBits neg else big
    | _ => big

/-- Round of Table 1.12 for a nonzero exact value (-1)^neg * m * 2^e (R52 to R54): bits and flags. -/
def Fmt.round (f : Fmt) (mode : Nat) (sat neg : Bool) (m : Nat) (e : Int) : Nat × FFlags :=
  if m = 0 then (f.sign neg, 0)
  else
    let top := e + (bitLen m - 1 : Nat)
    let emin : Int := 1 - f.bias
    let q := max (top - f.p) f.low
    let (r, exact) := roundTo mode neg m e q
    let body := r + (q - f.low).toNat * 2 ^ f.p
    let limit := if f.ieee then (2 ^ f.k - 1) * 2 ^ f.p else 2 ^ (f.k + f.p) - 1
    if limit ≤ body then (f.overflow mode sat neg, fOF ||| fNX)
    else
      let (r', _) := roundTo mode neg m e (top - f.p)
      let tiny := decide (top < emin) && !(r' == 2 ^ (f.p + 1) && top + 1 == emin)
      (f.sign neg + body, if exact then 0 else if tiny then fUF ||| fNX else fNX)

/-- The zero that a sum gives (R52): both operands' sign when they agree, otherwise +0, or -0 in RDN. -/
def zeroSign (mode : Nat) (a b : Bool) : Bool := if a = b then a else mode == 2

/-- The exact sum of two finite values: sign, magnitude, exponent. -/
def addExact (mode : Nat) (n1 : Bool) (m1 : Nat) (e1 : Int) (n2 : Bool) (m2 : Nat) (e2 : Int) : Bool × Nat × Int :=
  let e := min e1 e2
  let a : Int := (if n1 then -1 else 1) * ((m1 * 2 ^ (e1 - e).toNat : Nat) : Int)
  let b : Int := (if n2 then -1 else 1) * ((m2 * 2 ^ (e2 - e).toNat : Nat) : Int)
  let t := a + b
  if t = 0 then (zeroSign mode n1 n2, 0, e) else (decide (t < 0), t.natAbs, e)

/-- NV for signalling NaNs among the operands. -/
def nvOf (l : List FVal) : FFlags := if l.any (fun v => v == .nan true) then fNV else 0

/-- Whether a value is a NaN. -/
def FVal.isNan : FVal → Bool
  | .nan _ => true
  | _ => false

/-- Whether a value is a zero. -/
def FVal.isZero : FVal → Bool
  | .fin _ m _ => m == 0
  | _ => false

/-- Whether a value is an infinity. -/
def FVal.isInf : FVal → Bool
  | .inf _ => true
  | _ => false

/-- The sign of a value. -/
def FVal.isNeg : FVal → Bool
  | .nan _ => false
  | .inf n => n
  | .fin n _ _ => n

/-- The value with its sign inverted. -/
def FVal.negate : FVal → FVal
  | .nan s => .nan s
  | .inf n => .inf (!n)
  | .fin n m e => .fin (!n) m e

/-- The exact product; none for 0 · ∞ and for a NaN operand. -/
def FVal.times : FVal → FVal → Option FVal
  | .fin a m e, .fin b n f => some (.fin (a != b) (m * n) (e + f))
  | .inf a, .inf b => some (.inf (a != b))
  | .inf a, .fin b n _ => if n = 0 then none else some (.inf (a != b))
  | .fin a m _, .inf b => if m = 0 then none else some (.inf (a != b))
  | _, _ => none

/-- A rounded sum of two values that are no NaN (R52, Table 2.4). -/
def Fmt.sum (f : Fmt) (mode : Nat) (a b : FVal) : Nat × FFlags :=
  match a, b with
  | .inf x, .inf y => if x = y then (f.infBits x, 0) else (f.canon, fNV)
  | .inf x, _ => (f.infBits x, 0)
  | _, .inf y => (f.infBits y, 0)
  | .fin n1 m1 e1, .fin n2 m2 e2 =>
    let (n, m, e) := addExact mode n1 m1 e1 n2 m2 e2
    f.round mode false n m e
  | _, _ => (f.canon, 0)

/-- A + B (Table 5.1). -/
def Fmt.add (f : Fmt) (mode a b : Nat) : Nat × FFlags :=
  let x := f.unpack a
  let y := f.unpack b
  if x.isNan || y.isNan then (f.canon, nvOf [x, y]) else f.sum mode x y

/-- A - B (Table 5.1). -/
def Fmt.sub (f : Fmt) (mode a b : Nat) : Nat × FFlags :=
  let x := f.unpack a
  let y := f.unpack b
  if x.isNan || y.isNan then (f.canon, nvOf [x, y]) else f.sum mode x y.negate

/-- A · B (Table 5.1). -/
def Fmt.mul (f : Fmt) (mode a b : Nat) : Nat × FFlags :=
  let x := f.unpack a
  let y := f.unpack b
  if x.isNan || y.isNan then (f.canon, nvOf [x, y])
  else match x.times y with
    | none => (f.canon, fNV)
    | some (.inf n) => (f.infBits n, 0)
    | some (.fin n m e) => f.round mode false n m e
    | some (.nan _) => (f.canon, 0)

/-- ±(A · B) ± D with one rounding (R144): `np` inverts the product, `nd` the addend. -/
def Fmt.fma (f : Fmt) (mode : Nat) (np nd : Bool) (a b d : Nat) : Nat × FFlags :=
  let x := f.unpack a
  let y := f.unpack b
  let z := f.unpack d
  let bad := (x.isZero && y.isInf) || (x.isInf && y.isZero)
  let nv := nvOf [x, y, z] ||| (if bad then fNV else 0)
  if bad || x.isNan || y.isNan || z.isNan then (f.canon, nv)
  else match x.times y with
    | none => (f.canon, fNV)
    | some p => f.sum mode (if np then p.negate else p) (if nd then z.negate else z)

/-- The quotient of two nonzero finite magnitudes with a sticky last bit: it rounds as the exact quotient does. -/
def divSticky (m1 : Nat) (e1 : Int) (m2 : Nat) (e2 : Int) : Nat × Int :=
  let s := 64 + bitLen m2
  let q := m1 * 2 ^ s / m2
  (2 * q + b2n (m1 * 2 ^ s % m2 != 0), e1 - e2 - s - 1)

/-- A / B (Table 5.1, Table 2.4). -/
def Fmt.div (f : Fmt) (mode a b : Nat) : Nat × FFlags :=
  let x := f.unpack a
  let y := f.unpack b
  let n := x.isNeg != y.isNeg
  match x, y with
  | .nan _, _ => (f.canon, nvOf [x, y])
  | _, .nan _ => (f.canon, nvOf [x, y])
  | .inf _, .inf _ => (f.canon, fNV)
  | .inf _, _ => (f.infBits n, 0)
  | _, .inf _ => (f.sign n, 0)
  | .fin _ m1 e1, .fin _ m2 e2 =>
    if m2 = 0 then (if m1 = 0 then (f.canon, fNV) else (f.infBits n, fDZ))
    else if m1 = 0 then (f.sign n, 0)
    else
      let (m, e) := divSticky m1 e1 m2 e2
      f.round mode false n m e

/-- The integer square root, by bits from the n-th down: the largest r with r * r ≤ v, starting from r. -/
def isqrtFrom (v : Nat) : Nat → Nat → Nat
  | 0, r => r
  | n + 1, r => isqrtFrom v n (if (r + 2 ^ n) * (r + 2 ^ n) ≤ v then r + 2 ^ n else r)

/-- The integer square root. -/
def isqrt (v : Nat) : Nat := isqrtFrom v (bitLen v / 2 + 1) 0

/-- A value m * 2^e with the exponent even. -/
def evenExp (m : Nat) (e : Int) : Nat × Int := if e % 2 = 0 then (m, e) else (2 * m, e - 1)

/-- The square root of a nonzero magnitude with a sticky last bit. -/
def sqrtSticky (m : Nat) (e : Int) : Nat × Int :=
  let (m1, e1) := evenExp m e
  let v := m1 * 2 ^ 128
  let r := isqrt v
  (2 * r + b2n (r * r != v), e1 / 2 - 65)

/-- The reciprocal square root of a nonzero magnitude with a sticky last bit. -/
def rsqSticky (m : Nat) (e : Int) : Nat × Int :=
  let (m1, e1) := evenExp m e
  let big := 2 ^ (2 * (64 + bitLen m1))
  let r := isqrt (big / m1)
  (2 * r + b2n (r * r * m1 != big), -(e1 / 2) - (64 + bitLen m1 : Nat) - 1)

/-- √A (Table 5.2). -/
def Fmt.sqrt (f : Fmt) (mode a : Nat) : Nat × FFlags :=
  match f.unpack a with
  | .nan s => (f.canon, if s then fNV else 0)
  | .inf n => if n then (f.canon, fNV) else (f.infBits false, 0)
  | .fin n m e =>
    if m = 0 then (f.sign n, 0)
    else if n then (f.canon, fNV)
    else
      let (r, q) := sqrtSticky m e
      f.round mode false false r q

/-- 1/√A (Table 5.2). -/
def Fmt.rsq (f : Fmt) (mode a : Nat) : Nat × FFlags :=
  match f.unpack a with
  | .nan s => (f.canon, if s then fNV else 0)
  | .inf n => if n then (f.canon, fNV) else (0, 0)
  | .fin n m e =>
    if m = 0 then (f.infBits n, fDZ)
    else if n then (f.canon, fNV)
    else
      let (r, q) := rsqSticky m e
      f.round mode false false r q

/-- 1/A (Table 5.2). -/
def Fmt.rcp (f : Fmt) (mode a : Nat) : Nat × FFlags :=
  match f.unpack a with
  | .nan s => (f.canon, if s then fNV else 0)
  | .inf n => (f.sign n, 0)
  | .fin n m e =>
    if m = 0 then (f.infBits n, fDZ)
    else
      let (r, q) := divSticky 1 0 m e
      f.round mode false n r q

/-- ln 2 in units of 2^-192. -/
def ln2Fix : Nat := 4350955369971217654477563090224794165364344896676135745069

/-- The terms x^k / k! of the exponential series in units of 2^-192, summed from the k-th on. -/
def expTerms (x : Nat) : Nat → Nat → Nat → Nat
  | 0, _, _ => 0
  | n + 1, k, t => t + expTerms x n (k + 1) (t * x / 2 ^ 192 / (k + 1))

/-- 2^a for a finite nonzero a = (-1)^neg * m * 2^e, with a sticky last bit where 2^a is no power of two: within
2^-180 of the value, far closer than any value of the formats lies to a rounding boundary. -/
def exp2Sticky (neg : Bool) (m : Nat) (e : Int) : Nat × Int :=
  if e + (bitLen m : Nat) < -40 then (if neg then (2 ^ 61 - 1, -61) else (2 ^ 61 + 1, -61))
  else if 12 < e + (bitLen m : Nat) then (1, if neg then -4096 else 4096)
  else
    let a : Int := (if neg then -1 else 1) * (if 0 ≤ e then ((m * 2 ^ (e.toNat + 192) : Nat) : Int)
      else ((m * 2 ^ 192 / 2 ^ (-e).toNat : Nat) : Int))
    let n := a / (2 ^ 192 : Nat)
    let x := (a % (2 ^ 192 : Nat)).toNat
    if x = 0 then (1, n)
    else (2 * expTerms (x * ln2Fix / 2 ^ 192) 64 0 (2 ^ 192) + 1, n - 193)

/-- 2^A (Table 5.2). -/
def Fmt.exp2 (f : Fmt) (mode a : Nat) : Nat × FFlags :=
  match f.unpack a with
  | .nan s => (f.canon, if s then fNV else 0)
  | .inf n => (if n then 0 else f.infBits false, 0)
  | .fin n m e =>
    if m = 0 then f.round mode false false 1 0
    else
      let (r, q) := exp2Sticky n m e
      f.round mode false false r q

/-! ## Comparison -/

/-- Whether a finite or infinite value is below another. -/
def FVal.lt (a b : FVal) : Bool :=
  match a, b with
  | .inf n, .inf k => n && !k
  | .inf n, .fin _ _ _ => n
  | .fin _ _ _, .inf k => !k
  | .fin n1 m1 e1, .fin n2 m2 e2 =>
    let e := min e1 e2
    let x : Int := (if n1 then -1 else 1) * ((m1 * 2 ^ (e1 - e).toNat : Nat) : Int)
    let y : Int := (if n2 then -1 else 1) * ((m2 * 2 ^ (e2 - e).toNat : Nat) : Int)
    decide (x < y)
  | _, _ => false

/-- MinMax of R145, on bits. -/
def Fmt.minMax (f : Fmt) (isMax : Bool) (a b : Nat) : Nat × FFlags :=
  let x := f.unpack a
  let y := f.unpack b
  let fl := nvOf [x, y]
  if x.isNan && y.isNan then (f.canon, fl)
  else if x.isNan then (b, fl)
  else if y.isNan then (a, fl)
  else
    let below := x.lt y || (x.isZero && y.isZero && x.isNeg && !y.isNeg)
    (if below != isMax then a else if x == y then a else b, fl)

/-- A predicate of Table 5.3 and the NV it raises. -/
def Fmt.compare (f : Fmt) (pred a b : Nat) : Bool × FFlags :=
  let x := f.unpack a
  let y := f.unpack b
  let un := x.isNan || y.isNan
  let lt := !un && x.lt y
  let gt := !un && y.lt x
  let eq := !un && !lt && !gt
  let quiet := nvOf [x, y]
  let loud : FFlags := if un then fNV else 0
  match pred with
  | 0 => (eq, quiet)
  | 1 => (!eq, quiet)
  | 2 => (lt, loud)
  | 3 => (lt || eq, loud)
  | 4 => (gt, loud)
  | 5 => (gt || eq, loud)
  | 6 => (un, quiet)
  | _ => (!un, quiet)

/-- VCLASS of R149. -/
def Fmt.classify (f : Fmt) (a : Nat) : Nat :=
  match f.unpack a with
  | .nan s => if s then 2 ^ 8 else 2 ^ 9
  | .inf n => if n then 1 else 2 ^ 7
  | .fin n m _ =>
    if m = 0 then (if n then 2 ^ 3 else 2 ^ 4)
    else if m < 2 ^ f.p then (if n then 2 ^ 2 else 2 ^ 5)
    else if n then 2 else 2 ^ 6

/-! ## Conversions -/

/-- A float format of an element type; none for an integer or a coded type. -/
def fmtOfE : ETy → Option Fmt
  | .f32 => some fmt32
  | .f16 => some fmt16
  | .bf16 => some fmtBf
  | .e4m3 => some fmtE4
  | .e5m2 => some fmtE5
  | .e4m3c => none
  | .e5m2c => none
  | .i8 => none
  | .ui8 => none
  | .i32 => none
  | .i16 => none
  | .i64 => none

/-- Whether an integer type is signed. -/
def signedE (t : ETy) : Bool := t != .ui8

/-- Sat of Table 1.12 for an integer type, as bits, and whether the value was out of range. -/
def satInt (t : ETy) (v : Int) : Nat × Bool :=
  let w := t.width
  let lo : Int := if signedE t then -((2 ^ (w - 1) : Nat) : Int) else 0
  let hi : Int := if signedE t then ((2 ^ (w - 1) : Nat) : Int) - 1 else ((2 ^ w : Nat) : Int) - 1
  if v < lo then (wrap w lo, true) else if hi < v then (wrap w hi, true) else (wrap w v, false)

/-- The value of an integer type's bits. -/
def intOf (t : ETy) (v : Nat) : Int := if signedE t then sint t.width v else ((v % 2 ^ t.width : Nat) : Int)

/-- A float rounded to a format (R51 to R54, Tables 2.3 and 2.5). -/
def roundFloat (f g : Fmt) (mode : Nat) (sat : Bool) (v : Nat) : Nat × FFlags :=
  match f.unpack v with
  | .nan s => (g.canon, if s then fNV else 0)
  | .inf n =>
    if sat then (g.maxBits n, fNX)
    else if g.ieee then (g.infBits n, 0)
    else (g.canon, fNV)
  | .fin n m e => g.round mode sat n m e

/-- Float to float (Table 2.5): a conversion to the own format changes a signalling NaN alone (R157). -/
def convFloat (f g : Fmt) (mode : Nat) (sat : Bool) (v : Nat) : Nat × FFlags :=
  if f = g then
    match f.unpack v with
    | .nan s => if s then (g.canon, fNV) else (v, 0)
    | _ => (v, 0)
  else roundFloat f g mode sat v

/-- Float to integer (Table 2.5, R58). -/
def convToInt (f : Fmt) (t : ETy) (mode v : Nat) : Nat × FFlags :=
  match f.unpack v with
  | .nan _ => (0, fNV)
  | .inf n => ((satInt t (if n then -((2 ^ 80 : Nat) : Int) else ((2 ^ 80 : Nat) : Int))).1, fNV)
  | .fin n m e =>
    let (r, exact) := roundTo mode n m e 0
    let (b, out) := satInt t (if n then -(r : Int) else (r : Int))
    (b, if out then fNV else if exact then 0 else fNX)

/-- Integer to float (Table 2.5). -/
def convToFloat (t : ETy) (g : Fmt) (mode : Nat) (sat : Bool) (v : Nat) : Nat × FFlags :=
  let i := intOf t v
  if i = 0 then (0, 0) else g.round mode sat (decide (i < 0)) i.natAbs 0

/-- One element's conversion between types that are not coded (R58, R157). -/
def convElem (src dst : ETy) (mode : Nat) (sat : Bool) (v : Nat) : Nat × FFlags :=
  match fmtOfE src, fmtOfE dst with
  | some f, some g => convFloat f g mode sat v
  | some f, none => convToInt f dst mode v
  | none, some g => convToFloat src g mode sat v
  | none, none => (if sat then (satInt dst (intOf src v)).1 else wrap dst.width (intOf src v), 0)

/-- An element of a block that is encoded: rounded in RNE under R52 to R54 (R64), also where its format is the block's. R64
and R157 leave open whether such an encode is a conversion to the own format; the model takes it for none, so that a
quiet NaN becomes the canonical one and SAT acts on an infinity. (DEDUCED, log entry 88.) -/
def encodeElem (src dst : ETy) (sat : Bool) (v : Nat) : Nat × FFlags :=
  match fmtOfE src, fmtOfE dst with
  | some f, some g => roundFloat f g 0 sat v
  | _, _ => convElem src dst 0 sat v

/-! ## Coded blocks -/

/-- The exponents of a length, in order, with codewords from `code` on. -/
def codesOfLen (b : Nat) : List Nat → Nat → Nat → List (Nat × Nat × Nat) × Nat
  | [], _, code => ([], code)
  | l :: t, e, code =>
    if l = b then
      let (r, c) := codesOfLen b t (e + 1) (code + 1)
      ((e, b, code) :: r, c)
    else codesOfLen b t (e + 1) code

/-- CanonicalCodes of R61 from length b on: exponent, length and codeword. -/
def canonFrom (lens : List Nat) : Nat → Nat → Nat → List (Nat × Nat × Nat)
  | 0, _, _ => []
  | fuel + 1, b, code =>
    let (r, c) := codesOfLen b lens 0 code
    r ++ canonFrom lens fuel (b + 1) (2 * c)

/-- The codewords of a table (R61). -/
def canonicalCodes (lens : List Nat) : List (Nat × Nat × Nat) := canonFrom lens 8 1 0

/-- Whether a code table is valid (R61). -/
def tableValid (lens : List Nat) : Bool :=
  lens.all (· ≤ 8) && lens.any (· != 0) &&
    decide ((lens.map fun l => if l = 0 then 0 else 2 ^ (8 - l)).sum ≤ 2 ^ 8)

/-- The code of l bits that stand in a block from a position on, first bit most significant. -/
def codeBits (b pos : Nat) : Nat → Nat
  | 0 => 0
  | l + 1 => 2 * codeBits b pos l + b2n (bit b (pos + l))

/-- Sign and mantissa bits of an element (R59). -/
def rawBits (e5 : Bool) : Nat := if e5 then 3 else 4

/-- Bits that a block takes by its header (R59). -/
def blockBits (e5 : Bool) (h : Nat) : Nat := 16 * ((16 + 32 * rawBits e5 + h % 512 + 15) / 16)

/-- The exponents of a block's elements and the position after the last; none when a code is missing or too long. -/
def tokens (codes : List (Nat × Nat × Nat)) (b stop : Nat) : Nat → Nat → Option (List Nat × Nat)
  | 0, pos => some ([], pos)
  | n + 1, pos =>
    match codes.find? (fun c => codeBits b pos c.2.1 == c.2.2) with
    | none => none
    | some (e, l, _) =>
      if stop < pos + l then none
      else (tokens codes b stop n (pos + l)).map fun r => (e :: r.1, r.2)

/-- The header and exponents of a well-formed block (R63); none when it is malformed. -/
def blockExps (e5 : Bool) (tab : Nat → CodeTab) (b : Nat) : Option (List Nat) :=
  let h := b % 65536
  let base := 16 + 32 * rawBits e5
  if h / 2 ^ 13 ≠ 0 ∨ bit h 12 ≠ e5 ∨ h % 512 < 32 ∨ 256 < h % 512 then none
  else match tokens (canonicalCodes (tab (bits h 10 9)).lens) b (base + h % 512) 32 base with
    | some (es, pos) => if pos = base + h % 512 then some es else none
    | none => none

/-- DecodeBlock of R63: the 32 elements, whether the block is malformed, and its special-present summary. `tab` gives
the latched generation of each table id. -/
def decodeBlock (e5 : Bool) (tab : Nat → CodeTab) (b : Nat) : List Nat × Bool × Bool :=
  let f := if e5 then fmtE5 else fmtE4
  let q := rawBits e5
  match blockExps e5 tab b with
  | none => (List.replicate 32 f.canon, true, true)
  | some es =>
    let el := (es.zip (List.range 32)).map fun p =>
      let raw := b / 2 ^ (16 + q * p.2) % 2 ^ q
      f.sign (bit raw (q - 1)) + p.1 * 2 ^ f.p + raw % 2 ^ f.p
    (el, false, bit b 11 || el.any fun v => (f.unpack v).isNan || (f.unpack v).isInf)

/-- Appends the tokens of elements: the bits so far, and the position after them; the place of the first element
without a codeword otherwise. -/
def putTokens (codes : List (Nat × Nat × Nat)) (f : Fmt) : List Nat → Nat → Nat → Nat → Except Nat (Nat × Nat)
  | [], _, b, pos => .ok (b, pos)
  | v :: t, i, b, pos =>
    match codes.find? (fun c => c.1 == v / 2 ^ f.p % 2 ^ f.k) with
    | none => .error i
    | some (_, l, c) => putTokens codes f t (i + 1) (b + bitRev l c * 2 ^ pos) (pos + l)

/-- Encodes 32 elements (R64): the block, or the first element without a codeword. -/
def encodeBlock (e5 : Bool) (ctid : Nat) (tab : CodeTab) (el : List Nat) : Except Nat Nat :=
  let f := if e5 then fmtE5 else fmtE4
  let q := rawBits e5
  let base := 16 + 32 * q
  match putTokens (canonicalCodes tab.lens) f el 0 0 base with
  | .error i => .error i
  | .ok (toks, pos) =>
    let raws := ((el.zip (List.range 32)).map fun p =>
      (b2n (bit p.1 (f.k + f.p)) * 2 ^ f.p + p.1 % 2 ^ f.p) * 2 ^ (16 + q * p.2)).sum
    let sp := el.any fun v => (f.unpack v).isNan || (f.unpack v).isInf
    .ok (b2n e5 * 2 ^ 12 + b2n sp * 2 ^ 11 + ctid % 4 * 2 ^ 9 + (pos - base) + raws + toks)

/-! ## The long accumulator -/

/-- A long-accumulator window (Tables 2.7, 2.8): words, carry extensions, header. -/
structure Accu where
  w : List Nat
  c : List Int
  hdr : Nat
  deriving DecidableEq, Repr

/-- The window that 128 bytes hold. -/
def Accu.ofBytes (b : List Byte) : Accu :=
  { w := (List.range 10).map fun i => Machine.ofBytes ((b.drop (8 * i)).take 8)
    c := (List.range 10).map fun i => sint 8 (Machine.ofBytes ((b.drop (0x50 + i)).take 1))
    hdr := Machine.ofBytes ((b.drop 0x60).take 8) }

/-- The 128 bytes with a window's fields; reserved bytes keep what they held. -/
def Accu.toBytes (a : Accu) (old : List Byte) : List Byte :=
  a.w.flatMap (Machine.toBytes 8) ++ a.c.map (fun x => BitVec.ofNat 8 (wrap 8 x)) ++ (old.drop 0x5A).take 6
    ++ Machine.toBytes 8 a.hdr ++ (old.drop 0x68).take 24

/-- N of R66. -/
def Accu.n (a : Accu) : Int :=
  ((List.range 9).map fun i => ((a.w.getD i 0 * 2 ^ (64 * i) : Nat) : Int)).sum
    + sint 64 (a.w.getD 9 0) * (2 ^ 576 : Nat)
    + ((List.range 10).map fun i => a.c.getD i 0 * (2 ^ (64 * (i + 1)) : Nat)).sum

/-- Adds a signed value to word i: the window and the carry or borrow out of the word; W9 carries the sign (R66). -/
def Accu.addWord (a : Accu) (i : Nat) (v : Int) : Accu × Int :=
  let t := (if i = 9 then sint 64 (a.w.getD 9 0) else (a.w.getD i 0 : Int)) + v
  let lo := wrap 64 t
  let kept : Int := if i = 9 then sint 64 lo else (lo : Int)
  ({ a with w := setNth a.w i lo }, (t - kept) / (2 ^ 64 : Nat))

/-- Gives a carry to C(k), folding while a C would leave its range (R67). -/
def Accu.carry (a : Accu) : Nat → Nat → Int → Accu
  | 0, _, _ => a
  | fuel + 1, k, ch =>
    if ch = 0 then a
    else
      let old := a.c.getD k 0
      if -128 ≤ old + ch ∧ old + ch ≤ 127 then { a with c := setNth a.c k (old + ch) }
      else if k = 9 then { a with c := setNth a.c 9 (sint 8 (wrap 8 (old + ch))) }
      else
        let (b, c) := ({ a with c := setNth a.c k ch }).addWord (k + 1) old
        Accu.carry b fuel (k + 1) c

/-- Sets header bits. -/
def Accu.mark (a : Accu) (b : Nat) : Accu := { a with hdr := a.hdr ||| b }

/-- Accumulate of R67: `y` is the exact addend, none for a product 0 · ∞. -/
def Accu.add (a : Accu) (y : Option FVal) : Accu × FFlags :=
  match y with
  | none => (a.mark 2, fNV)
  | some (.nan s) => (a.mark 2, if s then fNV else 0)
  | some (.inf n) => (a.mark (if n then 8 else 4), 0)
  | some (.fin neg m e) =>
    if m = 0 then (a, 0)
    else
      let n := m * 2 ^ (e + 320).toNat / 2 ^ (-(e + 320)).toNat
      let j := ctz 640 n / 64
      let v : Int := (if neg then -1 else 1) * ((n / 2 ^ (64 * j) : Nat) : Int)
      let (a1, c1) := a.addWord j (v % (2 ^ 64 : Nat))
      let (a2, c2) := a1.addWord (j + 1) (v / (2 ^ 64 : Nat) + c1)
      let a3 := a2.carry 10 (j + 1) c2
      let ok := decide (-((2 ^ 639 : Nat) : Int) ≤ a3.n) && decide (a3.n < ((2 ^ 639 : Nat) : Int))
      (if ok then a3 else a3.mark 1, 0)

/-- The exact product of two lanes as an addend of the accumulator: none for 0 · ∞. -/
def productAddend (x y : FVal) : Option FVal :=
  if x.isNan || y.isNan then some (.nan (nvOf [x, y] != 0)) else x.times y

/-- ACCRD's value (R69). -/
def Accu.read (a : Accu) (f : Fmt) (mode : Nat) : Nat × FFlags :=
  let b (i : Nat) : Bool := bit a.hdr i
  if b 1 || (b 2 && b 3) then (f.canon, fNV)
  else if b 2 then (f.infBits false, 0)
  else if b 3 then (f.infBits true, 0)
  else if b 0 then (f.canon, fNV)
  else if a.n = 0 then (0, 0)
  else f.round mode false (decide (a.n < 0)) a.n.natAbs (-320)

/-! ## Lanes -/

/-- The results and flags of lanes: only the lanes that the mask selects raise flags (R141). -/
def laneMap (mask : BitVec 32) (n : Nat) (f : Nat → Nat × FFlags) : List Nat × FFlags :=
  let rs := (List.range n).map f
  (rs.map (·.1), (rs.zip (List.range n)).foldl (fun acc r => if mask.getLsbD r.2 then acc ||| r.1.2 else acc) 0)

/-- A pairwise tree (R70). -/
def treeStep (op : Nat → Nat → Nat × FFlags) : List Nat → List Nat × FFlags
  | a :: b :: t =>
    let (v, f) := op a b
    let (r, g) := treeStep op t
    (v :: r, f ||| g)
  | l => (l, 0)

/-- The value that a pairwise tree leaves (R70). -/
def tree (op : Nat → Nat → Nat × FFlags) : Nat → List Nat → Nat × FFlags
  | 0, l => (l.headD 0, 0)
  | n + 1, l =>
    if l.length ≤ 1 then (l.headD 0, 0)
    else
      let (r, f) := treeStep op l
      let (v, g) := tree op n r
      (v, f ||| g)

/-- SetFlags (R46, R23): ORs flags into FFLAGS and joins a mark into its mark. -/
def State.setFlags (s : State) (f : FFlags) (m : Mark) : State :=
  let t := s.me
  s.setMe { t with csr := { t.csr with fflags := ⟨t.csr.fflags.val ||| f.setWidth 64, t.csr.fflags.mark ||| m⟩ } }

/-- FRM.MODE. -/
def State.frm (s : State) : Nat := field ((s.kept frmKey).getD s.me.csr.frm).val 2 0

end Sys2Proof.Machine
end

