-- ==== Sys2Proof/Machine/Memory.lean ====
section
/-! DEFINITION. Memory: bytes, marks and poison by location, the address spaces and their checks, translation,
requests to other packages, and the recording of inputs. Byte o of the memory of unit u stands at location
u * 2^21 + o, byte p of HBM at 2^36 + p, byte h of the host at 2^64 + h. -/

namespace Sys2Proof.Machine

open Sys2Proof

/-! ## Bytes, marks, poison -/

/-- The byte at a location; what is not listed reads 0 (DESIGN CHOICE, log entry 6). -/
def cellGet : List Host.Cell → Nat → Byte
  | [], _ => 0
  | (k, v) :: t, a => if k = a then v else cellGet t a

/-- Writes a byte, keeping addresses strictly rising and no zero byte listed. -/
def cellPut : List Host.Cell → Nat → Byte → List Host.Cell
  | [], a, b => if b = 0 then [] else [(a, b)]
  | (k, v) :: t, a, b =>
    if a < k then (if b = 0 then (k, v) :: t else (a, b) :: (k, v) :: t)
    else if k = a then (if b = 0 then t else (a, b) :: t)
    else (k, v) :: cellPut t a b

/-- Writes bytes at successive locations. -/
def cellsPut : List Host.Cell → Nat → List Byte → List Host.Cell
  | c, _, [] => c
  | c, a, b :: t => cellsPut (cellPut c a b) (a + 1) t

/-- The canonical form: addresses strictly rising and no zero byte listed. -/
def cellsWf : List Host.Cell → Bool
  | [] => true
  | [(_, v)] => v != 0
  | (a, v) :: (b, w) :: t => v != 0 && decide (a < b) && cellsWf ((b, w) :: t)

/-- The mark of a line or block by its first location; 0x0000 when not listed. -/
def markGet : Table Mark → Nat → Mark
  | [], _ => 0
  | (k, v) :: t, a => if k = a then v else markGet t a

/-- Writes the mark of a line or block, keeping keys strictly rising and no mark 0x0000 listed. -/
def markPut : Table Mark → Nat → Mark → Table Mark
  | [], a, m => if m = 0 then [] else [(a, m)]
  | (k, v) :: t, a, m =>
    if a < k then (if m = 0 then (k, v) :: t else (a, m) :: (k, v) :: t)
    else if k = a then (if m = 0 then t else (a, m) :: t)
    else (k, v) :: markPut t a m

/-- The canonical form of the marks. -/
def marksWf : Table Mark → Bool
  | [] => true
  | [(_, v)] => v != 0
  | (a, v) :: (b, w) :: t => v != 0 && decide (a < b) && marksWf ((b, w) :: t)

/-- Adds a granule or block to the poisoned ones, keeping them strictly rising. -/
def poisonPut : List Nat → Nat → List Nat
  | [], g => [g]
  | k :: t, g => if g < k then g :: k :: t else if k = g then k :: t else k :: poisonPut t g

/-- The canonical form of the poisoned granules and blocks: strictly rising. -/
def poisonWf : List Nat → Bool
  | [] => true
  | [_] => true
  | a :: b :: t => decide (a < b) && poisonWf (b :: t)

/-- The canonical form of memory. -/
def Memory.wf (m : Memory) : Bool := cellsWf m.cells && marksWf m.marks && poisonWf m.poison

/-- The byte at a location. -/
def Memory.get (m : Memory) (a : Nat) : Byte := cellGet m.cells a

/-- n bytes from a location on. -/
def Memory.read (m : Memory) : Nat → Nat → List Byte
  | _, 0 => []
  | a, n + 1 => m.get a :: Memory.read m (a + 1) n

/-- Writes bytes from a location on. -/
def Memory.write (m : Memory) (a : Nat) (bs : List Byte) : Memory := { m with cells := cellsPut m.cells a bs }

/-- First location of the memory of a unit. -/
def unitLoc (u : Nat) : Nat := u * 2 ^ 21

/-- First location of the scratchpad of a cluster. -/
def spadLoc (j : Nat) : Nat := unitLoc (0x1000 + j)

/-- First location of HBM. -/
def hbmLoc : Nat := 2 ^ 36

/-- First location of the host's memory. -/
def hostLoc : Nat := 2 ^ 64

/-- Whether a location lies in a scratchpad. -/
def isSpadLoc (l : Nat) : Bool := decide (spadLoc 0 ≤ l) && decide (l < spadLoc 0x200)

/-- Bytes that share one mark at a location: 64 in local memory, 512 in the scratchpad and in HBM (R28, R304, R305). -/
def markSize (l : Nat) : Nat := if l < hbmLoc && !isSpadLoc l then 64 else 512

/-- Bytes that are poisoned together at a location (R446): a 64-byte granule, or a block of HBM. -/
def poisonSize (l : Nat) : Nat := if l < hbmLoc then 64 else 512

/-- First locations of the lines or blocks that n bytes at a location touch; none in host memory. -/
def markLines (l n : Nat) : List Nat := if hostLoc ≤ l then [] else linesOf l n (markSize l)

/-- Join of the marks of the lines that n bytes touch (R306). -/
def Memory.markOf (m : Memory) (l n : Nat) : Mark := joins ((markLines l n).map (markGet m.marks))

/-- Joins a mark into every line that n bytes touch. -/
def Memory.joinMark (m : Memory) (l n : Nat) (k : Mark) : Memory :=
  { m with marks := (markLines l n).foldl (fun t g => markPut t g (markGet t g ||| k)) m.marks }

/-- Sets the mark of every line that n bytes touch. -/
def Memory.putMark (m : Memory) (l n : Nat) (k : Mark) : Memory :=
  { m with marks := (markLines l n).foldl (fun t g => markPut t g k) m.marks }

/-- The poisoned granules that n bytes at a location touch. -/
def Memory.poisoned (m : Memory) (l n : Nat) : List Nat :=
  (linesOf l n (poisonSize l)).filter fun g => m.poison.contains g

/-- Clears the poison of every granule that n bytes cover wholly (R446). -/
def Memory.cleanse (m : Memory) (l n : Nat) : Memory :=
  { m with poison := m.poison.filter fun g => !(decide (l ≤ g) && decide (g + poisonSize l ≤ l + n)) }

/-- Poisons every granule that n bytes touch. -/
def Memory.taint (m : Memory) (l n : Nat) : Memory :=
  { m with poison := (linesOf l n (poisonSize l)).foldl poisonPut m.poison }

/-- Stores bytes with a mark: the bytes move, the mark joins each line, whole granules lose their poison. -/
def Memory.store (m : Memory) (l : Nat) (bs : List Byte) (k : Mark) : Memory :=
  ((m.write l bs).joinMark l bs.length k).cleanse l bs.length

/-- Zero-fills n bytes and clears the marks of their lines (R220, R306). -/
def Memory.zero (m : Memory) (l n : Nat) : Memory :=
  { m with cells := m.cells.filter (fun c => !(decide (l ≤ c.1) && decide (c.1 < l + n)))
           marks := m.marks.filter (fun c => !(decide (l ≤ c.1 + markSize l - 1) && decide (c.1 < l + n)))
           poison := m.poison.filter (fun g => !(decide (l ≤ g + poisonSize l - 1) && decide (g < l + n))) }

/-! ## Partitions of scratchpad lines and ceilings -/

/-- The partition of a scratchpad line (R524). (DEDUCED, log entry 41.) -/
def State.lineParts (s : State) (j line : Nat) : Option Nat :=
  match s.partsOfCluster j with
  | [] => none
  | [p] => some p
  | _ =>
    s.groups.findSome? fun g =>
      if g.2.ranges.any (fun r => r.cluster == j && decide (r.base ≤ line) && decide (line < r.base + r.len))
      then some g.2.part else none

/-- CEIL(L) of a scratchpad line (R304, R440). -/
def State.lineCeil (s : State) (j line : Nat) : Mark :=
  let c := s.cluster j
  match s.lineParts j line with
  | none => c.ceil0 &&& c.ceil1
  | some p => if (s.partsOfCluster j).head? == some p then c.ceil0 else c.ceil1

/-- The slots outside the ceilings that a store of a mark to n bytes of a scratchpad would give (R304); 0 elsewhere. -/
def State.overCeil (s : State) (l n : Nat) (m : Mark) : Mark :=
  if isSpadLoc l then
    joins ((markLines l n).map fun g =>
      (markGet s.mem.marks g ||| m) &&& ~~~ s.lineCeil ((g - spadLoc 0) / 2 ^ 21) (g % 2 ^ 21 / 512))
  else 0

/-! ## Versioned windows -/

/-- The enabled versioned windows of a cluster as first line and number of lines (R312). -/
def State.vwins (s : State) (j : Nat) : List (Nat × Nat) :=
  ((s.cluster j).vwcfg.filter fun e => e.2.getLsbD 47).map fun e => (field e.2 10 0, field e.2 24 16)

/-- Whether n bytes at a scratchpad offset touch a versioned window. -/
def State.inWindow (s : State) (j off n : Nat) : Bool :=
  (s.vwins j).any fun w => decide (off < 512 * (w.1 + w.2)) && decide (512 * w.1 < off + n)

/-! ## Agents and targets -/

/-- Who makes an access: the unit, the LWIN and the partition under which it is checked, whether a thread's instruction
waits for its answer, and for any other requester whether 2^24 ticks have passed without one (R456). -/
structure Agent where
  unit : Nat
  lwin : Word
  part : Option Nat
  instr : Bool
  late : Bool
  deriving DecidableEq, Repr

/-- Whether 2^24 ticks have passed since a request found no answer (R456). -/
def overdue (since : Option Nat) (now : Nat) : Bool :=
  match since with
  | some t => decide (t + 2 ^ 24 ≤ now)
  | none => false

/-- The running thread as an agent. -/
def State.agent (s : State) : Agent :=
  ⟨s.cur.unit, ((s.kept lwinKey).getD s.me.csr.lwin).val, s.partOf s.cur, true, false⟩

/-- The local window (R25 to R27). -/
def State.resolve00 (s : State) (g : Agent) (a : Word) (n : Nat) (write vw : Bool) : Except Halt Target :=
  let o := a.toNat
  if o < 0x10000 then
    let (b, len) := lwinLocal g.lwin
    if o < b ∨ b + len ≤ o then bounds a 1 write
    else if b + len < o + n ∨ 0x10000 < o + n then bounds a 2 write
    else .ok (.loc (unitLoc g.unit + o))
  else if isCompute g.unit && decide (0x100000 ≤ o) && decide (o < 0x200000) then
    let (b, len) := lwinSpad g.lwin
    let p := o - 0x100000
    if p < 512 * b ∨ 512 * (b + len) ≤ p then bounds a 1 write
    else if 512 * (b + len) < p + n ∨ 0x100000 < p + n then bounds a 2 write
    else if !vw && s.inWindow (clusterOf g.unit) p n then bounds a 5 write
    else .ok (.loc (spadLoc (clusterOf g.unit) + p))
  else bounds a 0 write

/-- Bytes of a unit of Table 11.2. -/
def unitSize (u : Nat) : Nat :=
  if u < 0x1000 then 0x10000 else if u < 0x1200 then 0x100000 else if u < 0x1388 then 0x10000 else 0

/-- The partitioned global space (R297). The local memory of a compute core of no partition is refused like that of another
partition's. (DESIGN CHOICE, log entry 111.) -/
def State.resolve10 (s : State) (g : Agent) (a : Word) (n : Nat) (write vw : Bool) : Except Halt Target :=
  let chip := field a 52 34
  let u := field a 33 21
  let o := field a 20 0
  let mine (p : Option Nat) : Bool := everyPart g.unit || (p.isSome && p == g.part)
  if field a 61 53 != 0 then bounds a 0 write
  else if s.pkg.sysn ≤ chip then bounds a 0 write
  else if unitSize u = 0 then bounds a 0 write
  else if unitSize u < o + n then bounds a 2 write
  else if chip ≠ s.chip then .ok (.remote chip)
  else if u < 0x1000 && !mine (s.partOfCore u) then bounds a 1 write
  else if decide (0x1000 ≤ u) && decide (u < 0x1200) then
    let j := u - 0x1000
    if !everyPart g.unit && (linesOf o n 512).any (fun l => !mine (s.lineParts j (l / 512))) then bounds a 1 write
    else if !vw && s.inWindow j o n then bounds a 5 write
    else .ok (.loc (spadLoc j + o))
  else .ok (.loc (unitLoc u + o))

/-- The requests that wait at a cluster. -/
def State.held (s : State) (unit : Nat) : List VReq := ((s.clusters.get? (unit - 0x1000)).map (·.vreqs)).getD []

/-- Whether the remote request agent of a unit holds 16 requests (R315). -/
def State.agentHolds16 (s : State) (unit : Nat) : Bool :=
  decide (0x1000 ≤ unit) && decide (unit < 0x1200) && decide (16 ≤ ((s.held unit).filter (·.far)).length)

/-- Whether the remote request agent of a unit has no place for a request of the running thread (R315): it holds 16, and
none of them is the thread's. -/
def State.agentFull (s : State) (unit : Nat) : Bool :=
  s.agentHolds16 unit && (s.held unit).all fun r => r.who != some s.cur.key

/-- The target of an access of n ≥ 1 bytes (R295); `vw` exempts LDV, STV and RECLAIM from R297's and R351's rule on
versioned windows. A thread whose request finds the agent of its unit full holds it and retries (R315). -/
def State.resolve (s : State) (g : Agent) (a : Word) (n : Nat) (write vw : Bool) : Except Halt Target :=
  match field a 63 62 with
  | 0 => s.resolve00 g a n write vw
  | 1 => if isCompute g.unit then trapWith 0x23 a 0 else .ok .virt
  | 2 => do
    let t ← s.resolve10 g a n write vw
    if g.instr && field a 52 34 == s.chip && s.agentFull (field a 33 21) then holdOn else .ok t
  | _ =>
    if field a 61 34 != 0 then bounds a 0 write
    else if !aligned a.toNat 8 || n != 8 then bounds a 3 write
    else .ok (.ctl (field a 33 21) (field a 20 0))

/-! ## Translation -/

/-- Slice of a virtual address (R316). -/
def sliceOf (a : Word) : Nat := ((field a 24 9 ^^^ field a 40 25) ^^^ field a 47 41) * 384 / 65536

/-- Reads an 8-byte entry of a table in local HBM. -/
def State.entryAt (s : State) (pa : Nat) : Word := word (ofBytes (s.mem.read (hbmLoc + pa % 2 ^ 40) 8))

/-- Whether an entry of a table is poisoned (R446). -/
def State.entryBad (s : State) (pa : Nat) : Bool := !(s.mem.poisoned (hbmLoc + pa % 2 ^ 40) 8).isEmpty

/-- Why an address has no translation: PAGE with the level and reason of Table 17.4, or a poisoned entry (R319, R446). -/
inductive NoPage where
  | page (level reason : Nat)
  | poisoned

/-- Whether a table pointer breaks the rules of Table 11.11 (R319). -/
def badPointer (e : Word) (level : Nat) : Bool :=
  level == 3 || field e 63 45 != 0 || field e 36 29 != 0 || field e 4 2 != 0
    || (decide (level < 2) && field e 40 37 != 0)

/-- Page size of a leaf by level and TYPE (R318); 0 where no leaf is allowed. -/
def leafSize (level ty : Nat) : Nat :=
  if level = 1 ∧ ty = 2 then 2 ^ 30 else if level = 1 ∧ ty = 3 then 2 ^ 32
  else if level = 2 ∧ ty = 2 then 2 ^ 21 else if level = 3 ∧ ty = 2 then 2 ^ 16 else 0

/-- The level of a leaf by its page size. -/
def levelOfSize (size : Nat) : Nat := if size = 2 ^ 16 then 3 else if size = 2 ^ 21 then 2 else 1

/-- Walks the tables of a partition from a level on (R318, R319): a page and its leaf. A poisoned entry is never read as data
(R446). -/
def State.walkFrom (s : State) (p va : Nat) : List (Nat × Nat × Nat) → Nat → Except NoPage Xlat
  | [], _ => .error (.page 3 4)
  | (level, hi, lo) :: rest, table =>
    let ix := bits va hi lo
    let e := s.entryAt (table + 8 * ix)
    let ty := field e 1 0
    if s.entryBad (table + 8 * ix) then .error .poisoned
    else if ty = 0 then .error (.page level 3)
    else if ty = 3 ∧ level ≠ 1 then .error (.page level 5)
    else if ty = 1 then
      if badPointer e level then .error (.page level 4)
      else State.walkFrom s p va rest (field e 28 5 * 2 ^ 16 + field e 44 37 * 2 ^ 8)
    else
      let size := leafSize level ty
      let group := if ty = 3 then span (ix / 4 * 4) 4 else []
      if size = 0 then .error (.page level 4)
      else if field e 28 5 * 2 ^ 16 % size ≠ 0 then .error (.page level 4)
      else if group.any fun i => s.entryBad (table + 8 * i) then .error .poisoned
      else if !group.all fun i => s.entryAt (table + 8 * i) == e then .error (.page level 4)
      else .ok ⟨p, sliceOf (word va), va - va % size, size, e⟩

/-- The levels of a walk with their index bits (R318). -/
def walkLevels : List (Nat × Nat × Nat) := [(0, 47, 39), (1, 38, 30), (2, 29, 21), (3, 20, 16)]

/-- A walk from a partition's TROOT (R318, R319). -/
def State.walk (s : State) (p va : Nat) : Except NoPage Xlat :=
  s.walkFrom p va walkLevels (field (s.part p).troot 39 12 * 2 ^ 12)

/-- Takes the oldest translation of a slice out of a list. -/
def dropSlice (slice : Nat) : List Xlat → List Xlat
  | [] => []
  | x :: t => if x.slice = slice then t else x :: dropSlice slice t

/-- Keeps a translation in its slice, in the place of the slice's oldest where 2,048 stand, whichever partitions they serve
(R318; DEDUCED, log entry 22). -/
def keepXlat (l : List Xlat) (x : Xlat) : List Xlat :=
  (if 2048 ≤ (l.filter (·.slice == x.slice)).length then dropSlice x.slice l else l) ++ [x]

/-- Keeps a translation (R318). -/
def State.cache (s : State) (x : Xlat) : State := { s with xlats := keepXlat s.xlats x }

/-- The leaf of a virtual address for a partition (R318, R319): the translation that the address's slice holds, or a walk
that is then kept. -/
def State.translate (s : State) (p va : Nat) : Except NoPage (State × Xlat) :=
  if !(s.part p).troot.getLsbD 0 then .error (.page 0 2)
  else match s.xlats.find? fun x =>
      x.part == p && x.slice == sliceOf (word va) && decide (x.vbase ≤ va) && decide (va < x.vbase + x.size) with
  | some x => .ok (s, x)
  | none => match s.walk p va with
    | .ok x => .ok (s.cache x, x)
    | .error e => .error e

/-- The leaf that an access at a virtual address uses. A physical address from 768 GiB on, past the HBM of R1, is served
as memory up to 2^40, since the spec does not say what an access there does. (DESIGN CHOICE, log entry 87.) -/
def leafOf (x : Xlat) (va : Nat) : Leaf :=
  { size := x.size, tgt := field x.leaf 4 3, pa := field x.leaf 28 5 * 2 ^ 16 + va % x.size
    ceil := BitVec.ofNat 16 (field x.leaf 63 48), chip := field x.leaf 47 29, w := x.leaf.getLsbD 2
    level := levelOfSize x.size }

/-- The number of 512-byte blocks that an access can touch, at least one. -/
def pageFuel (n : Nat) : Nat := n / 512 + 2

/-- Translates every 512-byte block of a virtual access, each in its own slice (R316, R319, R347); `a` is the first
address of the whole access. -/
def State.pieces (s : State) (p : Nat) (a : Word) (write : Bool) : Nat → Nat → Nat → Except Halt (State × List Piece)
  | 0, _, _ => .ok (s, [])
  | fuel + 1, i, n =>
    if n ≤ i then .ok (s, [])
    else
      let fault (lv r : Nat) : Except Halt (State × List Piece) :=
        trapWith 0x20 a (word (lv + b2n write * 8 + r * 16))
      let v := a + word i
      if field v 61 48 ≠ 0 then fault 0 1
      else match s.translate p (field v 47 0) with
        | .error (.page lv r) => fault lv r
        | .error .poisoned => trapWith 0x24 v 1
        | .ok (s1, x) =>
          let lf := leafOf x (field v 47 0)
          if write && !lf.w then fault lf.level 6
          else
            let k := Nat.min (n - i) (512 - field v 8 0)
            match State.pieces s1 p a write fuel (i + k) n with
            | .error e => .error e
            | .ok (s2, ps) => .ok (s2, ⟨i, k, lf⟩ :: ps)

/-- The destination origin of a page with TGT 1 (R478): its CEIL when it names at most one slot. -/
def originOf (c : Mark) : Mark := if popcount 16 c.toNat ≤ 1 then c else 0

/-- A write mark over a block: joined with the old mark, or the mark alone when a relabelling write covers the whole
block (R305, R487). -/
def newMark (m : Memory) (g size l n : Nat) (k : Mark) (relabel : Bool) : Mark :=
  if relabel && decide (l ≤ g) && decide (g + size ≤ l + n) then k else markGet m.marks g ||| k

/-- The mark of the block that a store to a page of another package joins (R305, R468): a free value while the package
can answer, and nothing where no owner tells it. (DESIGN CHOICE, log entry 16.) -/
def State.ownerMark (s : State) (g : Agent) (chip : Nat) : Mark :=
  if s.pkg.failed.contains chip || s.pkg.portsUp == 0 || (s.part (g.part.getD 0)).recMode == 2
    || Config.remoteVerdict s.ix != 0 then 0
  else Config.remoteMark s.ix

/-- The FINFO of the MARK that a store to a piece raises; none when it raises none (R305, R478, R468). -/
def State.pieceMark (s : State) (g : Agent) (pc : Piece) (m : Mark) (relabel : Bool) : Option Word :=
  match pc.leaf.tgt with
  | 1 => let x := m &&& ~~~ originOf pc.leaf.ceil
         if x = 0 then none else some (word (2 ^ 16 + x.toNat))
  | 2 => let own := if relabel && pc.len == 512 then 0 else s.ownerMark g pc.leaf.chip
         let x := (m ||| own) &&& ~~~ pc.leaf.ceil
         if x = 0 then none else some (word x.toNat)
  | _ =>
    let l := hbmLoc + pc.leaf.pa
    let x := joins ((markLines l pc.len).map fun g =>
      newMark s.mem g 512 l pc.len m relabel &&& ~~~ pc.leaf.ceil)
    if x = 0 then none else some (word x.toNat)

/-- The FINFO of the MARK that a store raises, from what its parts raise in order: that of the first, whose slots are those
of every block or line that the store would write (R304, R305). -/
def joinOver (l : List Word) : Option Word :=
  l.head?.map fun x =>
    if x.getLsbD 16 then x else word (l.foldl (fun acc y => acc ||| if y.getLsbD 16 then 0 else y.toNat % 2 ^ 16) 0)

/-- The FINFO of the MARK that a store to the pieces of a virtual access raises (R305, R478). -/
def State.piecesMark (s : State) (g : Agent) (ps : List Piece) (m : Mark) (relabel : Bool) : Option Word :=
  joinOver (ps.filterMap fun p => s.pieceMark g p m relabel)

/-- Translates a virtual access and makes every check of it (R319, R347): PAGE, then LOST, then MARK. -/
def State.checkVirt (s : State) (g : Agent) (a : Word) (n : Nat) (write : Bool) (m : Mark) (relabel : Bool) :
    Except Halt (State × List Piece) := do
  let (s1, ps) ← s.pieces (g.part.getD 0) a write (pageFuel n) 0 n
  if ps.any (fun p => p.leaf.tgt == 3) then trapWith 0x24 a 0
  else if write then
    match s1.piecesMark g ps m relabel with
    | some x => trapWith 0x21 a x
    | none => .ok (s1, ps)
  else .ok (s1, ps)

/-! ## Host events -/

/-- Posts a host event on a channel: it waits in the engine until the ring takes it (R464). -/
def State.postHost (s : State) (ch kind status tag : Nat) (detail : Word) (m : Mark) : State :=
  let e : HostEvent := ⟨word (kind * 2 ^ 56 + status % 256 * 2 ^ 48 + tag % 2 ^ 32), detail, s.tbase, m⟩
  s.setChannel ch { s.channel ch with events := (s.channel ch).events ++ [e] }

/-! ## Accesses at a location -/

/-- A location that an access at `a` of n bytes at location l meets poisoned (R446). -/
def State.poisonAt (s : State) (a : Word) (l n : Nat) : Option Word :=
  (s.mem.poisoned l n).head?.map fun g => a + word (g - l)

/-- Reads n bytes of the package at a location, with the join of their marks; LOST on poison (R306, R446). -/
def State.loadLoc (s : State) (a : Word) (l n : Nat) : Except Halt (List Byte × Mark) :=
  match s.poisonAt a l n with
  | some f => trapWith 0x24 f 1
  | none => .ok (s.mem.read l n, s.mem.markOf l n)

/-- Whether a store of n bytes at a location meets poison that it does not clear (R446). -/
def State.storePoison (s : State) (a : Word) (l n : Nat) : Option Word :=
  ((s.mem.poisoned l n).find? fun g => !(decide (l ≤ g) && decide (g + poisonSize l ≤ l + n))).map
    fun g => a + word (g - l)

/-- Writes bytes at a location with a mark: joined into each line, or taken alone by the lines that a relabelling
write covers wholly (R304, R487). -/
def State.put (s : State) (l : Nat) (bs : List Byte) (m : Mark) (relabel : Bool) : State :=
  let marks := (markLines l bs.length).foldl
    (fun t g => markPut t g (newMark s.mem g (markSize l) l bs.length m relabel)) s.mem.marks
  { s with mem := ({ (s.mem.write l bs) with marks := marks } : Memory).cleanse l bs.length }

/-- Checks a store at a location of the package: poison, then the ceilings of scratchpad lines (R304). -/
def State.checkLoc (s : State) (a : Word) (l n : Nat) (m : Mark) : Except Halt Unit :=
  match s.storePoison a l n with
  | some f => trapWith 0x24 f 1
  | none =>
    let x := s.overCeil l n m
    if x = 0 then .ok () else trapWith 0x21 a (word x.toNat)

/-- Checks a store of several runs of bytes, each given by address, location and length, as one access (R304): poison,
then the ceilings of every scratchpad line that it writes. `a` is the first address of the access. -/
def State.checkRuns (s : State) (a : Word) (m : Mark) (rs : List (Word × Nat × Nat)) : Except Halt Unit :=
  match rs.findSome? (fun r => s.storePoison r.1 r.2.1 r.2.2) with
  | some f => trapWith 0x24 f 1
  | none =>
    let x := joins (rs.map fun r => s.overCeil r.2.1 r.2.2 m)
    if x = 0 then .ok () else trapWith 0x21 a (word x.toNat)

/-! ## Requests to other packages -/

/-- What becomes of a request to another package or the host: an answer, a refusal, or silence so far. -/
inductive Reply where
  | data (s : State) (bytes : List Byte) (mark : Mark)
  | refused (d : Denial)
  | silent

/-- A trap that a refused request raises. -/
def denyWith {α : Type} (code : Nat) (addr info : Word) (d : Denial) : Except Halt α :=
  .error (.trap code addr info false 0 (some d))

/-- BOUNDS at an instruction whose space-10 request was refused (R456). -/
def denyBounds {α : Type} (addr : Word) (write : Bool) (d : Denial) : Except Halt α :=
  denyWith 0x06 addr (word (b2n write + 2 * 4)) d

/-- Posts the event of a refusal on channel 0 (R456, R474). -/
def State.postDenial (s : State) : Option Denial → State
  | none => s
  | some d => match d.event with
    | some (k, v) => s.postHost 0 k 0 0 v 0
    | none => s

/-- The chip number that stands for the host among the requests of threads. -/
def hostChip : Nat := 2 ^ 19

/-- Whether the host answers an access to its memory (R458): the bytes themselves move in `mem`. (DESIGN CHOICE, log entry 16.) -/
def State.askHost (s : State) (g : Agent) : Reply :=
  let s1 := { s with free := s.free + 1 }
  match (if g.instr then s.me.remote else none) with
  | some r => match r.answer with
    | some (.data _ _) => .data (s1.setMe { s1.me with remote := none }) [] 0
    | some .refused => .refused ⟨none, none⟩
    | none => .silent
  | none =>
    if Config.hostAnswers s.ix then .data s1 [] 0
    else if g.instr || !g.late then .silent
    else .refused ⟨none, none⟩

/-- Sends a request that reads n bytes (0 for a store) at an address to another package: its answer is a free value, and
without a working port nothing answers (R456, R457; DESIGN CHOICE, log entry 16). -/
def State.sendRequest (s : State) (g : Agent) (chip : Nat) (a : Word) (n : Nat) : Reply :=
  let s1 := { s with free := s.free + 1 }
  if s.pkg.failed.contains chip then .refused ⟨none, none⟩
  else match (if g.instr then s.me.remote else none) with
    | some r => match r.answer with
      | some (.data v m) => .data (s1.setMe { s1.me with remote := none }) (toBytes n v) m
      | some .refused => .refused ⟨none, none⟩
      | none => .silent
    | none =>
      let v := if s.pkg.portsUp = 0 then 2 else Config.remoteVerdict s.ix
      if v = 0 then .data s1 (toBytes n (Config.remoteData s.ix)) (if n ≠ 0 then Config.remoteMark s.ix else 0)
      else if v = 1 then .refused ⟨none, some (.response (g.part.getD 0) chip g.unit a)⟩
      else if g.instr || !g.late then .silent
      else .refused ⟨some (0x07, word chip), none⟩

/-! ## Recording and replay -/

/-- The mailbox engine as the agent of an access for a partition that found no answer since a time (R456). -/
def engineAgent (p : Nat) (since : Option Nat) (now : Nat) : Agent := ⟨0x1FFF, 0, some p, false, overdue since now⟩

/-- Reads bytes of a partition's space 01 for the mailbox engine, from local HBM, the host or another package (R468). -/
def State.peekVirt (s : State) (p : Nat) (a : Word) (n : Nat) (since : Option Nat) : Except Halt (List Byte) := do
  let g := engineAgent p since s.now
  let (s1, ps) ← s.checkVirt g a n false 0 false
  let (_, bs) ← ps.foldlM (fun (acc : State × List Byte) (x : Piece) =>
    match x.leaf.tgt with
    | 0 => (acc.1.loadLoc (a + word x.at_) (hbmLoc + x.leaf.pa) x.len).map fun r => (acc.1, acc.2 ++ r.1)
    | 1 => match acc.1.askHost g with
      | .data t _ _ => .ok (t, acc.2 ++ acc.1.mem.read (hostLoc + x.leaf.pa) x.len)
      | .refused d => denyWith 0x24 a 0 d
      | .silent => .error (.silent hostChip)
    | _ => match acc.1.sendRequest g x.leaf.chip a x.len with
      | .data t b _ => .ok (t, acc.2 ++ b)
      | .refused d => denyWith 0x24 a 0 d
      | .silent => .error (.silent x.leaf.chip)) (s1, [])
  .ok bs

/-- Writes bytes to a partition's space 01 for the mailbox engine, in local HBM, the host or another package (R468). -/
def State.pokeVirt (s : State) (p : Nat) (a : Word) (bs : List Byte) (m : Mark) (since : Option Nat) : Except Halt State := do
  let g := engineAgent p since s.now
  let (s1, ps) ← s.checkVirt g a bs.length true m false
  ps.foldlM (fun (t : State) (x : Piece) =>
    let part := (bs.drop x.at_).take x.len
    match x.leaf.tgt with
    | 0 => .ok (t.put (hbmLoc + x.leaf.pa) part m false)
    | 1 => match t.askHost g with
      | .data t1 _ _ => .ok { t1 with mem := t1.mem.write (hostLoc + x.leaf.pa) part }
      | .refused d => denyWith 0x24 a 0 d
      | .silent => .error (.silent hostChip)
    | _ => match t.sendRequest g x.leaf.chip a 0 with
      | .data t1 _ _ => .ok t1
      | .refused d => denyWith 0x24 a 0 d
      | .silent => .error (.silent x.leaf.chip)) s1

/-- Bytes that a recorded entry takes: the header and the payload padded to 32 bytes (R473). -/
def entryBytes (len : Nat) : Nat := 32 + (len + 31) / 32 * 32

/-- Ends recording and posts RECFULL on channel 0 (R473; DESIGN CHOICE, log entry 116). -/
def State.recordEnds (s : State) (p : Nat) : State :=
  (s.setPart p { s.part p with recFull := true, recHeld := [] }).postHost 0 0x09 0 0 (word p) 0

/-- Writes the entries that a recording region has not taken yet, at most n of them, in order. A region that refuses one
ends recording as a full one does. (DESIGN CHOICE, log entry 116.) -/
def State.flushRecord (s : State) (p : Nat) : Nat → State
  | 0 => s
  | n + 1 =>
    let q := s.part p
    match q.recHeld with
    | [] => s
    | (pos, bs, m) :: rest => match s.pokeVirt p (q.recBase + word pos) bs m q.recSince with
      | .ok s1 => State.flushRecord (s1.setPart p { s1.part p with recHeld := rest, recSince := none }) p n
      | .error (.silent _) => s.setPart p { q with recSince := some (q.recSince.getD s.now) }
      | .error (.trap _ _ _ _ _ d) => (s.postDenial d).recordEnds p
      | .error (.wait _ _ _ _) => s

/-- Appends an input to a partition's recording region when RECMODE is 1 (R473); when the entry does not fit, recording
stops and RECFULL is posted. -/
def State.recordInput (s : State) (p kind chip unit : Nat) (m : Mark) (daddr : Word) (payload : List Byte) : State :=
  let q := s.part p
  if q.recMode ≠ 1 ∨ q.recFull then s
  else
    let n := entryBytes payload.length
    if q.recLen.toNat < q.recPos + n then s.recordEnds p
    else
      let head := toBytes 32 (ofWords [s.tbase.toNat,
        kind * 2 ^ 56 + chip % 2 ^ 19 * 2 ^ 32 + unit % 2 ^ 13 * 2 ^ 19 + m.toNat, daddr.toNat, payload.length])
      let bs := head ++ payload ++ List.replicate (n - 32 - payload.length) 0
      (s.setPart p { q with recPos := q.recPos + n, recHeld := q.recHeld ++ [(q.recPos, bs, m)] }).flushRecord p
        (q.recHeld.length + 1)

/-- A recorded entry (R473). -/
structure RecEntry where
  stamp : Word
  kind : Nat
  chip : Nat
  unit : Nat
  mark : Mark
  daddr : Word
  payload : List Byte
  deriving DecidableEq, Repr

/-- The entry at a position of a partition's region; none at its end, or where the region cannot be read. -/
def State.recAt (s : State) (p pos : Nat) : Except Halt (Option RecEntry) :=
  let q := s.part p
  if q.recLen.toNat < pos + 32 then .ok none
  else match s.peekVirt p (q.recBase + word pos) 32 q.recSince with
    | .error (.silent c) => .error (.silent c)
    | .error _ => .ok none
    | .ok h =>
      let w (i : Nat) : Word := word (ofBytes ((h.drop (8 * i)).take 8))
      let kind := field (w 1) 63 56
      let len := (w 3).toNat
      if kind = 0 ∨ 4 < kind ∨ q.recLen.toNat < pos + entryBytes len then .ok none
      else match s.peekVirt p (q.recBase + word (pos + 32)) (Nat.max len 1) q.recSince with
        | .error (.silent c) => .error (.silent c)
        | .error _ => .ok none
        | .ok bs => .ok (some ⟨w 0, kind, field (w 1) 50 32, field (w 1) 31 19, BitVec.ofNat 16 (field (w 1) 15 0), w 2,
                               bs.take len⟩)

/-- The first recorded response of a requester unit from a position on that has not been used (R474). -/
def State.nextResponse (s : State) (p unit : Nat) : Nat → Nat → Except Halt (Option (Nat × RecEntry))
  | 0, _ => .ok none
  | fuel + 1, pos => do
    match ← s.recAt p pos with
    | none => .ok none
    | some e =>
      if e.kind = 4 ∧ e.unit = unit ∧ !(s.part p).recUsed.contains pos then .ok (some (pos, e))
      else State.nextResponse s p unit fuel (pos + entryBytes e.payload.length)

/-- What a refusal leaves behind: its event (R456, R474), the entry of a refusal that reached a partition which records (R473),
which has no payload and the mark 0xFFFF, or the recorded refusal that was used. (DESIGN CHOICE, log entry 116.) -/
def State.denied (s : State) (d : Option Denial) : State :=
  let s1 := s.postDenial d
  match d.bind (·.note) with
  | some (.response p chip unit a) => s1.recordInput p 4 chip unit 0xFFFF a []
  | some (.used p pos) => s1.setPart p { s1.part p with recUsed := (s1.part p).recUsed ++ [pos] }
  | none => s1

/-- Sends a request that reads n bytes (0 for a store) at an address to another package (R456, R474; DESIGN CHOICE, log entry
16): a partition in replay is answered from its region, and one that records keeps the response (R473). -/
def State.askRemote (s : State) (g : Agent) (chip : Nat) (a : Word) (n : Nat) : Reply :=
  let p := g.part.getD 0
  let q := s.part p
  if q.recMode = 2 ∧ !s.pkg.failed.contains chip then
    match s.nextResponse p g.unit (q.recLen.toNat / 32 + 1) 0 with
    | .ok (some (pos, e)) =>
      if e.payload.isEmpty && e.mark == 0xFFFF then .refused ⟨none, some (.used p pos)⟩
      else
        .data ({ s with free := s.free + 1 }.setPart p { q with recUsed := q.recUsed ++ [pos] })
          (toBytes n (ofBytes e.payload)) e.mark
    | .ok none => .refused ⟨some (0x0A, word (g.unit * 2 ^ 19 + s.chip)), none⟩
    | .error _ => .silent
  else match s.sendRequest g chip a n with
    | .data s1 bs m => .data (s1.recordInput p 4 chip g.unit m a bs) bs m
    | .refused d => .refused d
    | .silent => .silent

/-- The egress check of data for another package (R478): MARK's FINFO, none when it may leave. (DEDUCED, log entry 42.) -/
def State.egress (s : State) (g : Agent) (m : Mark) : Option Word :=
  let porig := if everyPart g.unit then 0 else (s.part (g.part.getD 0)).porig
  let x := m &&& ~~~ (BitVec.ofNat 16 (field porig 15 0))
  if porig.getLsbD 17 ∨ x = 0 then none else some (word (2 ^ 16 + x.toNat))

/-! ## Loads and stores of any space but control space -/

/-- Reads the pieces of a virtual access. -/
def State.loadPieces (s : State) (g : Agent) (a : Word) : List Piece → Except Halt (State × List Byte × Mark)
  | [] => .ok (s, [], 0)
  | p :: rest => do
    let here ← (match p.leaf.tgt with
      | 0 => do
        let (bs, m) ← s.loadLoc (a + word p.at_) (hbmLoc + p.leaf.pa) p.len
        .ok (s, bs, m)
      | 1 => match s.askHost g with
        | .data s1 _ _ => .ok (s1, s.mem.read (hostLoc + p.leaf.pa) p.len, originOf p.leaf.ceil)
        | .refused d => denyWith 0x24 a 0 d
        | .silent => .error (.silent hostChip)
      | _ => match s.askRemote g p.leaf.chip (a + word p.at_) p.len with
        | .data s1 bs m => .ok (s1, bs, m)
        | .refused d => denyWith 0x24 a 0 d
        | .silent => .error (.silent p.leaf.chip) : Except Halt (State × List Byte × Mark))
    let (s1, bs, m) := here
    let (s2, bs2, m2) ← State.loadPieces s1 g a rest
    .ok (s2, bs ++ bs2, m ||| m2)

/-- Writes the pieces of a virtual access whose checks have been made. -/
def State.storePieces (s : State) (g : Agent) (a : Word) (bs : List Byte) (m : Mark) (relabel : Bool) :
    List Piece → Except Halt State
  | [] => .ok s
  | p :: rest =>
    let part := (bs.drop p.at_).take p.len
    match p.leaf.tgt with
    | 0 =>
      State.storePieces (s.put (hbmLoc + p.leaf.pa) part m relabel) g a bs m relabel rest
    | 1 => match s.askHost g with
      | .data s1 _ _ =>
        State.storePieces { s1 with mem := s1.mem.write (hostLoc + p.leaf.pa) part } g a bs m relabel rest
      | .refused d => denyWith 0x24 a 0 d
      | .silent => .error (.silent hostChip)
    | _ => match s.askRemote g p.leaf.chip (a + word p.at_) 0 with
      | .data s1 _ _ => State.storePieces s1 g a bs m relabel rest
      | .refused d => denyWith 0x24 a 0 d
      | .silent => .error (.silent p.leaf.chip)

/-- Whether a store to the pieces of a virtual access meets poison that it does not clear. -/
def State.piecesPoison (s : State) (a : Word) (ps : List Piece) : Option Word :=
  ps.findSome? fun p => if p.leaf.tgt = 0 then s.storePoison (a + word p.at_) (hbmLoc + p.leaf.pa) p.len else none

/-- Loads n bytes for an agent; control space is no place for it (R298). -/
def State.loadAs (s : State) (g : Agent) (a : Word) (n : Nat) : Except Halt (State × List Byte × Mark) :=
  if n = 0 then .ok (s, [], 0)
  else do
    match ← s.resolve g a n false false with
    | .loc l => do
      let (bs, m) ← s.loadLoc a l n
      .ok (s, bs, m)
    | .virt => do
      let (s1, ps) ← s.checkVirt g a n false 0 false
      s1.loadPieces g a ps
    | .remote chip => match s.askRemote g chip a n with
      | .data s1 bs m => .ok (s1, bs, m)
      | .refused d => denyBounds a false d
      | .silent => .error (.silent chip)
    | .ctl _ _ => bounds a 0 false

/-- Makes every check of a store of n bytes with a mark, before any byte moves. -/
def State.checkAs (s : State) (g : Agent) (a : Word) (n : Nat) (m : Mark) (relabel : Bool) :
    Except Halt (State × Target × List Piece) := do
  match ← s.resolve g a n true false with
  | .loc l =>
    match s.storePoison a l n with
    | some f => trapWith 0x24 f 1
    | none =>
      let x := if isSpadLoc l then
          joins ((markLines l n).map fun q =>
            newMark s.mem q 512 l n m relabel &&& ~~~ s.lineCeil ((q - spadLoc 0) / 2 ^ 21) (q % 2 ^ 21 / 512))
        else 0
      if x = 0 then .ok (s, .loc l, []) else trapWith 0x21 a (word x.toNat)
  | .virt => do
    let (s1, ps) ← s.checkVirt g a n true m relabel
    match s1.piecesPoison a ps with
    | some f => trapWith 0x24 f 1
    | none => .ok (s1, .virt, ps)
  | .remote chip => match s.egress g m with
    | some x => trapWith 0x21 a x
    | none => .ok (s, .remote chip, [])
  | .ctl _ _ => bounds a 0 true

/-- Stores bytes with a mark for an agent. -/
def State.storeAs (s : State) (g : Agent) (a : Word) (bs : List Byte) (m : Mark) : Except Halt State :=
  if bs.isEmpty then .ok s
  else do
    let (s1, t, ps) ← s.checkAs g a bs.length m false
    match t with
    | .loc l => .ok (s1.put l bs m false)
    | .virt => s1.storePieces g a bs m false ps
    | .remote chip => match s1.askRemote g chip a 0 with
      | .data s2 _ _ => .ok s2
      | .refused d => denyBounds a true d
      | .silent => .error (.silent chip)
    | .ctl _ _ => bounds a 0 true

/-! ## The local window -/

/-- LoadL (Table 1.12): n bytes of the local window as a number, with the join of their marks. (DESIGN CHOICE, log entry 9.) -/
def State.loadL (s : State) (a : Word) (n : Nat) : Except Halt (Nat × Mark) := do
  match ← (if field a 63 62 = 0 then s.resolve00 s.agent a n false false else bounds a 0 false) with
  | .loc l => do
    let (bs, m) ← s.loadLoc a l n
    .ok (ofBytes bs, m)
  | _ => bounds a 0 false

/-- A block of n bytes in the local window, aligned to `al` bytes, as a number, with the join of its marks. -/
def State.blockL (s : State) (a : Word) (al n : Nat) : Except Halt (Nat × Mark) :=
  if field a 63 62 ≠ 0 then bounds a 0 false
  else if !aligned a.toNat al then bounds a 3 false
  else s.loadL a n

/-- StoreL (Table 1.12): bytes to the local window with a mark. -/
def State.storeL (s : State) (a : Word) (bs : List Byte) (m : Mark) : Except Halt State := do
  match ← (if field a 63 62 = 0 then s.resolve00 s.agent a bs.length true false else bounds a 0 true) with
  | .loc l => do
    s.checkLoc a l bs.length m
    .ok (s.put l bs m false)
  | _ => bounds a 0 true

end Sys2Proof.Machine
end

