-- ==== Sys2Proof/Machine/Streams.lean ====
section
/-! DEFINITION. Stream and fibre slots, what bound registers deliver and take, and how an instruction of the E-side
issues and completes: suppression, pops, fibre reads, pushes, the wheel. -/

namespace Sys2Proof.Machine

open Sys2Proof

/-! ## Descriptors -/

/-- n bytes of a 64-byte descriptor from an offset on. -/
def dget (d : BitVec 512) (off n : Nat) : Nat := d.toNat / 2 ^ (8 * off) % 2 ^ (8 * n)

/-- The element type of a CTL field's low four bits, when it is not reserved and not coded (R172). -/
def plainType (ctl : Nat) : Option ETy :=
  match ETy.ofCode (BitVec.ofNat 4 ctl) with
  | some t => if t.coded then none else some t
  | none => none

/-- Counts of an affine descriptor. -/
def affCnt (d : BitVec 512) (j : Nat) : Nat := dget d (0x10 + 4 * j) 4

/-- Strides of an affine descriptor. -/
def affStr (d : BitVec 512) (j : Nat) : Nat := dget d (0x20 + 8 * j) 8

/-- A valid affine descriptor (R172). -/
def affineOk (d : BitVec 512) : Bool :=
  let ctl := dget d 8 4
  (plainType ctl).isSome && decide (ctl / 64 = 0) && dget d 0x0C 4 == 0
    && (List.range 4).all (fun j => affCnt d j != 0
      && (decide (j ≤ ctl / 16 % 4) || (affCnt d j == 1 && affStr d j == 0)))
    && decide (affCnt d 0 * affCnt d 1 * affCnt d 2 * affCnt d 3 < 2 ^ 48)

/-- A valid indirect descriptor (R173). -/
def indirectOk (d : BitVec 512) : Bool :=
  let ctl := dget d 8 4
  (plainType ctl).isSome && decide (ctl / 32 = 0) && dget d 0x18 4 != 0 && dget d 0x1C 36 == 0

/-- The length of a stream in elements. -/
def streamLen (indirect : Bool) (d : BitVec 512) : Nat :=
  if indirect then dget d 0x18 4 else affCnt d 0 * affCnt d 1 * affCnt d 2 * affCnt d 3

/-- Width in bits of the elements of a descriptor whose CTL is given. -/
def ctlWidth (ctl : Nat) : Nat := ((plainType ctl).getD .i8).width

/-- Width in bits of a stream's elements. -/
def Slot.width (x : Slot) : Nat := ctlWidth (dget x.desc 8 4)

/-- Elements that one pop or push moves (R174). -/
def Slot.lanes (x : Slot) : Nat := if x.vec then 256 / x.width else 1

/-- The length of a slot's stream. -/
def Slot.len (x : Slot) : Nat := streamLen x.indirect x.desc

/-- Address of an element of an affine stream (R172). -/
def affineAt (d : BitVec 512) (e : Nat) : Word :=
  let c0 := affCnt d 0
  let c1 := affCnt d 1
  let c2 := affCnt d 2
  word (dget d 0 8 + e % c0 * affStr d 0 + e / c0 % c1 * affStr d 1 + e / (c0 * c1) % c2 * affStr d 2
    + e / (c0 * c1 * c2) * affStr d 3)

/-- FINFO of a deferred fault: bits [49:0] are replaced (R43, R176, R193). (DEDUCED, log entry 47.) -/
def deferInfo (info : Word) (num : Nat) (index fibre : Bool) : Word :=
  setField info 49 0 (num % 2 ^ 48 + b2n index * 2 ^ 48 + b2n fibre * 2 ^ 49)

/-- Makes a trap the deferred fault of a slot at an address. -/
def deferTo {α : Type} (addr : Word) (num : Nat) (index fibre : Bool) (slot : Nat) (r : Except Halt α) :
    Except Halt α :=
  match r with
  | .ok a => .ok a
  | .error (.trap c _ i _ _ r) => .error (.trap c addr (deferInfo i num index fibre) true slot r)
  | .error e => .error e

/-- Bytes of an index of an indirect stream (Table 6.4). -/
def indexSize (d : BitVec 512) : Nat := if bit (dget d 8 4) 4 then 4 else 2

/-- Address of index e of an indirect stream (R173). -/
def indexAt (d : BitVec 512) (e : Nat) : Word := word (dget d 0x10 8 + e * indexSize d)

/-- Address of the element of an indirect stream whose index is given (R173). -/
def indirectAt (d : BitVec 512) (index : Nat) : Word :=
  word (dget d 0 8 + (signExt index (8 * indexSize d)).toNat * dget d 0x0C 4)

/-- Address of element e of a slot, with the marks of the index lines read; `fault` gives the fault of an index read its
form (R173, R175). -/
def State.elemAddr (s : State) (x : Slot) (e : Nat)
    (fault : Word → Except Halt (State × List Byte × Mark) → Except Halt (State × List Byte × Mark)) :
    Except Halt (State × Word × Mark) :=
  if x.indirect then do
    let ia := indexAt x.desc e
    let (s1, bs, m) ← fault ia (s.loadAs s.agent ia (indexSize x.desc))
    .ok (s1, indirectAt x.desc (ofBytes bs), m)
  else .ok (s, affineAt x.desc e, 0)

/-- Reads the elements of one pop from element e on, lane 0 first: the bits, the marks of their lines and those of the
index lines (R174 to R176). -/
def State.readElems (s : State) (x : Slot) (n e : Nat) : Nat → Except Halt (State × Nat × Mark × Mark)
  | 0 => .ok (s, 0, 0, 0)
  | k + 1 => do
    let (s1, a, im) ← s.elemAddr x e fun ia r => deferTo ia e true false n r
    let (s2, bs, m) ← deferTo a e false false n (s1.loadAs s1.agent a (x.width / 8))
    let (s3, v, m2, im2) ← State.readElems s2 x n (e + 1) k
    .ok (s3, ofBytes bs + 2 ^ x.width * v, m ||| m2, im ||| im2)

/-- The marks of the index lines that a pop reads, up to the first of its accesses that faults: they join SM as they are
read (R175). -/
def State.indexMarks (s : State) (x : Slot) (e : Nat) : Nat → Mark
  | 0 => 0
  | k + 1 => match s.elemAddr x e fun _ r => r with
    | .error _ => 0
    | .ok (s1, a, im) => match s1.loadAs s1.agent a (x.width / 8) with
      | .error _ => im
      | .ok (s2, _, _) => im ||| State.indexMarks s2 x (e + 1) k

/-- Stream slot n of the running thread. -/
def State.slot (s : State) (n : Nat) : Slot := s.me.slots.getD n Slot.closed

/-- Writes stream slot n. -/
def State.setSlot (s : State) (n : Nat) (x : Slot) : State :=
  s.setMe { s.me with slots := s.me.slots.setIfInBounds n x }

/-- Fibre slot n of the running thread. -/
def State.fibre (s : State) (n : Nat) : Fibre := s.me.fibres.getD n Fibre.closed

/-- Writes fibre slot n. -/
def State.setFibre (s : State) (n : Nat) (x : Fibre) : State :=
  s.setMe { s.me with fibres := s.me.fibres.setIfInBounds n x }

/-- ARITH 0x11: no element is left (R174). -/
def noElement {α : Type} (x : Slot) (n : Nat) : Except Halt α := arith 0x11 n x.daddr

/-- The next element or vector of a read slot: from what was fetched ahead, or fetched now (R176). -/
def State.nextElem (s : State) (n : Nat) : Except Halt (State × Tagged 256) :=
  let x := s.slot n
  if x.len ≤ x.pos then noElement x n
  else
    let after := Nat.min (x.pos + x.lanes) x.len
    match x.fetched with
    | f :: rest => match f.fault with
      | some t => .error (.trap t.code t.addr t.finfo true n none)
      | none => .ok (s.setSlot n { x with pos := after, fetched := rest }, ⟨BitVec.ofNat 256 f.bits, f.mark ||| x.sm⟩)
    | [] => do
      let (s1, v, m, im) ← s.readElems x n x.pos (after - x.pos)
      .ok (s1.setSlot n { x with pos := after, sm := x.sm ||| im }, ⟨BitVec.ofNat 256 v, joins [m, x.sm, im]⟩)

/-- Fetches one element or vector ahead of the pops of slot n of the running thread: at most 16 elements or 4 vectors;
a fault is recorded with it (R176). Nothing is fetched behind a recorded fault. -/
def State.fetchAhead (s : State) (n : Nat) : State :=
  let x := s.slot n
  let at_ := x.pos + x.lanes * x.fetched.length
  if !x.opened || x.wr || decide (x.len ≤ at_) || decide ((if x.vec then 4 else 16) ≤ x.fetched.length)
      || x.fetched.any (·.fault.isSome) then s
  else
    let k := Nat.min x.lanes (x.len - at_)
    match s.readElems x n at_ k with
    | .ok (s1, v, m, im) => s1.setSlot n { x with sm := x.sm ||| im, fetched := x.fetched ++ [⟨v, m, none⟩] }
    | .error (.trap c a i _ _ r) =>
      (s.denied r).setSlot n { x with sm := x.sm ||| s.indexMarks x at_ k
                                      fetched := x.fetched ++ [⟨0, 0, some ⟨c, a, i⟩⟩] }
    | .error _ => s

/-! ## Precedence -/

/-- Precedence of what keeps an instruction from completing (R45); a wait comes before every trap. -/
def haltRank : Halt → Nat
  | .wait _ _ _ _ => 0
  | .silent _ => 0
  | .trap c _ _ defer _ _ =>
    if c = 1 then 1 else if c = 2 then 2 else if defer then 4 else if c = 6 then 3 else if c = 0x22 then 6
    else if 0x20 ≤ c then 5 else if c = 5 then 7 else 8

/-- The one of two that comes first; the earlier on a tie. -/
def firstHalt (a : Option Halt) (b : Halt) : Halt :=
  match a with
  | none => b
  | some x => if haltRank b < haltRank x then b else x

/-- Two checks of one instruction: the trap that comes first where both raise one (R45). -/
def alongside {α : Type} (h : Except Halt Unit) (r : Except Halt α) : Except Halt α :=
  match h, r with
  | .ok _, _ => r
  | .error e, .ok _ => .error e
  | .error e, .error x => .error (firstHalt (some e) x)

/-! ## Pushes -/

/-- Makes a trap that of a failing push: its slot in CAUSE, the address of the element, or of the index that could not be
read, in FADDR, and the FINFO of its cause (R178). -/
def pushFault {α : Type} (a : Word) (n : Nat) (r : Except Halt α) : Except Halt α :=
  match r with
  | .ok x => .ok x
  | .error (.trap c _ i _ _ r) => .error (.trap c a i false n r)
  | .error e => .error e

/-- The stores of a push, addresses and bytes of the lanes that the mask selects (R174), and what the index reads of lanes
that have no address find. -/
def State.pushLanes (s : State) (x : Slot) (n : Nat) (v : Nat) (mask : BitVec 32) (i : Nat) :
    Nat → State × List (Except Halt (Word × List Byte)) × Mark
  | 0 => (s, [], 0)
  | k + 1 =>
    if mask.getLsbD i then
      match s.elemAddr x (x.pos + i) fun ia r => pushFault ia n r with
      | .error h =>
        let (s2, l, im) := State.pushLanes s x n v mask (i + 1) k
        (s2, .error h :: l, im)
      | .ok (s1, a, im) =>
        let (s2, l, im2) := State.pushLanes s1 x n v mask (i + 1) k
        (s2, .ok (a, toBytes (x.width / 8) (v / 2 ^ (x.width * i))) :: l, im ||| im2)
    else State.pushLanes s x n v mask (i + 1) k

/-- What the check of one store of a push finds, or the read of its index before it. -/
def State.pushHalt (s : State) (n : Nat) (m : Mark) : Except Halt (Word × List Byte) → Option Halt
  | .error h => some h
  | .ok e => match pushFault e.1 n (s.checkAs s.agent e.1 e.2.length m false) with
    | .ok _ => none
    | .error h => some h

/-- The slots that a halt reports as outside the ceilings of lines or blocks (Table 17.4); 0 for any other. -/
def ceilBits : Halt → Mark
  | .trap c _ i _ _ _ => if c = 0x21 ∧ i.getLsbD 16 = false then i.setWidth 16 else 0
  | _ => 0

/-- Checks every store of a push before any is made (R178), the read of its index as a part of it: the first in precedence,
at the first element that raises it; a MARK reports the slots of every line that the push would write (R304). -/
def State.checkPush (s : State) (n : Nat) (m : Mark) (l : List (Except Halt (Word × List Byte))) : Except Halt Unit :=
  let hs := l.filterMap (s.pushHalt n m)
  match hs.foldl (fun o h => some (firstHalt o h)) none with
  | none => .ok ()
  | some (.trap c a i d k r) =>
    if ceilBits (.trap c a i d k r) = 0 then .error (.trap c a i d k r)
    else .error (.trap c a ((joins (hs.map ceilBits)).setWidth 64) d k r)
  | some h => .error h

/-- Makes the stores of a push, in order (R34). -/
def State.storeAll (s : State) (n : Nat) (m : Mark) : List (Except Halt (Word × List Byte)) → Except Halt State
  | [] => .ok s
  | .error h :: _ => .error h
  | .ok (a, bs) :: t => do
    let s1 ← pushFault a n (s.storeAs s.agent a bs m)
    State.storeAll s1 n m t

/-- Push (Table 1.12, R174, R175, R178): the state and the mark with which the elements are stored. -/
def State.push (s : State) (n : Nat) (v : BitVec 256) (mask : BitVec 32) (m : Mark) : Except Halt (State × Mark) := do
  let x := s.slot n
  if x.len ≤ x.pos then noElement x n
  else
    let after := Nat.min (x.pos + x.lanes) x.len
    let (s1, l, im) := s.pushLanes x n v.toNat mask 0 (after - x.pos)
    let k := joins [m, x.sm, im]
    s1.checkPush n k l
    let s2 ← s1.storeAll n k l
    .ok (s2.setSlot n { x with pos := after, sm := x.sm ||| im }, k)

/-- Whether a v register is bound to an open write stream. -/
def State.pushes (s : State) (n : Nat) : Bool := decide (28 ≤ n) && (s.slot (n - 28)).opened && (s.slot (n - 28)).wr

/-- WriteV of Table 1.12: the lanes of width w that the mask selects take `val`, the others keep theirs; the mark
follows R13; a register bound to a write stream is pushed, and the elements take the result mark alone with the slot's
(R16, R175). (DEDUCED, log entry 32.) -/
def State.writeV (s : State) (n : Nat) (val : BitVec 256) (w : Nat) (mask : BitVec 32) (m : Mark) : Run? :=
  let old := s.readV n
  let full := (List.range (256 / w)).all fun i => mask.getLsbD i
  let new := if full then val
    else ofLanes 256 w ((List.range (256 / w)).map fun i => if mask.getLsbD i then lane val w i else lane old.val w i)
  let k := if full then m else m ||| old.mark
  if s.pushes n then do
    let (s1, k1) ← s.push (n - 28) new mask m
    .ok (s1.putV n new (k ||| k1))
  else .ok (s.putV n new k)

/-- A mask that selects every lane. -/
def allLanes : BitVec 32 := 0xFFFFFFFF

/-! ## Fibres -/

/-- Number of values of a fibre. -/
def Fibre.nnz (f : Fibre) : Nat := dget f.desc 0x14 4

/-- Coordinate extent of a fibre. -/
def Fibre.dim (f : Fibre) : Nat := dget f.desc 0x18 4

/-- Whether a fibre is in bitmap form. -/
def Fibre.bitmap (f : Fibre) : Bool := bit (dget f.desc 0x10 4) 4

/-- A valid fibre descriptor (Table 6.6). -/
def fibreOk (d : BitVec 512) : Bool :=
  let ctl := dget d 0x10 4
  (plainType ctl).isSome && decide (ctl / 128 = 0) && dget d 0x18 4 != 0 && dget d 0x1C 36 == 0

/-- The fibre ended (R191). -/
def Fibre.finish (f : Fibre) (err : Bool) : Fibre :=
  { f with ended := true, err := err, coord := 0xFFFFFFFF, seek := none }

/-- Reads n bytes of a fibre's coordinates at an address; a fault is the deferred one of R193. -/
def State.fibreBytes (s : State) (f : Fibre) (slot : Nat) (a : Word) (n : Nat) :
    Except Halt (State × Nat × Mark) := do
  let (s1, bs, m) ← deferTo a f.vidx true true slot (s.loadAs s.agent a n)
  .ok (s1, ofBytes bs, m)

/-- The first entry of a list fibre from entry `f.entry` on whose coordinate is `c` or more; `prev` is the coordinate
before, if any (R191). -/
def State.seekList (s : State) (slot c : Nat) : Nat → Fibre → Option Nat → Except Halt (State × Fibre)
  | 0, f, _ => .ok (s, f.finish false)
  | fuel + 1, f, prev =>
    if f.nnz ≤ f.entry then .ok (s, f.finish false)
    else do
      let nb := if bit (dget f.desc 0x10 4) 5 then 4 else 2
      let (s1, x, m) ← s.fibreBytes f slot (word (dget f.desc 8 8 + f.entry * nb)) nb
      let g := { f with fm := f.fm ||| m, vidx := f.entry }
      if decide (f.dim ≤ x) || (match prev with | some p => decide (x ≤ p) | none => false) then
        .ok (s1, g.finish true)
      else if c ≤ x then .ok (s1, { g with coord := x, seek := none })
      else State.seekList s1 slot c fuel { g with entry := f.entry + 1, vidx := f.entry + 1 } (some x)

/-- The first entry of a bitmap fibre from position `f.entry` on at `c` or later; `f.vidx` is the number of set bits
below `f.entry` (R191). -/
def State.seekMap (s : State) (slot c : Nat) : Nat → Fibre → Except Halt (State × Fibre)
  | 0, f => .ok (s, f.finish false)
  | fuel + 1, f =>
    if f.dim ≤ f.entry ∨ f.nnz ≤ f.vidx then .ok (s, f.finish false)
    else do
      let (s1, x, m) ← s.fibreBytes f slot (word (dget f.desc 8 8 + f.entry / 8)) 1
      let g := { f with fm := f.fm ||| m }
      if bit x (f.entry % 8) then
        if c ≤ f.entry then .ok (s1, { g with coord := f.entry, seek := none })
        else State.seekMap s1 slot c fuel { g with entry := f.entry + 1, vidx := f.vidx + 1 }
      else State.seekMap s1 slot c fuel { g with entry := f.entry + 1 }

/-- Finds the entry at coordinate `c` or later from where a fibre stands; `prev` is the coordinate before. -/
def State.seek (s : State) (slot c : Nat) (f : Fibre) (prev : Option Nat) : Except Halt (State × Fibre) :=
  if f.bitmap then s.seekMap slot c (f.dim + 1 - f.entry) f else s.seekList slot c (f.nnz + 1 - f.entry) f prev

/-- Step of R196: to the next entry, or to the end. -/
def State.stepFibre (s : State) (slot : Nat) (f : Fibre) : Except Halt (State × Fibre) :=
  if f.ended then .ok (s, f)
  else s.seek slot 0 { f with entry := f.entry + 1, vidx := f.vidx + 1 } (some f.coord)

/-- The fibre with its entry found: a coordinate read that FOPEN made ahead and that faulted is made again (R193). -/
def State.settle (s : State) (slot : Nat) : Except Halt (State × Fibre) :=
  let f := s.fibre slot
  match f.seek with
  | none => .ok (s, f)
  | some c => do
    let (s1, g) ← s.seek slot c f none
    .ok (s1, { g with pres := !g.ended })

/-- What a read of v(26+n) delivers while the fibre slot is open (R193). -/
def State.fibreRead (s : State) (n : Nat) : Except Halt (State × Tagged 256) := do
  let (s0, f) ← s.settle n
  let s1 := s0.setFibre n f
  if f.pres && !f.ended then
    let ctl := dget f.desc 0x10 4
    let w := ctlWidth ctl
    let row := bit ctl 6
    let a := word (dget f.desc 0 8 + f.vidx * (if row then 32 else w / 8))
    let (s2, bs, m) ← deferTo a f.vidx false true n (s1.loadAs s1.agent a (if row then 32 else w / 8))
    .ok (s2, ⟨BitVec.ofNat 256 (ofBytes bs), m ||| f.fm⟩)
  else .ok (s1, ⟨0, f.fm⟩)

/-! ## Operands of an instruction -/

/-- The registers of an instruction as R16 and R143 hold them against the slots: the D of ACCW counts as written. -/
def bindsOf (i : Instr) : Uses :=
  match i with
  | .accw _ _ d _ _ _ => { usesOf i with vw := [d.toNat] }
  | _ => usesOf i

/-- Whether an instruction uses a bound register the wrong way (R16, R18). -/
def State.slotIllegal (s : State) (u : Uses) : Bool :=
  u.vr.any (fun n => decide (28 ≤ n) && (s.slot (n - 28)).opened && (s.slot (n - 28)).wr)
    || u.vw.any (fun n => (decide (28 ≤ n) && (s.slot (n - 28)).opened && !(s.slot (n - 28)).wr)
      || (decide (26 ≤ n) && decide (n < 28) && (s.fibre (n - 26)).opened))

/-- Pops the read slots among the registers read, in ascending order, and puts the values of open fibres into their
registers; the first halt met by R45. -/
def State.takeOperands (s : State) (u : Uses) : State × Option Halt :=
  let pop (acc : State × Option Halt) (n : Nat) : State × Option Halt :=
    let x := acc.1.slot n
    if x.opened && !x.wr && u.vr.contains (28 + n) then
      match acc.1.nextElem n with
      | .ok (s1, v) => (s1.putV (28 + n) v.val v.mark, acc.2)
      | .error h => (acc.1, some (firstHalt acc.2 h))
    else acc
  let look (acc : State × Option Halt) (n : Nat) : State × Option Halt :=
    if (acc.1.fibre n).opened && u.vr.contains (26 + n) then
      match acc.1.fibreRead n with
      | .ok (s1, v) => (s1.putV (26 + n) v.val v.mark, acc.2)
      | .error h => (acc.1, some (firstHalt acc.2 h))
    else acc
  [0, 1].foldl look ([0, 1, 2, 3].foldl pop (s, none))

/-- Gives v26 and v27 back the values that a fibre's life does not change (R194). -/
def State.giveBack (s : State) (u : Uses) (before : State) : State :=
  let back (t : State) (n : Nat) : State :=
    if (before.fibre n).opened && u.vr.contains (26 + n) then
      let v := before.me.regs.getV (26 + n)
      let ws := before.me.windows.filter fun w => w.file == .v && w.reg == 26 + n
      t.setMe { t.me with regs := t.me.regs.setV (26 + n) v, windows := t.me.windows ++ ws }
    else t
  [0, 1].foldl back s

/-- Runs an effect with the operands that slots deliver (R16 to R18, R45). -/
def withOperands (i : Instr) (body : State → Run?) (s : State) : Run? :=
  let u := usesOf i
  if s.slotIllegal (bindsOf i) then ill s
  else
    let (s1, h) := s.takeOperands u
    match body s1, h with
    | .ok t, none => .ok (t.giveBack u s)
    | .error e, none => .error e
    | .ok _, some e => .error e
    | .error e, some x => .error (firstHalt (some x) e)

/-! ## Completing, trapping, waiting -/

/-- The mark that a v register delivers to the running instruction: that of the element that a pop would deliver or of
a fibre's value, and where that element cannot be read the slot's own mark with those of the index lines read (R175); the
register's where no slot binds it. -/
def State.sourceMark (s : State) (n : Nat) : Mark :=
  if decide (28 ≤ n) && (s.slot (n - 28)).opened && !(s.slot (n - 28)).wr then
    match s.nextElem (n - 28) with
    | .ok (_, v) => v.mark
    | .error _ =>
      let x := s.slot (n - 28)
      x.sm ||| if x.fetched.isEmpty then s.indexMarks x x.pos (Nat.min x.lanes (x.len - x.pos)) else 0
  else if decide (26 ≤ n) && decide (n < 28) && (s.fibre (n - 26)).opened then
    match s.fibreRead (n - 26) with
    | .ok (_, v) => v.mark
    | .error _ => (s.fibre (n - 26)).fm
  else (s.readV n).mark

/-- The mark m of R40: CMARK and the marks of the trapping instruction's operands, popped elements among them.
(DEDUCED, log entry 36.) -/
def State.trapMark (s : State) (i : Instr) : Mark :=
  joins (s.cmarkNow :: (usesOf i).xr.map (fun n => (s.readX n).mark) ++ (usesOf i).vr.map s.sourceMark
    ++ (usesOf i).kr.map (fun n => (s.readK n).mark))

/-- Joins the marks of the index lines that the pops of an instruction read now into the marks of their slots (R175). -/
def State.joinIndex (s : State) (i : Instr) : State :=
  [0, 1, 2, 3].foldl (fun t n =>
    let x := s.slot n
    if x.indirect && x.opened && !x.wr && x.fetched.isEmpty && (usesOf i).vr.contains (28 + n) then
      t.setSlot n { x with sm := x.sm ||| s.indexMarks x x.pos (Nat.min x.lanes (x.len - x.pos)) }
    else t) s

/-- What becomes of an instruction that does not complete: it traps, waits, or has waited too long (R320). A pop that traps
leaves its slot where it was, but for the marks of the index lines that it read (R17, R175). -/
def State.halt (s : State) (i : Instr) (e : Halt) : State :=
  let m := s.trapMark i
  match e with
  | .trap code addr info defer slot r =>
    ((if defer then s.joinIndex i else s).denied r).trapEntry code addr info defer slot m
  | .wait kind index unit chip =>
    let since := s.waitSince kind
    if s.waitOver kind since then s.trapEntry 0x07 0 (waitInfo kind index unit chip) false 0 m
    else s.setWait (some ⟨kind, index, unit, chip, since⟩)
  | .silent chip =>
    let s1 := match s.me.remote with
      | some _ => s
      | none => s.setMe { s.me with remote := some ⟨s.now, chip, none⟩ }
    s1.setWait (some ⟨0, 0, 0x1FFF, chip, s.waitSince 0⟩)

/-- Runs an A-side instruction. -/
def runA (i : Instr) (body : State → Run?) (s : State) : Out :=
  match body s.advance with
  | .ok s' => .next s'
  | .error e => .next (s.halt i e)

/-- Runs an A-side instruction that names v registers. -/
def runAV (i : Instr) (body : State → Run?) (s : State) : Out := runA i (withOperands i body) s

/-! ## The E-side -/

/-- Leaves the running instruction in the E-queue (R29, R31). -/
def State.enqueue (s : State) (i : Instr) : State :=
  let t := s.me
  let e : EEntry := ⟨s.latch.addr, s.latch.len, i, s.latch.finfo, s.latch.seq, s.capture i, none⟩
  s.setMe { t with pc := s.latch.addr + word s.latch.len, seq := s.latch.seq + 1, equeue := t.equeue ++ [e] }

/-- The wheel after one of its entries has issued (R187). -/
def Wheel.next (w : Wheel) : Wheel :=
  if w.repix = w.len then
    if w.repcnt = 0 then { w with repix := 0, act := false, place := w.place + 1 }
    else { w with repcnt := w.repcnt - 1, repix := 0, place := w.place + 1 }
  else { w with repix := w.repix + 1, place := w.place + 1 }

/-- Completes an E-side instruction: the program counter, the E-queue or the wheel moves past it. The range of a BQB
in a body ends with the body's last entry (R163). A move of the wheel joins its mark into WSTAT's, and where WACT changes
into STATUS's (R23; DEDUCED, log entry 37). -/
def State.retireE (s : State) : State :=
  let t := s.me
  match s.latch.src with
  | .queue => s.setMe { t with equeue := t.equeue.tail, eWait := none }
  | .wheel =>
    if t.wheel.act then
      let m := t.csr.cmark ||| t.wheel.wm
      let c := { t.csr with wstatMark := t.csr.wstatMark ||| m
                            statusMark := if t.wheel.next.act then t.csr.statusMark else t.csr.statusMark ||| m }
      s.setMe { t with wheel := t.wheel.next, csr := c, rcnt := if t.wheel.repix = t.wheel.len then 0 else t.rcnt
                       eWait := none }
    else s.setMe { t with eWait := none }
  | .access => s.setMe { t with pc := s.latch.addr + word s.latch.len, seq := s.latch.seq + 1, eWait := none }
  | .decode => s.setMe { t with pc := s.latch.addr + word s.latch.len, seq := s.latch.seq + 1, eWait := none }

/-- What becomes of an E-side instruction that does not complete: one that decode gave directly waits in the
E-queue. -/
def State.haltE (s : State) (i : Instr) (e : Halt) : State :=
  match s.latch.src, e with
  | .decode, .wait _ _ _ _ => (s.enqueue i).halt i e
  | .decode, .silent _ => (s.enqueue i).halt i e
  | _, _ => s.halt i e

/-- Runs an E-side instruction: suppressed in the range of a BQB whose outcome is 0 (R162), otherwise with its effect
and its completion. -/
def runE (i : Instr) (body : State → Run?) (s : State) : Out :=
  let t := s.me
  let s0 := s.setMe { t with rcnt := t.rcnt - 1 }
  if t.rcnt ≠ 0 ∧ t.rout = false then .next s0.retireE
  else match withOperands i body s0 with
    | .ok s' => .next s'.retireE
    | .error e => .next (s.haltE i e)

/-! ## The wheel -/

/-- Key under which a waiting REPX remembers that slot n was open at its A-side issue: 100 + n for a stream slot,
104 + n for a fibre slot. -/
def slotKey (n : Nat) : Nat := 100 + n

/-- Forgets, in the waiting REPX, a slot that an A-side instruction closes or opens anew. -/
def State.forgetSlot (s : State) (k : Nat) : State :=
  let t := s.me
  s.setMe { t with equeue := t.equeue.map fun e => { e with caps := e.caps.filter fun c => c.1 != k } }

/-- The open slots of a thread, as keys. -/
def Thread.openSlots (t : Thread) : List Nat :=
  ((List.range 4).filter fun n => (t.slots.getD n Slot.closed).opened).map slotKey
    ++ ((List.range 2).filter fun n => (t.fibres.getD n Fibre.closed).opened).map fun n => slotKey (4 + n)

/-- The slots of the running thread open now, as keys. -/
def State.openSlots (s : State) : List Nat := s.me.openSlots

/-- Joins the wheel mark of a REPX into the marks of slots (R188). -/
def State.joinSlots (s : State) (keys : List Nat) (wm : Mark) : State :=
  let t := s.me
  let sl := (List.range 4).foldl (fun v n =>
    if keys.contains (slotKey n) then
      let x := v.getD n Slot.closed
      v.setIfInBounds n { x with sm := x.sm ||| wm } else v) t.slots
  let fb := (List.range 2).foldl (fun v n =>
    if keys.contains (slotKey (4 + n)) then
      let x := v.getD n Fibre.closed
      v.setIfInBounds n { x with fm := x.fm ||| wm } else v) t.fibres
  s.setMe { t with slots := sl, fibres := fb }

/-- WheelRun of R187 up to its first issue: n passes of a body, the first entry of which has the place given. The range
of a BQB outside the body ends here (R163). -/
def State.startWheel (s : State) (body : List EEntry) (waddr : Word) (n place : Nat) (wm : Mark) : State :=
  let t := s.me
  if n = 0 then s.setMe { t with wheel := { t.wheel with body := [], wm := wm } }
  else
    let w : Wheel := { act := true, len := body.length - 1, repcnt := n - 1, repix := 0, body := body
                       waddr := waddr, place := place, wm := wm }
    let m := t.csr.cmark ||| wm
    s.setMe { t with wheel := w, rcnt := 0
                     csr := { t.csr with wstatMark := t.csr.wstatMark ||| m, statusMark := t.csr.statusMark ||| m } }

end Sys2Proof.Machine
end

