-- ==== Sys2Proof/Machine/Scalar.lean ====
section
/-! DEFINITION. Page 0 without the control registers and the system forms: integer arithmetic, moves, local loads and
stores, branches and jumps, the branch-outcome queue, and what decode finds illegal. -/

namespace Sys2Proof.Machine

open Sys2Proof

/-! ## Arithmetic -/

/-- D := f(X(A)), with the join of A's mark and CMARK. -/
def alu1 (d a : Reg) (f : Word → Word) (s : State) : Run? := .ok (s.result d (f (s.x a)) (s.xm a))

/-- D := f(X(A), X(B)), with the join of both marks and CMARK (R112). -/
def alu2 (d a b : Reg) (f : Word → Word → Word) (s : State) : Run? :=
  .ok (s.result d (f (s.x a) (s.x b)) (s.xm a ||| s.xm b))

/-- A long-latency form of two operands (R84, R114). -/
def aluL (d a b : Reg) (w : Win) (f : Word → Word → Word) (s : State) : Run? :=
  if s.windowsFull w .x d.toNat then holdOn
  else .ok (s.resultL w d (f (s.x a) (s.x b)) (s.xm a ||| s.xm b))

/-- DIV of R113. -/
def divS (a b : Word) : Word :=
  if b = 0 then -1
  else if a.toInt = -(2 ^ 63 : Nat) ∧ b.toInt = -1 then a
  else word (wrap 64 (a.toInt.tdiv b.toInt))

/-- REM of R113. -/
def remS (a b : Word) : Word :=
  if b = 0 then a
  else if a.toInt = -(2 ^ 63 : Nat) ∧ b.toInt = -1 then 0
  else word (wrap 64 (a.toInt - b.toInt * a.toInt.tdiv b.toInt))

/-- DIVU of R113. -/
def divU (a b : Word) : Word := if b = 0 then -1 else word (a.toNat / b.toNat)

/-- REMU of R113. -/
def remU (a b : Word) : Word := if b = 0 then a else word (a.toNat % b.toNat)

/-- BEXT of R118. -/
def bextOf (x c : Word) : Word :=
  let l := field c 11 6 + 1
  let f := x.toNat / 2 ^ field c 5 0 % 2 ^ l
  if c.getLsbD 12 then signExt f l else word f

/-- BINS of R118: the field's bits of x replace those of d. -/
def binsOf (d x c : Word) : Word :=
  let p := field c 5 0
  let mask := word ((2 ^ (field c 11 6 + 1) - 1) * 2 ^ p)
  (d &&& ~~~mask) ||| ((x <<< p) &&& mask)

/-- ADD (Table 4.1). -/
def execAdd (d a b : Reg) (s : State) : Out :=
  runA (.add d a b) (alu2 d a b fun x y => x + y) s

/-- SUB (Table 4.1). -/
def execSub (d a b : Reg) (s : State) : Out :=
  runA (.sub d a b) (alu2 d a b fun x y => x - y) s

/-- AND (Table 4.1). -/
def execAnd (d a b : Reg) (s : State) : Out :=
  runA (.and d a b) (alu2 d a b fun x y => x &&& y) s

/-- OR (Table 4.1). -/
def execOr (d a b : Reg) (s : State) : Out :=
  runA (.or d a b) (alu2 d a b fun x y => x ||| y) s

/-- XOR (Table 4.1). -/
def execXor (d a b : Reg) (s : State) : Out :=
  runA (.xor d a b) (alu2 d a b fun x y => x ^^^ y) s

/-- SLL (Table 4.1). -/
def execSll (d a b : Reg) (s : State) : Out :=
  runA (.sll d a b) (alu2 d a b fun x y => x <<< (y.toNat % 64)) s

/-- SRL (Table 4.1). -/
def execSrl (d a b : Reg) (s : State) : Out :=
  runA (.srl d a b) (alu2 d a b fun x y => x >>> (y.toNat % 64)) s

/-- SRA (Table 4.1). -/
def execSra (d a b : Reg) (s : State) : Out :=
  runA (.sra d a b) (alu2 d a b fun x y => x.sshiftRight (y.toNat % 64)) s

/-- SLT (Table 4.1). -/
def execSlt (d a b : Reg) (s : State) : Out :=
  runA (.slt d a b) (alu2 d a b fun x y => word (b2n (x.slt y))) s

/-- SLTU (Table 4.1). -/
def execSltu (d a b : Reg) (s : State) : Out :=
  runA (.sltu d a b) (alu2 d a b fun x y => word (b2n (x.ult y))) s

/-- MIN (Table 4.1). -/
def execMin (d a b : Reg) (s : State) : Out :=
  runA (.min d a b) (alu2 d a b fun x y => if x.slt y then x else y) s

/-- MAX (Table 4.1). -/
def execMax (d a b : Reg) (s : State) : Out :=
  runA (.max d a b) (alu2 d a b fun x y => if x.slt y then y else x) s

/-- MINU (Table 4.1). -/
def execMinu (d a b : Reg) (s : State) : Out :=
  runA (.minu d a b) (alu2 d a b fun x y => if x.ult y then x else y) s

/-- MAXU (Table 4.1). -/
def execMaxu (d a b : Reg) (s : State) : Out :=
  runA (.maxu d a b) (alu2 d a b fun x y => if x.ult y then y else x) s

/-- MUL (Table 4.1). -/
def execMul (d a b : Reg) (w : Win) (s : State) : Out :=
  runA (.mul d a b w) (aluL d a b w fun x y => x * y) s

/-- MULH (Table 4.1). -/
def execMulh (d a b : Reg) (w : Win) (s : State) : Out :=
  runA (.mulh d a b w) (aluL d a b w fun x y => word (wrap 128 (x.toInt * y.toInt) / 2 ^ 64)) s

/-- MULHU (Table 4.1). -/
def execMulhu (d a b : Reg) (w : Win) (s : State) : Out :=
  runA (.mulhu d a b w) (aluL d a b w fun x y => word (x.toNat * y.toNat / 2 ^ 64)) s

/-- DIV (Table 4.1, R113). -/
def execDiv (d a b : Reg) (w : Win) (s : State) : Out :=
  runA (.div d a b w) (aluL d a b w fun x y => divS x y) s

/-- DIVU (Table 4.1, R113). -/
def execDivu (d a b : Reg) (w : Win) (s : State) : Out :=
  runA (.divu d a b w) (aluL d a b w fun x y => divU x y) s

/-- REM (Table 4.1, R113). -/
def execRem (d a b : Reg) (w : Win) (s : State) : Out :=
  runA (.rem d a b w) (aluL d a b w fun x y => remS x y) s

/-- REMU (Table 4.1, R113). -/
def execRemu (d a b : Reg) (w : Win) (s : State) : Out :=
  runA (.remu d a b w) (aluL d a b w fun x y => remU x y) s

/-- ADDI (Table 4.4). -/
def execAddi (d b : Reg) (imm : Word) (s : State) : Out :=
  runA (.addi d b imm) (alu1 d b fun x => x + imm) s

/-- ANDI (Table 4.4). -/
def execAndi (d b : Reg) (imm : Word) (s : State) : Out :=
  runA (.andi d b imm) (alu1 d b fun x => x &&& imm) s

/-- ORI (Table 4.4). -/
def execOri (d b : Reg) (imm : Word) (s : State) : Out :=
  runA (.ori d b imm) (alu1 d b fun x => x ||| imm) s

/-- XORI (Table 4.4). -/
def execXori (d b : Reg) (imm : Word) (s : State) : Out :=
  runA (.xori d b imm) (alu1 d b fun x => x ^^^ imm) s

/-- SLTI (Table 4.4). -/
def execSlti (d b : Reg) (imm : Word) (s : State) : Out :=
  runA (.slti d b imm) (alu1 d b fun x => word (b2n (x.slt imm))) s

/-- SLTIU (Table 4.4). -/
def execSltiu (d b : Reg) (imm : Word) (s : State) : Out :=
  runA (.sltiu d b imm) (alu1 d b fun x => word (b2n (x.ult imm))) s

/-- SLLI (Table 4.4). -/
def execSlli (d b : Reg) (sh : BitVec 6) (s : State) : Out :=
  runA (.slli d b sh) (alu1 d b fun x => x <<< sh.toNat) s

/-- SRLI (Table 4.4). -/
def execSrli (d b : Reg) (sh : BitVec 6) (s : State) : Out :=
  runA (.srli d b sh) (alu1 d b fun x => x >>> sh.toNat) s

/-- SRAI (Table 4.4). -/
def execSrai (d b : Reg) (sh : BitVec 6) (s : State) : Out :=
  runA (.srai d b sh) (alu1 d b fun x => x.sshiftRight sh.toNat) s

/-- CLZ (R117). -/
def execClz (d a : Reg) (s : State) : Out :=
  runA (.clz d a) (alu1 d a fun x => word (64 - bitLen x.toNat)) s

/-- CTZ (R117). -/
def execCtz (d a : Reg) (s : State) : Out :=
  runA (.ctz d a) (alu1 d a fun x => word (ctz 64 x.toNat)) s

/-- POPC (R117). -/
def execPopc (d a : Reg) (s : State) : Out :=
  runA (.popc d a) (alu1 d a fun x => word (popcount 64 x.toNat)) s

/-- BREV (R117). -/
def execBrev (d a : Reg) (s : State) : Out :=
  runA (.brev d a) (alu1 d a fun x => word (bitRev 64 x.toNat)) s

/-- LI (R116). -/
def execLi (d : Reg) (imm : Word) (s : State) : Out := runA (.li d imm) (fun s => .ok (s.result d imm 0)) s

/-- BEXT (R118). -/
def execBext (d a b : Reg) (s : State) : Out := runA (.bext d a b) (alu2 d a b bextOf) s

/-- BINS (R118): it reads D too. -/
def execBins (d a b : Reg) (s : State) : Out :=
  runA (.bins d a b)
    (fun s => .ok (s.result d (binsOf (s.x d) (s.x a) (s.x b)) (joins [s.xm d, s.xm a, s.xm b]))) s

/-- MV (R119). -/
def execMv (d a : Reg) (s : State) : Out := runA (.mv d a) (alu1 d a fun x => x) s

/-- CMOV (R119): the mark joins all three operands whether or not the value moves. -/
def execCmov (d a b : Reg) (s : State) : Out :=
  runA (.cmov d a b)
    (fun s => .ok (s.result d (if s.x b != 0 then s.x a else s.x d) (joins [s.xm d, s.xm a, s.xm b]))) s

/-! ## Local loads and stores -/

/-- Bytes of size code Z (Table 3.3). -/
def bytesZ (z : BitVec 2) : Nat := 2 ^ z.toNat

/-- LD (R121). -/
def execLd (z : BitVec 2) (d a : Reg) (off : Word) (s : State) : Out :=
  runA (.ld z d a off)
    (fun s => do
      let (v, m) ← s.loadL (s.x a + off) (bytesZ z)
      .ok (s.result d (signExt v (8 * bytesZ z)) (m ||| s.xm a))) s

/-- ST (R121). -/
def execSt (z : BitVec 2) (d a : Reg) (off : Word) (s : State) : Out :=
  runA (.st z d a off)
    (fun s => s.storeL (s.x a + off) (toBytes (bytesZ z) (s.x d).toNat) (joins [s.xm d, s.xm a, s.base])) s

/-- LDP (R122). -/
def execLdp (z : BitVec 2) (d a : Reg) (off : Word) (s : State) : Out :=
  runA (.ldp z d a off)
    (fun s => do
      let n := bytesZ z
      let (v, m) ← s.loadL (s.x a + off) (2 * n)
      let k := joins [m, s.xm a, s.base]
      .ok ((s.writeX d.toNat (signExt v (8 * n)) k).writeX (d.toNat + 1) (signExt (v / 2 ^ (8 * n)) (8 * n)) k)) s

/-- STP (R122). -/
def execStp (z : BitVec 2) (d a : Reg) (off : Word) (s : State) : Out :=
  runA (.stp z d a off)
    (fun s =>
      let n := bytesZ z
      let hi := s.readX (d.toNat + 1)
      s.storeL (s.x a + off) (toBytes n (s.x d).toNat ++ toBytes n hi.val.toNat)
        (joins [s.xm d, hi.mark, s.xm a, s.base])) s

/-! ## Branches and jumps -/

/-- Sets the program counter. -/
def State.jump (s : State) (a : Word) : State := s.setMe { s.me with pc := a }

/-- A conditional branch: the operands' marks join CMARK whether or not it is taken (R123, R37). -/
def branch (a b : Reg) (off : Word) (taken : Word → Word → Bool) (s : State) : Run? :=
  let s1 := s.joinCmark (s.xm a ||| s.xm b)
  .ok (if taken (s.x a) (s.x b) then s1.jump (s.latch.addr + 2 * off) else s1)

/-- The address of the next instruction. -/
def State.link (s : State) : Word := s.latch.addr + word s.latch.len

/-- BEQ (R123). -/
def execBeq (a b : Reg) (off : Word) (s : State) : Out :=
  runA (.beq a b off) (branch a b off fun x y => x == y) s

/-- BNE (R123). -/
def execBne (a b : Reg) (off : Word) (s : State) : Out :=
  runA (.bne a b off) (branch a b off fun x y => x != y) s

/-- BLT (R123). -/
def execBlt (a b : Reg) (off : Word) (s : State) : Out :=
  runA (.blt a b off) (branch a b off fun x y => x.slt y) s

/-- BGE (R123). -/
def execBge (a b : Reg) (off : Word) (s : State) : Out :=
  runA (.bge a b off) (branch a b off fun x y => !x.slt y) s

/-- BLTU (R123). -/
def execBltu (a b : Reg) (off : Word) (s : State) : Out :=
  runA (.bltu a b off) (branch a b off fun x y => x.ult y) s

/-- BGEU (R123). -/
def execBgeu (a b : Reg) (off : Word) (s : State) : Out :=
  runA (.bgeu a b off) (branch a b off fun x y => !x.ult y) s

/-- J (R124). -/
def execJ (off : Word) (s : State) : Out := runA (.j off) (fun s => .ok (s.jump (s.latch.addr + 2 * off))) s

/-- JAL (R124): the link goes to x1. -/
def execJal (off : Word) (s : State) : Out :=
  runA (.jal off) (fun s => .ok ((s.writeX 1 s.link s.base).jump (s.latch.addr + 2 * off))) s

/-- JR (R125): bit 0 of the target is ignored, and its mark joins CMARK. -/
def execJr (a : Reg) (s : State) : Out :=
  runA (.jr a) (fun s => .ok ((s.joinCmark (s.xm a)).jump (s.x a &&& ~~~ 1#64))) s

/-- JALR (R125): the target is read before the link is written, whose mark includes the raised CMARK. -/
def execJalr (d a : Reg) (s : State) : Out :=
  runA (.jalr d a)
    (fun s =>
      let s1 := s.joinCmark (s.xm a)
      .ok ((s1.writeX d.toNat s.link s1.base).jump (s.x a &&& ~~~ 1#64))) s

/-! ## The branch-outcome queue -/

/-- BQPUSH (R127, R20, R41). -/
def execBqpush (a : Reg) (s : State) : Out :=
  runA (.bqpush a)
    (fun s =>
      let t := s.me
      if t.csr.intrap then ill s
      else if 16 ≤ t.bq.outs.length then waitOn 0x08 0 s.cur.unit s.chip
      else .ok (s.setMe { t with bq := ⟨t.bq.outs ++ [s.x a != 0], joins [t.bq.bqm, s.xm a, s.base]⟩ })) s

/-! ## What decode refuses -/

/-- An encoding that is no instruction raises ILL (R99, R140). -/
def execIllegalInstruction (finfo : Word) (s : State) : Out :=
  runA (.illegalInstruction finfo) (fun _ => trapWith 0x01 0 finfo) s

/-- A base parcel on pages 9 to 15 raises EMU (R100). -/
def execEmulationTrap (finfo : Word) (s : State) : Out :=
  runA (.emulationTrap finfo) (fun _ => trapWith 0x02 0 finfo) s

end Sys2Proof.Machine
end

