-- ==== Sys2Proof/Machine/Vector.lean ====
section
/-! DEFINITION. Page 1: lanes of vector registers, masks, conversions, vector loads and stores, BQB and the long
accumulator. -/

namespace Sys2Proof.Machine

open Sys2Proof

/-! ## Shapes of lane instructions -/

/-- ResultMark of the running instruction without the marks of memory (R36). -/
def State.rmark (s : State) (i : Instr) : Mark := s.base ||| s.operandMarks i

/-- The bits of V(n). -/
def State.v (s : State) (r : Reg) : BitVec 256 := (s.readV r.toNat).val

/-- Width of the lanes of size code Z. -/
def widthZ (z : BitVec 2) : Nat := 8 * bytesZ z

/-- D's lanes of width w take f of the lane number, under the mask; flags of the selected lanes are raised when the form
may raise any (R141, R23). -/
def lanesTo (i : Instr) (d : Reg) (k : KReg) (w : Nat) (flags : Bool) (f : Nat → Nat × FFlags) (s : State) : Run? := do
  let mask := (s.readK k.toNat).val
  let m := s.rmark i
  let (ls, fl) := laneMap mask (256 / w) f
  let s1 ← s.writeV d.toNat (ofLanes 256 w ls) w mask m
  .ok (if flags then s1.setFlags fl m else s1)

/-- A floating-point form of two operands; `op` takes the rounding mode and the lanes (R144). -/
def fp2 (i : Instr) (f : FpTy) (d a b : Reg) (k : KReg) (op : Nat → Nat → Nat → Nat × FFlags) (s : State) : Run? :=
  let w := (fmtOf f).width
  lanesTo i d k w true (fun j => op s.frm (lane (s.v a) w j) (lane (s.v b) w j)) s

/-- A floating-point form of one operand (R147). -/
def fp1 (i : Instr) (f : FpTy) (d a : Reg) (k : KReg) (op : Nat → Nat → Nat × FFlags) (s : State) : Run? :=
  let w := (fmtOf f).width
  lanesTo i d k w true (fun j => op s.frm (lane (s.v a) w j)) s

/-- A fused form (R144): `np` inverts the product, `nd` the addend D. -/
def fused (i : Instr) (f : FpTy) (np nd : Bool) (d a b : Reg) (k : KReg) (s : State) : Run? :=
  let w := (fmtOf f).width
  lanesTo i d k w true
    (fun j => (fmtOf f).fma s.frm np nd (lane (s.v a) w j) (lane (s.v b) w j) (lane (s.v d) w j)) s

/-- A form of one operand on bits, without flags. -/
def bits1 (i : Instr) (w : Nat) (d a : Reg) (k : KReg) (op : Nat → Nat) (s : State) : Run? :=
  lanesTo i d k w false (fun j => (op (lane (s.v a) w j), 0)) s

/-- A form of two operands on bits, without flags. -/
def bits2 (i : Instr) (w : Nat) (d a b : Reg) (k : KReg) (op : Nat → Nat → Nat) (s : State) : Run? :=
  lanesTo i d k w false (fun j => (op (lane (s.v a) w j) (lane (s.v b) w j), 0)) s

/-- A long-latency form that writes a v register (R84, R85). -/
def vlong (w : Win) (d : Reg) (body : State → Run?) (s : State) : Run? :=
  if s.windowsFull w .v d.toNat then holdOn
  else do
    let old := s.me.regs.getV d.toNat
    let s1 ← body s
    .ok (s1.openWindow w .v d.toNat old)

/-- Clamps an integer to a range and wraps it to w bits. -/
def clamp (w : Nat) (lo hi v : Int) : Nat := wrap w (if v < lo then lo else if hi < v then hi else v)

/-- A signed saturating result of w bits. -/
def ssat (w : Nat) (v : Int) : Nat := clamp w (-((2 ^ (w - 1) : Nat) : Int)) (((2 ^ (w - 1) : Nat) : Int) - 1) v

/-- An unsigned saturating result of w bits. -/
def usat (w : Nat) (v : Int) : Nat := clamp w 0 (((2 ^ w : Nat) : Int) - 1) v

/-- VIADD's lane (Table 5.4). -/
def viaddOf (w : Nat) (m : BitVec 2) (x y : Nat) : Nat :=
  if m = 1 then ssat w (sint w x + sint w y) else if m = 2 then usat w ((x : Int) + y) else (x + y) % 2 ^ w

/-- VISUB's lane (Table 5.4). -/
def visubOf (w : Nat) (m : BitVec 2) (x y : Nat) : Nat :=
  if m = 1 then ssat w (sint w x - sint w y) else if m = 2 then usat w ((x : Int) - y) else wrap w ((x : Int) - y)

/-- VIMUL's lane (Table 5.4). -/
def vimulOf (w : Nat) (m : BitVec 2) (x y : Nat) : Nat :=
  if m = 0 then x * y % 2 ^ w
  else if m = 1 then wrap (2 * w) (sint w x * sint w y) / 2 ^ w
  else if m = 2 then x * y / 2 ^ w
  else ssat w (sint w x * sint w y)

/-- VSH's lane (Table 5.4): the low log2 w bits of y count. -/
def vshOf (w : Nat) (m : BitVec 2) (x y : Nat) : Nat :=
  if m = 0 then x * 2 ^ (y % w) % 2 ^ w
  else if m = 1 then x / 2 ^ (y % w)
  else wrap w (sint w x / (2 ^ (y % w) : Nat))

/-! ## Arithmetic -/

/-- VADD (Table 5.1) -/
def execVadd (f : FpTy) (d a b : Reg) (k : KReg) (s : State) : Out :=
  runE (.vadd f d a b k) (fp2 (.vadd f d a b k) f d a b k fun m x y => (fmtOf f).add m x y) s

/-- VSUB (Table 5.1) -/
def execVsub (f : FpTy) (d a b : Reg) (k : KReg) (s : State) : Out :=
  runE (.vsub f d a b k) (fp2 (.vsub f d a b k) f d a b k fun m x y => (fmtOf f).sub m x y) s

/-- VMUL (Table 5.1) -/
def execVmul (f : FpTy) (d a b : Reg) (k : KReg) (s : State) : Out :=
  runE (.vmul f d a b k) (fp2 (.vmul f d a b k) f d a b k fun m x y => (fmtOf f).mul m x y) s

/-- VMIN (R145) -/
def execVmin (f : FpTy) (d a b : Reg) (k : KReg) (s : State) : Out :=
  runE (.vmin f d a b k) (fp2 (.vmin f d a b k) f d a b k fun _ x y => (fmtOf f).minMax false x y) s

/-- VMAX (R145) -/
def execVmax (f : FpTy) (d a b : Reg) (k : KReg) (s : State) : Out :=
  runE (.vmax f d a b k) (fp2 (.vmax f d a b k) f d a b k fun _ x y => (fmtOf f).minMax true x y) s

/-- VFMA (Table 5.1) -/
def execVfma (f : FpTy) (d a b : Reg) (k : KReg) (s : State) : Out :=
  runE (.vfma f d a b k) (fused (.vfma f d a b k) f false false d a b k) s

/-- VFMS (Table 5.1) -/
def execVfms (f : FpTy) (d a b : Reg) (k : KReg) (s : State) : Out :=
  runE (.vfms f d a b k) (fused (.vfms f d a b k) f false true d a b k) s

/-- VFNMA (Table 5.1) -/
def execVfnma (f : FpTy) (d a b : Reg) (k : KReg) (s : State) : Out :=
  runE (.vfnma f d a b k) (fused (.vfnma f d a b k) f true false d a b k) s

/-- VFNMS (Table 5.1) -/
def execVfnms (f : FpTy) (d a b : Reg) (k : KReg) (s : State) : Out :=
  runE (.vfnms f d a b k) (fused (.vfnms f d a b k) f true true d a b k) s

/-- VDIV (Table 5.1) -/
def execVdiv (f : FpTy) (d a b : Reg) (k : KReg) (w : Win) (s : State) : Out :=
  runE (.vdiv f d a b k w) (vlong w d (fp2 (.vdiv f d a b k w) f d a b k fun m x y => (fmtOf f).div m x y)) s

/-- VRCP (Table 5.2) -/
def execVrcp (f : FpTy) (d a : Reg) (k : KReg) (w : Win) (s : State) : Out :=
  runE (.vrcp f d a k w) (vlong w d (fp1 (.vrcp f d a k w) f d a k fun m x => (fmtOf f).rcp m x)) s

/-- VRSQ (Table 5.2) -/
def execVrsq (f : FpTy) (d a : Reg) (k : KReg) (w : Win) (s : State) : Out :=
  runE (.vrsq f d a k w) (vlong w d (fp1 (.vrsq f d a k w) f d a k fun m x => (fmtOf f).rsq m x)) s

/-- VSQRT (Table 5.2) -/
def execVsqrt (f : FpTy) (d a : Reg) (k : KReg) (w : Win) (s : State) : Out :=
  runE (.vsqrt f d a k w) (vlong w d (fp1 (.vsqrt f d a k w) f d a k fun m x => (fmtOf f).sqrt m x)) s

/-- VEXP2 (Table 5.2) -/
def execVexp2 (f : FpTy) (d a : Reg) (k : KReg) (w : Win) (s : State) : Out :=
  runE (.vexp2 f d a k w) (vlong w d (fp1 (.vexp2 f d a k w) f d a k fun m x => (fmtOf f).exp2 m x)) s

/-- VABS (R146): the sign bit of each lane is cleared -/
def execVabs (f : FpTy) (d a : Reg) (k : KReg) (s : State) : Out :=
  runE (.vabs f d a k) (bits1 (.vabs f d a k) (fmtOf f).width d a k fun x => x % 2 ^ ((fmtOf f).width - 1)) s

/-- VNEG (R146): the sign bit of each lane is inverted -/
def execVneg (f : FpTy) (d a : Reg) (k : KReg) (s : State) : Out :=
  runE (.vneg f d a k) (bits1 (.vneg f d a k) (fmtOf f).width d a k fun x => (x + 2 ^ ((fmtOf f).width - 1)) % 2 ^ (fmtOf f).width) s

/-- VCLASS (R149) -/
def execVclass (f : FpTy) (d a : Reg) (k : KReg) (s : State) : Out :=
  runE (.vclass f d a k) (bits1 (.vclass f d a k) (fmtOf f).width d a k fun x => (fmtOf f).classify x) s

/-- VIADD (Table 5.4) -/
def execViadd (z m : BitVec 2) (d a b : Reg) (k : KReg) (s : State) : Out :=
  runE (.viadd z m d a b k) (bits2 (.viadd z m d a b k) (widthZ z) d a b k fun x y => viaddOf (widthZ z) m x y) s

/-- VISUB (Table 5.4) -/
def execVisub (z m : BitVec 2) (d a b : Reg) (k : KReg) (s : State) : Out :=
  runE (.visub z m d a b k) (bits2 (.visub z m d a b k) (widthZ z) d a b k fun x y => visubOf (widthZ z) m x y) s

/-- VIMUL (Table 5.4) -/
def execVimul (z m : BitVec 2) (d a b : Reg) (k : KReg) (s : State) : Out :=
  runE (.vimul z m d a b k) (bits2 (.vimul z m d a b k) (widthZ z) d a b k fun x y => vimulOf (widthZ z) m x y) s

/-- VSH (Table 5.4) -/
def execVsh (z m : BitVec 2) (d a b : Reg) (k : KReg) (s : State) : Out :=
  runE (.vsh z m d a b k) (bits2 (.vsh z m d a b k) (widthZ z) d a b k fun x y => vshOf (widthZ z) m x y) s

/-- VAND (Table 5.4) -/
def execVand (z : BitVec 2) (d a b : Reg) (k : KReg) (s : State) : Out :=
  runE (.vand z d a b k) (bits2 (.vand z d a b k) (widthZ z) d a b k fun x y => x &&& y) s

/-- VOR (Table 5.4) -/
def execVor (z : BitVec 2) (d a b : Reg) (k : KReg) (s : State) : Out :=
  runE (.vor z d a b k) (bits2 (.vor z d a b k) (widthZ z) d a b k fun x y => x ||| y) s

/-- VXOR (Table 5.4) -/
def execVxor (z : BitVec 2) (d a b : Reg) (k : KReg) (s : State) : Out :=
  runE (.vxor z d a b k) (bits2 (.vxor z d a b k) (widthZ z) d a b k fun x y => x ^^^ y) s

/-! ## Comparison, selection, dot products, reductions, permutes -/

/-- VCMP (R148). -/
def execVcmp (f : FpTy) (p : BitVec 3) (d : KReg) (a b : Reg) (k : KReg) (s : State) : Out :=
  runE (.vcmp f p d a b k) (fun s =>
    let w := (fmtOf f).width
    let mask := (s.readK k.toNat).val
    let m := s.rmark (.vcmp f p d a b k)
    let rs := (List.range (256 / w)).map fun j =>
      if mask.getLsbD j then (fmtOf f).compare p.toNat (lane (s.v a) w j) (lane (s.v b) w j) else (false, 0)
    let out := (rs.zip (List.range 32)).foldl (fun acc r => acc + b2n r.1.1 * 2 ^ r.2) 0
    let fl := rs.foldl (fun acc r => acc ||| r.2) (0 : FFlags)
    .ok ((s.writeK d.toNat (BitVec.ofNat 32 out) m).setFlags fl m)) s

/-- VSEL (R150): every lane is written, so a push stores every lane (R174; DEDUCED, log entry 90). -/
def execVsel (z : BitVec 2) (d a b : Reg) (k : KReg) (s : State) : Out :=
  runE (.vsel z d a b k) (fun s =>
    let w := widthZ z
    let mask := (s.readK k.toNat).val
    let ls := (List.range (256 / w)).map fun j => if mask.getLsbD j then lane (s.v a) w j else lane (s.v b) w j
    s.writeV d.toNat (ofLanes 256 w ls) w allLanes (s.rmark (.vsel z d a b k))) s

/-- The format of VDOT4's bytes, for the float forms. -/
def dotFmt : DotTy → Fmt
  | .e5m2 => fmtE5
  | .i8 => fmtE4
  | .ui8 => fmtE4
  | .e4m3 => fmtE4

/-- The exact sum of a list of products and an addend; none when a product is 0 · ∞ or infinities disagree. -/
def exactSum (mode : Nat) : List (Option FVal) → FVal → Option FVal
  | [], acc => some acc
  | none :: _, _ => none
  | some p :: t, acc =>
    match p, acc with
    | .nan _, _ => none
    | _, .nan _ => none
    | .inf x, .inf y => if x = y then exactSum mode t acc else none
    | .inf x, .fin _ _ _ => exactSum mode t (.inf x)
    | .fin _ _ _, .inf y => exactSum mode t (.inf y)
    | .fin n1 m1 e1, .fin n2 m2 e2 =>
      let (n, m, e) := addExact mode n2 m2 e2 n1 m1 e1
      exactSum mode t (.fin n m e)

/-- The exact sum of four finite products (R152), before the addend. -/
def fourSum (mode : Nat) (l : List (Option FVal)) : Option FVal :=
  match l with
  | some p :: t => exactSum mode t p
  | _ => none

/-- A 32-bit lane of VDOT4 in a float form (R152). -/
def dotLane (f : Fmt) (mode x y acc : Nat) : Nat × FFlags :=
  let xs := (List.range 4).map fun j => f.unpack (x / 2 ^ (8 * j) % 256)
  let ys := (List.range 4).map fun j => f.unpack (y / 2 ^ (8 * j) % 256)
  let ad := fmt32.unpack acc
  let nan := (xs ++ ys ++ [ad]).any (·.isNan)
  let ps := (xs.zip ys).map fun p => p.1.times p.2
  let bad := (xs.zip ys).any fun p => (p.1.isZero && p.2.isInf) || (p.1.isInf && p.2.isZero)
  let fl := nvOf (xs ++ ys ++ [ad]) ||| (if bad then fNV else 0)
  let clash := ps.contains (some (.inf true)) && ps.contains (some (.inf false))
  if clash then (fmt32.canon, fNV)
  else if nan || bad then (fmt32.canon, fl)
  else match fourSum mode ps with
    | some p => fmt32.sum mode ad p
    | none => (fmt32.canon, fNV)

/-- A 32-bit lane of VDOT4 in an integer form (R152). -/
def dotInt (signed : Bool) (x y acc : Nat) : Nat :=
  let v (n j : Nat) : Int := if signed then sint 8 (n / 2 ^ (8 * j)) else ((n / 2 ^ (8 * j) % 256 : Nat) : Int)
  wrap 32 ((acc : Int) + ((List.range 4).map fun j => v x j * v y j).sum)

/-- VDOT4 (R152). -/
def execVdot4 (t : DotTy) (d a b : Reg) (k : KReg) (w : Win) (s : State) : Out :=
  let i : Instr := .vdot4 t d a b k w
  runE i (vlong w d fun s =>
    let float := t == .e4m3 || t == .e5m2
    lanesTo i d k 32 float (fun j =>
      let x := lane (s.v a) 32 j
      let y := lane (s.v b) 32 j
      let acc := lane (s.v d) 32 j
      if float then dotLane (dotFmt t) s.frm x y acc else (dotInt (t == .i8) x y acc, 0)) s) s

/-- VRED (R153): every lane is written, so a push stores every lane (R174; DEDUCED, log entry 90). -/
def execVred (f : FpTy) (op : BitVec 2) (d a : Reg) (k : KReg) (w : Win) (s : State) : Out :=
  let i : Instr := .vred f op d a k w
  runE i (vlong w d fun s => do
    let g := fmtOf f
    let mask := (s.readK k.toNat).val
    let ident := if op = 0 then g.sign true else g.infBits (op == 2)
    let ls := (List.range (256 / g.width)).map fun j => if mask.getLsbD j then lane (s.v a) g.width j else ident
    let step (x y : Nat) : Nat × FFlags := if op = 0 then g.add s.frm x y else g.minMax (op == 2) x y
    let (r, fl) := tree step 6 ls
    let m := s.rmark i
    let s1 ← s.writeV d.toNat (BitVec.ofNat 256 r) g.width allLanes m
    .ok (s1.setFlags fl m)) s

/-- VBCAST (R154). -/
def execVbcast (z : BitVec 2) (ln : BitVec 5) (d a : Reg) (k : KReg) (s : State) : Out :=
  runE (.vbcast z ln d a k) (fun s =>
    lanesTo (.vbcast z ln d a k) d k (widthZ z) false (fun _ => (lane (s.v a) (widthZ z) ln.toNat, 0)) s) s

/-- VPERM (R154). -/
def execVperm (z : BitVec 2) (zhi : Bool) (d a b : Reg) (k : KReg) (s : State) : Out :=
  runE (.vperm z zhi d a b k) (fun s =>
    let w := widthZ z
    lanesTo (.vperm z zhi d a b k) d k w false (fun j =>
      let y := lane (s.v b) w j
      (if zhi && bit y (w - 1) then 0 else lane (s.v a) w (y % (256 / w)), 0)) s) s

/-! ## Between the sides -/

/-- VMVX (R155). -/
def execVmvx (z : BitVec 2) (ln : BitVec 5) (d a : Reg) (s : State) : Out :=
  runE (.vmvx z ln d a) (fun s =>
    .ok (s.result d (signExt (lane (s.v a) (widthZ z) ln.toNat) (widthZ z)) (s.readV a.toNat).mark)) s

/-- VMXV (R155). -/
def execVmxv (z : BitVec 2) (d a : Reg) (k : KReg) (s : State) : Out :=
  runE (.vmxv z d a k) (fun s => lanesTo (.vmxv z d a k) d k (widthZ z) false (fun _ => ((s.x a).toNat, 0)) s) s

/-- KOP (R156). -/
def execKop (op : BitVec 2) (d a b : KReg) (s : State) : Out :=
  runE (.kop op d a b) (fun s =>
    let x := (s.readK a.toNat).val
    let y := (s.readK b.toNat).val
    let r := if op = 0 then x &&& y else if op = 1 then x ||| y else if op = 2 then x ^^^ y else x &&& ~~~y
    .ok (s.writeK d.toNat r (s.rmark (.kop op d a b)))) s

/-- KPOP (R156). -/
def execKpop (d : Reg) (a : KReg) (s : State) : Out :=
  runE (.kpop d a) (fun s =>
    .ok (s.result d (word (popcount 32 (s.readK a.toNat).val.toNat)) (s.readK a.toNat).mark)) s

/-- VLDI (R161). -/
def execVldi (d : Reg) (imm : BitVec 32) (s : State) : Out :=
  runE (.vldi d imm) (fun s =>
    s.writeV d.toNat (ofLanes 256 32 (List.replicate 8 imm.toNat)) 32 allLanes s.base) s

/-! ## Conversion -/

/-- The code table of a format and id that the running thread's core uses (R61). -/
def State.codeTab (s : State) (e5 : Bool) (ctid : Nat) : CodeTab :=
  let fresh := CodeTab.fresh e5
  if isCompute s.cur.unit then ((s.cluster (clusterOf s.cur.unit)).tabs.get? (4 * b2n e5 + ctid)).getD fresh else fresh

/-- VCVT between types that are not coded (R158). A push stores the elements that it writes: of PART alone, where it
narrows (R174; DEDUCED, log entry 90). -/
def convertPlain (i : Instr) (src dst : ETy) (sat : Bool) (part : Nat) (d a : Reg) (k : KReg) (s : State) : Run? := do
  let ws := src.width
  let wd := dst.width
  let mask := (s.readK k.toNat).val
  let n := 256 / Nat.max ws wd
  let m := s.rmark i
  let take (j : Nat) : Option Nat :=
    if wd ≤ ws then (if n * part ≤ j ∧ j < n * part + n then some (j - n * part) else none)
    else some (n * part + j)
  let rs := (List.range (256 / wd)).map fun j => match take j with
    | some e => if mask.getLsbD j then convElem src dst s.frm sat (lane (s.v a) ws e) else (0, (0 : FFlags))
    | none => (0, 0)
  let sel := ofLanes 32 1 ((List.range (256 / wd)).map fun j => b2n ((take j).isSome && mask.getLsbD j))
  let s1 ← s.writeV d.toNat (ofLanes 256 wd (rs.map (·.1))) wd sel m
  let fl := rs.foldl (fun acc r => acc ||| r.2) (0 : FFlags)
  .ok (if src.isInt && dst.isInt then s1 else s1.setFlags fl m)

/-- VCVT from a coded block (R159). -/
def convertDecode (i : Instr) (e5 : Bool) (dst : ETy) (sat : Bool) (d a : Reg) (k : KReg) (s : State) : Run? := do
  let mask := (s.readK k.toNat).val
  let b := (s.v a).toNat + 2 ^ 256 * (s.readV (a.toNat + 1)).val.toNat
  let (el, bad, _) := decodeBlock e5 (s.codeTab e5) b
  let m := s.rmark i ||| (s.codeTab e5 (bits b 10 9)).mark
  if mask = 0 ∧ s.pushes d.toNat = false then .ok s
  else
    let src : ETy := if e5 then .e5m2 else .e4m3
    let (ls, fl) := laneMap mask 32 fun j => convElem src dst s.frm sat (nth el j 0)
    let s1 ← s.writeV d.toNat (ofLanes 256 8 ls) 8 mask m
    .ok (if mask = 0 then s1 else s1.setFlags (if bad then fl ||| fNV else fl) m)

/-- VCVT to a coded block (R159, R64). (DEDUCED, log entry 88.) -/
def convertEncode (i : Instr) (src : ETy) (e5 sat : Bool) (ctid : Nat) (d a : Reg) (s : State) : Run? := do
  let dst : ETy := if e5 then .e5m2 else .e4m3
  let rs := (List.range 32).map fun j => encodeElem src dst sat (lane (s.v a) 8 j)
  let tab := s.codeTab e5 ctid
  let m := s.rmark i ||| tab.mark
  match encodeBlock e5 ctid tab (rs.map (·.1)) with
  | .error e => trapWith 0x05 0 (word e)
  | .ok b =>
    let s1 ← s.writeV d.toNat (BitVec.ofNat 256 b) 256 allLanes m
    let s2 ← s1.writeV (d.toNat + 1) (BitVec.ofNat 256 (b / 2 ^ 256)) 256 allLanes m
    .ok (s2.setFlags (rs.foldl (fun acc r => acc ||| r.2) (0 : FFlags)) m)

/-- VCVT (R157). -/
def execVcvt (src dst : ETy) (sat : Bool) (part : BitVec 3) (ctid : BitVec 2) (d a : Reg) (k : KReg) (s : State) : Out :=
  let i : Instr := .vcvt src dst sat part ctid d a k
  runE i (if src.coded then convertDecode i (src == .e5m2c) dst sat d a k
    else if dst.coded then convertEncode i src (dst == .e5m2c) sat ctid.toNat d a
    else convertPlain i src dst sat part.toNat d a k) s

/-! ## Vector loads and stores -/

/-- Gives a trap an address in FADDR. -/
def atAddr {α : Type} (a : Word) (r : Except Halt α) : Except Halt α :=
  match r with
  | .ok x => .ok x
  | .error (.trap c _ i d n r) => .error (.trap c a i d n r)
  | .error e => .error e

/-- The lanes that a mask selects. -/
def selected (mask : BitVec 32) (n : Nat) : List Nat := (List.range n).filter fun j => mask.getLsbD j

/-- Location of lane 0 of a vector access whose selected bytes lie in the thread's ranges (R160, R27). -/
def State.vectorAt (s : State) (a : Word) (w : Nat) (sel : List Nat) (write : Bool) : Except Halt Nat :=
  let nb := w / 8
  let lo := nb * sel.headD 0
  let hi := nb * (sel.getLastD 0 + 1)
  if field a 63 62 ≠ 0 then bounds a 0 write
  else do
    match ← atAddr a (s.resolve00 s.agent (a + word lo) (hi - lo) write true) with
    | .loc l =>
      if isSpadLoc l && sel.any (fun j => s.inWindow (clusterOf s.cur.unit) ((l - lo + nb * j) % 2 ^ 20) nb) then
        bounds a 5 write
      else .ok (l - lo)
    | _ => bounds a 0 write

/-- Reads the selected lanes from a location: their values by lane number, and the join of their marks. -/
def State.loadLanes (s : State) (a : Word) (l nb : Nat) : List Nat → Except Halt (List (Nat × Nat) × Mark)
  | [] => .ok ([], 0)
  | j :: t => do
    let (bs, m) ← atAddr a (s.loadLoc a (l + nb * j) nb)
    let (r, m2) ← State.loadLanes s a l nb t
    .ok ((j, ofBytes bs) :: r, m ||| m2)

/-- Checks the stores of the selected lanes as one access (R160, R304). -/
def State.checkLanes (s : State) (a : Word) (l nb : Nat) (m : Mark) (sel : List Nat) : Except Halt Unit :=
  atAddr a (s.checkRuns a m (sel.map fun j => (a, l + nb * j, nb)))

/-- VLD (R160). -/
def execVld (z : BitVec 2) (d a : Reg) (off : Word) (k : KReg) (s : State) : Out :=
  let i : Instr := .vld z d a off k
  runE i (fun s => do
    let w := widthZ z
    let mask := (s.readK k.toNat).val
    let sel := selected mask (256 / w)
    let addr := s.x a + off
    if sel.isEmpty then s.writeV d.toNat 0 w mask (s.rmark i)
    else
      let l ← s.vectorAt addr w sel false
      let (vs, m) ← s.loadLanes addr l (w / 8) sel
      let val := vs.foldl (fun acc p => acc + p.2 * 2 ^ (w * p.1)) 0
      s.writeV d.toNat (BitVec.ofNat 256 val) w mask (s.rmark i ||| m)) s

/-- VST (R160). -/
def execVst (z : BitVec 2) (d a : Reg) (off : Word) (k : KReg) (s : State) : Out :=
  let i : Instr := .vst z d a off k
  runE i (fun s => do
    let w := widthZ z
    let sel := selected (s.readK k.toNat).val (256 / w)
    let addr := s.x a + off
    let m := s.rmark i
    if sel.isEmpty then .ok s
    else
      let l ← s.vectorAt addr w sel true
      s.checkLanes addr l (w / 8) m sel
      .ok (sel.foldl (fun t j => t.put (l + w / 8 * j) (toBytes (w / 8) (lane (s.v d) w j)) m false) s)) s

/-! ## Branch outcomes -/

/-- BQB while STATUS.INTRAP = 1 is found illegal at decode (R29, R41). -/
def illAtDecode (i : Instr) (s : State) : Out :=
  runA i (fun s => ill s) { s with latch := { s.latch with src := .access } }

/-- BQB (R162, R20). The mark that it joins into CMARK reaches every E-side instruction that issues after it, those that
keep a CMARK from before a later MKCTX among them. -/
def execBqb (n : BitVec 6) (s : State) : Out :=
  if s.me.csr.intrap then illAtDecode (.bqb n) s
  else runE (.bqb n) (fun s =>
    let t := s.me
    match t.bq.outs with
    | [] => waitOn 0x08 0 s.cur.unit s.chip
    | o :: rest =>
      let s1 := s.joinCmark t.bq.bqm
      .ok (s1.setMe { s1.me with bq := ⟨rest, if rest.isEmpty then 0 else t.bq.bqm⟩, rcnt := n.toNat, rout := o })) s

/-! ## The long accumulator -/

/-- Location of a window, with the checks of R164. An aligned window never runs past the end of local memory, so that
one which leaves the thread's range gives reason 1. -/
def State.accAt (s : State) (a : Word) (write : Bool) : Except Halt Nat :=
  let spad := isCompute s.cur.unit && decide (0x100000 ≤ a.toNat) && decide (a.toNat < 0x200000)
  let (b, len) := lwinLocal s.agent.lwin
  if !aligned a.toNat 128 || spad then bounds a 3 write
  else if 0x10000 ≤ a.toNat then bounds a 0 write
  else if a.toNat < b ∨ b + len < a.toNat + 128 then bounds a 1 write
  else .ok (unitLoc s.cur.unit + a.toNat)

/-- ACCZ (R165). -/
def execAccz (a : Reg) (s : State) : Out :=
  runE (.accz a) (fun s => do
    let l ← s.accAt (s.x a) true
    .ok (s.put l (List.replicate 128 0) (s.rmark (.accz a)) false)) s

/-- ACCW (R166, R67). -/
def execAccw (bf prod : Bool) (d a b : Reg) (k : KReg) (s : State) : Out :=
  let i : Instr := .accw bf prod d a b k
  runE i (fun s => do
    let l ← s.accAt (s.x a) true
    let f := if bf then fmtBf else fmt32
    let sel := selected (s.readK k.toNat).val (256 / f.width)
    if sel.isEmpty then .ok (s.setFlags 0 (s.rmark i))
    else
      let (bs, lm) ← s.loadLoc (s.x a) l 128
      let m := s.rmark i ||| lm
      let step (acc : Accu × FFlags) (j : Nat) : Accu × FFlags :=
        let x := f.unpack (lane (s.v d) f.width j)
        let y := if prod then productAddend x (f.unpack (lane (s.v b) f.width j)) else some x
        let (w, fl) := acc.1.add y
        (w, acc.2 ||| fl)
      let (w, fl) := sel.foldl step (Accu.ofBytes bs, 0)
      .ok ((s.put l (w.toBytes bs) m false).setFlags fl m)) s

/-- ACCRD (R167, R69). -/
def execAccrd (bf : Bool) (d a : Reg) (w : Win) (s : State) : Out :=
  let i : Instr := .accrd bf d a w
  runE i (vlong w d fun s => do
    let l ← s.accAt (s.x a) false
    let (bs, lm) ← s.loadLoc (s.x a) l 128
    let f := if bf then fmtBf else fmt32
    let m := s.rmark i ||| lm
    let (r, fl) := (Accu.ofBytes bs).read f s.frm
    let s1 ← s.writeV d.toNat (BitVec.ofNat 256 r) f.width allLanes m
    .ok (s1.setFlags fl m)) s

end Sys2Proof.Machine
end

