-- ==== Sys2Proof/Machine/Sparse.lean ====
section
/-! DEFINITION. Pages 2 and 8: stream slots, the wheel, fibres, bitmaps, packed vectors and hash tables. -/

namespace Sys2Proof.Machine

open Sys2Proof

/-! ## Stream slots -/

/-- Reads n bytes of the local window at an address that must be aligned to 64 bytes. -/
def State.block64 (s : State) (a : Word) (n : Nat) : Except Halt (List Byte × Mark) := do
  if field a 63 62 ≠ 0 then bounds a 0 false
  else if !aligned a.toNat 64 then bounds a 3 false
  else
    let (v, m) ← s.loadL a n
    .ok (toBytes n v, m)

/-- SOPEN and SOPENX (R180). -/
def openSlot (n : Nat) (a : Reg) (wr vec indirect : Bool) (s : State) : Run? := do
  let (bs, m) ← s.block64 (s.x a) 64
  let d := BitVec.ofNat 512 (ofBytes bs)
  if !(if indirect then indirectOk d else affineOk d) then arith 0x10 n (s.x a)
  else
    .ok ((s.forgetSlot (slotKey n)).setSlot n
      { opened := true, wr := wr, vec := vec, indirect := indirect, desc := d, daddr := s.x a, pos := 0
        sm := joins [s.xm a, m, s.base], fetched := [] })

/-- SOPEN (R180). -/
def execSopen (n : BitVec 2) (a : Reg) (wr vec : Bool) (s : State) : Out :=
  runA (.sopen n a wr vec) (openSlot n.toNat a wr vec false) s

/-- SOPENX (R180). -/
def execSopenx (n : BitVec 2) (a : Reg) (wr vec : Bool) (s : State) : Out :=
  runA (.sopenx n a wr vec) (openSlot n.toNat a wr vec true) s

/-- SADV (R181). -/
def execSadv (n : BitVec 2) (a : Reg) (s : State) : Out :=
  runA (.sadv n a) (fun s =>
    let x := s.slot n.toNat
    if !x.opened then .ok s
    else
      let k := Nat.min (s.x a).toNat (x.len - x.pos)
      .ok (s.setSlot n.toNat { x with pos := x.pos + k, sm := x.sm ||| s.xm a
                                      fetched := if x.vec && k != 0 then [] else x.fetched.drop k })) s

/-- STEND (R182). -/
def execStend (d : Reg) (n : BitVec 2) (s : State) : Out :=
  runE (.stend d n) (fun s =>
    let x := s.slot n.toNat
    .ok (if x.opened then s.result d (word (x.len - x.pos)) x.sm else s.result d 0 0)) s

/-- SCLOSE (R183). -/
def execSclose (n : BitVec 2) (s : State) : Out :=
  runA (.sclose n) (fun s => .ok ((s.forgetSlot (slotKey n.toNat)).setSlot n.toNat Slot.closed)) s

/-- The image of a slot (Table 6.5). -/
def slotImage (x : Slot) : List Byte :=
  if !x.opened then List.replicate 128 0
  else toBytes 64 x.desc.toNat
    ++ toBytes 8 (x.sm.toNat * 2 ^ 48 + b2n x.indirect * 8 + b2n x.vec * 4 + b2n x.wr * 2 + 1)
    ++ toBytes 8 x.pos ++ List.replicate 48 0

/-- The slot of an image at an address; none when the image is invalid (R184). Of an image with OPEN = 0 only the
reserved bits are checked. (DEDUCED, log entry 91.) -/
def slotOfImage (a : Word) (bs : List Byte) : Option Slot :=
  let v := ofBytes bs
  let d := BitVec.ofNat 512 v
  let st := v / 2 ^ 512 % 2 ^ 64
  let pos := v / 2 ^ 576 % 2 ^ 64
  if bits st 47 4 ≠ 0 ∨ v / 2 ^ 640 ≠ 0 then none
  else if !bit st 0 then some Slot.closed
  else if !(if bit st 3 then indirectOk d else affineOk d) then none
  else if streamLen (bit st 3) d < pos then none
  else some { opened := true, wr := bit st 1, vec := bit st 2, indirect := bit st 3, desc := d, daddr := a, pos := pos
              sm := BitVec.ofNat 16 (st / 2 ^ 48), fetched := [] }

/-- SSAVE (R184). -/
def execSsave (n : BitVec 2) (a : Reg) (s : State) : Out :=
  runA (.ssave n a) (fun s =>
    let x := s.slot n.toNat
    let m := joins [if x.opened then x.sm else 0, s.xm a, s.base]
    if field (s.x a) 63 62 ≠ 0 then bounds (s.x a) 0 true
    else if !aligned (s.x a).toNat 64 then bounds (s.x a) 3 true
    else s.storeL (s.x a) (slotImage x) m) s

/-- SREST (R184). -/
def execSrest (n : BitVec 2) (a : Reg) (s : State) : Out :=
  runA (.srest n a) (fun s => do
    let (bs, m) ← s.block64 (s.x a) 128
    match slotOfImage (s.x a) bs with
    | none => arith 0x10 n.toNat (s.x a)
    | some x =>
      let s1 := s.forgetSlot (slotKey n.toNat)
      .ok (s1.setSlot n.toNat (if x.opened then { x with sm := joins [x.sm, m, s.xm a, s.base] } else x))) s

/-! ## The wheel -/

/-- A body instruction that makes a REP illegal: an A-side form, an illegal encoding, a REP or REPX (R186). -/
def bodyIllegal (e : EEntry) : Bool := !(usesOf e.instr).eSide

/-- REP and REPX at A-side issue (R185, R186, R188): the body goes into the wheel, and its passes begin now or, while
earlier E-side work waits, from the E-queue. -/
def loadWheel (i : Instr) (n : Nat) (wm : Mark) (isX : Bool) (s : State) : Run? :=
  let t := s.me
  let waddr := s.latch.addr + word s.latch.len
  let raw := s.readBody (bodyLen i) waddr
  if t.csr.intrap || raw.any bodyIllegal then ill s
  else if t.wheel.act || t.equeue.any (·.passes.isSome) then holdOn
  else if !t.equeue.isEmpty && decide (32 ≤ t.equeue.length) then holdOn
  else
    let body := s.captureBody raw
    let s1 := s.setMe { t with pc := waddr + word (raw.map (·.len)).sum, seq := s.latch.seq + 1 + n * bodyLen i }
    let keys := if isX then s.openSlots else []
    if t.equeue.isEmpty then .ok ((s1.joinSlots keys wm).startWheel body waddr n (s.latch.seq + 1) wm)
    else
      let e : EEntry := ⟨s.latch.addr, s.latch.len, i, s.latch.finfo, s.latch.seq, keys.map fun k => (k, plain 0), some n⟩
      let t1 := s1.me
      .ok (s1.setMe { t1 with equeue := t1.equeue ++ [e]
                              wheel := { t1.wheel with body := body, waddr := waddr, wm := wm } })

/-- A REP or REPX at the head of the E-queue begins its passes (R187), with the wheel mark that it set when it issued
(R188). -/
def State.beginPasses (s : State) : State :=
  let t := s.me
  match t.equeue with
  | e :: rest =>
    let wm := t.wheel.wm
    let s1 := (s.setMe { t with equeue := rest, eWait := none }).joinSlots (e.caps.map (·.1)) wm
    s1.startWheel t.wheel.body t.wheel.waddr (e.passes.getD 0) (e.seq + 1) wm
  | [] => s

/-- REP (R185): the count is the field plus 1. -/
def execRep (len : BitVec 5) (cnt : BitVec 16) (s : State) : Out :=
  if s.latch.src = .queue then .next s.beginPasses
  else runA (.rep len cnt) (loadWheel (.rep len cnt) (cnt.toNat + 1) 0 false) s

/-- REPX (R185). -/
def execRepx (len : BitVec 5) (a : Reg) (s : State) : Out :=
  if s.latch.src = .queue then .next s.beginPasses
  else runA (.repx len a) (fun s =>
    if s.me.csr.intrap || (s.readBody (len.toNat + 1) (s.latch.addr + word s.latch.len)).any bodyIllegal then ill s
    else if 65536 < (s.x a).toNat then arith 0x12 0 0
    else loadWheel (.repx len a) (s.x a).toNat (s.xm a) true s) s

/-- REPBRK (R187, R189): ends the replay. The passes that are not issued count in no value window. -/
def execRepbrk (s : State) : Out :=
  if s.me.csr.intrap then illAtDecode .repbrk s
  else runE .repbrk (fun s =>
    let t := s.me
    if s.latch.src = .wheel then
      let skipped := wheelLeft t.wheel - 1
      let c := { t.csr with wstatMark := t.csr.wstatMark ||| s.base, statusMark := t.csr.statusMark ||| s.base }
      let ws := t.windows.map fun w =>
        if w.start ≤ s.latch.seq ∧ s.latch.seq < w.last then { w with last := w.last + skipped } else w
      .ok (s.setMe { t with csr := c, rcnt := 0, windows := ws
                            wheel := { t.wheel with repcnt := 0, repix := 0, act := false } })
    else .ok s) s

/-! ## Fibres -/

/-- FOPEN (R194). A fault on a coordinate is left to the instruction that needs the entry (R193); until then COORD is a
free value (DESIGN CHOICE, log entry 27). -/
def execFopen (n : Bool) (a : Reg) (start : BitVec 32) (s : State) : Out :=
  runA (.fopen n a start) (fun s => do
    let k := b2n n
    let (bs, m) ← s.block64 (s.x a) 64
    let d := BitVec.ofNat 512 (ofBytes bs)
    if !fibreOk d then arith 0x13 k (s.x a)
    else
      let f : Fibre := { Fibre.closed with opened := true, desc := d, fm := joins [s.xm a, m, s.base] }
      let s1 := s.forgetSlot (slotKey (4 + k))
      let s2 := s1.setMe { s1.me with pend := false }
      match s2.seek k start.toNat f none with
      | .ok (s3, g) => .ok (s3.setFibre k { g with pres := !g.ended })
      | .error _ =>
        .ok ({ s2 with free := s2.free + 1 }.setFibre k
          { f with seek := some start.toNat, pres := true, coord := (Config.freeWord s2.ix).toNat % 2 ^ 32 })) s

/-- FCLOSE (R194): the fibre shows 0 in every field of FBC but PEND, which stays, and has the mark 0x0000. (DESIGN CHOICE, log
entry 106.) -/
def execFclose (n : Bool) (s : State) : Out :=
  runA (.fclose n) (fun s => .ok ((s.forgetSlot (slotKey (4 + b2n n))).setFibre (b2n n) Fibre.closed)) s

/-- FADV (R195): to the next entry, or with a register to the first entry at its coordinate or later. -/
def execFadv (n : Bool) (a : Reg) (s : State) : Out :=
  runE (.fadv n a) (fun s => do
    let k := b2n n
    let (s1, f) ← s.settle k
    if !f.opened then .ok s
    else if f.ended then .ok (s1.setFibre k f)
    else
      let tgt := (s.x a).toNat % 2 ^ 32
      let f1 := if a = 0 then f else { f with fm := f.fm ||| s.xm a }
      let (s2, g) ← (
        if a = 0 then s1.stepFibre k f1
        else if tgt ≤ f.coord then .ok (s1, f1)
        else s1.seek k tgt { f1 with entry := f1.entry + 1, vidx := f1.vidx + 1 } (some f1.coord))
      .ok ((s2.setMe { s2.me with pend := false }).setFibre k { g with pres := !g.ended })) s

/-- FTEND (R195). -/
def execFtend (d : KReg) (n : Bool) (s : State) : Out :=
  runE (.ftend d n) (fun s => do
    let k := b2n n
    let (s1, f) ← s.settle k
    let s2 := if f.opened then s1.setFibre k f else s1
    .ok (s2.writeK d.toNat (if f.opened && !f.ended then allLanes else 0) ((if f.opened then f.fm else 0) ||| s.base))) s

/-- The two fibres with their entries found; ARITH 0x13 when a slot is closed: with both closed it names slot 0, and
FADDR is 0, since a closed slot has no descriptor. (DEDUCED, log entry 89.) -/
def State.bothFibres (s : State) : Except Halt (State × Fibre × Fibre) := do
  if !(s.fibre 0).opened then arith 0x13 0 0
  else if !(s.fibre 1).opened then arith 0x13 1 0
  else
    let (s1, f) ← s.settle 0
    let (s2, g) ← (s1.setFibre 0 f).settle 1
    .ok (s2.setFibre 1 g, f, g)

/-- Steps the fibres whose entry was delivered (R196). -/
def State.stepDelivered (s : State) (f g : Fibre) : Except Halt (State × Fibre × Fibre) := do
  if s.me.pend then
    let (s1, f1) ← (if f.pres then s.stepFibre 0 f else .ok (s, f))
    let (s2, g1) ← (if g.pres then s1.stepFibre 1 g else .ok (s1, g))
    .ok (s2, f1, g1)
  else .ok (s, f, g)

/-- The loop of FISECT. -/
def State.meetFibres (s : State) : Nat → Fibre → Fibre → Except Halt (State × Fibre × Fibre)
  | 0, f, g => .ok (s, f, g)
  | fuel + 1, f, g =>
    if f.ended || g.ended || f.coord == g.coord then .ok (s, f, g)
    else if f.coord < g.coord then do
      let (s1, f1) ← s.stepFibre 0 f
      State.meetFibres s1 fuel f1 g
    else do
      let (s1, g1) ← s.stepFibre 1 g
      State.meetFibres s1 fuel f g1

/-- Leaves both fibres, PEND and K(D) as FISECT and FUNION end (R196). -/
def State.endFibres (s : State) (d : KReg) (f g : Fibre) (pf pg pend : Bool) : State :=
  let m := f.fm ||| g.fm
  let s1 := (s.setFibre 0 { f with pres := pf, fm := m }).setFibre 1 { g with pres := pg, fm := m }
  let s2 := s1.setMe { s1.me with pend := pend }
  s2.writeK d.toNat (if pend then allLanes else 0) (m ||| s.base)

/-- FISECT (R196). -/
def execFisect (d : KReg) (s : State) : Out :=
  runE (.fisect d) (fun s => do
    let (s1, f, g) ← s.bothFibres
    let (s2, f1, g1) ← s1.stepDelivered f g
    let (s3, f2, g2) ← s2.meetFibres (f1.nnz + g1.nnz + 2) f1 g1
    let both := !f2.ended && !g2.ended
    .ok (s3.endFibres d f2 g2 both both both)) s

/-- FUNION (R196). -/
def execFunion (d : KReg) (s : State) : Out :=
  runE (.funion d) (fun s => do
    let (s1, f, g) ← s.bothFibres
    let (s2, f1, g1) ← s1.stepDelivered f g
    let u := Nat.min (if f1.ended then 2 ^ 32 else f1.coord) (if g1.ended then 2 ^ 32 else g1.coord)
    .ok (s2.endFibres d f1 g1 (!f1.ended && f1.coord == u) (!g1.ended && g1.coord == u) (!f1.ended || !g1.ended))) s

/-! ## Bitmaps -/

/-- BMAND (R198). -/
def execBmand (andn : Bool) (d a b : Reg) (s : State) : Out :=
  runE (.bmand andn d a b) (fun s =>
    s.writeV d.toNat (s.v a &&& (if andn then ~~~ s.v b else s.v b)) 256 allLanes (s.rmark (.bmand andn d a b))) s

/-- BMPFX (R199). -/
def execBmpfx (inc : Bool) (d a b : Reg) (s : State) : Out :=
  runE (.bmpfx inc d a b) (fun s =>
    let ls := (List.range 8).map fun i =>
      lane (s.v b) 32 0 + ((List.range (i + b2n inc)).map fun j => popcount 32 (lane (s.v a) 32 j)).sum
    s.writeV d.toNat (ofLanes 256 32 ls) 32 allLanes (s.rmark (.bmpfx inc d a b))) s

/-! ## Packed vectors -/

/-- The header of a packed vector (Table 6.8). -/
structure Packed where
  cap : Nat
  nnz : Nat
  dcap : Nat
  dlen : Nat
  deriving DecidableEq, Repr

/-- A header from its 8 bytes. -/
def Packed.ofNat (h : Nat) : Packed := ⟨bits h 63 48, bits h 47 32, bits h 31 16, bits h 15 0⟩

/-- A valid header (R200). -/
def Packed.ok (p : Packed) : Bool :=
  p.dcap % 32 == 0 && decide (p.dlen ≤ p.dcap) && decide (8 + p.dcap / 8 ≤ p.cap)

/-- Location of n bytes at an offset of a packed vector (R200, R27). -/
def State.packedAt (s : State) (a : Word) (off n : Nat) (write : Bool) : Except Halt Nat := do
  let b := a + word off
  if field b 63 62 ≠ 0 then bounds b 0 write
  else match ← s.resolve00 s.agent b n write false with
    | .loc l => .ok l
    | _ => bounds b 0 write

/-- The header of the packed vector at an address: its location, contents and mark (R200). -/
def State.packedHead (s : State) (a : Word) (write : Bool) : Except Halt (Nat × Packed × Mark) := do
  if !aligned a.toNat 8 then bounds a 3 write
  else
    let l ← s.packedAt a 0 8 write
    let (bs, m) ← s.loadLoc a l 8
    .ok (l, Packed.ofNat (ofBytes bs), m)

/-- SPACK (R201). -/
def execSpack (z : BitVec 2) (d a : Reg) (k : KReg) (s : State) : Out :=
  let i : Instr := .spack z d a k
  runE i (fun s => do
    let w := widthZ z
    let n := 256 / w
    let addr := s.x a
    let (lh, h, hm) ← s.packedHead addr true
    let p := h.dlen
    let sel := (selected (s.readK k.toNat).val n).filter fun j => lane (s.v d) w j != 0
    let first := p / 8
    let cnt := (p + n - 1) / 8 + 1 - first
    let vals := sel.flatMap fun j => toBytes (w / 8) (lane (s.v d) w j)
    let voff := 8 + h.dcap / 8 + h.nnz * (w / 8)
    let lb ← s.packedAt addr (8 + first) cnt true
    let lv ← (if vals.isEmpty then .ok 0 else s.packedAt addr voff vals.length true)
    if !h.ok || p % n != 0 || decide (h.dcap < p + n) then arith 0x15 0 addr
    else if h.cap < 8 + h.dcap / 8 + (h.nnz + sel.length) * (w / 8) then
      arith 0x14 (sel.length * 2 ^ 16 + h.nnz) addr
    else
      let (bs, bm) ← s.loadLoc (addr + word (8 + first)) lb cnt
      let m := joins [s.rmark i, hm, bm]
      let old := ofBytes bs
      let keep := old - old / 2 ^ (p % 8) % 2 ^ n * 2 ^ (p % 8)
      let map := keep + (sel.map fun j => 2 ^ (p % 8 + j)).sum
      let head := h.cap * 2 ^ 48 + (h.nnz + sel.length) * 2 ^ 32 + h.dcap * 2 ^ 16 + (p + n)
      s.checkRuns addr m ([(addr, lh, 8), (addr + word (8 + first), lb, cnt)]
        ++ (if vals.isEmpty then [] else [(addr + word voff, lv, vals.length)]))
      let s1 := (s.put lb (toBytes cnt map) m false).put lh (toBytes 8 head) m false
      .ok (if vals.isEmpty then s1 else s1.put lv vals m false)) s

/-- Locations of the values of the present lanes of SUNPK, of which lane and value index are given: lane, value index
and location (R27, R200). -/
def State.valsAt (s : State) (addr : Word) (voff nb : Nat) : List (Nat × Nat) → Except Halt (List (Nat × Nat × Nat))
  | [] => .ok []
  | (j, v) :: t => do
    let l ← s.packedAt addr (voff + v * nb) nb false
    let r ← State.valsAt s addr voff nb t
    .ok ((j, v, l) :: r)

/-- Reads the values of the present lanes of SUNPK: lane and value. -/
def State.loadVals (s : State) (addr : Word) (voff nb : Nat) :
    List (Nat × Nat × Nat) → Except Halt (List (Nat × Nat) × Mark)
  | [] => .ok ([], 0)
  | (j, v, l) :: t => do
    let (bs, m) ← s.loadLoc (addr + word (voff + v * nb)) l nb
    let (r, m2) ← State.loadVals s addr voff nb t
    .ok ((j, ofBytes bs) :: r, m ||| m2)

/-- SUNPK (R202). ARITH 0x15 for a value index of NNZ or more is raised for the lanes that the mask selects alone.
(DEDUCED, log entry 93.) -/
def execSunpk (z : BitVec 2) (d a b : Reg) (k : KReg) (s : State) : Out :=
  let i : Instr := .sunpk z d a b k
  runE i (fun s => do
    let w := widthZ z
    let n := 256 / w
    let addr := s.x a
    let p := (s.x b).toNat
    let mask := (s.readK k.toNat).val
    let (_, h, hm) ← s.packedHead addr false
    let stop := if p < h.dlen then Nat.min (p + n) h.dlen else 0
    let cnt := (stop + 7) / 8
    let (bs, bm) ← (if cnt = 0 then .ok ([], (0 : Mark)) else do
      let l ← s.packedAt addr 8 cnt false
      s.loadLoc (addr + 8) l cnt)
    let map := ofBytes bs
    let here := (selected mask n).filter fun j => decide (p + j < stop) && bit map (p + j)
    let ixs := here.map fun j => (j, popcount (p + j) map)
    let voff := 8 + h.dcap / 8
    let at_ ← s.valsAt addr voff (w / 8) (ixs.filter fun e => decide (e.2 < h.nnz))
    let (vs, vm) ← s.loadVals addr voff (w / 8) at_
    if !h.ok || p % n != 0 || ixs.any (fun e => decide (h.nnz ≤ e.2)) then arith 0x15 0 addr
    else
      let val := vs.foldl (fun acc e => acc + e.2 * 2 ^ (w * e.1)) 0
      s.writeV d.toNat (BitVec.ofNat 256 val) w mask (joins [s.rmark i, hm, bm, vm])) s

/-! ## Hash tables -/

/-- A hash table (Table 6.9): location, slots, probe limit, mark of its header. -/
structure Hash where
  loc : Nat
  nslot : Nat
  maxp : Nat
  mark : Mark
  deriving DecidableEq, Repr

/-- The hash table at an address (R203). The reserved bytes of the header are not among the limits that raise ARITH
0x19. (DEDUCED, log entry 94.) -/
def State.hashAt (s : State) (a : Word) (write : Bool) : Except Halt Hash := do
  if !aligned a.toNat 64 || decide (a.toNat < 0x10000) then bounds a 3 write
  else
    let l ← s.packedAt a 0 64 write
    let (bs, m) ← s.loadLoc a l 64
    let v := ofBytes bs
    let ns := v % 2 ^ 32
    let mp := v / 2 ^ 64 % 2 ^ 32
    if ns < 8 ∨ 131072 < ns ∨ 2 ^ Nat.log2 ns ≠ ns ∨ mp < 1 ∨ ns < mp then arith 0x19 0 a
    else
      let l1 ← s.packedAt a 0 (64 + 8 * ns) write
      .ok ⟨l1, ns, mp, m⟩

/-- What a probe sequence finds: the slot of the key or an empty one, or neither, with the marks of the lines probed. -/
structure Probe where
  slot : Option (Nat × Bool × Nat)
  mark : Mark
  deriving DecidableEq, Repr

/-- Probes for a key from step j on (R203, R204): the slot's location, whether it is empty, its value. -/
def State.probe (s : State) (a : Word) (t : Hash) (key : Nat) : Nat → Nat → Except Halt Probe
  | 0, _ => .ok ⟨none, 0⟩
  | fuel + 1, j => do
    let h := (key ^^^ (key / 2 ^ 16)) % t.nslot
    let o := 0x40 + 8 * ((h + j) % t.nslot)
    let (bs, m) ← s.loadLoc (a + word o) (t.loc + o) 8
    let v := ofBytes bs
    if v % 2 ^ 32 = key then .ok ⟨some (t.loc + o, false, v / 2 ^ 32), m⟩
    else if v % 2 ^ 32 = 2 ^ 32 - 1 then .ok ⟨some (t.loc + o, true, 0), m⟩
    else do
      let r ← State.probe s a t key fuel (j + 1)
      .ok ⟨r.slot, m ||| r.mark⟩

/-- Op of R204. -/
def hashOp (op : BitVec 2) (i32 : Bool) (mode old v : Nat) : Nat × FFlags :=
  if i32 then
    let x := sint 32 old
    let y := sint 32 v
    (if op = 0 then (old + v) % 2 ^ 32 else if op = 1 then (if y < x then v else old) else if x < y then v else old, 0)
  else if op = 0 then fmt32.add mode old v else fmt32.minMax (op == 2) old v

/-- The lanes of HACC from lane i on (R204): the state, the flags, the lane that overflows, the marks of the lines probed. -/
def State.haccLanes (s : State) (a : Word) (t : Hash) (op : BitVec 2) (i32 : Bool) (keys vals : BitVec 256) (m : Mark) :
    Nat → Nat → Except Halt (State × FFlags × Option Nat × Mark)
  | 0, _ => .ok (s, 0, none, 0)
  | fuel + 1, i => do
    let key := lane keys 32 i
    let v := lane vals 32 i
    if key = 2 ^ 32 - 1 then State.haccLanes s a t op i32 keys vals m fuel (i + 1)
    else
      let r ← s.probe a t key t.maxp 0
      let k := joins [m, t.mark, r.mark]
      match r.slot with
      | none => .ok (s, 0, some i, r.mark)
      | some (l, empty, old) =>
        let (new, fl) := if empty then (v, 0) else hashOp op i32 s.frm old v
        let at_ := a + word (l - t.loc)
        s.checkRuns (if empty then a else at_) k ((at_, l, 8) :: (if empty then [(a, t.loc, 8)] else []))
        let s1 := s.put l (toBytes 8 (key + 2 ^ 32 * new)) k false
        let cnt := ofBytes (s1.mem.read (t.loc + 4) 4)
        let s2 := if empty then s1.put (t.loc + 4) (toBytes 4 (cnt + 1)) k false else s1
        let (s3, fl2, o, lm) ← State.haccLanes s2 a t op i32 keys vals m fuel (i + 1)
        .ok (s3, fl ||| fl2, o, r.mark ||| lm)

/-- HACC's work: the state, the flags, the lane that overflows, the result mark. -/
def haccRun (op : BitVec 2) (i32 : Bool) (start : BitVec 3) (d a b : Reg) (s : State) :
    Except Halt (State × FFlags × Option Nat × Mark) := do
  let m := s.rmark (.hacc op i32 start d a b)
  let t ← s.hashAt (s.x a) true
  let (s1, fl, o, lm) ← s.haccLanes (s.x a) t op i32 (s.v d) (s.v b) m (8 - start.toNat) start.toNat
  .ok (s1, fl, o, joins [m, t.mark, lm])

/-- HACC (R204, R206): on overflow the lanes before the failing one keep their effect on the table. -/
def execHacc (op : BitVec 2) (i32 : Bool) (start : BitVec 3) (d a b : Reg) (s : State) : Out :=
  let i : Instr := .hacc op i32 start d a b
  let s0 := s.advance
  let body (s : State) : Run? := do
    let (s1, fl, o, m) ← haccRun op i32 start d a b s
    match o with
    | some l => arith 0x18 l (s.x a)
    | none => .ok (if i32 then s1 else s1.setFlags fl m)
  match withOperands i body s0 with
  | .ok s1 => .next s1
  | .error e =>
    match e with
    | .trap 5 _ info _ _ _ =>
      if field info 63 56 = 0x18 then
        match haccRun op i32 start d a b (s0.takeOperands (usesOf i)).1 with
        | .ok (s1, _, _, _) => .next ({ s with mem := s1.mem }.halt i e)
        | .error _ => .next (s.halt i e)
      else .next (s.halt i e)
    | _ => .next (s.halt i e)

/-- The value of a key that HPROBE finds from step j of its probe sequence on, within MAXP probes, 0 when it finds none
(R203, R205): an empty slot ends no search. -/
def State.find (s : State) (a : Word) (t : Hash) (key : Nat) : Nat → Nat → Except Halt (Nat × Mark)
  | 0, _ => .ok (0, 0)
  | fuel + 1, j => do
    let o := 0x40 + 8 * (((key ^^^ (key / 2 ^ 16)) % t.nslot + j) % t.nslot)
    let (bs, m) ← s.loadLoc (a + word o) (t.loc + o) 8
    if ofBytes bs % 2 ^ 32 = key then .ok (ofBytes bs / 2 ^ 32, m)
    else do
      let (v, m2) ← State.find s a t key fuel (j + 1)
      .ok (v, m ||| m2)

/-- The lanes of HPROBE from lane i on (R205): the values and the marks of the lines probed. -/
def State.hprobeLanes (s : State) (a : Word) (t : Hash) (keys : BitVec 256) : Nat → Nat → Except Halt (List Nat × Mark)
  | 0, _ => .ok ([], 0)
  | fuel + 1, i => do
    let key := lane keys 32 i
    let (v, k) ← (if key = 2 ^ 32 - 1 then .ok (0, 0) else s.find a t key t.maxp 0)
    let (vs, m) ← State.hprobeLanes s a t keys fuel (i + 1)
    .ok (v :: vs, k ||| m)

/-- HPROBE (R205). -/
def execHprobe (i32 : Bool) (d a b : Reg) (w : Win) (s : State) : Out :=
  let i : Instr := .hprobe i32 d a b w
  runAV i (vlong w d fun s => do
    let t ← s.hashAt (s.x a) false
    let (vs, m) ← s.hprobeLanes (s.x a) t (s.v b) 8 0
    s.writeV d.toNat (ofLanes 256 32 vs) 32 allLanes (joins [s.rmark i, t.mark, m])) s

end Sys2Proof.Machine
end

