-- ==== Sys2Proof/Machine/System.lean ====
section
/-! DEFINITION. Control registers and the system forms of page 0: NOP, TRAP, BRK, events and the mailbox. -/

namespace Sys2Proof.Machine

open Sys2Proof

/-! ## Reading control registers -/

/-- FEAT3 by kind of core (Table 3.13). -/
def feat3 (u : Nat) : Word := word (b2n (isCompute u) * 4 + b2n (!isCompute u) * 2 + b2n (isSec u))

/-- FBC0 and FBC1 (Table 6.7). -/
def fbcOf (n : Nat) (f : Fibre) (pend : Bool) : Word :=
  word (b2n f.opened * 2 ^ 63 + b2n f.ended * 2 ^ 62 + b2n f.pres * 2 ^ 61 + b2n (n == 0 && pend) * 2 ^ 60
    + b2n f.err * 2 ^ 59 + f.coord % 2 ^ 32)

/-- MBX (Table 4.8), its mark the join of the messages' marks (R137). -/
def mbxOf (l : List (Tagged 64)) : Tagged 64 :=
  ⟨word (((l.head?.map fun m => field m.val 63 60).getD 0) * 2 ^ 8 + l.length), joins (l.map (·.mark))⟩

/-- CTXP (Table 17.8). -/
def ctxpOf (c : CoreState) : Word :=
  word (((List.range 4).map fun i => b2n ((c.sets.getD i (CtxSet.fresh false)).loaded) * 2 ^ (16 + i)).sum + c.sel)

/-- HPBASE of a core (Table 17.10). A core that is no compute core lies in no interval and keeps the reset value (log
entry 28). (DEDUCED, log entry 28.) -/
def State.hpbase (s : State) (u : Nat) : Word :=
  if isCompute u then
    match s.partOfCore u with
    | some p => word (2 ^ 63 + p * 2 ^ 16 + (s.part p).base)
    | none => 0
  else word (2 ^ 63)

/-- HPLEN of a core (Table 17.10). -/
def State.hplen (s : State) (u : Nat) : Word :=
  if isCompute u then
    match s.partOfCore u with
    | some p => word (s.part p).len
    | none => 0
  else 0x1000

/-- TBASE as the running thread reads it: within 2 ticks of the package time base, and never below its last reading
(R22, R465). -/
def State.readTbase (s : State) : State × Word :=
  let skew := (Config.freeWord s.ix).toNat % 5
  let v := s.tbase + word skew - 2
  let t := s.me
  let back := (t.tread - v).toNat
  let r := if 0 < back ∧ back ≤ 4 then t.tread else v
  (({ s with free := s.free + 1 }).setMe { t with tread := r }, r)

/-- The value and mark of a control register of the running thread (Table 1.2). CPLAUNCH reads through a row of its
own. -/
def State.csrGet (s : State) (c : Nat) : Tagged 64 :=
  let t := s.me
  match c with
  | 0x00 => ⟨statusOf s.cur t, t.csr.statusMark⟩
  | 0x01 => t.csr.cause
  | 0x02 => t.csr.epc
  | 0x03 => t.csr.aepc
  | 0x04 => t.csr.faddr
  | 0x05 => t.csr.finfo
  | 0x06 => t.csr.tvec
  | 0x07 => t.csr.evec
  | 0x08 => t.csr.fflags
  | 0x09 => t.csr.frm
  | 0x0A => ⟨t.csr.cmark.setWidth 64, 0⟩
  | 0x0B => ⟨t.wstat, t.csr.wstatMark⟩
  | 0x0C => ⟨bqstatOf t.bqShown, t.bqShown.bqm⟩
  | 0x0D => t.csr.lwin
  | 0x0E => ⟨fbcOf 0 (s.fibre 0) t.pend, (s.fibre 0).fm⟩
  | 0x0F => ⟨fbcOf 1 (s.fibre 1) t.pend, (s.fibre 1).fm⟩
  | 0x10 => t.csr.widb
  | 0x12 => t.csr.mstep
  | 0x13 => mbxOf t.mailbox
  | 0x14 => ⟨ctxpOf (s.core s.cur.unit), (s.core s.cur.unit).ctxpMark⟩
  | 0x20 => plain 0x030301FF
  | 0x21 => plain 3
  | 0x22 => plain 0x0000040444102020
  | 0x23 => plain (feat3 s.cur.unit)
  | 0x24 => plain (s.hpbase s.cur.unit)
  | 0x25 => plain (s.hplen s.cur.unit)
  | n => if 0x18 ≤ n ∧ n < 0x1F then t.csr.shadows.getD (n - 0x18) (plain 0) else plain 0

/-- Registers whose read waits for the E-side (R35, R192). -/
def readWaits (c : Nat) : Bool := c == 0x08 || c == 0x0B || c == 0x0C || c == 0x0E || c == 0x0F

/-- CSRR (R128). -/
def execCsrr (d : Reg) (c : BitVec 6) (s : State) : Out :=
  runA (.csrr d c) (fun s =>
    if readWaits c.toNat && !s.eIdle then holdOn
    else if c = 0x11 then
      let (s1, v) := s.readTbase
      .ok (s1.result d v 0)
    else
      let s0 := if c = 0x0E ∨ c = 0x0F then
          match s.settle (c.toNat - 0x0E) with
          | .ok (s1, f) => if f.opened then s1.setFibre (c.toNat - 0x0E) f else s
          | .error _ => s
        else s
      let r := s0.csrGet c.toNat
      .ok (s0.result d r.val r.mark)) s

/-! ## Writing control registers -/

/-- The fields of a control register that are not reserved (Tables 1.4, 1.6, 1.7, 1.10, 14.2, 17.9): reserved ones read as
zero whoever writes them (R5). -/
def csrFields (c : Nat) : Word :=
  match c with
  | 0x01 => 0xF300003F
  | 0x08 => 0x1F
  | 0x09 => 7
  | 0x0D => 0xFFF7FF00FFEFFC00
  | 0x12 => 0x81FFFFFFFFFFFFFF
  | 0x1A => 0xFFFFFFFFF0FFFFFF
  | 0x1E => 0xFFFFFFFE00000000
  | _ => ~~~0

/-- The RW fields of a control register (Tables 1.3, 1.6, 1.7, 1.10, 14.2). -/
def csrMask (c : Nat) : Word :=
  match c with
  | 0x00 => 6
  | 0x02 => ~~~0
  | 0x03 => ~~~0
  | 0x06 => ~~~0
  | 0x07 => ~~~0
  | 0x08 => 0x1F
  | 0x09 => 7
  | 0x0D => 0xFFF7FF00FFEFFC00
  | 0x1A => 0xFFFFFFFFF0FFFFFF
  | 0x1E => 0xFFFFFFFE00000000
  | n => if 0x18 ≤ n ∧ n < 0x1F then ~~~0 else 0

/-- Whether only PRIV = 1 may write a register (R23). -/
def privWrites (c : Nat) : Bool := c == 0x00 || c == 0x0D

/-- The state in which a write of FRM or LWIN leaves the old value with the E-side instructions before it (R35,
R128). -/
def State.keepOld (s : State) (c : Nat) : State :=
  if c = 0x09 then s.keep frmKey s.me.csr.frm else if c = 0x0D then s.keep lwinKey s.me.csr.lwin else s

/-- Gives a control register a new value with a mark. -/
def State.csrPut (s : State) (c : Nat) (v : Tagged 64) : State :=
  let t := s.me
  let k := t.csr
  let put (k : Csrs) : State := s.setMe { t with csr := k }
  match c with
  | 0x00 => put { k with gcp := v.val.getLsbD 2, priv := v.val.getLsbD 1, statusMark := v.mark }
  | 0x02 => put { k with epc := v }
  | 0x03 => put { k with aepc := v }
  | 0x06 => put { k with tvec := v }
  | 0x07 => put { k with evec := v }
  | 0x08 => put { k with fflags := v }
  | 0x09 => put { k with frm := if 4 < v.val.toNat then ⟨k.frm.val, v.mark⟩ else v }
  | 0x0D => put { k with lwin := v }
  | n => if 0x18 ≤ n ∧ n < 0x1F then put { k with shadows := k.shadows.setIfInBounds (n - 0x18) v } else s

/-- The three write forms (R128, R23): RW fields only; a write of an RO register has no effect. (DEDUCED, log entry 48.) -/
def csrWrite (op : CsOp) (d : Reg) (c : BitVec 6) (s : State) : Run? :=
  let n := c.toNat
  let old := s.csrGet n
  if privWrites n && !s.me.csr.priv then ill s
  else if csrMask n = 0 then .ok s
  else if n == 0x08 && !s.eIdle then holdOn
  else
    let x := s.x d
    let v := match op with
      | .w => x
      | .s => old.val ||| x
      | .c => old.val &&& ~~~x
    let keep := match op with
      | .w => (0 : Mark)
      | .s => old.mark
      | .c => old.mark
    let m := csrMask n
    .ok ((s.keepOld n).csrPut n ⟨(v &&& m) ||| (old.val &&& ~~~m), joins [s.xm d, s.base, keep]⟩)

/-- CSRW (R128). -/
def execCsrw (d : Reg) (c : BitVec 6) (s : State) : Out := runA (.csrw d c) (csrWrite .w d c) s

/-- CSRS (R128). -/
def execCsrs (d : Reg) (c : BitVec 6) (s : State) : Out := runA (.csrs d c) (csrWrite .s d c) s

/-- CSRC (R128). -/
def execCsrc (d : Reg) (c : BitVec 6) (s : State) : Out := runA (.csrc d c) (csrWrite .c d c) s

/-! ## System forms -/

/-- NOP (R130). -/
def execNop (s : State) : Out := runA .nop (fun s => .ok s) s

/-- TRAP (R131). -/
def execTrap (imm : BitVec 6) (s : State) : Out := runA (.trap imm) (fun _ => trapWith 0x03 0 (imm.setWidth 64)) s

/-- BRK (R131). -/
def execBrk (imm : BitVec 6) (s : State) : Out := runA (.brk imm) (fun _ => trapWith 0x04 0 (imm.setWidth 64)) s

/-- WFE (R134). -/
def execWfe (line : BitVec 6) (s : State) : Out :=
  runA (.wfe line) (fun s =>
    let t := s.me
    if t.lines.getLsbD line.toNat then .ok (s.setMe { t with lines := t.lines &&& ~~~(1#64 <<< line.toNat) })
    else waitOn 0x06 line.toNat 0x1FFF s.chip) s

/-- The thread that EVSIG names (R136): of the cluster's core on a compute core, of the same core elsewhere; of the
core's selected set. -/
def State.evTarget (s : State) (v : Word) : ThreadId :=
  let u := if isCompute s.cur.unit then 8 * clusterOf s.cur.unit + field v 10 8 else s.cur.unit
  ⟨u, if u = s.cur.unit then s.cur.set else (s.core u).sel, field v 7 6⟩

/-- EVSIG (R136). -/
def execEvsig (a : Reg) (s : State) : Out :=
  runA (.evsig a) (fun s => .ok (s.setLine (s.evTarget (s.x a)) (field (s.x a) 5 0))) s

/-- WFM (R138). -/
def execWfm (s : State) : Out :=
  runA .wfm (fun s => if s.me.mailbox.isEmpty then waitOn 0x07 0 0x1FFF s.chip else .ok s) s

/-- MBRD (R139). -/
def execMbrd (d : Reg) (s : State) : Out :=
  runA (.mbrd d) (fun s =>
    let t := s.me
    match t.mailbox with
    | [] => waitOn 0x07 0 0x1FFF s.chip
    | m :: rest => .ok ((s.setMe { t with mailbox := rest }).result d m.val m.mark)) s

end Sys2Proof.Machine
end

