-- ==== Sys2Proof/Machine/Global.lean ====
section
/-! DEFINITION. Page 4 without control space: lock bits, atomic read-modify-writes, fences, circular buffers and
versioned words. -/

namespace Sys2Proof.Machine

open Sys2Proof

/-! ## Waiting in a queue -/

/-- Runs an A-side instruction whose wait takes a place in a queue: `reg` makes the request that the wait leaves
behind. -/
def runQ (i : Instr) (reg : State → State) (body : State → Run?) (s : State) : Out :=
  match body s.advance with
  | .ok s' => .next s'
  | .error e => match e with
    | .wait kind _ _ _ => .next ((if kind = 0 then s else reg s).halt i e)
    | .silent _ => .next (s.halt i e)
    | .trap _ _ _ _ _ _ => .next (s.halt i e)

/-- Whether a pending E-side instruction accesses memory, by itself or through a bound register. -/
def State.touchesMem (s : State) (i : Instr) : Bool :=
  let u := usesOf i
  u.mem || !u.fibres.isEmpty || (u.vr ++ u.vw).any fun n =>
    (decide (28 ≤ n) && (s.slot (n - 28)).opened) || (decide (26 ≤ n) && decide (n < 28) && (s.fibre (n - 26)).opened)

/-- The E-side instructions of the running thread that have not completed: the wheel's body while it replays or waits,
and the E-queue. -/
def State.pendingInstrs (s : State) : List EEntry :=
  let t := s.me
  (if t.wheel.act || t.equeue.any (·.passes.isSome) then t.wheel.body else []) ++ t.equeue

/-- Whether every earlier E-side access to memory has been made. -/
def State.eMemIdle (s : State) : Bool := !s.pendingInstrs.any fun e => s.touchesMem e.instr

/-- The group handle of a thread; 0 where it runs no continuation of a group (R218). -/
def Thread.gh (t : Thread) : Nat :=
  match t.cont with
  | some c => field c.record.aff 63 48
  | none => 0

/-! ## Lock bits -/

/-- The number of the lock bit that governs a scratchpad offset: 16 times the bank and the bit (R307). -/
def lockBitOf (o : Nat) : Nat := bits o 10 6 * 16 + ((bits o 14 11) ^^^ (bits o 5 3))

/-- A lock bit of a cluster. -/
def Cluster.lock (c : Cluster) (b : Nat) : LockBit := (c.locks.get? b).getD ⟨none, []⟩

/-- Writes a lock bit; a free bit that nobody waits for is not listed. -/
def Cluster.setLock (c : Cluster) (b : Nat) (l : LockBit) : Cluster :=
  { c with locks := if l.holder.isNone && l.waiters.isEmpty then c.locks.erase b else c.locks.set b l }

/-- The lock bits of the cluster that a thread holds. -/
def Cluster.held (c : Cluster) (k : Nat) : Nat :=
  (c.locks.filter fun l => match l.2.holder with | some (h, _) => h == k | none => false).length

/-- What an attempt at a lock bit gives: it is taken or counted up, or the thread must wait for the holder. -/
inductive LockTry where
  | got (l : LockBit)
  | tooMany
  | wait (holder : Nat)
  deriving DecidableEq, Repr

/-- An attempt of a thread at a lock bit (R308): `limit` applies the limits of LLOCK, that on the bits of a thread whoever
holds this one. A bit granted to a waiter by LOCK_GRANT is the waiter's. -/
def tryLock (c : Cluster) (b k : Nat) (limit : Bool) : LockTry :=
  let l := c.lock b
  let fifth : Bool := limit && decide (4 ≤ c.held k)
  match l.holder with
  | some (h, n) =>
    if h = k then
      if l.waiters.contains k then .got { l with waiters := l.waiters.filter (· != k) }
      else if limit && decide (4 ≤ n) then .tooMany
      else .got { l with holder := some (k, n + 1) }
    else if fifth then .tooMany
    else .wait h
  | none =>
    if fifth then .tooMany
    else match l.waiters with
    | w :: rest => if w = k then .got ⟨some (k, 1), rest⟩ else .wait w
    | [] => .got ⟨some (k, 1), []⟩

/-- Places a thread among the waiters of a lock bit. -/
def State.waitLock (s : State) (b : Nat) : State :=
  let j := clusterOf s.cur.unit
  let c := s.cluster j
  let l := c.lock b
  if l.waiters.contains s.cur.key then s
  else s.setCluster j (c.setLock b { l with waiters := l.waiters ++ [s.cur.key] })

/-- The wait for a lock bit that a thread holds (Table 11.14). -/
def waitHolder {α : Type} (s : State) (k : Nat) : Except Halt α := waitOn 0x09 (k % 4) (k / 16) s.chip

/-- The scratchpad offset of the word that LLOCK and SUNLK name (R352). -/
def State.lockWord (s : State) (a : Word) : Except Halt Nat := do
  let w := word (a.toNat / 8 * 8)
  if decide (a.toNat < 0x10000) || field a 63 62 != 0 then bounds a 3 false
  else match ← s.resolve00 s.agent w 8 false true with
    | .loc l => .ok (l % 2 ^ 21)
    | _ => bounds w 0 false

/-- The lock bit at an address, 0 where the address names none. -/
def State.lockAt (s : State) (a : Word) : Nat :=
  match s.lockWord a with
  | .ok o => lockBitOf o
  | .error _ => 0

/-- LLOCK (R352, R308). -/
def execLlock (a : Reg) (s : State) : Out :=
  runQ (.llock a) (fun s => s.waitLock (s.lockAt (s.x a))) (fun s => do
    let o ← s.lockWord (s.x a)
    let j := clusterOf s.cur.unit
    let c := s.cluster j
    match tryLock c (lockBitOf o) s.cur.key true with
    | .got l => .ok (s.setCluster j (c.setLock (lockBitOf o) l))
    | .tooMany => arith 0x40 0 (s.x a)
    | .wait h => waitHolder s h) s

/-- SUNLK (R353). -/
def execSunlk (d a : Reg) (s : State) : Out :=
  runA (.sunlk d a) (fun s => do
    let o ← s.lockWord (s.x a)
    let t := s.me
    let j := clusterOf s.cur.unit
    let c := s.cluster j
    let l := c.lock (lockBitOf o)
    if t.lockLost then .ok ((s.setMe { t with lockLost := false }).result d 0 (s.xm a))
    else match l.holder with
      | some (h, n) =>
        if h ≠ s.cur.key then .ok (s.result d 0 (s.xm a))
        else if !s.eMemIdle then holdOn
        else
          let l1 := { l with holder := if n ≤ 1 then none else some (h, n - 1) }
          .ok ((s.setCluster j (c.setLock (lockBitOf o) l1)).result d 1 (s.xm a))
      | none => .ok (s.result d 0 (s.xm a))) s

/-- The oldest waiter takes a free lock bit (R308). -/
def State.grantLock (s : State) (j b : Nat) : State :=
  let c := s.cluster j
  let l := c.lock b
  match l.holder, l.waiters with
  | none, w :: _ => s.setCluster j (c.setLock b { l with holder := some (w, 1) })
  | _, _ => s

/-- LOCK_GRANT (R308). -/
def execLockGrant (cl : BitVec 9) (bit : BitVec 9) (s : State) : Out := .next (s.grantLock cl.toNat bit.toNat)

/-! ## Atomic read-modify-writes -/

/-- What an atomic access does with the old value: the new one, or no write. -/
abbrev AtomicFn := Nat → Option Nat

/-- Op of Table 13.5 on words of w bits. -/
def amoOp (op : BitVec 4) (w old b : Nat) : Nat :=
  match op.toNat with
  | 0 => (old + b) % 2 ^ w
  | 1 => old &&& b
  | 2 => old ||| b
  | 3 => old ^^^ b
  | 4 => if sint w b < sint w old then b else old
  | 5 => if sint w old < sint w b then b else old
  | 6 => if b < old then b else old
  | 7 => if old < b then b else old
  | _ => b

/-- An atomic access at a location of the package: the old value and the mark read (R355, R356). -/
def State.rmwLoc (s : State) (a : Word) (l n : Nat) (f : AtomicFn) (m : Mark) : Except Halt (State × Nat × Mark) := do
  let (bs, lm) ← s.loadLoc a l n
  let old := ofBytes bs
  match f old with
  | none => .ok (s, old, lm)
  | some v => do
    s.checkLoc a l n m
    .ok (s.put l (toBytes n v) m false, old, lm)

/-- An atomic access through space 01. It lies in one page, since it is aligned. -/
def State.rmwVirt (s : State) (g : Agent) (a : Word) (n : Nat) (f : AtomicFn) (m : Mark) :
    Except Halt (State × Nat × Mark) := do
  let (s1, ps) ← s.pieces (g.part.getD 0) a true (pageFuel n) 0 n
  match ps with
  | p :: _ =>
    let check (write : Bool) : Except Halt Unit :=
      if write then
        match s1.pieceMark g p m false with
        | some x => trapWith 0x21 a x
        | none => .ok ()
      else .ok ()
    match p.leaf.tgt with
    | 0 => do
      let l := hbmLoc + p.leaf.pa
      let (bs, lm) ← s1.loadLoc a l n
      match f (ofBytes bs) with
      | none => .ok (s1, ofBytes bs, lm)
      | some v => do
        check true
        .ok (s1.put l (toBytes n v) m false, ofBytes bs, lm)
    | 1 => do
      let l := hostLoc + p.leaf.pa
      let old := ofBytes (s1.mem.read l n)
      check (f old).isSome
      match s1.askHost g with
      | .data s2 _ _ =>
        .ok (match f old with
          | none => s2
          | some v => { s2 with mem := s2.mem.write l (toBytes n v) }, old, originOf p.leaf.ceil)
      | .refused d => denyWith 0x24 a 0 d
      | .silent => .error (.silent hostChip)
    | 2 => match s1.askRemote g p.leaf.chip a n with
      | .data s2 bs k => do
        let x := (m ||| k) &&& ~~~ p.leaf.ceil
        if (f (ofBytes bs)).isSome && x != 0 then trapWith 0x21 a (word x.toNat) else .ok (s2, ofBytes bs, k)
      | .refused d => denyWith 0x24 a 0 d
      | .silent => .error (.silent p.leaf.chip)
    | _ => trapWith 0x24 a 0
  | [] => bounds a 0 true

/-- An atomic access of n bytes of the running thread (R357): the old value, and the mark read. In the scratchpad of
space 00 it takes its lock bit for the time of the access. -/
def State.rmw (s : State) (a : Word) (n : Nat) (f : AtomicFn) (m : Mark) : Except Halt (State × Nat × Mark) := do
  let g := s.agent
  if !aligned a.toNat n then bounds a 3 true
  else if field a 63 62 = 3 then bounds a 3 true
  else match ← s.resolve g a n true false with
    | .loc l =>
      if field a 63 62 = 0 && isSpadLoc l then
        let j := clusterOf s.cur.unit
        let b := lockBitOf (l % 2 ^ 21)
        let c := s.cluster j
        match tryLock c b s.cur.key false with
        | .wait h => waitHolder s h
        | .tooMany => waitHolder s s.cur.key
        | .got q => do
          let free := match q.holder with
            | some (h, k) => { q with holder := if k ≤ 1 then none else some (h, k - 1) }
            | none => q
          (s.setCluster j (c.setLock b free)).rmwLoc a l n f m
      else s.rmwLoc a l n f m
    | .virt => s.rmwVirt g a n f m
    | .remote chip => match s.egress g m with
      | some x => trapWith 0x21 a x
      | none => match s.askRemote g chip a n with
        | .data s1 bs k => .ok (s1, ofBytes bs, k)
        | .refused d => denyBounds a true d
        | .silent => .error (.silent chip)
    | .ctl _ _ => bounds a 3 true

/-- AMO (R355). -/
def execAmo (z : BitVec 2) (op : BitVec 4) (ord : BitVec 2) (sc : BitVec 3) (d a b : Reg) (w : Win) (s : State) : Out :=
  let i : Instr := .amo z op ord sc d a b w
  runQ i (fun s => s.waitLock (s.lockAt (s.x a))) (fun s => do
    if s.windowsFull w .x d.toNat then holdOn
    else
      let n := bytesZ z
      let m := s.rmark i
      let (s1, old, k) ← s.rmw (s.x a) n (fun o => some (amoOp op (8 * n) o ((s.x b).toNat % 2 ^ (8 * n)))) m
      .ok (s1.resultL w d (signExt old (8 * n)) (m ||| k))) s

/-- ACAS (R356). -/
def execAcas (z : BitVec 2) (ord : BitVec 2) (sc : BitVec 3) (d a b : Reg) (w : Win) (s : State) : Out :=
  let i : Instr := .acas z ord sc d a b w
  runQ i (fun s => s.waitLock (s.lockAt (s.x a))) (fun s => do
    if s.windowsFull w .x d.toNat then holdOn
    else
      let n := bytesZ z
      let m := s.rmark i
      let e := (s.x d).toNat % 2 ^ (8 * n)
      let f : AtomicFn := fun o => if o = e then some ((s.x b).toNat % 2 ^ (8 * n)) else none
      let (s1, old, k) ← s.rmw (s.x a) n f m
      .ok (s1.resultL w d (signExt old (8 * n)) (m ||| k))) s

/-- FENCE (R358): it completes when the earlier accesses of both sides have been performed; one of scope T has no
further effect. -/
def execFence (kind : BitVec 2) (sc : BitVec 3) (s : State) : Out :=
  runA (.fence kind sc) (fun s => if sc != 0 && !s.eMemIdle then holdOn else .ok s) s

/-! ## Circular buffers -/

/-- A circular buffer of a cluster. -/
def Cluster.cb (c : Cluster) (b : Nat) : CircBuf := (c.cbs.get? b).getD CircBuf.fresh

/-- Writes a circular buffer. -/
def State.setCb (s : State) (j b : Nat) (x : CircBuf) : State :=
  s.setCluster j { s.cluster j with cbs := (s.cluster j).cbs.set b x }

/-- CBCFG.EN. -/
def CircBuf.en (b : CircBuf) : Bool := b.cfg.getLsbD 47

/-- CBCFG.NSLOT. -/
def CircBuf.nslot (b : CircBuf) : Nat := field b.cfg 23 16

/-- First line of a slot. -/
def CircBuf.lineOf (b : CircBuf) (slot : Nat) : Nat := field b.cfg 10 0 + slot * field b.cfg 43 32

/-- CBSTAT (Table 11.9). -/
def CircBuf.stat (b : CircBuf) : Word :=
  word (b.free * 2 ^ 56 + b.filled * 2 ^ 48 + b.pclm * 2 ^ 40 + b.ctake * 2 ^ 32 + b.ppend * 2 ^ 24 + b.cheld * 2 ^ 16)

/-- Claim of R311 when FREE > 0. -/
def CircBuf.claim (b : CircBuf) : CircBuf :=
  { b with pclm := (b.pclm + 1) % b.nslot, free := b.free - 1, ppend := b.ppend + 1 }

/-- Take of R311 when FILLED > 0. -/
def CircBuf.take (b : CircBuf) : CircBuf :=
  { b with ctake := (b.ctake + 1) % b.nslot, filled := b.filled - 1, cheld := b.cheld + 1 }

/-- The loop of Publish (R311). -/
def CircBuf.countPublished : Nat → CircBuf → CircBuf
  | 0, b => b
  | n + 1, b =>
    let s := (b.pclm + b.nslot - b.ppend) % b.nslot
    if b.ppend ≠ 0 ∧ b.published.contains s then
      CircBuf.countPublished n
        { b with published := b.published.filter (· != s), ppend := b.ppend - 1, filled := b.filled + 1 }
    else b

/-- The loop of Release (R311). -/
def CircBuf.countReleased : Nat → CircBuf → CircBuf
  | 0, b => b
  | n + 1, b =>
    let s := (b.ctake + b.nslot - b.cheld) % b.nslot
    if b.cheld ≠ 0 ∧ b.released.contains s then
      CircBuf.countReleased n
        { b with released := b.released.filter (· != s), cheld := b.cheld - 1, free := b.free + 1 }
    else b

/-- Publish (R311). -/
def CircBuf.publish (b : CircBuf) (s : Nat) : CircBuf :=
  CircBuf.countPublished 256 { b with published := b.published ++ [s] }

/-- Release (R311). -/
def CircBuf.release (b : CircBuf) (s : Nat) : CircBuf :=
  CircBuf.countReleased 256 { b with released := b.released ++ [s] }

/-- Whether a slot is claimed and not yet counted. -/
def CircBuf.isClaimed (b : CircBuf) (s : Nat) : Bool :=
  decide (s < b.nslot) && decide ((b.pclm + b.nslot - 1 - s) % b.nslot < b.ppend)

/-- Whether a slot is taken and not yet counted. -/
def CircBuf.isTaken (b : CircBuf) (s : Nat) : Bool :=
  decide (s < b.nslot) && decide ((b.ctake + b.nslot - 1 - s) % b.nslot < b.cheld)

/-- Performs the oldest Publish or Release that an engine has handed over (R311); one of a slot that is not held is
dropped. -/
def CircBuf.performOp (b : CircBuf) : CircBuf :=
  match b.ops with
  | [] => b
  | (isPub, s) :: rest =>
    let b1 := { b with ops := rest }
    if isPub then (if b1.isClaimed s && !b1.published.contains s then b1.publish s else b1)
    else (if b1.isTaken s && !b1.released.contains s then b1.release s else b1)

/-- Performs every operation of engines that arrived before. -/
def CircBuf.performAll (b : CircBuf) : CircBuf := (List.range b.ops.length).foldl (fun x _ => x.performOp) b

/-- Takes a place in a queue of waiters, once. -/
def joinQueue (l : List (Nat × Option Nat)) (k : Nat) : List (Nat × Option Nat) :=
  if l.any (·.1 == k) then l else l ++ [(k, none)]

/-- What a Claim or Take gives a requester: the slot granted before, or one now when it is the first that waits. -/
def serveQueue (l : List (Nat × Option Nat)) (k : Nat) (ready : Bool) (next : Nat) : Option (Nat × Bool) :=
  match l.find? (·.1 == k) with
  | some (_, some s) => some (s, false)
  | _ => if ready && (match l.find? (·.2.isNone) with | some w => w.1 == k | none => true) then some (next, true)
         else none

/-- Claims a slot for a requester (R311): the buffer after it and the slot, none while it must wait. -/
def CircBuf.claimFor (b : CircBuf) (k : Nat) : Option (CircBuf × Nat) :=
  (serveQueue b.claimers k (b.free != 0) b.pclm).map fun r =>
    let b1 := if r.2 then b.claim else b
    ({ b1 with claimers := b.claimers.filter (·.1 != k) }, r.1)

/-- Takes a slot for a requester (R311). -/
def CircBuf.takeFor (b : CircBuf) (k : Nat) : Option (CircBuf × Nat) :=
  (serveQueue b.takers k (b.filled != 0) b.ctake).map fun r =>
    let b1 := if r.2 then b.take else b
    ({ b1 with takers := b.takers.filter (·.1 != k) }, r.1)

/-- The cluster that a buffer form names and whether it is named through space 10 (R359). -/
def State.cbCluster (s : State) (a : Word) (zero : Bool) : Option (Nat × Bool) :=
  let own := isCompute s.cur.unit
  if zero then (if own then some (clusterOf s.cur.unit, false) else none)
  else if field a 63 62 = 0 then
    if own && decide (0x100000 ≤ a.toNat) && decide (a.toNat < 0x200000) then some (clusterOf s.cur.unit, false)
    else none
  else if field a 63 62 = 2 && field a 52 34 == s.chip && decide (0x1000 ≤ field a 33 21)
      && decide (field a 33 21 < 0x1200) then some (field a 33 21 - 0x1000, true)
  else none

/-- The address that CBCLM and CBWAIT return for a slot (R360). -/
def State.slotAddr (s : State) (j : Nat) (far : Bool) (b : CircBuf) (slot : Nat) : Word :=
  if far then word (2 * 2 ^ 62 + s.chip * 2 ^ 34 + (0x1000 + j) * 2 ^ 21 + 512 * b.lineOf slot)
  else word (0x100000 + 512 * b.lineOf slot)

/-- The buffer of a form, with the checks of R359. -/
def State.cbOf (s : State) (a : Word) (zero : Bool) (buf : BitVec 6) : Except Halt (Nat × Bool × CircBuf) :=
  match s.cbCluster a zero with
  | none => arith 0x41 buf.toNat a
  | some (j, far) =>
    let b := (s.cluster j).cb buf.toNat
    if !b.en || field b.cfg 63 48 != s.me.gh then arith 0x41 buf.toNat a else .ok (j, far, b)

/-- Whether the running instruction is in its wait on a buffer already. -/
def State.inWait (s : State) (kind : Nat) : Bool :=
  match s.myWait with
  | some w => w.kind == kind
  | none => false

/-- CBCLM and CBWAIT (R360): `kind` is the WAITTO kind, `serve` the operation. -/
def cbGet (kind : Nat) (serve : CircBuf → Nat → Option (CircBuf × Nat)) (waiting : Bool) (d a : Reg) (buf : BitVec 6)
    (s : State) : Run? := do
  match s.cbOf (s.x a) (a == 0) buf with
  | .error e => if waiting then arith 0x43 buf.toNat 0 else .error e
  | .ok (j, far, b) =>
    if waiting && !(if kind = 0x01 then b.claimers else b.takers).any (·.1 == s.cur.key) then arith 0x43 buf.toNat 0
    else match serve b s.cur.key with
    | some (b1, slot) => .ok ((s.setCb j buf.toNat b1).result d (s.slotAddr j far b slot) (s.xm a))
    | none => waitOn kind buf.toNat (0x1000 + j) s.chip

/-- CBCLM (R360). -/
def execCbclm (d a : Reg) (buf : BitVec 6) (s : State) : Out :=
  runQ (.cbclm d a buf) (fun s =>
      match s.cbOf (s.x a) (a == 0) buf with
      | .ok (j, _, b) => s.setCb j buf.toNat { b with claimers := joinQueue b.claimers s.cur.key }
      | .error _ => s)
    (cbGet 0x01 CircBuf.claimFor (s.inWait 0x01) d a buf) s

/-- CBWAIT (R360). -/
def execCbwait (d a : Reg) (buf : BitVec 6) (s : State) : Out :=
  runQ (.cbwait d a buf) (fun s =>
      match s.cbOf (s.x a) (a == 0) buf with
      | .ok (j, _, b) => s.setCb j buf.toNat { b with takers := joinQueue b.takers s.cur.key }
      | .error _ => s)
    (cbGet 0x02 CircBuf.takeFor (s.inWait 0x02) d a buf) s

/-- The slot whose first byte an address is, in either form that R360 returns. -/
def CircBuf.slotOf (b : CircBuf) (a : Word) (far : Bool) : Option Nat :=
  let o := if far then field a 20 0 else a.toNat - 0x100000
  let lines := field b.cfg 43 32
  let base := field b.cfg 10 0
  if o % 512 ≠ 0 ∨ o / 512 < base ∨ lines = 0 then none
  else if (o / 512 - base) % lines ≠ 0 ∨ b.nslot ≤ (o / 512 - base) / lines then none
  else if far && field a 61 53 != 0 then none
  else some ((o / 512 - base) / lines)

/-- CBPUB and CBREL (R361). -/
def cbGive (isPub : Bool) (a : Reg) (buf : BitVec 6) (s : State) : Run? := do
  let (j, far, b0) ← s.cbOf (s.x a) false buf
  let b := b0.performAll
  match b.slotOf (s.x a) far with
  | none => arith 0x42 (0xFF * 2 ^ 8 + buf.toNat) (s.x a)
  | some n =>
    let held := if isPub then b.isClaimed n && !b.published.contains n else b.isTaken n && !b.released.contains n
    if !held then arith 0x42 (n * 2 ^ 8 + buf.toNat) (s.x a)
    else .ok (s.setCb j buf.toNat (if isPub then b.publish n else b.release n))

/-- CBPUB (R361): it releases the thread's earlier accesses. -/
def execCbpub (a : Reg) (buf : BitVec 6) (s : State) : Out :=
  runA (.cbpub a buf) (fun s => if !s.eMemIdle then holdOn else cbGive true a buf s) s

/-- CBREL (R361). -/
def execCbrel (a : Reg) (buf : BitVec 6) (s : State) : Out :=
  runA (.cbrel a buf) (fun s => if !s.eMemIdle then holdOn else cbGive false a buf s) s

/-- CB_PUBLISH: the buffer performs the oldest operation of an engine when it is a Publish (R311). -/
def execCbPublish (cl : BitVec 9) (buf : BitVec 6) (s : State) : Out :=
  let b := (s.cluster cl.toNat).cb buf.toNat
  .next (match b.ops with
    | (true, _) :: _ => s.setCb cl.toNat buf.toNat b.performOp
    | _ => s)

/-- CB_RELEASE: the buffer performs the oldest operation of an engine when it is a Release (R311). -/
def execCbRelease (cl : BitVec 9) (buf : BitVec 6) (s : State) : Out :=
  let b := (s.cluster cl.toNat).cb buf.toNat
  .next (match b.ops with
    | (false, _) :: _ => s.setCb cl.toNat buf.toNat b.performOp
    | _ => s)

/-- Grants a slot to the first waiter of a queue that has none. -/
def grantFirst (slot : Nat) : List (Nat × Option Nat) → List (Nat × Option Nat)
  | [] => []
  | (k, none) :: t => (k, some slot) :: t
  | w :: t => w :: grantFirst slot t

/-- CB_CLAIM: the first waiting claimer receives a free slot (R311). -/
def execCbClaim (cl : BitVec 9) (buf : BitVec 6) (s : State) : Out :=
  let b := (s.cluster cl.toNat).cb buf.toNat
  .next (if b.en && b.free != 0 && b.claimers.any (·.2.isNone) then
      s.setCb cl.toNat buf.toNat { b.claim with claimers := grantFirst b.pclm b.claimers }
    else s)

/-- CB_TAKE: the first waiting taker receives a filled slot (R311). -/
def execCbTake (cl : BitVec 9) (buf : BitVec 6) (s : State) : Out :=
  let b := (s.cluster cl.toNat).cb buf.toNat
  .next (if b.en && b.filled != 0 && b.takers.any (·.2.isNone) then
      s.setCb cl.toNat buf.toNat { b.take with takers := grantFirst b.ctake b.takers }
    else s)

/-! ## Versioned words -/

/-- Whether version u is older than version v (R313). -/
def olderVer (u v : BitVec 16) : Bool := decide (1 ≤ (v - u).toNat) && decide ((v - u).toNat < 2 ^ 15)

/-- The live cells of the word at a location. -/
def State.vcellsAt (s : State) (l : Nat) : List VCell :=
  ((s.cluster ((l - spadLoc 0) / 2 ^ 21)).vcells.get? (l % 2 ^ 21)).getD []

/-- Writes the live cells of the word at a location; a word with both cells free is not listed. -/
def State.setVcells (s : State) (l : Nat) (v : List VCell) : State :=
  let j := (l - spadLoc 0) / 2 ^ 21
  let c := s.cluster j
  let o := l % 2 ^ 21
  s.setCluster j { c with vcells := if v.isEmpty then c.vcells.erase o else c.vcells.set o v }

/-- The value of a live cell: the word's bytes in the window, or the shadow store's (R313). -/
def State.vval (s : State) (l : Nat) (c : VCell) : Word :=
  if c.shadow then c.val else word (ofBytes (s.mem.read l 8))

/-- LDV of R314: the value of a live version with the mark of its line; none while it must wait. -/
def State.ldvAt (s : State) (l : Nat) (n : BitVec 16) : Option (Tagged 64) :=
  ((s.vcellsAt l).find? (·.ver == n)).map fun c => ⟨s.vval l c, s.mem.markOf l 8⟩

/-- Gives a cell of the word a value with a mark. -/
def State.putCell (s : State) (l : Nat) (c : VCell) (m : Mark) : State :=
  let rest := (s.vcellsAt l).filter fun x => x.shadow != c.shadow
  let s1 := s.setVcells l (if c.shadow then rest ++ [c] else c :: rest)
  if c.shadow then { s1 with mem := s1.mem.joinMark l 8 m } else s1.put l (toBytes 8 c.val.toNat) m false

/-- Whether a version of the word at a location is live. -/
def State.liveVer (s : State) (l : Nat) (n : BitVec 16) : Bool := (s.vcellsAt l).any (·.ver == n)

/-- STV of R314: the state after it, the slots outside the ceiling, or none while it must wait. -/
def State.stvAt (s : State) (l : Nat) (n : BitVec 16) (v : Tagged 64) : Option (Except Mark State) :=
  let cs := s.vcellsAt l
  let cell : Option Bool :=
    match cs.find? (·.ver == n) with
    | some c => some c.shadow
    | none => if !cs.any (fun c => !c.shadow) then some false else if !cs.any (·.shadow) then some true else none
  cell.map fun sh =>
    let x := s.overCeil l 8 v.mark
    if x ≠ 0 then .error x else .ok (s.putCell l ⟨sh, n, v.val⟩ v.mark)

/-- RECLAIM of R314 for one word. -/
def State.reclaimAt (s : State) (l : Nat) (r : BitVec 16) : State :=
  s.setVcells l ((s.vcellsAt l).filter fun c => !olderVer c.ver r)

/-- Whether a request is an STV of the word at a location that has not been performed. -/
def VReq.pending (q : VReq) (l : Nat) : Bool := q.store && q.loc == l && q.result.isNone && q.failed.isNone

/-- Serves the requests that wait at a cluster, oldest first: an LDV whose version is live, an STV whose version is live,
and one whose word has a free cell when no older STV of the word waits (R314). -/
def State.serveV (s : State) (j : Nat) : List VReq → List VReq → State
  | done, [] => s.setCluster j { s.cluster j with vreqs := done }
  | done, r :: rest =>
    if r.result.isSome || r.failed.isSome then State.serveV s j (done ++ [r]) rest
    else if !r.store then
      match s.ldvAt r.loc r.ver with
      | some v => State.serveV s j (done ++ [{ r with result := some v }]) rest
      | none => State.serveV s j (done ++ [r]) rest
    else if !s.liveVer r.loc r.ver && done.any (·.pending r.loc) then State.serveV s j (done ++ [r]) rest
    else match s.stvAt r.loc r.ver r.val with
      | none => State.serveV s j (done ++ [r]) rest
      | some (.error x) =>
        State.serveV s j (if r.who.isSome then done ++ [{ r with failed := some x }] else done) rest
      | some (.ok s1) =>
        State.serveV s1 j (if r.who.isSome then done ++ [{ r with result := some r.val }] else done) rest

/-- Serves the waiting requests until none changes: each STV may satisfy an LDV before it in the list. -/
def State.serveAll (s : State) (j : Nat) : State :=
  let n := (s.cluster j).vreqs.length
  (List.range (n + 1)).foldl (fun t _ => t.serveV j [] (t.cluster j).vreqs) s

/-- Whether n bytes at a location lie in one enabled versioned window. -/
def State.windowed (s : State) (l n : Nat) : Bool :=
  let o := l % 2 ^ 21
  isSpadLoc l && (s.vwins ((l - spadLoc 0) / 2 ^ 21)).any fun w =>
    decide (512 * w.1 ≤ o) && decide (o + n ≤ 512 * (w.1 + w.2))

/-- Location of the word of a versioned form, on this package, or the other package's chip (R349). -/
def State.vword (s : State) (a : Word) (n : Nat) (write : Bool) : Except Halt (Sum Nat Nat) := do
  let sp := field a 63 62
  if !aligned a.toNat 8 || sp == 1 || sp == 3 then bounds a 3 write
  else match ← s.resolve s.agent a n write true with
    | .loc l => if s.windowed l n then .ok (.inl l) else bounds a 3 write
    | .remote chip => .ok (.inr chip)
    | _ => bounds a 3 write

/-- The waiting request of the running thread at a cluster. -/
def State.myVreq (s : State) (j : Nat) : Option VReq := (s.cluster j).vreqs.find? (·.who == some s.cur.key)

/-- Takes the running thread's request away. -/
def State.dropVreq (s : State) (j : Nat) : State :=
  s.setCluster j { s.cluster j with vreqs := (s.cluster j).vreqs.filter (·.who != some s.cur.key) }

/-- Leaves a versioned request behind at the word's home, in the remote request agent when it came through space 10 (R314,
R315), or notes that a request to another package waits. -/
def State.leaveVreq (s : State) (a : Word) (store : Bool) (ver : BitVec 16) (val : Tagged 64) : State :=
  match s.vword a 8 store with
  | .ok (.inl l) =>
    let j := (l - spadLoc 0) / 2 ^ 21
    if (s.myVreq j).isSome then s
    else s.setCluster j { s.cluster j with
      vreqs := (s.cluster j).vreqs ++
        [⟨some s.cur.key, field a 63 62 == 2, store, l, ver, val, s.partIx s.cur, none, none⟩] }
  | .ok (.inr chip) =>
    if s.me.remote.isSome then s else s.setMe { s.me with remote := some ⟨s.now, chip, none⟩ }
  | .error _ => s

/-- A request to another package that waits there is a blocked wait (R349). -/
def blockedRemote {α : Type} (kind : Nat) (a : Word) (r : Reply) (f : State → List Byte → Mark → Except Halt α)
    (chip : Nat) (write : Bool) : Except Halt α :=
  match r with
  | .data s1 bs m => f s1 bs m
  | .refused d => denyBounds a write d
  | .silent => waitOn kind 0 (field a 33 21) chip

/-- LDV (R349). -/
def execLdv (d a : Reg) (off : Word) (w : Win) (s : State) : Out :=
  let i : Instr := .ldv d a off w
  let addr (s : State) : Word := s.x a + off
  let ver (s : State) : BitVec 16 := (s.readX (d.toNat + 1)).val.setWidth 16
  runQ i (fun s => s.leaveVreq (addr s) false (ver s) (plain 0)) (fun s => do
    if s.windowsFull w .x d.toNat then holdOn
    else match ← s.vword (addr s) 8 false with
      | .inl l =>
        let j := (l - spadLoc 0) / 2 ^ 21
        let v := match s.myVreq j with
          | some r => r.result
          | none => s.ldvAt l (ver s)
        match v with
        | some r => .ok ((s.dropVreq j).resultL w d r.val (r.mark ||| s.rmark i))
        | none => waitOn 0x03 0 (0x1000 + j) s.chip
      | .inr chip =>
        blockedRemote 0x03 (addr s) (s.askRemote s.agent chip (addr s) 8)
          (fun s1 bs m => .ok (s1.resultL w d (word (ofBytes bs)) (m ||| s.rmark i))) chip false) s

/-- STV (R349). -/
def execStv (d a : Reg) (off : Word) (s : State) : Out :=
  let i : Instr := .stv d a off
  let addr (s : State) : Word := s.x a + off
  let ver (s : State) : BitVec 16 := (s.readX (d.toNat + 1)).val.setWidth 16
  let val (s : State) : Tagged 64 := ⟨s.x d, s.rmark i⟩
  runQ i (fun s => s.leaveVreq (addr s) true (ver s) (val s)) (fun s => do
    match ← s.vword (addr s) 8 true with
    | .inl l =>
      let j := (l - spadLoc 0) / 2 ^ 21
      match s.myVreq j with
      | some r =>
        match r.failed with
        | some x => trapWith 0x21 (addr s) (word x.toNat)
        | none => if r.result.isSome then .ok (s.dropVreq j) else waitOn 0x04 0 (0x1000 + j) s.chip
      | none =>
        if !s.liveVer l (ver s) && (s.cluster j).vreqs.any (·.pending l) then waitOn 0x04 0 (0x1000 + j) s.chip
        else match s.stvAt l (ver s) (val s) with
          | none => waitOn 0x04 0 (0x1000 + j) s.chip
          | some (.error x) => trapWith 0x21 (addr s) (word x.toNat)
          | some (.ok s1) => .ok (s1.serveAll j)
    | .inr chip => match s.egress s.agent (val s).mark with
      | some x => trapWith 0x21 (addr s) x
      | none => blockedRemote 0x04 (addr s) (s.askRemote s.agent chip (addr s) 0) (fun s1 _ _ => .ok s1) chip true) s

/-- RECLAIM (R350). -/
def execReclaim (d a b : Reg) (s : State) : Out :=
  runA (.reclaim d a b) (fun s => do
    let n := (s.x d).toNat
    if 16384 < n then arith 0x44 0 (s.x a)
    else if n = 0 then .ok s
    else match ← s.vword (s.x a) (8 * n) true with
      | .inl l =>
        let s1 := (List.range n).foldl (fun t k => t.reclaimAt (l + 8 * k) ((s.x b).setWidth 16)) s
        .ok (s1.serveAll ((l - spadLoc 0) / 2 ^ 21))
      | .inr chip => match s.askRemote s.agent chip (s.x a) 0 with
        | .data s1 _ _ => .ok s1
        | .refused d => denyBounds (s.x a) true d
        | .silent => .error (.silent chip)) s

/-- VERSIONED_REQUEST: the home serves the requests that wait (R314). -/
def execVersionedRequest (cl : BitVec 9) (s : State) : Out := .next (s.serveAll cl.toNat)

/-! ## Waits that are over -/

/-- Whether a thread has been given the slot or the version that it waits for. -/
def State.served (s : State) (t : ThreadId) : Bool :=
  s.clusters.any fun c =>
    (c.2.vreqs.any fun r => r.who == some t.key && (r.result.isSome || r.failed.isSome))
      || c.2.cbs.any fun b => (b.2.claimers ++ b.2.takers).any fun w => w.1 == t.key && w.2.isSome

/-- Lets a thread complete the instruction whose wait is over, in the clk in which its condition held: what traps or parks
the thread next finds it executed (R311, R314, R320). Its acquire comes before every later pop (R336). -/
def State.takeGrant (s : State) (t : ThreadId) : State :=
  if !s.served t then s
  else
    let x := s.thread t
    let f := findInstr s.code x.pc
    let y := { x with slots := x.slots.map Slot.unfetched }
    let l : State := { s.setThread t y with cur := t, latch := ⟨x.pc, f.len, f.finfo, .access, [], x.seq⟩ }
    let o : Out := match f.instr with
      | .cbclm d a b => execCbclm d a b l
      | .cbwait d a b => execCbwait d a b l
      | .ldv d a off w => execLdv d a off w l
      | .stv d a off => execStv d a off l
      | _ => .next l
    match o with
    | .next s1 => { s1 with cur := s.cur, latch := s.latch }
    | _ => s

end Sys2Proof.Machine
end

