-- ==== Sys2Proof/Machine/Sched.lean ====
section
/-! DEFINITION. The scheduler: continuation records and their homes, ready queues, decrements, the overflow area, the
start of a continuation, parking by pre-emption. -/

namespace Sys2Proof.Machine

open Sys2Proof

/-! ## Continuation records -/

/-- The bytes of a record (Table 8.5). -/
def ContRec.bytes (r : ContRec) : List Byte :=
  toBytes 64 (ofWords [r.code.toNat, r.frame.toNat, r.join.toNat + r.flags.toNat * 2 ^ 32, r.wid.toNat, r.succ.toNat,
    r.aff.toNat, r.arg0.toNat, r.arg1.toNat])

/-- The record that 64 bytes hold (Table 8.5). -/
def recOfBytes (bs : List Byte) : ContRec :=
  let w (i : Nat) : Nat := ofBytes ((bs.drop (8 * i)).take 8)
  { code := word (w 0), frame := word (w 1), join := BitVec.ofNat 32 (w 2), flags := BitVec.ofNat 32 (w 2 / 2 ^ 32)
    wid := word (w 3), succ := word (w 4), aff := word (w 5), arg0 := word (w 6), arg1 := word (w 7) }

/-- FLAGS.STATE (Table 8.6): 0 WAIT, 1 READY, 2 RUN, 3 DONE. -/
def ContRec.state (r : ContRec) : Nat := bits r.flags.toNat 6 4

/-- FLAGS.TRIGD. -/
def ContRec.trigd (r : ContRec) : Bool := r.flags.getLsbD 7

/-- FLAGS.PRI. -/
def ContRec.pri (r : ContRec) : Nat := bits r.flags.toNat 1 0

/-- FLAGS.MARK. -/
def ContRec.mark (r : ContRec) : Mark := BitVec.ofNat 16 (bits r.flags.toNat 31 16)

/-- FLAGS with STATE and TRIGD replaced. -/
def flagsWith (f : BitVec 32) (state : Nat) (trigd : Bool) : BitVec 32 :=
  (f &&& ~~~0xF0#32) ||| BitVec.ofNat 32 (b2n trigd * 128 + state % 8 * 16)

/-- FLAGS with MARK replaced. -/
def flagsMark (f : BitVec 32) (m : Mark) : BitVec 32 := (f &&& 0xFFFF#32) ||| BitVec.ofNat 32 (m.toNat * 2 ^ 16)

/-- FLAGS with PRI replaced. -/
def flagsPri (f : BitVec 32) (p : Nat) : BitVec 32 := (f &&& ~~~3#32) ||| BitVec.ofNat 32 (p % 4)

/-- AFF.GH (Table 8.7). -/
def ContRec.gh (r : ContRec) : Nat := field r.aff 63 48

/-- AFF.KIND. -/
def ContRec.kind (r : ContRec) : Nat := field r.aff 33 32

/-- AFF.UNIT. -/
def ContRec.unit (r : ContRec) : Nat := field r.aff 31 19

/-- AFF.CHIP. -/
def ContRec.chip (r : ContRec) : Nat := field r.aff 18 0

/-- AFF of a group handle, kind, unit and chip. -/
def affOf (gh kind unit chip : Nat) : Word :=
  word (gh % 2 ^ 16 * 2 ^ 48 + kind % 4 * 2 ^ 32 + unit % 2 ^ 13 * 2 ^ 19 + chip % 2 ^ 19)

/-- A record with a nonzero reserved field (Tables 8.5 to 8.7). -/
def ContRec.reserved (r : ContRec) : Bool :=
  bits r.flags.toNat 15 8 != 0 || decide (4 ≤ r.state) || field r.aff 47 34 != 0

/-! ## Homes -/

/-- The LWIN that opens the whole of both memories (Table 1.10). -/
def fullWindow : Word := 0x8000000080000000

/-- For whom the scheduler makes an access: the unit whose space 00 it uses, the partition, the unit where the update arises
(R525), whether an instruction waits for it, and for any other since when it has found no answer (R456). -/
structure Asker where
  unit : Nat
  part : Nat
  source : Nat
  instr : Bool
  since : Option Nat
  deriving DecidableEq, Repr

/-- The scheduler as it reaches an address (R224): space 00 is that of a unit, without a window's limit; space 01 is reached
for the partition whatever the unit. -/
def Asker.agent (k : Asker) (now : Nat) (a : Word) : Agent :=
  let late := overdue k.since now
  if field a 63 62 = 1 then ⟨0x1FFF, 0, some k.part, k.instr, late⟩
  else ⟨k.unit, fullWindow, if everyPart k.unit then none else some k.part, k.instr, late⟩

/-- Parts what an access comes to from the lack of an answer: a refusal is an outcome, silence and a wait are not (R456). -/
def outcomeOf {α : Type} : Except Halt α → Except Halt (Except Halt α)
  | .ok x => .ok (.ok x)
  | .error (.trap c a i d n r) => .ok (.error (.trap c a i d n r))
  | .error (.wait k n u c) => .error (.wait k n u c)
  | .error (.silent c) => .error (.silent c)

/-- The record at a home, and the join of its lines' marks. -/
def State.readRec (s : State) (k : Asker) (home : Word) : Except Halt (State × ContRec × Mark) := do
  let (s1, bs, m) ← s.loadAs (k.agent s.now home) home 64
  .ok (s1, recOfBytes bs, m)

/-- Writes JOIN and FLAGS at a home together, with a mark (R224). -/
def State.putState (s : State) (k : Asker) (home : Word) (r : ContRec) (m : Mark) : Except Halt State :=
  s.storeAs (k.agent s.now home) (home + 0x10) (toBytes 8 (r.join.toNat + r.flags.toNat * 2 ^ 32)) m

/-- Writes a whole record at a home. -/
def State.putRec (s : State) (k : Asker) (home : Word) (r : ContRec) (m : Mark) : Except Halt State :=
  s.storeAs (k.agent s.now home) home r.bytes m

/-- The state once the scheduler has found no answer for a thread's continuation: from when on is kept (R456). -/
def State.askFor (s : State) (t : ThreadId) : State :=
  let x := s.thread t
  s.setThread t { x with asking := some (x.asking.getD s.now) }

/-- The state after an access that was refused: its event is posted (R456). -/
def State.afterHalt (s : State) : Halt → State
  | .trap _ _ _ _ _ d => s.denied d
  | .wait _ _ _ _ => s
  | .silent _ => s

/-- A JOINERR record for an address (R224, R225, R525). -/
def State.joinErr (s : State) (die unit : Nat) (a : Word) (m : Mark) : State :=
  s.postDcp die 0x05 ⟨unit, 0, 0⟩ 0 a 0 0 0 m

/-! ## Groups -/

/-- The group of a handle. -/
def State.group? (s : State) (gh : Nat) : Option Group := s.groups.get? gh

/-- Writes a group. -/
def State.setGroup (s : State) (gh : Nat) (g : Group) : State := { s with groups := s.groups.set gh g }

/-- The threads of a group: those it reserves, and those of channel cores that run a continuation of it. -/
def State.threadsOf (s : State) (gh : Nat) (g : Group) : List ThreadId :=
  g.places.map (fun p => ⟨p.unit, p.set, p.ht⟩) ++
    (s.threads.filter fun t => isChannel (t.1 / 16) && t.2.gh == gh).map fun t => ⟨t.1 / 16, t.1 / 4 % 4, t.1 % 4⟩

/-- Changes the requests on every thread of a group, whether it runs, is parked by fault or is idle (R429, R432). -/
def State.askThreads (s : State) (gh : Nat) (g : Group) (f : Requests → Requests) : State :=
  (s.threadsOf gh g).foldl (fun t id =>
    let x := t.thread id
    t.setThread id { x with reqs := f x.reqs }) s

/-- The requests that stand on the threads of a group, as a thread of a channel core takes them up that starts a continuation
of it (R430 to R432; DEDUCED, log entry 117). -/
def State.standing (s : State) (gh : Nat) : Requests :=
  match s.group? gh with
  | none => Requests.none
  | some g => (s.threadsOf gh g).foldl (fun r id =>
      let x := (s.thread id).reqs
      ⟨r.pending || x.pending, false, r.safe || x.safe, r.force.orElse fun _ => x.force⟩) Requests.none

/-- A group's milestone request is over once no thread of it that is not idle has it any more (R449). -/
def State.endMilestone (s : State) (gh : Nat) : State :=
  match s.group? gh with
  | none => s
  | some g =>
    if g.milestoneReq && (s.threadsOf gh g).all fun id =>
        let x := s.thread id
        x.run == .idle || !(x.reqs.pending || x.reqs.milestone) then
      (s.askThreads gh g fun r => { r with pending := false }).setGroup gh { g with milestoneReq := false }
    else s

/-- The clusters that a group's interval touches. -/
def Group.clusters (g : Group) : List Nat :=
  span (g.first / 8) ((g.first + g.cores - 1) / 8 + 1 - g.first / 8)

/-- n bytes of a launch record from an offset on (Table 8.1). -/
def lget (r : BitVec 1024) (off n : Nat) : Nat := r.toNat / 2 ^ (8 * off) % 2 ^ (8 * n)

/-- CTL of a launch record. -/
def launchCtl (r : BitVec 1024) : Nat := lget r 0x20 8

/-- RES of a launch record. -/
def launchRes (r : BitVec 1024) : Nat := lget r 0x30 8

/-- H of a launch: hardware threads reserved per core. -/
def launchH (r : BitVec 1024) : Nat := bits (launchCtl r) 7 6 + 1

/-- Width of work-identifier field i. -/
def launchW (r : BitVec 1024) (i : Nat) : Nat := bits (lget r 0x38 8) (6 * i + 5) (6 * i)

/-- The launch of a group. -/
def State.launchOf (s : State) (g : Group) : Option Launch := s.launches.get? g.launch

/-- The record of the launch that a thread runs (R526). -/
def State.myLaunch (s : State) : Option (Group × Launch) :=
  let gh := s.me.gh
  if gh = 0 then none
  else match s.group? gh with
    | some g => (s.launchOf g).map fun l => (g, l)
    | none => none

/-- Width of field i of the running thread; 0 without a launch (R526). -/
def State.widthOf (s : State) (i : Nat) : Nat :=
  match s.myLaunch with
  | some (_, l) => launchW l.record i
  | none => 0

/-- S(i) of R221 for the running thread. -/
def State.startOf (s : State) (i : Nat) : Nat := ((List.range i).map s.widthOf).sum

/-- Changes the live count of a handle (R229). -/
def State.live (s : State) (gh : Nat) (up : Bool) : State :=
  match s.group? gh with
  | some g => s.setGroup gh { g with live := if up then (g.live + 1) % 2 ^ 32 else g.live - 1 }
  | none => s

/-! ## The overflow area -/

/-- Places the items that wait for a partition's overflow area, as far as it takes them (R228, R443). The OVERFLOW record
goes to the DCP of die 0 and names no unit. (DEDUCED, log entry 95.) -/
def State.drainOverflow (s : State) (p : Nat) : Nat → State
  | 0 => s
  | n + 1 =>
    let q := s.part p
    match q.ovBase, q.ovHeld with
    | some base, (bs, m) :: rest =>
      let a := base + word (64 * q.ovCount)
      match s.pokeVirt p a bs m q.ovSince with
      | .ok s1 =>
        let s2 := s1.setPart p { s1.part p with ovCount := q.ovCount + (bs.length + 63) / 64, ovHeld := rest, ovSince := none }
        State.drainOverflow (s2.postDcp 0 0x0A ⟨0x1FFF, 0, 0⟩ 0 a 0 0 0 m) p n
      | .error (.silent _) => s.setPart p { q with ovSince := some (q.ovSince.getD s.now) }
      | .error (.trap _ _ _ _ _ d) => (s.setPart p { q with ovSince := none }).denied d
      | .error (.wait _ _ _ _) => s
    | _, _ => s

/-- Gives an item to a partition's overflow area (R228, R259). (DEDUCED, log entry 54.) -/
def State.overflow (s : State) (p : Nat) (bs : List Byte) (m : Mark) : State :=
  let q := s.part p
  (s.setPart p { q with ovHeld := q.ovHeld ++ [(bs, m)] }).drainOverflow p (q.ovHeld.length + 1)

/-! ## Ready queues -/

/-- Whether a level of a ready queue has a place: 32 records on chip and 64 in each page of its spill area (R226,
R443; DESIGN CHOICE, log entry 20). -/
def ReadyQueue.room (q : ReadyQueue) (l : Nat) : Bool :=
  decide ((q.levels.getD l []).length < 32 + 64 * field (q.spill.getD l 0) 11 0)

/-- Adds a record at the tail of a level. -/
def ReadyQueue.add (q : ReadyQueue) (l : Nat) (r : Ready) : ReadyQueue :=
  { q with levels := q.levels.setIfInBounds l (q.levels.getD l [] ++ [r]) }

/-- The place in its spill area that the next record of a level goes to: places follow one another and begin again (R226,
R443; DESIGN CHOICE, log entry 20). -/
def ReadyQueue.spillAt (q : ReadyQueue) (l : Nat) : Word :=
  let w := q.spill.getD l 0
  (w &&& ~~~0xFFF#64) + word (64 * (q.spilled.getD l 0 % (64 * field w 11 0)))

/-- Adds a record at the tail of a level of the ready queue of a cluster or channel core; one beyond the 32 on chip is
written to the spill area (R226). -/
def State.enter (s : State) (k : Asker) (u l : Nat) (r : Ready) : Except Halt State := do
  let q := s.readyQ u
  if (q.levels.getD l []).length < 32 then .ok (s.setReady u (q.add l r))
  else
    let a := q.spillAt l
    let k1 : Asker := ⟨r.unit, r.part, k.source, k.instr, k.since.orElse fun _ => q.asking⟩
    let s1 := match ← outcomeOf (s.storeAs (k1.agent s.now a) a r.record.bytes r.record.mark) with
      | .ok t => t
      | .error h => s.afterHalt h
    .ok (s1.setReady u { q.add l r with spilled := q.spilled.setIfInBounds l (q.spilled.getD l 0 + 1), asking := none })

/-- Whether the logical cluster or channel core with this key takes records (R228, R444). -/
def State.inService (s : State) (u : Nat) : Bool := !s.pkg.retired.contains u

/-- The ready queue that a record of this package goes to, and the record as it waits there; none where it has nowhere
to run (R228). -/
def State.routeOf (s : State) (r : ContRec) : Option (Nat × ContRec) :=
  if r.kind = 2 then
    if isChannel r.unit && s.inService r.unit then some (r.unit, r) else none
  else
    let j := if isCompute r.unit then clusterOf r.unit else r.unit - 0x1000
    match (if r.unit < 0x1200 then s.group? r.gh else none) with
    | none => none
    | some g =>
      if g.clusters.contains j then (if s.inService (0x1000 + j) then some (0x1000 + j, r) else none)
      else
        let f := g.first / 8
        if s.inService (0x1000 + f) then
          some (0x1000 + f, { r with aff := affOf r.gh 0 (0x1000 + f) r.chip })
        else none

/-- Enqueues a READY record at its AFF target (R224, R226, R228): none while a full spill area holds the enqueuer. A
record for another package is sent there; one that is refused, or that must not leave, goes to the overflow area (R456).
(DEDUCED, log entry 97.) -/
def State.enqueueRec (s : State) (r : ContRec) (home : Word) (k : Asker) : Except Halt (Option State) :=
  let g : Agent := ⟨k.unit, 0, some k.part, k.instr, overdue k.since s.now⟩
  if r.chip ≠ s.chip then
    match s.egress g r.mark with
    | some _ => .ok (some (s.overflow k.part r.bytes r.mark))
    | none => match s.askRemote g r.chip home 0 with
      | .data s1 _ _ => .ok (some s1)
      | .refused d => .ok (some ((s.denied (some d)).overflow k.part r.bytes r.mark))
      | .silent => .error (.silent r.chip)
  else match s.routeOf r with
    | none => .ok (some (s.overflow k.part r.bytes r.mark))
    | some (u, r1) =>
      if (s.readyQ u).room r.pri then (s.enter k u r.pri ⟨r1, home, k.unit, k.part, s.now⟩).map some else .ok none

/-- A ready queue whose spill area found no answer for a record keeps from when on (R456). -/
def State.askSpill (s : State) (r : ContRec) : State :=
  match s.routeOf r with
  | some (u, _) => s.setReady u { s.readyQ u with asking := some ((s.readyQ u).asking.getD s.now) }
  | none => s

/-! ## Decrements -/

/-- What a decrement does at a home (Table 8.8): the state after it, the code that JOIN returns, the mark of the
record's lines; none while the ready queue holds it. (DEDUCED, log entry 60.) -/
def State.decrement (s : State) (k : Asker) (home : Word) (m : Mark) : Except Halt (Option (State × Nat × Mark)) := do
  let (s1, r, lm) ← s.readRec k home
  if r.state = 0 then
    let j := r.join - 1
    if j = 0 then
      let r1 := { r with join := 0, flags := flagsWith r.flags 1 r.trigd }
      match ← s1.enqueueRec r1 home k with
      | none => .ok none
      | some s2 => do
        let s3 ← s2.putState k home r1 m
        .ok (some (s3, 1, lm))
    else do
      let s2 ← s1.putState k home { r with join := j } m
      .ok (some (s2, 0, lm))
  else if r.state = 2 then do
    let s2 ← s1.putState k home { r with join := r.join - 1 } m
    .ok (some (s2, 0, lm))
  else .ok (some (s1.joinErr (dieOf k.source) k.source home m, 2, lm))

/-- Leaves the successor decrements of a list behind (R225): a list that cannot be read posts JOINERR. The list, and the
addresses in it, are those of the unit that enqueued the continuation. (DEDUCED, log entries 96, 109.) -/
def State.successors (s : State) (k : Asker) (list : Word) (m : Mark) : Except Halt State := do
  let g := k.agent s.now list
  let read : Except Halt (State × List Byte) := do
    let (s1, w, _) ← s.loadAs g list 8
    let n := ofBytes w % 256
    let (s2, bs, _) ← (if n = 0 then .ok (s1, [], 0) else s1.loadAs g (list + 8) (8 * n))
    .ok (s2, bs)
  match ← outcomeOf read with
  | .error h => .ok ((s.afterHalt h).joinErr (dieOf k.source) k.source list m)
  | .ok (s2, bs) =>
    let add := (List.range (bs.length / 8)).map fun i =>
      (⟨word (ofBytes ((bs.drop (8 * i)).take 8)), m, k.source, k.part, fullWindow, k.unit, none⟩ : Decrement)
    .ok { s2 with decs := s2.decs ++ add }

/-- JOIN_DECREMENT: the oldest decrement on its way reaches its home (R224); one that cannot is lost (R525), and so is one
that must not leave the package. (DEDUCED, log entry 97.) -/
def State.runDecrement (s : State) : State :=
  match s.decs with
  | [] => s
  | d :: rest =>
    let s1 := { s with decs := rest }
    let lost (t : State) : State := t.joinErr (dieOf d.source) d.source d.addr d.mark
    let silent : State := { s with decs := { d with since := some (d.since.getD s.now) } :: rest }
    let g : Agent := ⟨d.unit, 0, some d.part, false, overdue d.since s.now⟩
    if field d.addr 63 62 = 2 && field d.addr 52 34 != s.chip then
      if (s1.egress g d.mark).isSome then lost s1
      else match s1.askRemote g (field d.addr 52 34) d.addr 0 with
        | .data s2 _ _ => s2
        | .refused x => lost (s1.denied (some x))
        | .silent => silent
    else match outcomeOf (s1.decrement ⟨d.unit, d.part, d.source, false, d.since⟩ d.addr d.mark) with
      | .ok (.ok (some (s2, _, _))) => s2
      | .ok (.ok none) => s
      | .ok (.error h) => lost (s1.afterHalt h)
      | .error _ => silent

/-- JOIN_DECREMENT (R224, R225). -/
def execJoinDecrement (s : State) : Out := .next s.runDecrement

/-! ## Starting a continuation -/

/-- The thread with the state that a continuation begins with (R38, R133, R284): the registers and the control
registers that an instruction can write have their reset values. -/
def Thread.begin_ (t : Thread) : Thread :=
  let f := Thread.fresh
  { f with csr := { f.csr with cause := t.csr.cause, faddr := t.csr.faddr, finfo := t.csr.finfo
                               mstep := t.csr.mstep, wstatMark := t.csr.wstatMark }
           reqs := t.reqs, seq := t.seq, mailbox := t.mailbox, rowMask := t.rowMask, lockLost := t.lockLost, tread := t.tread
           resumeFrame := t.resumeFrame, wheel := { Wheel.empty with len := t.wheel.len, wm := t.wheel.wm } }

/-- LWIN of a local range and a scratchpad range (Table 1.10). -/
def lwinOf (lbase llen sbase slen : Nat) : Word :=
  word (slen * 2 ^ 52 + sbase * 2 ^ 40 + llen * 2 ^ 21 + lbase * 2 ^ 10)

/-- The byte offset in a core's own local memory that a home names, if it does. -/
def localOffset (chip u : Nat) (hu : Nat) (a : Word) : Option Nat :=
  if field a 63 62 = 0 then (if hu = u && decide (a.toNat < 0x10000) then some a.toNat else none)
  else if field a 63 62 = 2 && field a 52 34 == chip && field a 33 21 == u then some (field a 20 0)
  else none

/-- LWIN that a group's thread starts with (R219, R227). -/
def Group.window (g : Group) (chip : Nat) (t : ThreadId) (home : Word) (hu : Nat) : Word :=
  let own := (g.places.find? fun p => p.unit == t.unit && p.set == t.set && p.ht == t.ht).map fun p => (p.lbase, p.llen)
  let other := match localOffset chip t.unit hu home with
    | some o => (g.places.find? fun p => p.unit == t.unit && decide (64 * p.lbase ≤ o)
        && decide (o < 64 * (p.lbase + p.llen))).map fun p => (p.lbase, p.llen)
    | none => none
  let (lb, ll) := (match other with | some x => some x | none => own).getD (0, 0)
  let (sb, sl) := ((g.ranges.find? fun r => r.cluster == clusterOf t.unit).map fun r => (r.base, r.len)).getD (0, 0)
  lwinOf lb ll sb sl

/-- Whether an idle thread may take a record (R226). One of KIND 1 whose UNIT is no core goes to any thread of its group in
the cluster (DESIGN CHOICE, log entry 101). -/
def State.eligible (s : State) (t : ThreadId) (r : Ready) : Bool :=
  if isCompute t.unit then
    r.record.kind != 2 && (r.record.kind != 1 || r.record.unit == t.unit || !isCompute r.record.unit) &&
      (match s.group? r.record.gh with
       | some g => g.places.any fun p => p.unit == t.unit && p.set == t.set && p.ht == t.ht
       | none => false)
  else r.record.kind == 2

/-- The record that an idle thread takes: level and place (R226). -/
def State.takes (s : State) (t : ThreadId) : Option (Nat × Nat) :=
  let q := s.readyQ (engKey t.unit)
  [3, 2, 1, 0].findSome? fun l => (place (s.eligible t) (q.levels.getD l [])).map fun i => (l, i)

/-- Starts a record on a thread (R38, R227): its home's STATE becomes RUN, and one that cannot be reached posts JOINERR (R525).
WIDB reads 0 where there is no group (R526). -/
def State.startRec (s : State) (t : ThreadId) (r : Ready) : Except Halt State := do
  let c := r.record
  let run := { c with flags := flagsWith c.flags 2 c.trigd }
  let k : Asker := ⟨r.unit, r.part, t.unit, false, (s.thread t).asking⟩
  let write : Except Halt State := do
    let (s1, h, _) ← s.readRec k r.home
    s1.putState k r.home { h with flags := flagsWith h.flags 2 h.trigd } 0
  let s1 := match ← outcomeOf write with
    | .ok s2 => s2
    | .error e => (s.afterHalt e).joinErr (dieOf t.unit) t.unit r.home c.mark
  let y := (s1.thread t).begin_
  let x := if isCompute t.unit then y else { y with reqs := s1.standing c.gh }
  let m := c.mark
  let regs := (((x.regs.setX 2 ⟨c.frame, m⟩).setX 3 ⟨r.home, m⟩).setX 10 ⟨c.arg0, m⟩).setX 11 ⟨c.arg1, m⟩
  let lw := if isCompute t.unit then
      (match s1.group? c.gh with
       | some g => g.window s1.chip t r.home r.unit
       | none => lwinOf 0 0 0 0)
    else lwinOf (128 * t.ht) 128 0 0
  let csr := { x.csr with cmark := m, widb := ⟨if c.gh = 0 then 0 else c.wid, m⟩, priv := isCompute t.unit && c.flags.getLsbD 2
                          gcp := c.flags.getLsbD 3, lwin := ⟨lw, 0⟩ }
  let s2 := s1.setThread t { x with regs := regs, csr := csr, pc := c.code, run := .running
                                    cont := some ⟨run, r.home, r.unit, r.part, c.trigd⟩ }
  .ok (match s2.group? c.gh with
  | some g => match s2.launches.get? g.launch with
    | some l =>
      { s2 with launches := s2.launches.set g.launch { l with firstAt := some (l.firstAt.getD s2.now) } }
    | none => s2
  | none => s2)

/-- Whether a thread can take a record: one of a retired unit takes none (R444). -/
def State.canStart (s : State) (t : ThreadId) : Bool :=
  (s.thread t).run == .idle && (isCompute t.unit || isChannel t.unit) && (s.ctxSet t.unit t.set).loaded
    && s.inService (engKey t.unit)

/-- The cores whose threads take records from a ready queue. -/
def queueCores (u : Nat) : List Nat :=
  if decide (0x1000 ≤ u) && decide (u < 0x1200) then span (8 * (u - 0x1000)) 8 else [u]

/-- The threads of the selected sets of a ready queue's cores, in (core, thread) order from the one that the clk gives the
first place (R226). -/
def State.startOrder (s : State) (u : Nat) : List ThreadId :=
  let all := (queueCores u).flatMap fun c => [0, 1, 2, 3].map fun h => (⟨c, (s.core c).sel, h⟩ : ThreadId)
  let k := s.now % all.length
  all.drop k ++ all.take k

/-- The thread that is served next from a ready queue: the first in that order that is idle and eligible for a record
(R226). -/
def State.nextStart (s : State) (u : Nat) : Option ThreadId :=
  (s.startOrder u).find? fun t => s.canStart t && (s.takes t).isSome

/-- CONTINUATION_START: an idle thread of a core's selected set takes the oldest eligible record of the highest level, in its
turn among the eligible threads (R226, R227). -/
def execContinuationStart (unit : BitVec 13) (ht : BitVec 2) (s : State) : Out :=
  let t : ThreadId := ⟨unit.toNat, (s.core unit.toNat).sel, ht.toNat⟩
  .next (if s.nextStart (engKey t.unit) = some t then
      match s.takes t with
      | some (l, i) =>
        let q := s.readyQ (engKey t.unit)
        let lv := q.levels.getD l []
        match lv[i]? with
        | some r =>
          match (s.setReady (engKey t.unit) { q with levels := q.levels.setIfInBounds l (dropNth lv i) }).startRec t r with
          | .ok s1 => s1
          | .error _ => s.askFor t
        | none => s
      | none => s
    else s)

/-- READY_PROMOTION: the oldest record that has waited 2^16 ticks at a level below 3 moves to the tail of the next
(R226). -/
def execReadyPromotion (unit : BitVec 13) (level : BitVec 2) (s : State) : Out :=
  let q := s.readyQ unit.toNat
  let l := level.toNat
  .next (match q.levels.getD l [] with
    | r :: rest =>
      if decide (l < 3) && decide (2 ^ 16 ≤ s.now - r.since) && q.room (l + 1) then
        match (s.setReady unit.toNat { q with levels := q.levels.setIfInBounds l rest }).enter
          ⟨r.unit, r.part, unit.toNat, false, none⟩ unit.toNat (l + 1) { r with since := s.now } with
        | .ok s1 => s1
        | .error _ => s.setReady unit.toNat { q with asking := some (q.asking.getD s.now) }
      else s
    | [] => s)

/-! ## Parking by pre-emption -/

/-- Parks a thread by pre-emption at its instruction boundaries, through the resume frame, and posts its PREEMPT record
with a reason (R429 to R432, Table 17.5). (DEDUCED, log entry 50.) -/
def State.parkPre (s : State) (tid : ThreadId) (reason : Nat) : State :=
  let s0 := ((s.takeGrant tid).loseLocks tid).dropRequests tid
  let t := s0.thread tid
  let (fresh, t1) := saveFrame t t.equeue t.seq
  let fr := if t.resumeFrame.valid then t.resumeFrame else fresh
  let c := t1.csr
  let aepc : Tagged 64 := if c.intrap || t.resumeFrame.valid then c.aepc else ⟨t.pc, c.cmark⟩
  let s1 := s0.setThread tid { t1 with resumeFrame := fr, run := .parkedPre, reqs := Requests.none
                                       asking := none, sending := none, target := none
                                       csr := { c with aepc := aepc } }
  let s2 := (s1.endLeases tid).endMilestone t.gh
  s2.postDcp (dieOf tid.unit) 2 tid (word reason) c.epc.val t.pc 0 0 (joins [c.epc.mark, c.cmark])

/-- Resumes a thread parked by pre-emption from its resume frame (R429). -/
def State.resumePre (s : State) (tid : ThreadId) : State :=
  let t := s.thread tid
  let f := t.resumeFrame
  let s1 := s.setThread tid { t with resumeFrame := Frame.empty, run := .running }
  let s2 := if f.valid then s1.restoreFrame tid f f.eq else s1
  { s2 with cur := s.cur, latch := s.latch }

end Sys2Proof.Machine
end

