-- ==== Sys2Proof/Machine/Ring.lean ====
section
/-! DEFINITION. Operand rings: segments and stops, the beat, meetings, captures, recovery, parking, and the ring forms
of page 3. -/

namespace Sys2Proof.Machine

open Sys2Proof

/-! ## Payloads -/

/-- The listed bytes of n bytes at a location, by their offset. -/
def Memory.lift (m : Memory) (l n : Nat) : List Host.Cell :=
  (m.cells.filter fun c => decide (l ≤ c.1) && decide (c.1 < l + n)).map fun c => (c.1 - l, c.2)

/-- Listed bytes by offset below n, in the canonical form of memory. -/
def payloadForm (n : Nat) (p : List Host.Cell) : List Host.Cell :=
  if cellsWf p && p.all (fun c => decide (c.1 < n)) then p
  else p.foldl (fun t c => if c.1 < n then cellPut t c.1 c.2 else t) []

/-- Replaces n bytes at a location by listed bytes, given by offset below n. -/
def Memory.graft (m : Memory) (l n : Nat) (p : List Host.Cell) : Memory :=
  { m with cells := m.cells.filter (fun c => decide (c.1 < l)) ++ (payloadForm n p).map (fun c => (c.1 + l, c.2))
                      ++ m.cells.filter (fun c => decide (l + n ≤ c.1)) }

/-- Bytes of a tile's payload (R240). -/
def tileBytes : Nat := 16384

/-- Writes a tile's payload over 32 scratchpad lines of a cluster without a ceiling check (R248, R252, R304), with the poison
that it derives (R446). (DEDUCED, log entry 51.) -/
def State.layTile (s : State) (cl line : Nat) (t : Tile) : State :=
  let l := spadLoc cl + 512 * line
  let m := ((s.mem.graft l tileBytes t.payload).joinMark l tileBytes t.mark).cleanse l tileBytes
  { s with mem := t.bad.foldl (fun m o => m.taint (l + o) 1) m }

/-! ## Segments -/

/-- RN of a quadrant: stops of a segment (Table 9.1). -/
def Quadrant.rn (q : Quadrant) : Nat := if q.seg = 0 then 16 else if q.seg = 1 then 8 else 4

/-- A segment of a quadrant. -/
def Quadrant.sg (q : Quadrant) (j : Nat) : Segment := q.segs.getD j Segment.fresh

/-- Writes a segment of a quadrant. -/
def State.setSeg (s : State) (q j : Nat) (x : Segment) : State :=
  s.setQuad q { s.quad q with segs := (s.quad q).segs.setIfInBounds j x }

/-- The stop of a cluster. -/
def State.stop (s : State) (cl : Nat) : Stop := (s.cluster cl).stop

/-- Writes the stop of a cluster. -/
def State.setStop (s : State) (cl : Nat) (x : Stop) : State := s.setCluster cl { s.cluster cl with stop := x }

/-- The clusters of the stops of a segment, in order of position. -/
def State.segStops (s : State) (q j : Nat) : List Nat :=
  let rn := (s.quad q).rn
  span (16 * q + j * rn) rn

/-- RSTOP.NSLOT. -/
def Stop.nslot (x : Stop) : Nat := field x.rstop 35 32

/-- RSTOP.BUFLINE. -/
def Stop.bufline (x : Stop) : Nat := field x.rstop 10 0

/-- Whether pair slot i is held (R247, R250). -/
def Stop.slotHeld (x : Stop) (i : Nat) : Bool := x.slots.any (·.1 == i)

/-- First line of pair slot i (R241). -/
def Stop.slotLine (x : Stop) (i : Nat) : Nat := x.bufline + 64 + 65 * i

/-- RSEG as it reads (Table 9.3). -/
def Segment.word (x : Segment) : Word :=
  Machine.word (x.owner.toNat * 2 ^ 48 + b2n x.en * 2 ^ 47 + b2n x.parked * 2 ^ 46 + x.laplim.toNat * 2 ^ 32)

/-- RSTOP with a write applied (Table 9.4). -/
def rstopWith (old v : Word) : Word :=
  let n := if field v 35 32 ≤ 8 then field v 35 32 else field old 35 32
  word (n * 2 ^ 32 + field v 10 0)

/-- A tile that is on the ring and not retired. -/
def liveTile : Option Tile → Bool
  | some t => t.need != 0
  | none => false

/-- Tiles of a segment, parked ones included (Table 9.11). -/
def State.segTiles (s : State) (q j : Nat) : Nat :=
  ((s.segStops q j).map fun c =>
    let x := s.stop c
    b2n (liveTile x.e) + b2n (liveTile x.w) + b2n x.parkE.isSome + b2n x.parkW.isSome).sum

/-- A quiet segment (R254). -/
def State.quiet (s : State) (q j : Nat) : Bool :=
  s.segTiles q j == 0 && (s.segStops q j).all fun c =>
    let x := s.stop c
    x.injE.isEmpty && x.injW.isEmpty && x.captures.isEmpty

/-- Applies the writes of a quadrant that were held (Table 9.1, R242). -/
def State.applyHeldRing (s : State) (q : Nat) : State :=
  let one (s : State) (j : Nat) : State :=
    let g := (s.quad q).sg j
    if g.en || decide (16 ≤ j * (s.quad q).rn) then s
    else
      let s1 := match g.held with
        | some v => s.setSeg q j { g with owner := BitVec.ofNat 16 (field v 63 48), held := none }
        | none => s
      (s1.segStops q j).foldl (fun t c =>
        let x := t.stop c
        match x.held with
        | some v => t.setStop c { x with rstop := rstopWith x.rstop v, held := none }
        | none => t) s1
  let s1 := [0, 1, 2, 3].foldl one s
  let x := s1.quad q
  match x.held with
  | some v => if (List.range 4).any (fun j => (x.sg j).en) then s1 else s1.setQuad q { x with seg := v, held := none }
  | none => s1

/-- Empties a stop (R243): the pair slots of captures that were not yet tasks are free again, and an RINJ in progress finds
nothing of itself left (R262). -/
def Stop.clear (x : Stop) : Stop :=
  { x with e := none, w := none, injE := [], injW := [], rinjs := [], junctions := [], captures := [], recovery := []
           parkE := none, parkW := none
           slots := x.slots.filter fun i => !x.captures.any fun c => c.slot == i.1 }

/-- The RDRAINs of a quadrant as EN of segment j falls: each completes with the fired counter as it stood (R266). -/
def Quadrant.felled (x : Quadrant) (j : Nat) : List Drain :=
  x.drains.map fun d => if d.seg = j ∧ d.fell = none then { d with fell := some ⟨(x.sg j).fired, (x.sg j).mark⟩ } else d

/-- EN becomes 0 (R243). -/
def State.stopSegment (s : State) (q j : Nat) : State :=
  let s1 := (s.segStops q j).foldl (fun t c => t.setStop c (t.stop c).clear) s
  let s2 := s1.setQuad q { s1.quad q with drains := (s1.quad q).felled j }
  let g := (s2.quad q).sg j
  (s2.setSeg q j { g with en := false, parked := false, parkReq := false, force := false, beatAt := none }).applyHeldRing q

/-- Stops every segment that a group owns (R243). -/
def State.stopRings (s : State) (gh : Nat) : State :=
  s.quads.foldl (fun t e => [0, 1, 2, 3].foldl (fun u j =>
    let g := (u.quad e.1).sg j
    if g.en && g.owner.toNat == gh then u.stopSegment e.1 j else u) t) s

/-- Asks for the park of every segment that a group owns (R257, R438). -/
def State.parkRings (s : State) (gh : Nat) : State :=
  s.quads.foldl (fun t e => [0, 1, 2, 3].foldl (fun u j =>
    let g := (u.quad e.1).sg j
    if g.en && !g.parked && g.owner.toNat == gh then u.setSeg e.1 j { g with parkReq := true } else u) t) s

/-- Whether EN = 1 may take effect (R242). -/
def State.mayRun (s : State) (q j : Nat) (owner : BitVec 16) : Bool :=
  decide (j * (s.quad q).rn < 16) &&
    match s.group? owner.toNat with
    | none => false
    | some g => (s.segStops q j).all fun c =>
      let x := s.stop c
      g.clusters.contains c && (x.bypass || g.ranges.any fun r =>
        r.cluster == c && decide (r.base ≤ x.bufline)
          && decide (x.bufline + 64 + 65 * x.nslot ≤ r.base + r.len))

/-- A write of RSEG (R242). -/
def State.writeRseg (s : State) (q j : Nat) (v : Word) : State :=
  let g := (s.quad q).sg j
  let lim : BitVec 4 := if field v 35 32 = 0 then g.laplim else BitVec.ofNat 4 (field v 35 32)
  let own : BitVec 16 := BitVec.ofNat 16 (field v 63 48)
  if g.en then
    let s1 := s.setSeg q j { g with laplim := lim, held := some v }
    if v.getLsbD 47 then s1 else s1.stopSegment q j
  else
    let g1 := { g with laplim := lim, owner := own }
    if v.getLsbD 47 && s.mayRun q j own then
      let s1 := (s.segStops q j).foldl (fun t c => t.setStop c { t.stop c with junctions := [], recovery := [] }) s
      s1.setSeg q j { g1 with en := true, beat := 0, injected := 0, retired := 0, fired := 0, missed := 0
                              recovered := 0, mark := 0, beatAt := some (s.now + 64) }
    else s.setSeg q j g1

/-- A write of RCFG (Table 9.1). -/
def State.writeRcfg (s : State) (q : Nat) (v : Word) : State :=
  let x := s.quad q
  if field v 1 0 = 3 then s
  else (s.setQuad q { x with held := some (v.setWidth 2) }).applyHeldRing q

/-- A write of RSTOP (Table 9.4, R242). -/
def State.writeRstop (s : State) (cl : Nat) (v : Word) : State :=
  (s.setStop cl { s.stop cl with held := some v }).applyHeldRing (cl / 16)

/-! ## Recovery -/

/-- A recovery record (Table 9.8). -/
def recoveryRec (t : Tile) (kind dir : Nat) : Tagged 64 :=
  ⟨word (2 ^ 63 + t.seq.toNat * 2 ^ 32 + t.lap * 2 ^ 28 + kind * 2 ^ 26 + dir * 2 ^ 25 + t.tag.toNat), t.mark⟩

/-- Recovers a tile to its HOME (R252, R257, R266): none when HOME's recovery queue is full. At a bypassed HOME the
payload goes to the partition's overflow area (R259). Every one counts, so that a quiet segment accounts for each injection
(R254, R256). -/
def State.recover (s : State) (q j : Nat) (t : Tile) (kind dir : Nat) : Option State :=
  let c := 16 * q + j * (s.quad q).rn + t.home
  let x := s.stop c
  let g := (s.quad q).sg j
  let count (s : State) : State := s.setSeg q j { (s.quad q).sg j with recovered := g.recovered + 1 }
  if x.bypass then
    let p := ((s.group? g.owner.toNat).map (·.part)).getD 0
    let bytes := (List.range tileBytes).map fun o => cellGet t.payload o
    some (count (s.overflow p bytes t.mark))
  else if 16 ≤ x.recovery.length then none
  else
    let s1 := s.layTile c t.src t
    some (count (s1.setStop c { s1.stop c with recovery := x.recovery ++ [recoveryRec t kind dir] }))

/-- Recovers those tiles of a list that are marked for removal, each with its KIND; the others stay, and so do those whose
recovery queue is full (R258, R266). -/
def State.recoverQueue (s : State) (q j dir : Nat) : List Tile → State × List Tile
  | [] => (s, [])
  | t :: rest =>
    match t.removal.bind fun kind => s.recover q j t kind dir with
    | some s1 => State.recoverQueue s1 q j dir rest
    | none =>
      let (s1, l) := State.recoverQueue s q j dir rest
      (s1, t :: l)

/-! ## The beat -/

/-- A tile still on the ring at the end of a beat: retired ones have left it (R249). -/
def keepLive (t : Option Tile) : Option Tile := if liveTile t then t else none

/-- Crosses the links in a segment: `east` moves E-tiles one position up, otherwise W-tiles move one down (R244). -/
def State.cross (s : State) (q j : Nat) (east : Bool) : State :=
  let cs := s.segStops q j
  let rn := cs.length
  let at_ (k : Nat) : Stop := s.stop (nth cs (k % rn) 0)
  (List.range rn).foldl (fun t k =>
    let c := nth cs k 0
    let x := s.stop c
    t.setStop c { x with e := keepLive (if east then (at_ (k + rn - 1)).e else x.e)
                         w := keepLive (if east then x.w else (at_ (k + 1)).w) }) s

/-- Marks a tile for removal with a KIND. -/
def Tile.drop (kind : Nat) (t : Tile) : Tile := { t with removal := some (t.removal.getD kind) }

/-- Removals before the lookup of a boundary (R266). -/
def State.removals (s : State) (q j : Nat) : State :=
  let g := (s.quad q).sg j
  let cs := s.segStops q j
  let s0 := if g.force then
      (cs.foldl (fun t c =>
        let x := t.stop c
        t.setStop c { x with e := x.e.map (Tile.drop 1), w := x.w.map (Tile.drop 1), injE := x.injE.map (Tile.drop 1)
                             injW := x.injW.map (Tile.drop 1) }) s).setSeg q j { g with force := false }
    else s
  cs.foldl (fun t c =>
    let one (t : State) (x : Option Tile) (dir : Nat) : State × Option Tile :=
      let (t1, l) := t.recoverQueue q j dir x.toList
      (t1, l.head?)
    let (t1, e) := one t (t.stop c).e 0
    let (t2, w) := one t1 (t1.stop c).w 1
    let (t3, ie) := t2.recoverQueue q j 0 (t2.stop c).injE
    let (t4, iw) := t3.recoverQueue q j 1 (t3.stop c).injW
    t4.setStop c { t4.stop c with e := e, w := w, injE := ie, injW := iw }) s0

/-- A stop with the oldest queued injections placed where its positions are empty (R251); those that are to be written back
are not placed (R258). -/
def Stop.place (x : Stop) : Stop :=
  let x1 := match x.e, x.injE.find? (·.removal.isNone) with
    | none, some t => { x with e := some t, injE := x.injE.erase t }
    | _, _ => x
  match x1.w, x1.injW.find? (·.removal.isNone) with
  | none, some t => { x1 with w := some t, injW := x1.injW.erase t }
  | _, _ => x1

/-- A 16-bit counter that saturates. -/
def sat16 (n : Nat) : Nat := Nat.min (n + 1) 0xFFFF

/-- The lookup at one stop (R246, R247): the meeting fires, is missed, or matches no entry. -/
def State.lookup (s : State) (q j c : Nat) : State :=
  let x := s.stop c
  match x.e, x.w with
  | some e, some w =>
    if e.need = 0 ∨ w.need = 0 ∨ x.bypass then s
    else match x.junctions.find? fun n => n.2.valid && n.2.etag == e.tag && n.2.wtag == w.tag with
      | none => s
      | some (ix, n) =>
        let g := (s.quad q).sg j
        match (if x.captures.length < 4 then firstNat x.nslot (fun i => !x.slotHeld i) else none) with
        | none =>
          let x1 := { x with junctions := x.junctions.set ix { n with misses := sat16 n.misses } }
          (s.setStop c x1).setSeg q j { g with missed := g.missed + 1 }
        | some slot =>
          let cap : Capture := ⟨slot, s.now, ix, e, w, n.template, n.mark⟩
          let x1 := { x with junctions := x.junctions.set ix { n with fires := sat16 n.fires }
                             e := some { e with need := e.need - 1 }, w := some { w with need := w.need - 1 }
                             captures := x.captures ++ [cap], slots := x.slots ++ [(slot, x.slotLine slot + 64)] }
          let gone := b2n (e.need == 1) + b2n (w.need == 1)
          (s.setStop c x1).setSeg q j { g with fired := g.fired + 1, retired := g.retired + BitVec.ofNat 32 gone }
  | _, _ => s

/-- A tile that arrives at its HOME after the lookup (R252): LAP counts, and at the limit the tile is recovered. -/
def State.arriveHome (s : State) (q j c : Nat) (east : Bool) : State :=
  let x := s.stop c
  let pos := c - (16 * q + j * (s.quad q).rn)
  match (if east then x.e else x.w) with
  | none => s
  | some t =>
    if t.home ≠ pos ∨ t.need = 0 then s
    else
      let t1 := { t with lap := Nat.min (t.lap + 1) 15 }
      let put (s : State) (t : Tile) : State :=
        let y := s.stop c
        s.setStop c (if east then { y with e := some t } else { y with w := some t })
      if ((s.quad q).sg j).laplim.toNat ≤ t1.lap then
        match s.recover q j t1 0 (b2n (!east)) with
        | some s1 => put s1 { t1 with need := 0 }
        | none => put s t1
      else put s t1

/-- The boundary that ends the beat in progress (R244, R245, R251, R252, R266). A tile placed at this boundary does not
arrive at it, so its LAP stays 0. -/
def State.boundary (s : State) (q j : Nat) : State :=
  let g := (s.quad q).sg j
  let east := g.beat % 2 == 0
  let s1 := s.cross q j east
  let s2 := s1.setSeg q j { (s1.quad q).sg j with beat := g.beat + 1, beatAt := g.beatAt.map (· + 64) }
  let s3 := s2.removals q j
  let cs := s3.segStops q j
  let s4 := cs.foldl (fun t c => t.setStop c (t.stop c).place) s3
  let s5 := cs.foldl (fun t c => t.lookup q j c) s4
  let arrived (c : Nat) : Bool := if east then (s3.stop c).e.isSome else (s3.stop c).w.isSome
  cs.foldl (fun t c => if arrived c then t.arriveHome q j c east else t) s5

/-- Whether the boundary that ends the beat in progress has come: 64 clk after the one before (R244). -/
def Segment.beatDone (g : Segment) (now : Nat) : Bool :=
  match g.beatAt with
  | some d => decide (d ≤ now)
  | none => false

/-- BEAT_BOUNDARY of a segment that runs (R244). -/
def execBeatBoundary (q : BitVec 5) (seg : BitVec 2) (s : State) : Out :=
  let g := (s.quad q.toNat).sg seg.toNat
  .next (if g.en && !g.parked && !g.parkReq && g.beatDone s.now then s.boundary q.toNat seg.toNat else s)

/-! ## Captures -/

/-- The task record of a captured pair (R248). -/
def captureRec (x : Stop) (k : Capture) (stopNo : Nat) : ContRec :=
  let m := joins [k.template.mark, k.mark, k.e.mark, k.w.mark]
  { k.template with
    flags := flagsMark (flagsWith k.template.flags (if k.template.join = 0 then 1 else 0) false) m
    arg0 := word (0x100000 + 512 * x.slotLine k.slot)
    arg1 := word (k.e.seq.toNat * 2 ^ 48 + k.w.seq.toNat * 2 ^ 32 + k.e.lap * 2 ^ 28 + k.w.lap * 2 ^ 24
      + stopNo * 2 ^ 20 + k.entry * 2 ^ 14) }

/-- When the copy of a stop's oldest captured pair is complete: 256 clk after it begins, which it does 2 clk after the firing,
once the copy before it is complete (R248, Tables 9.6 and 9.7). -/
def Stop.copyDue (x : Stop) (k : Capture) : Nat := Nat.max (k.at_ + 2) x.copied + 256

/-- PAIR_COPY: the copy of a stop's oldest captured pair completes, and its task is created (R248). -/
def execPairCopy (q : BitVec 5) (stop : BitVec 4) (s : State) : Out :=
  let c := 16 * q.toNat + stop.toNat
  let x := s.stop c
  .next (match x.captures with
    | [] => s
    | k :: rest =>
      if s.now < x.copyDue k then s
      else
      let line := x.slotLine k.slot
      let r := captureRec x k stop.toNat
      let home := word (0x100000 + 512 * (line + 64))
      let l := spadLoc c + 512 * (line + 64)
      let s1 := ((s.layTile c line k.e).layTile c (line + 32) k.w)
      let s2 := { s1 with mem := ((s1.mem.write l r.bytes).joinMark l 64 r.mark).cleanse l 64 }
      let s3 := (s2.setStop c { x with captures := rest, copied := x.copyDue k }).live r.gh true
      if r.state = 1 then
        let p := ((s.group? r.gh).map (·.part)).getD 0
        match s3.enqueueRec r home ⟨8 * c, p, 8 * c, false, none⟩ with
        | .ok (some s4) => s4
        | .ok none => s
        | .error _ => s.askSpill r
      else s3)

/-- Frees the pair slot whose record lies at a home: the record's own address as the slot was allotted (R250). -/
def State.freePairSlot (s : State) (k : Asker) (home : Word) : State :=
  match s.resolve ({ k with instr := false }.agent s.now home) home 64 false false with
  | .ok (.loc l) =>
    if isSpadLoc l then
      let c := (l - spadLoc 0) / 2 ^ 21
      let x := s.stop c
      let kept (i : Nat × Nat) : Bool := spadLoc c + 512 * i.2 != l || x.captures.any (·.slot == i.1)
      s.setStop c { x with slots := x.slots.filter kept }
    else s
  | _ => s

/-! ## Parking a segment -/

/-- SEGMENT_PARK: at the boundary after the request, once the copies in progress are complete (R257). -/
def State.parkSegment (s : State) (q j : Nat) : State :=
  let g := (s.quad q).sg j
  let east := g.beat % 2 == 0
  let s1 := s.cross q j east
  let cs := s1.segStops q j
  let s2 := cs.foldl (fun t c => t.arriveHome q j c east) s1
  let s3 := cs.foldl (fun t c =>
    let x := t.stop c
    let lay (t : State) (o : Option Tile) (off : Nat) : State :=
      match o with
      | some k => if x.bypass then t else t.layTile c (x.bufline + off) k
      | none => t
    let pe := keepLive x.e
    let pw := keepLive x.w
    let t1 := lay (lay t pe 0) pw 32
    let (t2, ie) := t1.recoverQueue q j 0 (x.injE.map (Tile.drop 2))
    let (t3, iw) := t2.recoverQueue q j 1 (x.injW.map (Tile.drop 2))
    t3.setStop c { t3.stop c with e := none, w := none, parkE := pe, parkW := pw, injE := ie, injW := iw }) s2
  s3.setSeg q j { (s3.quad q).sg j with beat := g.beat + 1, parked := true, parkReq := false, beatAt := none }

/-- SEGMENT_PARK (R257): at the boundary the beat counter stops; the segment parks once the copies in progress are complete. -/
def execSegmentPark (q : BitVec 5) (seg : BitVec 2) (s : State) : Out :=
  let g := (s.quad q.toNat).sg seg.toNat
  let free := (s.segStops q.toNat seg.toNat).all fun c => (s.stop c).captures.isEmpty
  .next (if g.en && !g.parked && g.parkReq && (g.beatAt.isNone || g.beatDone s.now) then
      if free then s.parkSegment q.toNat seg.toNat else s.setSeg q.toNat seg.toNat { g with beatAt := none }
    else s)

/-- Whether a group is pre-empted: a thread of it is parked, or has yet to park for a milestone that has occurred. A group's
resumption resumes its segments once no thread of it is. (DESIGN CHOICE, log entry 110.) -/
def State.groupParked (s : State) (gh : Nat) : Bool :=
  match s.group? gh with
  | some g => (s.threadsOf gh g).any fun t =>
      let x := s.thread t
      x.run == .parkedPre || (x.run != .idle && x.reqs.milestone)
  | none => false

/-- SEGMENT_RESUME: the tiles come back from the park areas (R258), when no thread of the owner is parked by
pre-emption. -/
def State.resumeSegment (s : State) (q j : Nat) : State :=
  let cs := s.segStops q j
  let s1 := cs.foldl (fun t c =>
    let x := t.stop c
    let back (o : Option Tile) (off : Nat) : Option Tile :=
      o.map fun k => if x.bypass then k
        else
          let l := spadLoc c + 512 * (x.bufline + off)
          { k with payload := t.mem.lift l tileBytes, bad := (t.mem.poisoned l tileBytes).map (· - l) }
    let (t1, ie) := t.recoverQueue q j 0 x.injE
    let (t2, iw) := t1.recoverQueue q j 1 x.injW
    t2.setStop c { t2.stop c with e := back x.parkE 0, w := back x.parkW 32, parkE := none, parkW := none
                                  injE := ie, injW := iw }) s
  s1.setSeg q j { (s1.quad q).sg j with parked := false, beatAt := some (s.now + 64) }

/-- SEGMENT_RESUME (R258). -/
def execSegmentResume (q : BitVec 5) (seg : BitVec 2) (s : State) : Out :=
  let g := (s.quad q.toNat).sg seg.toNat
  .next (if g.en && g.parked && !s.groupParked g.owner.toNat then s.resumeSegment q.toNat seg.toNat else s)

/-! ## The ring forms -/

/-- Quadrant, segment and cluster of the running thread's stop (R261): none where the check fails. -/
def State.myStop (s : State) : Option (Nat × Nat × Nat) :=
  if isCompute s.cur.unit then
    let c := clusterOf s.cur.unit
    let q := c / 16
    let j := c % 16 / (s.quad q).rn
    let g := (s.quad q).sg j
    if g.en && g.owner.toNat == s.me.gh then some (q, j, c) else none
  else none

/-- The stop check (R261): `code` is the ARITH code where it fails. -/
def State.needStop (s : State) (code : Nat) : Except Halt (Nat × Nat × Nat) :=
  match s.myStop with
  | some x => .ok x
  | none => arith code 0 0

/-- A valid tile word (R262). -/
def tileWordOk (v : Word) : Bool :=
  field v 25 16 != 0 && field v 31 27 == 0 && field v 63 36 == 0
    && field v 35 32 != 5 && field v 35 32 != 6 && decide (field v 35 32 < 12)

/-- Runs an A-side instruction in steps: `reg` is what every wait of it leaves behind. -/
def runSteps (i : Instr) (reg : State → State) (body : State → Run?) (s : State) : Out :=
  match body s.advance with
  | .ok s' => .next s'
  | .error (.wait k n u c) => .next ((reg s).halt i (.wait k n u c))
  | .error (.silent c) => .next (s.halt i (.silent c))
  | .error (.trap c f x y z d) => .next (s.halt i (.trap c f x y z d))

/-- The RINJ of the running thread in progress at a stop. -/
def State.myInject (s : State) (c : Nat) : Option Inject := (s.stop c).rinjs.find? (·.who == s.cur.key)

/-- Whether a direction's injection queue has no place: two tiles, queued or being read (R251, R262). -/
def Stop.injFull (x : Stop) (east : Bool) : Bool :=
  decide (2 ≤ (if east then x.injE else x.injW).length
    + (x.rinjs.filter fun r => r.east == east && r.since.isSome).length)

/-- What a waiting RINJ leaves at its stop: its read begins once the queue has a place (R262). -/
def State.leaveInject (s : State) (east : Bool) : State :=
  let c := clusterOf s.cur.unit
  let x := s.stop c
  let began : Option Nat := match (s.myInject c).bind (·.since) with
    | some t => some t
    | none => if x.injFull east then none else some s.now
  s.setStop c { x with rinjs := x.rinjs.filter (·.who != s.cur.key) ++ [⟨s.cur.key, east, began⟩] }

/-- The tile that an RINJ injects (R262). -/
def tileOf (v : Word) (home : Nat) (seq : BitVec 16) (at_ : Word) (m : Mark) (p : List Host.Cell) : Tile :=
  { tag := BitVec.ofNat 16 (field v 15 0), need := field v 25 16, lap := 0, fmt := BitVec.ofNat 4 (field v 35 32)
    home := home, seq := seq, src := (at_.toNat - 0x100000) / 512, mark := m, payload := p, bad := [], removal := none }

/-- RINJ (R262): it waits for a queue place, then reads its tile for 128 clk; a stop that it finds emptied meanwhile had its
EN fall. -/
def execRinj (d a b : Reg) (s : State) : Out :=
  let i : Instr := .rinj d a b
  let waited := s.me.aWait.isSome
  runSteps i (fun s => s.leaveInject (!(s.x b).getLsbD 26)) (fun s => do
    if waited && (s.myInject (clusterOf s.cur.unit)).isNone then arith 0x25 0 0
    else do
    let (q, j, c) ← s.needStop 0x20
    let at_ := s.x a
    let v := s.x b
    if decide (at_.toNat < 0x10000) || !aligned at_.toNat 512 || field at_ 63 62 != 0 then bounds at_ 3 false
    else match ← s.resolve00 s.agent at_ tileBytes false false with
      | .loc l => do
        let (_, lm) ← s.loadLoc at_ l tileBytes
        if !tileWordOk v then arith 0x21 0 0
        else
          let east := !v.getLsbD 26
          match (s.myInject c).bind (·.since) with
          | none => if (s.stop c).injFull east then waitOn 0x0B 0 0x1FFF s.chip else holdOn
          | some t0 =>
            if s.now < t0 + 128 then holdOn
            else
              let m := s.rmark i ||| lm
              let g := (s.quad q).sg j
              let t := tileOf v (c - (16 * q + j * (s.quad q).rn)) g.seq at_ m (s.mem.lift l tileBytes)
              let x := s.stop c
              let x1 := { x with rinjs := x.rinjs.filter (·.who != s.cur.key) }
              let x2 := if east then { x1 with injE := x.injE ++ [t] } else { x1 with injW := x.injW ++ [t] }
              let s1 := (s.setStop c x2).setSeg q j { g with seq := g.seq + 1, injected := g.injected + 1
                                                             mark := g.mark ||| m }
              .ok (s1.result d (g.seq.setWidth 64) m)
      | _ => bounds at_ 0 false) s

/-- A valid template of a junction entry (R263). -/
def State.templateOk (s : State) (r : ContRec) (owner c : Nat) : Bool :=
  !r.reserved && !r.join.getLsbD 31
    && (!r.flags.getLsbD 2 || s.me.csr.priv) && (!r.flags.getLsbD 3 || s.me.csr.gcp)
    && decide (r.kind ≤ 1) && r.gh == owner && r.chip == s.chip
    && ((isCompute r.unit && clusterOf r.unit == c) || r.unit == 0x1000 + c)

/-- MTSET (R263). -/
def execMtset (d a : Reg) (e : BitVec 6) (s : State) : Out :=
  let i : Instr := .mtset d a e
  runA i (fun s => do
    let (q, j, c) ← s.needStop 0x20
    let at_ := s.x a
    if !aligned at_.toNat 64 then bounds at_ 3 false
    else if field at_ 63 62 ≠ 0 then bounds at_ 0 false
    else do
      let (bs, lm) ← s.loadL at_ 64
      let tags := s.x d
      let r := recOfBytes (toBytes 64 bs)
      let x := s.stop c
      let et : BitVec 16 := BitVec.ofNat 16 (field tags 15 0)
      let wt : BitVec 16 := BitVec.ofNat 16 (field tags 31 16)
      if field tags 63 32 ≠ 0 then arith 0x24 0 0
      else if !s.templateOk r ((s.quad q).sg j).owner.toNat c then arith 0x22 0 at_
      else if x.junctions.any fun n => n.1 != e.toNat && n.2.valid && n.2.etag == et && n.2.wtag == wt then
        arith 0x23 0 at_
      else
        let n : Junction := ⟨true, et, wt, r, s.rmark i ||| lm, 0, 0⟩
        .ok (s.setStop c { x with junctions := x.junctions.set e.toNat n })) s

/-- An entry of a junction table. -/
def Stop.junction (x : Stop) (e : Nat) : Junction :=
  (x.junctions.get? e).getD ⟨false, 0, 0, recOfBytes [], 0, 0, 0⟩

/-- The counter word of an entry (Table 9.11). -/
def Junction.counters (n : Junction) : Word := word (b2n n.valid * 2 ^ 63 + n.fires * 2 ^ 16 + n.misses)

/-- MTCLR (R264). -/
def execMtclr (d a : Reg) (s : State) : Out :=
  let i : Instr := .mtclr d a
  runA i (fun s => do
    let (_, _, c) ← s.needStop 0x20
    let e := field (s.x a) 5 0
    let x := s.stop c
    let n := x.junction e
    let s1 := if n.valid then s.setStop c { x with junctions := x.junctions.set e { n with valid := false } } else s
    .ok (s1.result d n.counters (n.mark ||| s.xm a))) s

/-- TAG of a resident tile, 0 where there is none. -/
def tagOf (t : Option Tile) : Nat := (t.map fun k => k.tag.toNat).getD 0

/-- The word that RSTAT selects, with the mark of an entry (Table 9.11); none for a selector that is not listed. -/
def State.rstat (s : State) (q j c sel : Nat) : Option (Word × Mark) :=
  let g := (s.quad q).sg j
  let x := s.stop c
  match sel with
  | 0x00 => some (word (g.owner.toNat * 2 ^ 48 + b2n g.en * 2 ^ 47 + b2n g.parked * 2 ^ 46
      + b2n (s.quiet q j) * 2 ^ 45 + s.segTiles q j * 2 ^ 32 + g.laplim.toNat * 2 ^ 28
      + (s.quad q).seg.toNat * 2 ^ 26 + g.beat % 2 ^ 16), 0)
  | 0x01 => some (word (g.fired.toNat * 2 ^ 32 + g.missed.toNat), 0)
  | 0x02 => some (word (g.injected.toNat * 2 ^ 32 + g.retired.toNat), 0)
  | 0x03 => some (word (g.recovered.toNat * 2 ^ 32), 0)
  | 0x04 => some (word (b2n x.bypass * 2 ^ 63 + b2n x.e.isSome * 2 ^ 62 + b2n x.w.isSome * 2 ^ 61
      + ((List.range x.nslot).filter fun i => !x.slotHeld i).length * 2 ^ 52 + x.captures.length * 2 ^ 45 + x.recovery.length * 2 ^ 40
      + x.injE.length * 2 ^ 38 + x.injW.length * 2 ^ 36 + tagOf x.w * 2 ^ 16 + tagOf x.e), 0)
  | n =>
    if 0x40 ≤ n ∧ n < 0x80 then some ((x.junction (n - 0x40)).counters, (x.junction (n - 0x40)).mark)
    else if 0x80 ≤ n ∧ n < 0xC0 then
      let k := x.junction (n - 0x80)
      some (word (k.wtag.toNat * 2 ^ 16 + k.etag.toNat), k.mark)
    else none

/-- RSTAT (R265). -/
def execRstat (d a : Reg) (s : State) : Out :=
  let i : Instr := .rstat d a
  runA i (fun s => do
    let (q, j, c) ← s.needStop 0x20
    match s.rstat q j c (field (s.x a) 7 0) with
    | some (v, m) => .ok (s.result d v (joins [s.xm a, ((s.quad q).sg j).mark, m]))
    | none => .ok (s.result d 0 (s.xm a))) s

/-- The RDRAIN of the running thread in progress. -/
def State.myDrain (s : State) : Option Drain := (s.quad (clusterOf s.cur.unit / 16)).drains.find? (·.who == s.cur.key)

/-- The state without the running thread's RDRAIN. -/
def State.dropDrain (s : State) (q : Nat) : State :=
  s.setQuad q { s.quad q with drains := (s.quad q).drains.filter (·.who != s.cur.key) }

/-- RDRAIN (R266): one whose segment's EN fell completes with the counter as it stood then; a removal that has found
nothing is over with the wait. -/
def drainBody (d a : Reg) (s : State) : Run? :=
  match s.myDrain.bind (·.fell) with
  | some n => .ok ((s.dropDrain (clusterOf s.cur.unit / 16)).result d (n.val.setWidth 64) (s.xm a ||| n.mark))
  | none => do
    let (q, j, _) ← s.needStop 0x20
    let g := (s.quad q).sg j
    if s.quiet q j then
      .ok (((s.dropDrain q).setSeg q j { g with force := false }).result d (g.fired.setWidth 64) (s.xm a ||| g.mark))
    else waitOn 0x0B 0 0x1FFF s.chip

/-- What a waiting RDRAIN leaves behind, once: that it waits, and the removal that it asks for (R266). -/
def State.leaveDrain (s : State) (a : Reg) : State :=
  match s.myStop, s.myDrain with
  | some (q, j, _), none =>
    let g := (s.quad q).sg j
    let s1 := s.setSeg q j { g with force := g.force || (s.x a).getLsbD 0 }
    s1.setQuad q { s1.quad q with drains := (s1.quad q).drains ++ [⟨s.cur.key, j, none⟩] }
  | _, _ => s

/-- RDRAIN (R266). -/
def execRdrain (d a : Reg) (s : State) : Out := runSteps (.rdrain d a) (fun s => s.leaveDrain a) (drainBody d a) s

/-- RTAKE (R267). -/
def execRtake (d : Reg) (s : State) : Out :=
  runA (.rtake d) (fun s => do
    let (_, _, c) ← s.needStop 0x20
    let x := s.stop c
    match x.recovery with
    | [] => .ok (s.result d 0 0)
    | r :: rest => .ok ((s.setStop c { x with recovery := rest }).result d r.val r.mark)) s

end Sys2Proof.Machine
end

