-- ==== Sys2Proof/Machine/Launch.lean ====
section
/-! DEFINITION. Launches and groups: the reservation check, placement, gangs, the initial continuations, the end of a
group and the completion of a launch. -/

namespace Sys2Proof.Machine

open Sys2Proof

/-! ## The launch record -/

/-- GROUPS. -/
def launchGroups (r : BitVec 1024) : Nat := lget r 0x28 4

/-- TPG. -/
def launchTpg (r : BitVec 1024) : Nat := lget r 0x2C 2

/-- DONE. -/
def launchDone (r : BitVec 1024) : Word := word (lget r 0x48 8)

/-- CTL.CMODE. -/
def launchCmode (r : BitVec 1024) : Bool := bit (launchCtl r) 4

/-- CTL.GANG. -/
def launchGang (r : BitVec 1024) : Bool := bit (launchCtl r) 5

/-- GANGN. -/
def gangN (r : BitVec 1024) : Nat := bits (lget r 0x50 8) 39 32

/-- GANGIX. -/
def gangIx (r : BitVec 1024) : Nat := bits (lget r 0x50 8) 47 40

/-- 64-byte units of a thread's local part: LOCAL and the accumulator windows (R219). -/
def launchPart (r : BitVec 1024) : Nat := bits (launchRes r) 26 16 + 2 * bits (launchRes r) 14 8

/-- Scratchpad lines of a group in a cluster: SPAD + VWIN. -/
def launchLines (r : BitVec 1024) : Nat := bits (launchRes r) 43 32 + bits (launchRes r) 56 48

/-- VWIN. -/
def launchVwin (r : BitVec 1024) : Nat := bits (launchRes r) 56 48

/-- TILES. -/
def launchTiles (r : BitVec 1024) : Nat := bits (launchRes r) 2 0

/-- Sum of the field widths. -/
def launchWidth (r : BitVec 1024) : Nat := ((List.range 6).map (launchW r)).sum

/-- DOM. -/
def launchDom (r : BitVec 1024) : Nat := lget r 0x40 8

/-- DEADLINE. -/
def launchDeadline (r : BitVec 1024) : Nat := lget r 0x58 8

/-- A barrier domain of a partition. -/
def State.dom (s : State) (p d : Nat) : Domain := ((s.part p).domains.get? d).getD Domain.fresh

/-- Writes a barrier domain of a partition. -/
def State.setDom (s : State) (p d : Nat) (x : Domain) : State :=
  s.setPart p { s.part p with domains := (s.part p).domains.set d x }

/-- DCFG.EXP. -/
def Domain.exp (x : Domain) : Nat := field x.dcfg 15 0

/-- DCFG.VMODE. -/
def Domain.vmode (x : Domain) : Bool := x.dcfg.getLsbD 16

/-- A record that keeps R212 and the limits of R213 but those on PRIV and GCP. -/
def State.recordOk (s : State) (p : Nat) (r : BitVec 1024) : Bool :=
  let h := launchH r
  let w := launchWidth r
  let w0 := launchW r 0
  let res := launchRes r
  lget r 0x60 32 == 0 && bits (launchCtl r) 47 8 == 0 && bits res 63 57 == 0 && bits res 47 44 == 0
    && bits res 31 27 == 0 && bits res 15 15 == 0 && bits res 7 3 == 0 && bits (lget r 0x38 8) 63 36 == 0
    && launchGroups r != 0 && launchTpg r != 0 && decide (launchTpg r ≤ 16384)
    && (lget r 8 8 == 0 || lget r 0x2E 2 != 0)
    && decide (launchVwin r ≤ 256) && decide (bits res 43 32 ≤ 2048) && decide (bits res 26 16 ≤ 1024)
    && decide (bits res 14 8 ≤ 64) && decide (launchTiles r ≤ 4)
    && decide (w ≤ 64) && decide (launchTpg r ≤ 2 ^ w0) && decide (launchGroups r ≤ 2 ^ (w - w0))
    && decide (1 ≤ launchPart r) && decide (h * launchPart r * 64 ≤ 65536)
    && decide (launchLines r ≤ 2048) && decide (h * launchTiles r ≤ 8)
    && (List.range 64).all (fun d => !bit (launchDom r) d || (s.dom p d).exp != 0)
    && (if launchGang r then gangN r != 0 && decide (gangIx r < gangN r) && bits (lget r 0x50 8) 63 48 == 0
        else lget r 0x50 8 == 0)

/-! ## The launch queue -/

/-- The home channel of a partition (R462). (DEDUCED, log entry 85.) -/
def State.homeChannel (s : State) (p : Nat) : Nat :=
  (firstNat 16 fun c => (s.channel c).chcfg.getLsbD 0 && field (s.channel c).chcfg 47 42 == p).getD 0

/-- Whether a partition's launch queue has a place (R214). -/
def State.queueRoom (s : State) (p : Nat) : Bool := decide ((s.part p).queue.length < 64)

/-- Places a record in a partition's launch queue, and gives its launch number (R214, R282). -/
def State.queueLaunch (s : State) (p : Nat) (r : BitVec 1024) (ch : Option Nat) : State × BitVec 32 :=
  let q := s.part p
  (s.setPart p { q with queue := q.queue ++ [⟨r, q.nextNum, ch, bits (launchCtl r) 1 0, s.now⟩]
                        nextNum := q.nextNum + 1 }, q.nextNum)

/-- A launch record with a mark joined into CTL.MARK. -/
def launchMark (r : BitVec 1024) (m : Mark) : BitVec 1024 := r ||| (m.setWidth 1024 <<< (8 * 0x20 + 48))

/-- Posts REFUSED for a launch with a code of R216. -/
def State.refuse (s : State) (p : Nat) (l : QLaunch) (code : Nat) : State :=
  s.postHost (l.channel.getD (s.homeChannel p)) 0x03 code l.num.toNat 0 0

/-! ## Placement -/

/-- The lowest start of a free run of n below a limit. -/
def firstFit (used : List (Nat × Nat)) (n limit : Nat) : Option Nat :=
  let starts := 0 :: used.map fun u => u.1 + u.2
  let ok := starts.filter fun a =>
    decide (a + n ≤ limit) && used.all fun u => decide (a + n ≤ u.1) || decide (u.1 + u.2 ≤ a) || u.2 == 0
  ok.foldl (fun b a => match b with | some x => some (Nat.min x a) | none => some a) none

/-- Every place held on a core. -/
def State.placesOn (s : State) (u : Nat) : List Place :=
  s.groups.flatMap fun g => g.2.places.filter fun p => p.unit == u

/-- Tile stagings held on a core. -/
def State.tilesOn (s : State) (u : Nat) : Nat :=
  (s.groups.map fun g =>
    if g.2.places.any (·.unit == u) then
      match s.launchOf g.2 with
      | some l => launchH l.record * launchTiles l.record
      | none => 0
    else 0).sum

/-- What a core gives a group: its hardware threads and the first unit of its local range, the lowest that are free (R218,
R219; DESIGN CHOICE, log entry 19). -/
def State.corePlace (s : State) (u : Nat) (r : BitVec 1024) : Option (List Nat × Nat) :=
  let h := launchH r
  let held := s.placesOn u
  let sel := (s.core u).sel
  let free := [0, 1, 2, 3].filter fun t =>
    !held.any (fun p => p.set == sel && p.ht == t) && (s.thread ⟨u, sel, t⟩).run == .idle
  if free.length < h ∨ !s.inService (0x1000 + clusterOf u) ∨ 8 < s.tilesOn u + h * launchTiles r then none
  else (firstFit (held.map fun p => (p.lbase, p.llen)) (h * launchPart r) 1024).map fun b => (free.take h, b)

/-- The scratchpad ranges that groups hold in a cluster. -/
def State.rangesOn (s : State) (j : Nat) : List SpadRange :=
  s.groups.flatMap fun g => g.2.ranges.filter fun r => r.cluster == j

/-- The first line that a cluster gives a group, the lowest (R218, R219, R312; DESIGN CHOICE, log entry 19). -/
def State.clusterPlace (s : State) (j : Nat) (r : BitVec 1024) : Option Nat :=
  let held := s.rangesOn j
  let v := launchVwin r
  if v ≠ 0 ∧ (256 < v + (held.map (·.vlen)).sum ∨ 8 ≤ (s.vwins j).length) then none
  else firstFit (held.map fun x => (x.base, x.len)) (launchLines r) 2048

/-- Places n cores of a group from core u on: the threads' places, in order of thread. -/
def State.placeCores (s : State) (r : BitVec 1024) (u : Nat) : Nat → Option (List Place)
  | 0 => some []
  | n + 1 =>
    match s.corePlace u r, State.placeCores s r (u + 1) n with
    | some (hts, b), some rest =>
      let sel := (s.core u).sel
      let here := (List.range hts.length).map fun i =>
        (⟨u, sel, nth hts i 0, b + i * launchPart r, launchPart r⟩ : Place)
      some (here ++ rest)
    | _, _ => none

/-- The ranges of a group in a list of clusters. -/
def State.placeClusters (s : State) (r : BitVec 1024) : List Nat → Option (List SpadRange)
  | [] => some []
  | j :: rest =>
    match s.clusterPlace j r, State.placeClusters s r rest with
    | some b, some l => some (⟨j, b, launchLines r, launchVwin r⟩ :: l)
    | _, _ => none

/-- The lowest handle that no group holds (R218). -/
def State.freshGh (s : State) : Nat := (firstNat 65536 fun g => g != 0 && (s.groups.get? g).isNone).getD 0

/-- VWCFG of a group's versioned window (Table 11.10). -/
def vwWord (gh base len : Nat) : Word := word (gh * 2 ^ 48 + 2 ^ 47 + len * 2 ^ 16 + base)

/-- Writes the VWCFG entry of a range (R312). -/
def State.openVwin (s : State) (gh : Nat) (r : SpadRange) : State :=
  if r.vlen = 0 then s
  else
    let c := s.cluster r.cluster
    match firstNat 8 fun i => !(((c.vwcfg.get? i).getD 0).getLsbD 47) with
    | some i => s.setCluster r.cluster { c with vwcfg := c.vwcfg.set i (vwWord gh r.base r.vlen) }
    | none => s

/-- Places group `ix` of a launch at core index c (R218, R219); none where it does not fit there. -/
def State.placeAt (s : State) (p key : Nat) (r : BitVec 1024) (ix c : Nat) : Option State :=
  let h := launchH r
  let n := (launchTpg r + h - 1) / h
  let q := s.part p
  let gh := s.freshGh
  if c < q.base ∨ q.base + q.len < c + n ∨ gh = 0 then none
  else match s.placeCores r c n, s.placeClusters r (span (c / 8) ((c + n - 1) / 8 + 1 - c / 8)) with
    | some places, some ranges =>
      let g : Group :=
        { launch := key, index := ix, part := p, first := c, cores := n, places := places, ranges := ranges
          live := launchTpg r, sent := [], enqueued := false, safeTable := [], hasTable := false, milestoneReq := false
          deadlinePosted := false, asking := none }
      some (ranges.foldl (fun t x => t.openVwin gh x) (s.setGroup gh g))
    | _, _ => none

/-- Places groups one after another from a core index on (R217): launch key, record and group index of each. -/
def State.placeRun (s : State) (p : Nat) : List (Nat × BitVec 1024 × Nat) → Nat → Option State
  | [], _ => some s
  | (key, r, ix) :: rest, c =>
    match s.placeAt p key r ix c with
    | some s1 => State.placeRun s1 p rest (c + (launchTpg r + launchH r - 1) / launchH r)
    | none => none

/-- Places groups at the lowest index where the whole run fits. -/
def State.placeLowest (s : State) (p : Nat) (l : List (Nat × BitVec 1024 × Nat)) : Option State :=
  let q := s.part p
  (List.range q.len).findSome? fun k => s.placeRun p l (q.base + k)

/-- The package without any reservation, for the check that a launch could ever fit (R216). -/
def State.vacant (s : State) : State :=
  { s with groups := [], threads := []
           clusters := s.clusters.map fun c => (c.1, { c.2 with vwcfg := [] }) }

/-- Enters a launch into service. -/
def State.enrol (s : State) (p : Nat) (l : QLaunch) (placed : Nat) : State × Nat :=
  let key := s.pkg.nextLaunch
  ({ s with launches := s.launches.set key ⟨l.record, l.num, p, l.channel, placed, 0, [], false, none⟩
            pkg := { s.pkg with nextLaunch := key + 1 } }, key)

/-! ## The reservation check -/

/-- Whether one waiting launch comes before another: higher priority, then earlier arrival (R215). -/
def before (a b : Nat × Nat × BitVec 32) : Bool :=
  decide (b.1 < a.1) || (a.1 == b.1 && (decide (a.2.1 < b.2.1) || (a.2.1 == b.2.1 && decide ((b.2.2 - a.2.2).toNat < 2 ^ 31))))

/-- Order of a queued launch. -/
def QLaunch.order (l : QLaunch) : Nat × Nat × BitVec 32 := (l.pri, l.since, l.num)

/-- Order of an assembled gang: its highest priority and its oldest member (R217). -/
def Gang.order (g : Gang) : Nat × Nat × BitVec 32 :=
  let pri := (g.members.map (·.pri)).foldl Nat.max 0
  match g.members with
  | [] => (pri, 0, 0)
  | m :: rest =>
    let old := rest.foldl (fun a b => if b.since < a.since then b else a) m
    (pri, old.since, old.num)

/-- A gang whose members are all present (R217). -/
def Gang.complete (g : Gang) : Bool :=
  match g.members with
  | [] => false
  | m :: _ => g.members.length == gangN m.record

/-- Whether a wait at a priority has reached 2^16 ticks below the highest (R215). -/
def overWaited (now pri since : Nat) : Bool := decide (pri < 3) && decide (2 ^ 16 ≤ now - since)

/-- Whether a gang, or a member of one that is not complete, is to move up (R215, R217). -/
def Gang.due (g : Gang) (now : Nat) : Bool :=
  if g.complete then overWaited now g.order.1 g.order.2.1 else g.members.any fun m => overWaited now m.pri m.since

/-- A gang after its wait has reached 2^16 ticks: it moves up whole once it is complete, its members alone before. -/
def Gang.promote (g : Gang) (now : Nat) : Gang :=
  let up (pri : Nat) (m : QLaunch) : QLaunch := { m with pri := pri + 1, since := now }
  { g with members := g.members.map fun m =>
      if g.complete then up g.order.1 m else if overWaited now m.pri m.since then up m.pri m else m }

/-- LAUNCH_PROMOTION: the oldest queued record that has waited 2^16 ticks at its priority moves up and counts as the
newest, and then the gangs of the assembly area do (R215, R217). (DEDUCED, log entry 104.) -/
def execLaunchPromotion (part : BitVec 6) (s : State) : Out :=
  let p := part.toNat
  let q := s.part p
  .next (match place (fun l => overWaited s.now l.pri l.since) q.queue with
    | some i => match q.queue[i]? with
      | some l => s.setPart p { q with queue := dropNth q.queue i ++ [{ l with pri := l.pri + 1, since := s.now }] }
      | none => s
    | none => if q.gangs.any (·.due s.now) then
        s.setPart p { q with gangs := q.gangs.map fun g => if g.due s.now then g.promote s.now else g }
      else s)

/-- The element of a list that comes first. -/
def firstOf {α : Type} (key : α → Nat × Nat × BitVec 32) : List α → Option α
  | [] => none
  | a :: t => match firstOf key t with
    | some b => if before (key b) (key a) then some b else some a
    | none => some a

/-- GANGID of a record. -/
def gangId (r : BitVec 1024) : BitVec 32 := BitVec.ofNat 32 (lget r 0x50 4)

/-- Takes a member of a gang out of the queue into the assembly area (R216, R217). Two members that do not fit together refuse
every member that has arrived. (DESIGN CHOICE, log entry 107.) -/
def State.assemble (s : State) (p i : Nat) (l : QLaunch) : State :=
  let q := s.part p
  let s1 := s.setPart p { q with queue := dropNth q.queue i }
  if !s.recordOk p l.record then s1.refuse p l 1
  else
    let q1 := s1.part p
    match place (fun g => g.id == gangId l.record) q1.gangs with
    | none => s1.setPart p { q1 with gangs := q1.gangs ++ [⟨gangId l.record, s.now, [l]⟩] }
    | some n => match q1.gangs[n]? with
      | none => s1
      | some g =>
        if g.members.any fun m => gangIx m.record == gangIx l.record || gangN m.record != gangN l.record then
          (g.members ++ [l]).foldl (fun t m => t.refuse p m 3) (s1.setPart p { q1 with gangs := dropNth q1.gangs n })
        else s1.setPart p { q1 with gangs := setNth q1.gangs n { g with members := g.members ++ [l] } }

/-- A queued gang member that can be set aside now (R217). -/
def State.nextMember (s : State) (p : Nat) : Option (Nat × QLaunch) :=
  let q := s.part p
  (place (fun l => launchGang l.record && (decide (q.gangs.length < 16)
      || q.gangs.any (fun g => g.id == gangId l.record) || !s.recordOk p l.record)) q.queue).bind fun i =>
    (q.queue[i]?).map fun l => (i, l)

/-- The groups of a gang in order of GANGIX, as placement takes them, and the state with its launches in service. (DEDUCED, log entry 52.) -/
def State.admitGang (s : State) (p : Nat) (g : Gang) : State × List (Nat × BitVec 1024 × Nat) :=
  (List.range g.members.length).foldl (fun acc ix =>
    match g.members.find? fun m => gangIx m.record == ix with
    | some m =>
      let (s1, key) := acc.1.enrol p m (launchGroups m.record)
      (s1, acc.2 ++ (List.range (launchGroups m.record)).map fun k => (key, m.record, k))
    | none => acc) (s, [])

/-- Cores that the members of a gang take in all. -/
def Gang.cores (g : Gang) : Nat :=
  (g.members.map fun m => launchGroups m.record * ((launchTpg m.record + launchH m.record - 1) / launchH m.record)).sum

/-- Serves a complete gang: placed whole, refused when it could never fit, or waiting (R216, R217). -/
def State.serveGang (s : State) (p n : Nat) (g : Gang) : State :=
  let q := s.part p
  let s0 := s.setPart p { q with gangs := dropNth q.gangs n }
  let never : Bool := decide (q.len < g.cores) ||
    (let (v, l) := s0.vacant.admitGang p g
     (v.placeLowest p l).isNone)
  if never then g.members.foldl (fun t m => t.refuse p m 2) s0
  else
    let (s1, l) := s0.admitGang p g
    (s1.placeLowest p l).getD s

/-- Serves a launch outside gangs from place i of the queue (R215, R216, R218). -/
def State.serveLaunch (s : State) (p i : Nat) (l : QLaunch) : State :=
  let q := s.part p
  let s0 := s.setPart p { q with queue := dropNth q.queue i }
  if !s.recordOk p l.record then s0.refuse p l 1
  else
    let try_ (s : State) : Option State :=
      let (s1, key) := s.enrol p l 1
      s1.placeLowest p [(key, l.record, 0)]
    if (try_ s0.vacant).isNone then s0.refuse p l 2
    else (try_ s0).getD s

/-- The stage-2 action of a partition (R214 to R218): the next group of the launch in service, else the next launch. -/
def State.reserve (s : State) (p : Nat) : State :=
  match s.launches.find? fun l => l.2.part == p && decide (l.2.placed < launchGroups l.2.record) with
  | some (key, l) =>
    match s.placeLowest p [(key, l.record, l.placed)] with
    | some s1 => { s1 with launches := s1.launches.set key { l with placed := l.placed + 1 } }
    | none => s
  | none =>
    match s.nextMember p with
    | some (i, l) => s.assemble p i l
    | none =>
      let q := s.part p
      let lone := firstOf QLaunch.order (q.queue.filter fun l => !launchGang l.record)
      let gang := firstOf Gang.order (q.gangs.filter Gang.complete)
      let useGang : Bool := match lone, gang with
        | some l, some g => before g.order l.order
        | none, some _ => true
        | _, _ => false
      if useGang then
        match gang with
        | some g => match place (· == g) q.gangs with
          | some n => s.serveGang p n g
          | none => s
        | none => s
      else match lone with
        | some l => match place (· == l) q.queue with
          | some i => s.serveLaunch p i l
          | none => s
        | none => s

/-- RESERVATION_CHECK (R215). -/
def execReservationCheck (part : BitVec 6) (s : State) : Out := .next (s.reserve part.toNat)

/-- GANG_TIMEOUT: a gang left incomplete for 2^20 ticks is refused (R216). -/
def execGangTimeout (part : BitVec 6) (gang : BitVec 32) (s : State) : Out :=
  let q := s.part part.toNat
  .next (match place (fun g => g.id == gang && !g.complete && decide (2 ^ 20 ≤ s.now - g.since)) q.gangs with
    | some n => match q.gangs[n]? with
      | some g => g.members.foldl (fun t m => t.refuse part.toNat m 3)
          (s.setPart part.toNat { q with gangs := dropNth q.gangs n })
      | none => s
    | none => s)

/-! ## Initial continuations -/

/-- Home of thread t of a group (R219). -/
def homeOf (r : BitVec 1024) (g : Group) (t : Nat) : Word :=
  let f := lget r 8 8
  if f = 0 then word (64 * ((g.places[t]?).map (·.lbase)).getD 0)
  else word (f + 64 * lget r 0x2E 2 * (g.index * launchTpg r + t))

/-- The initial record of thread t of a group (R219). -/
def initialRec (chip gh : Nat) (r : BitVec 1024) (g : Group) (t : Nat) : ContRec :=
  let c := launchCtl r
  let home := homeOf r g t
  { code := word (lget r 0 8), frame := home, join := 0
    flags := BitVec.ofNat 32 (bits c 63 48 * 2 ^ 16 + 16 + b2n (bit c 3) * 8 + b2n (bit c 2) * 4 + bits c 1 0)
    wid := word (t + g.index * 2 ^ launchW r 0), succ := 0
    aff := affOf gh 1 (g.first + t / launchH r) chip, arg0 := word (lget r 0x10 8), arg1 := word (lget r 0x18 8) }

/-- Writes and enqueues the initial record of thread t of a group; none while its ready queue is full (R214 stage 4, R219).
(DEDUCED, log entry 53.) -/
def State.enqueueInitial (s : State) (gh : Nat) (g : Group) (r : BitVec 1024) (t : Nat) : Except Halt (Option State) := do
  let c := initialRec s.chip gh r g t
  let home := homeOf r g t
  let u := g.first + t / launchH r
  let k : Asker := ⟨u, g.part, u, false, g.asking⟩
  let s1 := match ← outcomeOf (s.putRec k home c c.mark) with
    | .ok s1 => s1
    | .error h => (s.afterHalt h).joinErr (dieOf u) u home c.mark
  s1.enqueueRec c home k

/-- Enqueues the initial records of threads t, t + 1, …, n of them, that are not in a list and whose queue has a place:
a full queue holds only the records that go there (R214). The state, the threads enqueued, and whether one of the others found
no answer. -/
def State.enqueueMore (s : State) (gh : Nat) (g : Group) (r : BitVec 1024) (sent : List Nat) (t : Nat) :
    Nat → State × List Nat × Bool
  | 0 => (s, sent, false)
  | n + 1 =>
    match (if sent.contains t then .ok none else s.enqueueInitial gh g r t) with
    | .ok (some s1) => State.enqueueMore s1 gh g r (sent ++ [t]) (t + 1) n
    | .ok none => State.enqueueMore s gh g r sent (t + 1) n
    | .error _ =>
      let (s1, l, _) := State.enqueueMore s gh g r sent (t + 1) n
      (s1, l, true)

/-- Whether a launch of a partition placed before a group's still has initial records to enqueue: stage 4 holds one launch
of a partition at a time (R214). -/
def State.stageTaken (s : State) (g : Group) : Bool :=
  s.groups.any fun e => e.2.part == g.part && !e.2.enqueued && decide (e.2.launch < g.launch)

/-- INITIAL_ENQUEUE of a placed group: its records that find a place; the others wait (R214, R219). -/
def execInitialEnqueue (gh : BitVec 16) (s : State) : Out :=
  let k := gh.toNat
  .next (match s.group? k with
    | some g =>
      if g.enqueued || s.stageTaken g then s
      else match s.launchOf g with
        | some l =>
          let n := launchTpg l.record
          let (s1, sent, silent) := s.enqueueMore k g l.record g.sent 0 n
          let all := decide (n ≤ sent.length)
          match s1.group? k with
          | some h => s1.setGroup k { h with sent := if all then [] else sent, enqueued := all
                                             asking := if silent then some (g.asking.getD s.now) else none }
          | none => s1
        | none => s
    | none => s)

/-! ## Completion -/

/-- Byte and bit of group g in a completion bitmap (R230). -/
def bitmapAt (done : Word) (g : Nat) : Word × Nat := (done + word (g / 8), g % 8)

/-- Whether the bits of groups g, g + 1, …, n of them, are set at a bitmap or counted as lost (R230, R525). -/
def State.bitmapFull (s : State) (k : Asker) (done : Word) (lost : List Nat) (g : Nat) : Nat → Except Halt (State × Bool)
  | 0 => .ok (s, true)
  | n + 1 =>
    if lost.contains g then State.bitmapFull s k done lost (g + 1) n
    else do
      let (a, b) := bitmapAt done g
      match ← outcomeOf (s.loadAs (k.agent s.now a) a 1) with
      | .error h => .ok (s.afterHalt h, false)
      | .ok (s1, bs, _) =>
        if bit (ofBytes bs) b then State.bitmapFull s1 k done lost (g + 1) n else .ok (s1, false)

/-- Posts a launch's completion event once (R230). -/
def State.complete (s : State) (key : Nat) : State :=
  match s.launches.get? key with
  | some l =>
    if l.completed then s
    else ({ s with launches := s.launches.set key { l with completed := true } }).postHost
      (l.channel.getD (s.homeChannel l.part)) 0x02 0 l.num.toNat 0 0
  | none => s

/-- Posts the completion event of a launch whose bitmap is full (R230, R525). -/
def State.checkBitmap (s : State) (k : Asker) (key : Nat) : Except Halt State :=
  match s.launches.get? key with
  | some l => do
    let (s1, full) ← s.bitmapFull { k with part := l.part } (launchDone l.record) l.lost 0 (launchGroups l.record)
    .ok (if full then s1.complete key else s1)
  | none => .ok s

/-- Sets a bit of a bitmap without a mark and without a ceiling check (R281). (DEDUCED, log entry 55.) -/
def State.setBitRaw (s : State) (k : Asker) (a : Word) (b : Nat) : Except Halt State := do
  let g := k.agent s.now a
  let (s1, bs, _) ← s.loadAs g a 1
  let v : List Byte := [BitVec.ofNat 8 (ofBytes bs ||| 2 ^ b)]
  let ask (t : State) (chip : Nat) : Except Halt State :=
    match t.askRemote g chip a 0 with
    | .data t1 _ _ => .ok t1
    | .refused d => denyWith 0x24 a 0 d
    | .silent => .error (.silent chip)
  if bit (ofBytes bs) b then .ok s1
  else match ← s1.resolve g a 1 true false with
    | .loc l => .ok { s1 with mem := s1.mem.write l v }
    | .virt => do
      match ← s1.pieces (g.part.getD 0) a true 2 0 1 with
      | (s2, x :: _) =>
        if x.leaf.tgt = 0 then .ok { s2 with mem := s2.mem.write (hbmLoc + x.leaf.pa) v }
        else if x.leaf.tgt = 1 then match s2.askHost g with
          | .data s3 _ _ => .ok { s3 with mem := s3.mem.write (hostLoc + x.leaf.pa) v }
          | .refused d => denyWith 0x24 a 0 d
          | .silent => .error (.silent hostChip)
        else if x.leaf.tgt = 2 then ask s2 x.leaf.chip
        else trapWith 0x24 a 0
      | (s2, []) => .ok s2
    | .remote chip => ask s1 chip
    | .ctl _ _ => bounds a 0 true

/-- What the end of a group does to its launch (R230, R525). The decrements of a DONE list join 0x0000 into their homes.
(DEDUCED, log entries 26, 98.) -/
def State.groupEnded (s : State) (g : Group) : Except Halt State :=
  match s.launches.get? g.launch with
  | none => .ok s
  | some l => do
    let r := l.record
    let k : Asker := ⟨g.first, g.part, g.first, false, g.asking⟩
    let done := launchDone r
    let last : Bool := decide (launchGroups r ≤ l.ended + 1)
    let s1 := { s with launches := s.launches.set g.launch { l with ended := l.ended + 1 } }
    let s2 ← (if launchCmode r && done != 0 then do
        let (a, b) := bitmapAt done g.index
        let t := match ← outcomeOf (s1.setBitRaw k a b) with
          | .ok t => t
          | .error h =>
            let t := (s1.afterHalt h).joinErr (dieOf g.first) g.first a 0
            { t with launches := t.launches.set g.launch { l with ended := l.ended + 1, lost := l.lost ++ [g.index] } }
        if last then .ok (t.complete g.launch) else t.checkBitmap k g.launch
      else if last then do
        let t ← if !launchCmode r && done != 0 then s1.successors k done 0 else .ok s1
        .ok (t.complete g.launch)
      else .ok s1 : Except Halt State)
    .ok (if last then { s2 with launches := s2.launches.erase g.launch } else s2)

/-- EN = 0 of a circular buffer, with the write that was held (R310). -/
def CircBuf.disable (b : CircBuf) : CircBuf :=
  { b with cfg := (b.heldCfg.getD b.cfg) &&& ~~~(1#64 <<< 47), heldCfg := none, published := [], released := [], ops := []
           claimers := [], takers := [] }

/-- What a cluster does when a group ends (R310, R312): its buffers stop and its versioned windows close. (DEDUCED, log entry 59.) -/
def Cluster.endGroup (c : Cluster) (gh : Nat) (v : List SpadRange) : Cluster :=
  let wins := (c.vwcfg.filter fun e => e.2.getLsbD 47 && field e.2 63 48 == gh).map fun e =>
    (field e.2 10 0, field e.2 24 16)
  let ranges := v.map fun r => (r.base, r.len)
  { c with
    cbs := c.cbs.map fun b => (b.1, if b.2.en && field b.2.cfg 63 48 == gh then b.2.disable else b.2)
    vwcfg := c.vwcfg.map fun e => if field e.2 63 48 == gh then (e.1, e.2 &&& ~~~(1#64 <<< 47)) else e
    vcells := c.vcells.filter fun e => !(wins ++ ranges).any fun w =>
      decide (512 * w.1 ≤ e.1) && decide (e.1 < 512 * (w.1 + w.2)) }

/-- Whether a partition has a reservation. -/
def State.reserved (s : State) (p : Nat) : Bool := s.groups.any fun g => g.2.part == p

/-- PORIG after a write (Table 20.2): two or more bits leave LORIG unchanged. -/
def porigWith (old v : Word) : Word :=
  word (b2n (v.getLsbD 17) * 2 ^ 17 + (if popcount 16 (field v 15 0) ≤ 1 then field v 15 0 else field old 15 0))

/-- Applies the held writes of a partition's slot table when no group of it holds a reservation (R476): keys 0 to 15
are the SLOT registers, 16 is PORIG. -/
def State.applySlots (s : State) (p : Nat) : State :=
  if s.reserved p then s
  else
    let q := s.part p
    s.setPart p (q.heldSlots.foldl (fun x h =>
      if h.1 = 16 then { x with porig := porigWith x.porig h.2 } else { x with slots := x.slots.set h.1 h.2 }) { q with heldSlots := [] })

/-- GROUP_END: a group without live continuations is zero-filled, then its reservation is released (R220), and the requests
on its threads end (R432). -/
def State.endGroup (s : State) (gh : Nat) (g : Group) : Except Halt State := do
  let s1 := s.stopRings gh
  let s2 := g.clusters.foldl (fun t j =>
    t.setCluster j ((t.cluster j).endGroup gh (g.ranges.filter fun r => r.cluster == j))) s1
  let m1 := g.places.foldl (fun m p => m.zero (unitLoc p.unit + 64 * p.lbase) (64 * p.llen)) s2.mem
  let m2 := g.ranges.foldl (fun m r => m.zero (spadLoc r.cluster + 512 * r.base) (512 * r.len)) m1
  let s3 := { s2 with mem := m2, groups := s2.groups.erase gh }
  let s4 := g.places.foldl (fun t p => let id : ThreadId := ⟨p.unit, p.set, p.ht⟩
                                       t.setThread id { t.thread id with reqs := Requests.none }) s3
  let s5 ← s4.groupEnded g
  .ok (s5.applySlots g.part)

/-- GROUP_END (R220, R229). -/
def execGroupEnd (gh : BitVec 16) (s : State) : Out :=
  .next (match s.group? gh.toNat with
    | some g =>
      if g.enqueued && g.live == 0 then match s.endGroup gh.toNat g with
        | .ok s1 => s1
        | .error _ => s.setGroup gh.toNat { g with asking := some (g.asking.getD s.now) }
      else s
    | none => s)

end Sys2Proof.Machine
end

