-- ==== Sys2Proof/Machine/Tasks.lean ====
section
/-! DEFINITION. Page 3 without the ring forms: work identifiers, creating, suspending and ending continuations,
supersteps, work sharing; and EXIT (R132). -/

namespace Sys2Proof.Machine

open Sys2Proof

/-- ARITH 0x38: a form that the kind of core does not support (R293). -/
def State.noKind (s : State) (channelToo : Bool) : Except Halt Unit :=
  if isDcp s.cur.unit || isSec s.cur.unit || (channelToo && isChannel s.cur.unit) then arith 0x38 0 0 else .ok ()

/-! ## Work identifiers -/

/-- WIDF (R272, R526). -/
def execWidf (d : Reg) (n : BitVec 3) (s : State) : Out :=
  runA (.widf d n) (fun s =>
    let w := s.me.csr.widb
    let a := s.startOf n.toNat
    .ok (s.result d (word (w.val.toNat / 2 ^ a % 2 ^ s.widthOf n.toNat)) w.mark)) s

/-- X(D) with field i of width w at bit a replaced (R273). -/
def widPut (x : Word) (a w : Nat) (v : Word) : Word :=
  if w = 0 then x
  else word (x.toNat - x.toNat / 2 ^ a % 2 ^ w * 2 ^ a + v.toNat % 2 ^ w * 2 ^ a)

/-- WIDR (R273, R526). -/
def execWidr (d a b : Reg) (s : State) : Out :=
  let i : Instr := .widr d a b
  runA i (fun s =>
    let n := field (s.x a) 2 0
    if 5 < n then arith 0x37 0 0
    else .ok (s.result d (widPut (s.x d) (s.startOf n) (s.widthOf n) (s.x b)) (s.rmark i))) s

/-! ## Creating continuations -/

/-- Priority of the running continuation (R274). -/
def Thread.pri (t : Thread) : Nat :=
  match t.cont with
  | some c => c.record.pri
  | none => 0

/-- A record with the control immediate applied (R274). -/
def State.spawnApply (s : State) (r : ContRec) (gh pri here : Bool) : ContRec :=
  let g := if gh then s.me.gh else r.gh
  let r1 := { r with flags := if pri then flagsPri r.flags s.me.pri else r.flags }
  let u := s.cur.unit
  if here then
    { r1 with aff := if isChannel u then affOf g 2 u s.chip else affOf g 0 (0x1000 + clusterOf u) s.chip }
  else { r1 with aff := setField r.aff 63 48 g }

/-- The checks of R274 on a record. -/
def State.spawnCheck (s : State) (r : ContRec) (a : Word) : Except Halt Unit :=
  if r.join.getLsbD 31 || r.reserved || r.kind == 3 || r.state == 1 || r.state == 2 then arith 0x30 0 a
  else if (r.flags.getLsbD 2 && !s.me.csr.priv) || (r.flags.getLsbD 3 && !s.me.csr.gcp) then arith 0x31 0 a
  else .ok ()

/-- The cluster of a core or a scratchpad, if a unit is one. -/
def unitCluster (u : Nat) : Option Nat :=
  if isCompute u then some (clusterOf u) else if u < 0x1200 then some (u - 0x1000) else none

/-- AFF that SPAWN accepts (R275). -/
def State.spawnHere (s : State) (r : ContRec) : Bool :=
  r.chip == s.chip &&
    (if isChannel s.cur.unit then r.kind == 2 && r.unit == s.cur.unit
     else decide (r.kind ≤ 1) && unitCluster r.unit == some (clusterOf s.cur.unit) && (r.kind == 0 || isCompute r.unit))

/-- Kind, unit and chip of the owner of an address (R228, R276). -/
def State.ownerOf (s : State) (t a : Word) : Except Halt (Nat × Nat × Nat) :=
  match field t 63 62 with
  | 0 =>
    if isChannel s.cur.unit then .ok (2, s.cur.unit, s.chip)
    else if t.toNat < 0x10000 then .ok (1, s.cur.unit, s.chip)
    else .ok (0, 0x1000 + clusterOf s.cur.unit, s.chip)
  | 1 => .ok (2, 0x1200 + sliceOf t, s.chip)
  | 2 =>
    let u := field t 33 21
    let c := field t 52 34
    if isCompute u then .ok (1, u, c)
    else if u < 0x1200 then .ok (0, u, c)
    else if isChannel u then .ok (2, u, c)
    else arith 0x30 0 a
  | _ => arith 0x30 0 a

/-- The space-10 address of a byte of the running thread's space 00 (R276). -/
def State.farAddr (s : State) (a : Word) : Word :=
  if field a 63 62 ≠ 0 then a
  else
    let (u, o) := if a.toNat < 0x100000 then (s.cur.unit, a.toNat) else (0x1000 + clusterOf s.cur.unit, a.toNat - 0x100000)
    word (2 * 2 ^ 62 + s.chip * 2 ^ 34 + u * 2 ^ 21 + o)

/-- The accepted record: its mark, TRIGD and STATE (R274). -/
def accepted (r : ContRec) (m : Mark) : ContRec :=
  { r with flags := flagsMark (flagsWith r.flags (if r.join = 0 then 1 else 0) false) (r.mark ||| m) }

/-- Updates the home and enqueues a READY record (R274, R277): the continuation counts for the group whose handle its record
carries (R229), on the package that the record goes to. -/
def State.spawnDone (s : State) (r : ContRec) (a home : Word) (m : Mark) : Run? := do
  let r1 := accepted r m
  let s1 ← s.storeAs s.agent a r1.bytes m
  let s2 := if r1.chip = s.chip then s1.live r1.gh true else s1
  if r1.state = 1 then
    match ← s2.enqueueRec r1 home ⟨s.cur.unit, s.partIx s.cur, s.cur.unit, true, none⟩ with
    | some s3 => .ok s3
    | none => holdOn
  else .ok s2

/-- Reads the record at an address and checks the store of it, with the mark that joins what was read (R274, R45). -/
def State.spawnRead (s : State) (i : Instr) (a : Word) : Except Halt (State × ContRec × Mark) := do
  let (s1, bs, lm) ← s.loadAs s.agent a 64
  let m := s.rmark i ||| lm
  let (s2, _, _) ← s1.checkAs s.agent a 64 m false
  .ok (s2, recOfBytes bs, m)

/-- SPAWN (R274, R275, R277). -/
def execSpawn (a : Reg) (gh pri here : Bool) (s : State) : Out :=
  let i : Instr := .spawn a gh pri here
  runA i (fun s => do
    let (s1, r0, m) ← alongside (s.noKind false) (s.spawnRead i (s.x a))
    if !aligned (s.x a).toNat 64 then arith 0x30 0 (s.x a)
    else do
      let r := s.spawnApply r0 gh pri here
      s.spawnCheck r (s.x a)
      if !s.spawnHere r then arith 0x30 0 (s.x a) else s1.spawnDone r (s.x a) (s.x a) m) s

/-- The package that an owner lies on. -/
def State.ownerChip (s : State) (o : Except Halt (Nat × Nat × Nat)) : Nat :=
  match o with
  | .ok (_, _, c) => c
  | .error _ => s.chip

/-- SPAWND (R274, R276, R277); a record for another package is checked for egress (R478). -/
def execSpawnd (d a : Reg) (gh pri : Bool) (s : State) : Out :=
  let i : Instr := .spawnd d a gh pri
  runA i (fun s => do
    let owner := s.ownerOf (s.x d) (s.x a)
    let (s1, r0, m) ← alongside (s.noKind false) (do
      let (s1, r, m) ← s.spawnRead i (s.x a)
      let r0 := s.spawnApply r gh pri false
      match (if s.ownerChip owner = s.chip then none else s.egress s.agent (r0.mark ||| m)) with
      | some x => trapWith 0x21 (s.x d) x
      | none => .ok (s1, r0, m))
    if !aligned (s.x a).toNat 64 then arith 0x30 0 (s.x a)
    else do
      let (k, u, c) ← owner
      let r := { r0 with aff := affOf r0.gh k u c }
      s.spawnCheck { r with aff := r0.aff } (s.x a)
      s1.spawnDone r (s.x a) (s.farAddr (s.x a)) m) s

/-! ## Joins and triggers -/

/-- JOIN (R279); its request to another package is checked for egress (R478). (DESIGN CHOICE, log entry 56.) -/
def execJoin (d a : Reg) (s : State) : Out :=
  let i : Instr := .join d a
  runA i (fun s => do
    let at_ := s.x a
    let g := s.agent
    match ← s.resolve g at_ 64 true false with
    | .remote chip => match s.egress g (s.rmark i) with
      | some x => trapWith 0x21 at_ x
      | none =>
        if !aligned at_.toNat 64 then arith 0x30 0 at_
        else match s.askRemote g chip at_ 8 with
          | .data s1 bs m => .ok (s1.result d (word (ofBytes bs % 3)) (s.rmark i ||| m))
          | .refused x => denyBounds at_ true x
          | .silent => .error (.silent chip)
    | _ =>
      let (s1, _, lm) ← s.loadAs g at_ 64
      let m := s.rmark i ||| lm
      let (s2, _, _) ← s1.checkAs g (at_ + 0x10) 8 m false
      if !aligned at_.toNat 64 then arith 0x30 0 at_
      else match ← s2.decrement ⟨s.cur.unit, s.partIx s.cur, s.cur.unit, true, none⟩ at_ m with
        | some (s3, n, _) => .ok (s3.result d (word n) m)
        | none => holdOn) s

/-- The scheduler as it acts for the continuation of a thread. -/
def State.askerOf (s : State) (t : ThreadId) (c : Cont) : Asker := ⟨c.unit, c.part, t.unit, false, (s.thread t).asking⟩

/-- Sets TRIGD or STATE at the home of a thread's continuation, joining CMARK (R224): the state after it and TRIGD as
it stood; an unreachable home posts JOINERR (R525). -/
def State.homeFlags (s : State) (t : ThreadId) (c : Cont) (f : ContRec → ContRec) : Except Halt (State × Option ContRec) := do
  let m := (s.thread t).csr.cmark
  let k := s.askerOf t c
  let write : Except Halt (State × ContRec) := do
    let (s1, r, _) ← s.readRec k c.home
    let s2 ← s1.putState k c.home (f r) m
    .ok (s2, r)
  match ← outcomeOf write with
  | .ok (s2, r) => .ok (s2, some r)
  | .error h => .ok ((s.afterHalt h).joinErr (dieOf t.unit) t.unit c.home m, none)

/-- The successor decrements of a continuation that belongs to a group, once (R225, R526). -/
def State.fire (s : State) (t : ThreadId) (c : Cont) (done : Bool) : Except Halt State :=
  if done || c.trigd || c.record.succ == 0 || c.record.gh == 0 then .ok s
  else s.successors (s.askerOf t c) c.record.succ (s.thread t).csr.cmark

/-- The state once the scheduler has had its answers for the running thread. -/
def State.askOver (s : State) : State :=
  if s.me.asking.isSome then s.setMe { s.me with asking := none } else s

/-- Runs an A-side instruction for which the scheduler makes accesses: it is held until they are answered or refused (R456). -/
def runSched (i : Instr) (body : State → Run?) (s : State) : Out :=
  match body s.advance with
  | .ok s1 => .next s1.askOver
  | .error (.silent _) => .next ((s.askFor s.cur).halt i (.wait 0 0 0 0))
  | .error (.wait k n u c) => .next (s.halt i (.wait k n u c))
  | .error (.trap c f x y z d) => .next (s.halt i (.trap c f x y z d))

/-- TRIG (R280, R225, R526). -/
def execTrig (s : State) : Out :=
  runSched .trig (fun s =>
    match s.me.cont with
    | none => .ok s
    | some c =>
      if c.record.gh = 0 then .ok s
      else if !s.eMemIdle then holdOn
      else do
        let (s1, old) ← s.homeFlags s.cur c fun r => { r with flags := flagsWith r.flags r.state true }
        let s2 ← s1.fire s.cur c ((old.map ContRec.trigd).getD false)
        .ok (s2.setMe { s2.me with cont := some { c with trigd := true } })) s

/-! ## Ending and suspending -/

/-- Closes the thread's stream and fibre slots (R132). -/
def Thread.closeSlots (t : Thread) : Thread :=
  { t with slots := t.slots.map (fun x => { x with opened := false, fetched := [] })
           fibres := t.fibres.map (fun f => { f with opened := false }), pend := false }

/-- Whether a thread holds a lease that has accepted commands which are not complete (R132). -/
def State.leaseBusy (s : State) (t : ThreadId) : Bool :=
  isCompute t.unit &&
    (let c := s.cluster (clusterOf t.unit)
     [c.half0, c.half1].any fun h =>
       (match h.lease with | some (u, _) => u == t | none => false)
         && (h.queue.any (·.thread == t) || h.saved.any (·.1 == t)))

/-- Whether a copy or an indirect copy of a thread has not delivered what it owes (R132). -/
def State.copiesBusy (s : State) (t : ThreadId) : Bool :=
  let e := s.eng (engKey t.unit)
  e.copies.any (·.thread == t) || e.inds.any (·.thread == t)

/-- A recorded matrix fault of a thread that ends without MDRAIN is dropped and posted (R386). -/
def State.dropMatFault (s : State) (t : ThreadId) : State :=
  let c := s.ctxSet t.unit t.set
  match c.fault with
  | some f =>
    if isCompute t.unit && f.thread == t.ht then
      (s.setCtxSet t.unit t.set { c with fault := none }).postDcp (dieOf t.unit) 7 t (word f.code) 0 0 0 0 0
    else s
  | none => s

/-- The thread as it is when its continuation has left it. -/
def Thread.vacate (t : Thread) : Thread :=
  let u := t.closeSlots
  { u with run := .idle, cont := none, arrivals := [], trapFrame := Frame.empty, resumeFrame := Frame.empty
           csr := { u.csr with intrap := false, cmark := 0 }, mailbox := [], bq := ⟨[], 0⟩, rcnt := 0, equeue := []
           wheel := { Wheel.empty with len := u.wheel.len, wm := u.wheel.wm }, windows := [], aWait := none, eWait := none, hold := none
           remote := none, asking := none, sending := none, target := none }

/-- Leaves a thread without its continuation. A request stands on a thread of a channel core only while it runs a continuation
of the group (R430 to R432). -/
def State.vacate (s : State) (t : ThreadId) : State :=
  let x := (s.thread t).vacate
  s.setThread t (if isChannel t.unit then { x with reqs := Requests.none } else x)

/-- What EXIT does after its waits (R132, R38, R224, R225, R229, R250): the SEC stops at the branch-outcome queue
(R495). -/
def State.endCont (s : State) (t : ThreadId) : Except Halt State :=
  let s1 := ((s.loseLocks t).endLeases t).dropMatFault t
  let x := s1.thread t
  if isSec t.unit then
    let v := x.vacate
    .ok (s1.setThread t { v with csr := x.csr, trapFrame := x.trapFrame, arrivals := x.arrivals })
  else match x.cont with
    | none => .ok (s1.vacate t)
    | some c => do
      let (s2, old) ← s1.homeFlags t c fun r =>
        { r with flags := flagsWith (flagsMark r.flags (r.mark ||| x.csr.cmark)) 3 r.trigd }
      let s3 ← s2.fire t c ((old.map ContRec.trigd).getD false)
      .ok (((s3.freePairSlot (s.askerOf t c) c.home).live c.record.gh false).vacate t)

/-- The steps of EXIT between its first wait and its end, as far as a thread's engines let them go (R132): the slots close,
the lock bits are released, the lease ends once its commands are complete, and the copies deliver. The state, and whether
nothing of them is left to wait for. -/
def State.exitSteps (s : State) (t : ThreadId) : State × Bool :=
  let s1 := (s.setThread t (s.thread t).closeSlots).loseLocks t
  if s1.leaseBusy t then (s1, false)
  else
    let s2 := s1.endLeases t
    (s2, !s2.copiesBusy t)

/-- EXIT (R132): its first wait, its releases, its waits for engines, then the end. -/
def execExit (s : State) : Out :=
  if !s.eIdle then .next (s.halt .exit (.wait 0 0 0 0))
  else
    let (s1, ready) := s.exitSteps s.cur
    .next (if ready then match s1.advance.endCont s.cur with
        | .ok s2 => s2
        | .error _ => (s1.askFor s.cur).halt .exit (.wait 0 0 0 0)
      else s1.halt .exit (.wait 0 0 0 0))

/-- HTRES END begins a thread's end (R429): it runs nothing more. -/
def State.beginEnd (s : State) (t : ThreadId) : State :=
  let s1 := s.dropRequests t
  let x := s1.thread t
  s1.setThread t { x with run := .parkedPre, hold := some .ending, equeue := [], windows := [], aWait := none, eWait := none, remote := none
                          asking := none, sending := none, target := none
                          wheel := { x.wheel with act := false } }

/-- Ends a thread whose end has begun, once its engines let it (R132, R429). -/
def State.finishEnd (s : State) (t : ThreadId) : State :=
  let (s1, ready) := s.exitSteps t
  if ready then match s1.endCont t with
    | .ok s2 => s2
    | .error _ => s1.askFor t
  else s1

/-- A record as SUSP writes it back (R278). -/
def suspRec (h : ContRec) (t : Thread) (code : Word) (inc : Nat) (m : Mark) : ContRec :=
  let x2 := t.regs.getX 2
  let x10 := t.regs.getX 10
  let x11 := t.regs.getX 11
  let j : BitVec 32 := h.join + BitVec.ofNat 32 inc
  let ready : Bool := j == 0 || j.getLsbD 31
  let mk := joins [h.mark, t.csr.cmark, m, x2.mark, x10.mark, x11.mark]
  { h with code := code, frame := x2.val, arg0 := x10.val, arg1 := x11.val, join := if ready then 0 else j
           flags := flagsMark (flagsWith h.flags (if ready then 1 else 0) h.trigd) mk }

/-- SUSP after its waits (R278, R525); none while a full ready queue holds it. -/
def State.suspend (s : State) (code : Word) (inc : Nat) (m : Mark) : Except Halt (Option State) := do
  let t := s.cur
  let s1 := ((s.loseLocks t).endLeases t).dropMatFault t
  let x := s1.thread t
  match x.cont with
  | none => .ok (some (s1.vacate t))
  | some c =>
    let k := s1.askerOf t c
    let write : Except Halt (State × ContRec) := do
      let (s2, h, _) ← s1.readRec k c.home
      let r := suspRec h x code inc m
      let s3 ← s2.putRec k c.home r r.mark
      .ok (s3, r)
    match ← outcomeOf write with
    | .error h =>
      let s2 := (s1.afterHalt h).joinErr (dieOf t.unit) t.unit c.home x.csr.cmark
      .ok (some (((s2.freePairSlot k c.home).live c.record.gh false).vacate t))
    | .ok (s3, r) =>
      if r.state = 1 then .ok ((← s3.enqueueRec r c.home k).map fun s4 => s4.vacate t)
      else .ok (some (s3.vacate t))

/-- SUSP (R278): X(B) is read before the waits, X(A) after them, when every window has closed. -/
def execSusp (a b : Reg) (s : State) : Out :=
  let i : Instr := .susp a b
  let inc := (s.x b).toNat
  if isDcp s.cur.unit || isSec s.cur.unit then .next (s.halt i (.trap 0x05 0 (word (0x38 * 2 ^ 56)) false 0 none))
  else if 2 ^ 31 - 1 < inc then .next (s.halt i (.trap 0x05 0 (word (0x37 * 2 ^ 56)) false 0 none))
  else if !s.eIdle then .next (s.halt i (.wait 0 0 0 0))
  else
    let (s1, ready) := s.exitSteps s.cur
    let s2 := s1.setMe { s1.me with windows := [] }
    let code := if a = 0 then s.latch.addr + word s.latch.len else s2.x a
    match (if ready then s2.advance.suspend code inc (s2.xm a ||| s.xm b) else .ok none) with
    | .ok (some s3) => .next s3
    | .ok none => .next (s1.halt i (.wait 0 0 0 0))
    | .error _ => .next ((s1.askFor s.cur).halt i (.wait 0 0 0 0))

/-! ## Completion and launches from the device -/

/-- GDONE (R281); a bitmap that it cannot reach posts JOINERR (R525). -/
def execGdone (d a : Reg) (s : State) : Out :=
  let i : Instr := .gdone d a
  runSched i (fun s => do
    if !s.me.csr.gcp then ill s
    else do
      s.noKind false
      match s.myLaunch with
      | none => arith 0x32 0 0
      | some (g, l) =>
        let done := launchDone l.record
        let n := (s.x a).toNat
        if !launchCmode l.record || done == 0 || decide (launchGroups l.record ≤ n) then arith 0x32 0 0
        else
          let (at_, b) := bitmapAt done n
          let k : Asker := ⟨s.cur.unit, g.part, s.cur.unit, false, s.me.asking⟩
          let ag := k.agent s.now at_
          let m := s.rmark i
          let miss (h : Halt) : Run? := .ok (((s.afterHalt h).joinErr (dieOf s.cur.unit) s.cur.unit at_ m).result d 0 m)
          match ← outcomeOf (s.loadAs ag at_ 1) with
          | .error h => miss h
          | .ok (s1, bs, lm) =>
            let old := ofBytes bs
            match ← outcomeOf (s1.storeAs ag at_ [BitVec.ofNat 8 (old ||| 2 ^ b)] m) with
            | .error (.trap c f x df sl dn) => if c = 0x21 then .error (.trap c f x df sl dn) else miss (.trap c f x df sl dn)
            | .error h => miss h
            | .ok s2 => do
              let s3 ← if bit old b then .ok s2 else s2.checkBitmap k g.launch
              .ok (s3.result d (word (b2n (!bit old b))) (m ||| lm))) s

/-- GLAUNCH (R282). -/
def execGlaunch (d a : Reg) (s : State) : Out :=
  let i : Instr := .glaunch d a
  runA i (fun s => do
    if !aligned (s.x a).toNat 128 then bounds (s.x a) 3 false
    else do
      let (s1, bs, lm) ← s.loadAs s.agent (s.x a) 128
      let r : BitVec 1024 := BitVec.ofNat 1024 (ofBytes bs)
      let c := launchCtl r
      let m := s.rmark i ||| lm
      let p := s.partIx s.cur
      if (bit c 2 && !s.me.csr.priv) || (bit c 3 && !s.me.csr.gcp) then arith 0x31 0 (s.x a)
      else if !s1.queueRoom p then waitOn 0x0D 0 0x1FFF s.chip
      else
        let (s2, n) := s1.queueLaunch p (launchMark r m) none
        .ok (s2.result d (n.setWidth 64) m)) s

/-! ## Barrier domains -/

/-- The domain check (R284), made before every other check of these forms. -/
def State.needDomain (s : State) (d : Nat) : Except Halt Unit :=
  let named := match s.myLaunch with
    | some (_, l) => bit (launchDom l.record) d
    | none => false
  if named && (s.dom (s.partIx s.cur) d).exp != 0 then .ok () else arith 0x33 d 0

/-- The vote's identity (R285). -/
def voteStart (vmode : Bool) : Bool := !vmode

/-- DSTAT (Table 8.9). -/
def Domain.stat (x : Domain) : Word := word (x.epoch.toNat * 2 ^ 48 + x.pend % 2 ^ 28 * 2 ^ 16 + x.arr % 2 ^ 16)

/-- Gives DCFG a value; a change of VMODE starts the vote again (DEDUCED, log entry 30). -/
def Domain.configure (x : Domain) (v : Word) : Domain :=
  let c := v &&& 0x1FFFF
  { x with dcfg := c, vote := if c.getLsbD 16 = x.vmode then x.vote else voteStart (c.getLsbD 16) }

/-- A domain after its milestone (R233, R234, R285). -/
def Domain.milestone (x : Domain) (tb : Word) (now : Nat) : Domain :=
  let e := x.epoch + 1
  let y := { x with epoch := e, mtb := tb, mtbNow := some now, arr := 0
                    lastVote := word (e.toNat * 2 ^ 48 + b2n x.vote), lastVoteMark := x.voteMark, voteMark := 0 }
  let z := match x.held with
    | some v => { y with dcfg := v &&& 0x1FFFF, held := none }
    | none => y
  { z with vote := voteStart z.vmode }

/-- The milestone that a group's milestone request waits for (R430): every thread on which the request still stands is to
park at its next A-side instruction boundary. -/
def State.askMilestone (s : State) (gh : Nat) (g : Group) : State :=
  let s1 := s.askThreads gh g fun r => { r with pending := false, milestone := r.milestone || r.pending }
  (s1.setGroup gh { g with milestoneReq := false }).parkRings gh

/-- What a milestone of domain d does to the groups that name it (R430, R432). -/
def State.milestoneGroups (s : State) (p d : Nat) : State :=
  s.groups.foldl (fun t e =>
    match t.group? e.1, s.launchOf e.2 with
    | some g, some l =>
      if g.part = p ∧ bit (launchDom l.record) d then
        let g1 := { g with deadlinePosted := false }
        if g.milestoneReq then t.askMilestone e.1 g1 else t.setGroup e.1 g1
      else t
    | _, _ => t) s

/-- The milestone of a domain when ARR = EXP and PEND = 0 (R233). -/
def State.checkMilestone (s : State) (p d : Nat) : State :=
  let x := s.dom p d
  if x.exp ≠ 0 ∧ x.arr = x.exp ∧ x.pend = 0 then
    (s.setDom p d (x.milestone s.tbase s.now)).milestoneGroups p d
  else s

/-- A write of DCFG (R233). -/
def State.writeDcfg (s : State) (p d : Nat) (v : Word) : State :=
  let x := s.dom p d
  if x.arr ≠ 0 ∨ x.pend ≠ 0 then s.setDom p d { x with held := some v } else s.setDom p d (x.configure v)

/-- SSTEP (R283). -/
def execSstep (d a : Reg) (s : State) : Out :=
  let i : Instr := .sstep d a
  runA i (fun s => do
    s.noKind false
    let n := field (s.x a) 5 0
    s.needDomain n
    let x := s.dom (s.partIx s.cur) n
    match field (s.x a) 7 6 with
    | 0 => .ok (s.result d x.stat (s.xm a))
    | 1 => .ok (s.result d x.mtb (s.xm a))
    | 2 => .ok (s.result d x.dcfg (s.xm a))
    | _ => .ok (s.result d x.lastVote (s.xm a ||| x.lastVoteMark))) s

/-- Whether the running thread has arrived in the superstep in progress (R284). -/
def State.arrived (s : State) (d : Nat) : Bool :=
  s.me.arrivals.get? d == some (s.dom (s.partIx s.cur) d).epoch

/-- VOTE (R285). -/
def execVote (a : Reg) (dom : BitVec 6) (s : State) : Out :=
  let i : Instr := .vote a dom
  runA i (fun s => do
    s.noKind false
    let d := dom.toNat
    s.needDomain d
    let p := s.partIx s.cur
    let x := s.dom p d
    let b : Bool := s.x a != 0
    if s.arrived d then arith 0x34 d 0
    else .ok (s.setDom p d { x with vote := if x.vmode then x.vote || b else x.vote && b
                                    voteMark := x.voteMark ||| s.rmark i })) s

/-- BARA (R289). -/
def execBara (dom : BitVec 6) (s : State) : Out :=
  runA (.bara dom) (fun s => do
    s.noKind false
    let d := dom.toNat
    s.needDomain d
    let p := s.partIx s.cur
    let x := s.dom p d
    if s.arrived d || x.arr == x.exp then arith 0x34 d 0
    else
      let t := s.me
      let s1 := s.setMe { t with arrivals := t.arrivals.set d x.epoch }
      .ok ((s1.setDom p d { x with arr := x.arr + 1 }).checkMilestone p d)) s

/-- BARW (R290): the domain is checked once, at its issue. -/
def execBarw (d a : Reg) (s : State) : Out :=
  let i : Instr := .barw d a
  let waiting := s.inWait 0x05
  runA i (fun s => do
    s.noKind false
    let n := field (s.x a) 5 0
    if !waiting then s.needDomain n
    let x := s.dom (s.partIx s.cur) n
    match s.me.arrivals.get? n with
    | none => arith 0x35 n 0
    | some e =>
      if e = x.epoch then waitOn 0x05 n 0x1FFF s.chip
      else
        let t := s.me
        .ok ((s.setMe { t with arrivals := t.arrivals.erase n }).result d x.lastVote (s.xm a ||| x.lastVoteMark))) s

/-! ## Timed sends -/

/-- A send descriptor (Table 10.3). -/
structure SendDesc where
  src : Word
  dst : Word
  len : Nat
  flags : Nat
  rest : Nat
  deriving DecidableEq, Repr

/-- The descriptor that 32 bytes hold. -/
def sendDesc (v : Nat) : SendDesc :=
  ⟨word v, word (v / 2 ^ 64), v / 2 ^ 128 % 2 ^ 32, v / 2 ^ 160 % 2 ^ 32, v / 2 ^ 192 % 2 ^ 64⟩

/-- Delivery as versioned words. -/
def SendDesc.vsn (x : SendDesc) : Bool := bit x.flags 0

/-- A valid send descriptor (R286). -/
def SendDesc.ok (x : SendDesc) : Bool :=
  field x.src 63 62 == 0 && field x.dst 63 62 == 2 && decide (1 ≤ x.len) && decide (x.len ≤ 16384)
    && decide (x.flags ≤ 1) && x.rest == 0
    && (!x.vsn || (aligned x.len 8 && aligned x.src.toNat 8 && aligned x.dst.toNat 8))

/-- The destination checks of a send on the issuer's package (R287, R297): BOUNDS at the first failing byte. -/
def State.checkDst (s : State) (x : SendDesc) : Except Halt Unit :=
  let one (k : Nat) : Except Halt Unit := do
    match ← s.resolve10 s.agent (x.dst + word k) 1 true x.vsn with
    | .loc l =>
      if x.vsn then
        let j := (l - spadLoc 0) / 2 ^ 21
        let o := l % 2 ^ 21
        if isSpadLoc l && (s.vwins j).any (fun w => decide (512 * w.1 + k ≤ o) && decide (o < 512 * (w.1 + w.2))) then .ok ()
        else bounds (x.dst + word k) 3 true
      else .ok ()
    | _ => .ok ()
  let rec go (k : Nat) : Nat → Except Halt Unit
    | 0 => .ok ()
    | n + 1 => do
      one k
      go (k + 1) n
  go 0 x.len

/-- Whether TBASE lies in the slot of a send (R287). -/
def inSlot (t mtb : Word) (start len : Nat) : Bool :=
  decide (mtb.toNat + 16 * start ≤ t.toNat) && decide (t.toNat < mtb.toNat + 16 * (start + len))

/-- The checks of an XSEND (R287, R45): what is to be sent; `late` says that the slot is not open, `t` is TBASE. -/
def sendChecks (i : Instr) (a : Reg) (d : Nat) (late : Bool) (t : Word) (s : State) : Except Halt Sending := do
  let dm := s.dom (s.partIx s.cur) d
  let at_ := s.x a
  if !aligned at_.toNat 32 then bounds at_ 3 false
  else if field at_ 63 62 ≠ 0 then bounds at_ 0 false
  else do
    let (v, dmk) ← s.loadL at_ 32
    let x := sendDesc v
    let slot : Except Halt Unit :=
      if late then trapWith 0x22 at_ (word (d * 2 ^ 48 + (t - dm.mtb).toNat % 2 ^ 48)) else .ok ()
    if !x.ok then do
      slot
      arith 0x36 0 at_
    else do
      let src ← s.resolve00 s.agent x.src x.len false false
      let chip := field x.dst 52 34
      if chip = s.chip then s.checkDst x
      let l := match src with | .loc l => l | _ => 0
      let (_, lm) ← s.loadLoc x.src l x.len
      let m := s.rmark i ||| dmk
      match (if chip = s.chip then none else s.egress s.agent (m ||| lm)) with
      | some f => trapWith 0x21 x.dst f
      | none => do
        slot
        .ok ⟨dm.epoch, x.src, l, x.len, x.dst, x.vsn, m⟩

/-- What an XSEND does once its checks have passed (R287, R288): it waits for PEND, then reads its bytes and sends them. -/
def sendBytes (d : Nat) (y : Sending) (s : State) : Run? := do
  let p := s.partIx s.cur
  let dm := s.dom p d
  if 2 ^ 28 - 1 < dm.pend + y.len then waitOn 0x0A d 0x1FFF s.chip
  else do
    let (bs, lm) ← s.loadLoc y.src y.loc y.len
    let z : Send := { id := s.free, thread := s.cur, part := p, dom := d, epoch := y.epoch, vsn := y.vsn, dst := y.dst
                      count := y.len, data := bs, mark := y.mark ||| lm, since := none }
    let s1 := (s.setDom p d { dm with pend := dm.pend + y.len }).setMe { s.me with sending := none }
    .ok { s1 with sends := s1.sends ++ [z], free := s1.free + 1 }

/-- XSEND (R284, R287): its checks are made once; one that waits for PEND keeps what they found. -/
def execXsend (a : Reg) (dom : BitVec 6) (start : BitVec 16) (len : BitVec 8) (s : State) : Out :=
  let i : Instr := .xsend a dom start len
  let d := dom.toNat
  match s.me.sending with
  | some y => runA i (sendBytes d y) s
  | none =>
    let checks (s : State) : Except Halt (State × Sending) := do
      s.noKind false
      s.needDomain d
      let (s1, t) := s.readTbase
      let y ← sendChecks i a d (!inSlot t (s.dom (s.partIx s.cur) d).mtb start.toNat len.toNat) t s1
      .ok (s1, y)
    match checks s.advance with
    | .error e => .next (s.halt i e)
    | .ok (s1, y) => match sendBytes d y s1 with
      | .ok s2 => .next s2
      | .error e => .next ((s.setMe { s.me with sending := some y }).halt i e)

/-- The requester that a send's waiting words name. -/
def Send.who (x : Send) : Option Nat := some (2 ^ 32 + x.id)

/-- Performs a word of a versioned send as an STV, or leaves it to wait at its home in the order of arrival (R288, R314). -/
def State.deliverWord (s : State) (x : Send) (l : Nat) (v : Tagged 64) : State :=
  let j := (l - spadLoc 0) / 2 ^ 21
  let c := s.cluster j
  let wait (failed : Option Mark) : State :=
    s.setCluster j { c with vreqs := c.vreqs ++ [⟨x.who, true, true, l, x.epoch, v, x.part, none, failed⟩] }
  if !s.liveVer l x.epoch && c.vreqs.any (·.pending l) then wait none
  else match s.stvAt l x.epoch v with
    | some (.ok s1) => s1
    | some (.error k) => wait (some k)
    | none => wait none

/-- The words of a versioned send that the target's agent takes now, from the first on: the state after them and the bytes
that remain while the agent is full (R315). (DEDUCED, log entry 57.) -/
def State.deliverWords (s : State) (x : Send) (l : Nat) : List Byte → Nat → State × List Byte
  | bs, 0 => (s, bs)
  | bs, k + 1 =>
    if bs.isEmpty then (s, [])
    else if s.agentHolds16 (0x1000 + (l - spadLoc 0) / 2 ^ 21) then (s, bs)
    else State.deliverWords (s.deliverWord x l ⟨word (ofBytes (bs.take 8)), x.mark⟩) x (l + 8) (bs.drop 8) k

/-- Takes a send's count off PEND (R233). -/
def State.sendDone (s : State) (x : Send) : State :=
  let d := s.dom x.part x.dom
  (s.setDom x.part x.dom { d with pend := d.pend - x.count }).checkMilestone x.part x.dom

/-- A delivery that fails a ceiling check (R288). -/
def State.sendMark (s : State) (x : Send) : State :=
  let u := field x.dst 33 21
  (s.sendDone x).postDcp (dieOf u) 6 ⟨u, 0, 0⟩ 0 x.dst (word x.dom) 0 0 x.mark

/-- Delivers a versioned send to its home (R288): it is over when every word has been stored. -/
def State.deliverVsn (s : State) (x : Send) (l : Nat) : State × Option Send :=
  let j := (l - spadLoc 0) / 2 ^ 21
  let (s1, rest) := s.deliverWords x l x.data (x.data.length / 8)
  let s2 := s1.serveAll j
  let c := s2.cluster j
  let mine := c.vreqs.filter (·.who == x.who)
  if !rest.isEmpty then (s2, some { x with data := rest, dst := x.dst + word (x.data.length - rest.length) })
  else if mine.any fun r => r.pending r.loc then (s2, some { x with data := [] })
  else
    let s3 := s2.setCluster j { c with vreqs := c.vreqs.filter (·.who != x.who) }
    (if mine.any (·.failed.isSome) then s3.sendMark x else s3.sendDone x, none)

/-- Delivers a send (R288): the sends as they stand after it are given by the caller, which removes it when nothing of
it remains. -/
def State.deliver (s : State) (x : Send) : State × Option Send :=
  let chip := field x.dst 52 34
  let g : Agent := ⟨x.thread.unit, 0, some x.part, false, overdue x.since s.now⟩
  if chip ≠ s.chip then
    match s.askRemote g chip x.dst 0 with
    | .data s1 _ _ => (s1.sendDone x, none)
    | .refused d => (((s.denied (some d)).sendDone x).postHost 0 0x0B x.dom 0 x.dst x.mark, none)
    | .silent => (s, some { x with since := some (x.since.getD s.now) })
  else match s.resolve10 { g with part := none, unit := 0x1380 } x.dst x.data.length true x.vsn with
    | .ok (.loc l) =>
      if s.overCeil l x.data.length x.mark ≠ 0 then (s.sendMark x, none)
      else if x.vsn then s.deliverVsn x l
      else if s.agentHolds16 (field x.dst 33 21) then (s, some x)
      else ((s.put l x.data x.mark false).sendDone x, none)
    | _ => (s.sendDone x, none)

/-- XSEND_DELIVERY: the ix-th send on its way, unless an earlier one of the same thread goes to the same unit (R288). -/
def execXsendDelivery (ix : Nat) (s : State) : Out :=
  .next (match s.sends[ix]? with
    | some x =>
      if (s.sends.take ix).any fun y => y.thread == x.thread && field y.dst 52 21 == field x.dst 52 21 then s
      else
        let (s1, r) := s.deliver x
        { s1 with sends := match r with
            | some y => setNth s1.sends ix y
            | none => dropNth s1.sends ix }
    | none => s)

/-! ## Deadlines -/

/-- When a group's deadline is due: DEADLINE ticks after the latest milestone of a domain in DOM, or after the launch's
first instruction (R432). -/
def State.deadlineAt (s : State) (g : Group) (l : Launch) : Option Nat :=
  let n := launchDeadline l.record
  let ms := ((List.range 64).filter fun d => bit (launchDom l.record) d).filterMap fun d => (s.dom g.part d).mtbNow
  let start := match l.firstAt with
    | some f => some ((ms.filter fun m => decide (f ≤ m)).foldl Nat.max f)
    | none => none
  if n = 0 then none else start.map (· + n)

/-- DEADLINE: a superstep that lasts too long (R432). Without a safe-point table a running thread parks at once, and one
parked by fault once it is resumed (R429). -/
def execDeadline (gh : BitVec 16) (s : State) : Out :=
  .next (match s.group? gh.toNat with
    | some g => match s.launchOf g with
      | some l => match s.deadlineAt g l with
        | some at_ =>
          if at_ ≤ s.now ∧ !g.deadlinePosted then
            let s0 := s.setGroup gh.toNat { g with deadlinePosted := true }
            let s1 := s0.postDcp (dieOf g.first) 3 ⟨g.first, 0, 0⟩ (word (g.part * 2 ^ 16 + gh.toNat)) 0 0 0 0 0
            if g.hasTable then
              s1.askThreads gh.toNat g fun r => { r with safe := true, force := some (s.now + launchDeadline l.record) }
            else
              let s2 := s1.askThreads gh.toNat g fun r => { r with force := some s.now }
              ((s2.threadsOf gh.toNat g).foldl (fun t id =>
                if (t.thread id).run = .running then t.parkPre id 4 else t) s2).parkRings gh.toNat
          else s
        | none => s
      | none => s
    | none => s)

/-- Parks a running thread whose deadline park is due (R432). -/
def State.forcePark (s : State) (t : ThreadId) : State :=
  let x := s.thread t
  match x.reqs.force with
  | some f =>
    if f ≤ s.now ∧ x.run = .running then (s.parkPre t (if x.reqs.safe then 3 else 4)).parkRings x.gh else s
  | none => s

/-- DEADLINE_FORCE: a thread that has reached no safe point within a further DEADLINE ticks is parked, of whichever set
(R432). -/
def execDeadlineForce (unit : BitVec 13) (ht : BitVec 2) (s : State) : Out :=
  .next ([0, 1, 2, 3].foldl (fun t k => t.forcePark ⟨unit.toNat, k, ht.toNat⟩) s)

/-! ## Work sharing -/

/-- WQPUT (R291). -/
def execWqput (d a b : Reg) (s : State) : Out :=
  let i : Instr := .wqput d a b
  runA i (fun s => do
    s.noKind true
    let n := (s.x d).toNat
    let j := clusterOf s.cur.unit
    let c := s.cluster j
    if n = 0 ∨ 2 ^ 32 - 1 < n then arith 0x37 0 0
    else if (s.x b).toNat ≤ (s.x a).toNat then .ok s
    else if 16 ≤ c.shares.length then waitOn 0x0C 0 0x1FFF s.chip
    else .ok (s.setCluster j { c with shares := c.shares ++ [⟨BitVec.ofNat 16 s.me.gh, s.x a, s.x b, n, s.rmark i⟩] })) s

/-- WQTAKE (R292, R236). -/
def execWqtake (d : Reg) (s : State) : Out :=
  runA (.wqtake d) (fun s => do
    s.noKind true
    let j := clusterOf s.cur.unit
    let c := s.cluster j
    let r2 : Reg := d + 1
    match place (fun e => e.gh.toNat == s.me.gh) c.shares with
    | none => .ok ((s.result d 0 0).result r2 0 0)
    | some i => match c.shares[i]? with
      | none => .ok ((s.result d 0 0).result r2 0 0)
      | some e =>
        let stop := Nat.min (e.lo.toNat + e.chunk) e.hi.toNat
        let l := if e.hi.toNat ≤ stop then dropNth c.shares i else setNth c.shares i { e with lo := word stop }
        .ok (((s.setCluster j { c with shares := l }).result d e.lo e.mark).result r2 (word stop) e.mark)) s

end Sys2Proof.Machine
end

