-- ==== Sys2Proof/Machine/Engines.lean ====
section
/-! DEFINITION. The copy cores and copy units, the indirect copy engine, the row units, markers and mailbox delivery:
their forms of page 5 and their steps (chapters "Asynchronous engines" and "Page 5"). -/

namespace Sys2Proof.Machine

open Sys2Proof

/-! ## Ranges that an engine moves -/

/-- Translates a range for an engine: every byte is checked, marks and ceilings are not (R27, R297, R318, R319). -/
def State.regionOf (s : State) (g : Agent) (a : Word) (n : Nat) (write : Bool) : Except Halt (State × Region) := do
  match ← s.resolve g a n write false with
  | .loc l => .ok (s, ⟨a, n, .loc l, []⟩)
  | .remote c => .ok (s, ⟨a, n, .remote c, []⟩)
  | .ctl _ _ => bounds a 0 write
  | .virt => do
    let (s1, ps) ← s.pieces (g.part.getD 0) a write (pageFuel n) 0 n
    if ps.any (fun p => p.leaf.tgt == 3) then trapWith 0x24 a 0 else .ok (s1, ⟨a, n, .virt, ps⟩)

/-- FINFO of the MARK that a store of a mark to a range raises; none when it raises none (R304, R305, R478). -/
def State.regionOver (s : State) (g : Agent) (r : Region) (m : Mark) : Option Word :=
  match r.target with
  | .loc l => let x := s.overCeil l r.len m
              if x = 0 then none else some (word x.toNat)
  | .virt => s.piecesMark g r.pieces m false
  | .remote _ => s.egress g m
  | .ctl _ _ => none

/-- The places of a range in the memory of the package: offset in the range, location, length. -/
def Region.places (r : Region) : List (Nat × Nat × Nat) :=
  match r.target with
  | .loc l => [(0, l, r.len)]
  | .virt => r.pieces.filterMap fun p => if p.leaf.tgt = 0 then some (p.at_, hbmLoc + p.leaf.pa, p.len) else none
  | .remote _ => []
  | .ctl _ _ => []

/-- What an engine reads: bytes, the join of their marks, and the parts of the range that are poisoned (R446). -/
structure Got where
  bytes : List Byte
  mark : Mark
  bad : List (Nat × Nat)
  deriving DecidableEq, Repr

/-- The parts of a range that are poisoned, as offset and length. -/
def State.badParts (s : State) (r : Region) : List (Nat × Nat) :=
  r.places.flatMap fun p => (s.mem.poisoned p.2.1 p.2.2).map fun q =>
    let lo := Nat.max q p.2.1
    (p.1 + (lo - p.2.1), Nat.min (q + poisonSize p.2.1) (p.2.1 + p.2.2) - lo)

/-- The state without poison, for an engine, which never traps on it (R446). (DEDUCED, log entry 63.) -/
def State.unpoisoned (s : State) : State := { s with mem := { s.mem with poison := [] } }

/-- The state with its poison back. -/
def State.poisonedAs (s old : State) : State := { s with mem := { s.mem with poison := old.mem.poison } }

/-- Why a range could not be moved: a refusal with the status a copy ends with, 5 through a page and 3 in space 10 (R456,
R470), or no answer so far. -/
inductive Unserved where
  | refused (st : Nat) (d : Denial)
  | silent

/-- What the trap of a page access means to an engine. -/
def unserved : Halt → Unserved
  | .trap _ _ _ _ _ d => .refused 5 (d.getD ⟨none, none⟩)
  | .wait _ _ _ _ => .silent
  | .silent _ => .silent

/-- Reads a range for an engine. -/
def State.regionLoad (s : State) (g : Agent) (r : Region) : Except Unserved (State × Got) :=
  match r.target with
  | .loc l => .ok (s, ⟨s.mem.read l r.len, s.mem.markOf l r.len, s.badParts r⟩)
  | .virt => match s.unpoisoned.loadPieces g r.addr r.pieces with
    | .ok (s1, bs, m) => .ok (s1.poisonedAs s, ⟨bs, m, s.badParts r⟩)
    | .error h => .error (unserved h)
  | .remote c => match s.askRemote g c r.addr r.len with
    | .data s1 bs m => .ok (s1, ⟨bs, m, []⟩)
    | .refused d => .error (.refused 3 d)
    | .silent => .error .silent
  | .ctl _ _ => .error (.refused 1 ⟨none, none⟩)

/-- Gives the poison of what was read to what was written from it (R446). -/
def Memory.spread (m : Memory) (places : List (Nat × Nat × Nat)) (bad : List (Nat × Nat)) : Memory :=
  bad.foldl (fun m b => places.foldl (fun m p =>
    let lo := Nat.max b.1 p.1
    let hi := Nat.min (b.1 + b.2) (p.1 + p.2.2)
    if lo < hi then m.taint (p.2.1 + (lo - p.1)) (hi - lo) else m) m) m

/-- Writes a range for an engine whose checks have been made. -/
def State.regionStore (s : State) (g : Agent) (r : Region) (bs : List Byte) (m : Mark) (bad : List (Nat × Nat)) :
    Except Unserved State :=
  let fin (t : State) : State := { t with mem := t.mem.spread r.places bad }
  match r.target with
  | .loc l => .ok (fin (s.put l bs m false))
  | .virt => match s.storePieces g r.addr bs m false r.pieces with
    | .ok s1 => .ok (fin s1)
    | .error h => .error (unserved h)
  | .remote c => match s.askRemote g c r.addr 0 with
    | .data s1 _ _ => .ok s1
    | .refused d => .error (.refused 3 d)
    | .silent => .error .silent
  | .ctl _ _ => .error (.refused 1 ⟨none, none⟩)

/-- ST of a failure that the checks of a copy find (R369). -/
def haltSt : Halt → Nat
  | .trap c _ _ _ _ _ => if c = 0x20 then 4 else if c = 0x24 then 5 else 1
  | .wait _ _ _ _ => 1
  | .silent _ => 3

/-! ## Copy shadows -/

/-- A copy shadow as latched. -/
def shadow (v : Vector (BitVec 64) 7) (i : Nat) : Word := v.getD i 0

/-- RUN. -/
def cpRun (v : Vector (BitVec 64) 7) : Nat := field (shadow v 2) 23 0

/-- Count of dimension 1, 2 or 3. -/
def cpCount (v : Vector (BitVec 64) 7) (d : Nat) : Nat := field (shadow v 2) (27 + 12 * d) (16 + 12 * d) + 1

/-- Stride of dimension 1, 2 or 3 of a side. -/
def cpStride (v : Vector (BitVec 64) 7) (dst : Bool) (d : Nat) : Int :=
  let w := shadow v (2 + d)
  sint 32 (if dst then field w 63 32 else field w 31 0)

/-- CBEN. -/
def cpCben (v : Vector (BitVec 64) 7) : Bool := (shadow v 6).getLsbD 56

/-- CB. -/
def cpCb (v : Vector (BitVec 64) 7) : Nat := field (shadow v 6) 55 50

/-- DIST. -/
def cpDist (v : Vector (BitVec 64) 7) : Bool := (shadow v 6).getLsbD 49

/-- BLK. -/
def cpBlk (v : Vector (BitVec 64) 7) : Nat := field (shadow v 6) 47 40

/-- NCL. -/
def cpNcl (v : Vector (BitVec 64) 7) : Nat := field (shadow v 6) 39 33

/-- Whether a side is the distributed one. -/
def cpSide (v : Vector (BitVec 64) 7) (dst : Bool) : Bool := cpDist v && ((shadow v 6).getLsbD 48 != dst)

/-- The number of runs. -/
def cpRuns (v : Vector (BitVec 64) 7) : Nat := cpCount v 1 * cpCount v 2 * cpCount v 3

/-- Address of run k on a side with its base (R368); none when the offset leaves the scratchpad of its cluster. -/
def cpAddr (v : Vector (BitVec 64) 7) (dst : Bool) (base : Word) (k : Nat) : Option Word :=
  let i1 := k % cpCount v 1
  let i2 := k / cpCount v 1 % cpCount v 2
  let i3 := k / (cpCount v 1 * cpCount v 2)
  let st (d : Nat) : Int := cpStride v dst d
  if cpSide v dst then
    let b := i1 / cpBlk v
    let l := b / cpNcl v * cpBlk v + i1 % cpBlk v
    let o : Int := (field base 20 0 : Int) + l * st 1 + i2 * st 2 + i3 * st 3
    if o < 0 ∨ (2 ^ 20 : Nat) ≤ o then none
    else some (word ((base.toNat / 2 ^ 21 + b % cpNcl v) * 2 ^ 21 + o.toNat))
  else some (base + word (wrap 64 (i1 * st 1 + i2 * st 2 + i3 * st 3)))

/-- The cluster that CPDST names with CBEN = 1, and whether through space 10 (Table 14.2, R359). -/
def State.cpCluster (s : State) (unit : Nat) (a : Word) : Option (Nat × Bool) :=
  let own := isCompute unit
  if field a 63 20 ≤ 1 then (if own then some (clusterOf unit, false) else none)
  else if field a 63 62 = 2 && field a 52 34 == s.chip && decide (0x1000 ≤ field a 33 21)
      && decide (field a 33 21 < 0x1200) then some (field a 33 21 - 0x1000, true)
  else none

/-- Whether latched shadows break the rules of R367 under ARITH 0x50. -/
def State.cpBad (s : State) (v : Vector (BitVec 64) 7) : Bool :=
  let side := if (shadow v 6).getLsbD 48 then shadow v 0 else shadow v 1
  cpRun v == 0 || decide (2 ^ 32 - 1 < cpRun v * cpRuns v)
    || (cpDist v && (cpBlk v == 0 || cpNcl v == 0 || decide (64 < cpNcl v) || cpCben v
      || field side 63 62 != 2 || field side 61 53 != 0 || field side 52 34 != s.chip
      || decide (field side 33 21 < 0x1000) || decide (0x1200 ≤ field side 33 21)
      || decide (64 < (field side 33 21 - 0x1000) % 64 + cpNcl v)))
    || field (shadow v 0) 63 62 == 3 || (!cpCben v && field (shadow v 1) 63 62 == 3)

/-- Places of a queue that markers take (R410). -/
def Engines.marks (e : Engines) (q : Nat) : Nat := (e.markers.filter (·.queue == q)).length

/-- Commands that the copy queue of a kind of core holds (Table 14.1). -/
def copyCap (u : Nat) : Nat := if isCompute u then 16 else 8

/-- Starts the copy that the shadows of the running thread describe (R366, R367): the state and its identifier. -/
def State.launchCopy (s : State) : Except Halt (State × BitVec 16) := do
  let t := s.me
  let u := s.cur.unit
  let v := t.csr.shadows.map (·.val)
  let gh (b : CircBuf) : Bool := b.en && field b.cfg 63 48 == t.gh
  if isDcp u || isSec u then arith 0x58 0 0
  else if isCompute u && (field (shadow v 0) 63 62 == 1 || (!cpCben v && field (shadow v 1) 63 62 == 1)) then
    trapWith 0x23 (if field (shadow v 0) 63 62 = 1 then shadow v 0 else shadow v 1) 0
  else if s.cpBad v then arith 0x50 0 0
  else
    let refused : Bool := cpCben v && (match s.cpCluster u (shadow v 1) with
      | some (j, _) => !gh ((s.cluster j).cb (cpCb v))
      | none => true)
    if refused then arith 0x51 (cpCb v) 0
    else
      let k := engKey u
      let e := s.eng k
      if copyCap u ≤ e.copies.length + e.marks 0 then holdOn
      else
        let c : Copy := { id := e.copyNext.toNat, thread := s.cur, shadows := v
                          ml := joins (t.csr.cmark :: (t.csr.shadows.toList.map (·.mark))), lwin := t.csr.lwin.val
                          part := s.partIx s.cur, phase := .queued, st := 0, bytes := 0, mark := 0, slot := none
                          hidden := false, since := none }
        .ok (s.setEng k { e with copyNext := e.copyNext + 1, copies := e.copies ++ [c] }, e.copyNext)

/-- A read of CPLAUNCH (R128, R366, R367). -/
def execCplaunchRead (d : Reg) (s : State) : Out :=
  runA (.cplaunchRead d) (fun s => do
    let (s1, n) ← s.launchCopy
    .ok (s1.result d (n.setWidth 64) 0)) s

/-- ARITH 0x58: a page-5 form on the DCP or the SEC, or on a kind of core that lacks its engine (R414). -/
def State.needEngine (s : State) (compute channel : Bool) : Except Halt Unit :=
  if (isCompute s.cur.unit && compute) || (isChannel s.cur.unit && channel) then .ok () else arith 0x58 0 0

/-- The shadows with those that a mask names loaded from the image at an address, and the join of the image's marks
(R394). -/
def State.loadShadows (s : State) (a : Reg) (sel : BitVec 7) : Except Halt (State × Mark) := do
  let at_ := s.x a
  let (v, m) ← s.blockL at_ 8 56
  let pick : BitVec 7 := if sel = 0 then 0x7F else sel
  let one (t : State) (i : Nat) : State :=
    if pick.getLsbD i then
      let m := match s.loadL (at_ + word (8 * i)) 8 with
        | .ok (_, m) => m
        | .error _ => 0
      let x := t.me
      let y : Tagged 64 := ⟨word (v / 2 ^ (64 * i)) &&& csrMask (0x18 + i), joins [m, s.xm a, s.base]⟩
      t.setMe { x with csr := { x.csr with shadows := x.csr.shadows.setIfInBounds i y } }
    else t
  .ok ((List.range 7).foldl one s, m)

/-- CPSET (R394). -/
def execCpset (a : Reg) (sel : BitVec 7) (s : State) : Out :=
  runA (.cpset a sel) (fun s => do
    let (s1, _) ← alongside (s.needEngine true true) (s.loadShadows a sel)
    .ok s1) s

/-- CPGO (R36, R395): nothing of it takes place when its CPLAUNCH part traps or waits. -/
def execCpgo (d a : Reg) (s : State) : Out :=
  runA (.cpgo d a) (fun s => do
    let m := s.xm a
    let (s1, im) ← alongside (s.needEngine true true) (s.loadShadows a 0)
    let (s2, n) ← s1.launchCopy
    .ok (s2.result d (n.setWidth 64) (m ||| im))) s

/-- CPSTAT's word (Table 15.4). -/
def cpstatWord (state st bytes id : Nat) : Word := word (state * 2 ^ 62 + st * 2 ^ 56 + bytes * 2 ^ 16 + id)

/-- CPSTAT (R396). -/
def execCpstat (d a : Reg) (s : State) : Out :=
  runA (.cpstat d a) (fun s => do
    s.needEngine true true
    let id := field (s.x a) 15 0
    let e := s.eng (engKey s.cur.unit)
    let recent := decide ((e.copyNext - 1 - BitVec.ofNat 16 id).toNat < 64)
    match (e.copies ++ e.copyHist).find? fun c => c.id == id && c.thread == s.cur && recent && !c.hidden with
    | none => .ok (s.result d (cpstatWord 0 0 0 id) (s.xm a))
    | some c => match c.phase with
      | .queued => .ok (s.result d (cpstatWord 1 0 0 id) (s.xm a))
      | .waiting => .ok (s.result d (cpstatWord 1 0 0 id) (s.xm a))
      | .moving => .ok (s.result d (cpstatWord 2 0 0 id) (s.xm a))
      | .moved => .ok (s.result d (cpstatWord 2 0 c.bytes id) (s.xm a))
      | .done => .ok (s.result d (cpstatWord 3 c.st c.bytes id) (c.mark ||| s.xm a))) s

/-! ## Running a copy -/

/-- Copies that run at once (Table 14.1). -/
def copyPlaces (u : Nat) : Nat := if u < 0x1200 then 4 else 2

/-- The copy engine as the agent of a copy. -/
def Copy.agent (c : Copy) (now : Nat) : Agent := ⟨c.thread.unit, c.lwin, some c.part, false, overdue c.since now⟩

/-- Key of a copy among the claimers of a buffer. -/
def Copy.key (c : Copy) (u : Nat) : Nat := 2 ^ 20 + u * 2 ^ 16 + c.id

/-- Source and destination range of run k. -/
def State.copyRegions (s : State) (c : Copy) (base : Word) (k : Nat) : Except Halt (State × Region × Region) := do
  match cpAddr c.shadows false (shadow c.shadows 0) k, cpAddr c.shadows true base k with
  | some x, some y => do
    let (s1, a) ← s.regionOf (c.agent s.now) x (cpRun c.shadows) false
    let (s2, b) ← s1.regionOf (c.agent s.now) y (cpRun c.shadows) true
    .ok (s2, a, b)
  | _, _ => bounds 0 2 true

/-- The initial check of every run (R369): ST of the first failure. -/
def State.copyCheck (s : State) (c : Copy) (base : Word) : List Nat → State × Nat
  | [] => (s, 0)
  | k :: t => match s.copyRegions c base k with
    | .error h => (s, haltSt h)
    | .ok (s1, _, _) => State.copyCheck s1 c base t

/-- Whether a range lies on another package. -/
def Region.abroad (r : Region) : Bool :=
  match r.target with
  | .remote _ => true
  | .virt => r.pieces.any (·.leaf.tgt == 2)
  | .loc _ => false
  | .ctl _ _ => false

/-- Whether a ceiling or the egress of its partition forbids a run to store a mark to a range (R304, R305, R369, R478). -/
def State.runOver (s : State) (g : Agent) (r : Region) (m : Mark) : Bool :=
  (s.regionOver g r m).isSome || (r.abroad && (s.egress g m).isSome)

/-- Moves the runs (R369): the state, ST, the bytes of whole runs, the marks of the source lines read; none while a run
waits for the answer of another package or the host. -/
def State.copyMove (s : State) (c : Copy) (base : Word) : List Nat → Nat → Mark → Option (State × Nat × Nat × Mark)
  | [], n, m => some (s, 0, n, m)
  | k :: t, n, m =>
    let g := c.agent s.now
    match s.copyRegions c base k with
    | .error h => some (s, haltSt h, n, m)
    | .ok (s1, a, b) =>
      match s1.regionLoad g a with
      | .error .silent => none
      | .error (.refused st d) => some (s1.denied (some d), st, n, m)
      | .ok (s2, r) =>
        let w := c.ml ||| r.mark
        if s2.runOver g b w then some (s2, 2, n, m ||| r.mark)
        else match s2.regionStore g b r.bytes w r.bad with
          | .error .silent => none
          | .error (.refused st d) => some (s2.denied (some d), st, n, m ||| r.mark)
          | .ok s3 => State.copyMove s3 c base t (n + cpRun c.shadows) (m ||| r.mark)

/-- Whether every destination byte lies in a slot of n bytes (R369). -/
def cpFits (v : Vector (BitVec 64) 7) (n : Nat) : Bool :=
  let span (d : Nat) : Int := ((cpCount v d : Int) - 1) * cpStride v true d
  let o : Int := field (shadow v 1) 19 0
  let lo := o + min 0 (span 1) + min 0 (span 2) + min 0 (span 3)
  let hi := o + max 0 (span 1) + max 0 (span 2) + max 0 (span 3) + cpRun v
  decide (0 ≤ lo) && decide (hi ≤ n)

/-- Replaces a copy of an engine. -/
def State.setCopy (s : State) (u : Nat) (c : Copy) : State :=
  let e := s.eng u
  s.setEng u { e with copies := e.copies.map fun x => if x.id = c.id then c else x }

/-- A copy that has moved what it will, with its status. -/
def Copy.ended (c : Copy) (st n : Nat) (m : Mark) : Copy :=
  { c with phase := .moved, st := st, bytes := n, mark := c.ml ||| m }

/-- Checks and moves a copy whose destination base is known; none while it waits for another package or the host. -/
def State.copyFrom (s : State) (u : Nat) (c : Copy) (base : Word) : Option State :=
  let runs := List.range (cpRuns c.shadows)
  let (s1, st) := s.copyCheck c base runs
  if st ≠ 0 then some (s1.setCopy u (c.ended st 0 0))
  else (s1.copyMove c base runs 0 0).map fun (s2, st, n, m) => s2.setCopy u (c.ended st n m)

/-- Whether an address names a unit of the package whose remote request agent is full (R315). -/
def State.fullAt (s : State) (a : Word) : Bool :=
  field a 63 62 == 2 && field a 52 34 == s.chip && s.agentHolds16 (field a 33 21)

/-- The first byte of the destination of a copy: CPDST, or its place in the slot it has claimed. -/
def Copy.base (c : Copy) : Word :=
  match c.slot with
  | some (_, b) => b
  | none => shadow c.shadows 1

/-- Whether a run of a copy addresses a unit whose agent is full: the copy then holds its request (R315). -/
def State.copyHeld (s : State) (c : Copy) : Bool :=
  (List.range (cpRuns c.shadows)).any fun k =>
    [cpAddr c.shadows false (shadow c.shadows 0) k, cpAddr c.shadows true c.base k].any fun a => a.any s.fullAt

/-- Moves a copy that waits for nothing but answers (R369); the Publish of a claimed slot is left with the buffer. A copy
without an answer moves nothing yet. (DEDUCED, log entries 16, 61.) -/
def State.moveCopy (s : State) (u : Nat) (c : Copy) : State :=
  if s.copyHeld c then s.setCopy u c
  else match s.copyFrom u c c.base with
    | none => s.setCopy u { c with since := some (c.since.getD s.now) }
    | some s1 => match c.slot, s.cpCluster c.thread.unit (shadow c.shadows 1) with
      | some (slot, _), some (j, _) =>
        let b := (s1.cluster j).cb (cpCb c.shadows)
        s1.setCb j (cpCb c.shadows) { b with ops := b.ops ++ [(true, slot)] }
      | _, _ => s1

/-- Claims the slot of a copy that must have one (R369): the copy moves in a later turn. -/
def State.claimCopy (s : State) (u : Nat) (c : Copy) : State :=
  match s.cpCluster c.thread.unit (shadow c.shadows 1) with
  | none => s.setCopy u (c.ended 7 0 0)
  | some (j, far) =>
    let b := (s.cluster j).cb (cpCb c.shadows)
    let lost : Bool := c.phase == .waiting && !b.claimers.any (·.1 == c.key u)
    if c.phase = .queued ∧ !cpFits c.shadows (512 * field b.cfg 43 32) then s.setCopy u (c.ended 6 0 0)
    else if !b.en || lost then s.setCopy u (c.ended 7 0 0)
    else match b.claimFor (c.key u) with
      | none => (s.setCb j (cpCb c.shadows) { b with claimers := joinQueue b.claimers (c.key u) }).setCopy u
          { c with phase := .waiting }
      | some (b1, slot) => (s.setCb j (cpCb c.shadows) b1).setCopy u
          { c with phase := .moving
                   slot := some (slot, s.slotAddr j far b slot + word (field (shadow c.shadows 1) 19 0)) }

/-- COPY_RUN on a copy that may run (R369): it claims if it must, and moves in a turn of its own. -/
def State.runCopy (s : State) (u : Nat) (c : Copy) : State :=
  if c.phase = .moving ∨ !cpCben c.shadows then s.moveCopy u { c with phase := .moving } else s.claimCopy u c

/-- The queued copies before the one with an identifier. -/
def Engines.queuedBefore (e : Engines) (id : Nat) : List Copy :=
  (e.copies.takeWhile (·.id != id)).filter (·.phase == .queued)

/-- Whether a copy may run now (R371): it has started, or a running place is left for it after those launched before it.
Copies that run at once move in any order (R339), and claim in launch order. -/
def Engines.mayRun (e : Engines) (u : Nat) (c : Copy) : Bool :=
  let before := e.queuedBefore c.id
  let running := e.copies.filter fun x => x.phase == .waiting || x.phase == .moving || x.phase == .moved
  c.phase == .waiting || c.phase == .moving ||
    (c.phase == .queued && decide (running.length + before.length < copyPlaces u)
      && !(cpCben c.shadows && before.any fun x => cpCben x.shadows))

/-- COPY_RUN (R369). -/
def execCopyRun (unit : BitVec 13) (tid : BitVec 16) (s : State) : Out :=
  let u := unit.toNat
  let e := s.eng u
  .next (match e.copies.find? (·.id == tid.toNat) with
    | some c => if e.mayRun u c then s.runCopy u c else s
    | none => s)

/-! ## Completion messages -/

/-- Takes a delivered command out of its engine: a copy keeps its status among the last 64 launched (R396). -/
def State.messageDone (s : State) (t : ThreadId) (msg : Word) : State :=
  let u := engKey t.unit
  let e := s.eng u
  let id := field msg 15 0
  if field msg 63 60 = 1 then
    let gone := e.copies.filter (·.id == id)
    let hist := (e.copyHist ++ gone).filter fun c => decide ((e.copyNext - 1 - BitVec.ofNat 16 c.id).toNat < 64)
    s.setEng u { e with copies := e.copies.filter (·.id != id), copyHist := hist }
  else if field msg 63 60 = 2 then s.setEng u { e with inds := e.inds.filter (·.id != id) }
  else s

/-- Places the n-th message that waits into its mailbox and sets its event line (R137, R370). -/
def State.placeMail (s : State) (n : Nat) : State :=
  match s.mails[n]? with
  | none => s
  | some (t, m, line) =>
    let x := s.thread t
    let s1 := { s with mails := dropNth s.mails n }.setThread t { x with mailbox := x.mailbox ++ [m] }
    let s2 := match line with
      | some l => s1.setLine t l
      | none => s1
    s2.messageDone t m.val

/-- Delivers the oldest waiting message whose mailbox has an entry free (R137). -/
def State.deliverMail (s : State) : State :=
  match place (fun m => decide ((s.thread m.1).mailbox.length < 8)) s.mails with
  | some n => s.placeMail n
  | none => s

/-- MAILBOX_DELIVERY (R137): the oldest message of an engine, or a message of the DCP of a thread's die. -/
def execMailboxDelivery (src : MailSrc) (s : State) : Out :=
  .next (match src with
    | .engine => s.deliverMail
    | .dcp unit ht msg m =>
      let t : ThreadId := ⟨unit.toNat, (s.core unit.toNat).sel, ht.toNat⟩
      let x := s.thread t
      let w : Tagged 64 := ⟨word (3 * 2 ^ 60 + msg.toNat), m⟩
      if x.mailbox.length < 8 then s.setThread t { x with mailbox := x.mailbox ++ [w] }
      else { s with mails := s.mails ++ [(t, w, none)] })

/-- Hands a message to its mailbox: at once when no older one waits and an entry is free. -/
def State.sendMail (s : State) (t : ThreadId) (m : Tagged 64) (line : Option Nat) : State :=
  let s1 := { s with mails := s.mails ++ [(t, m, line)] }
  if decide ((s.thread t).mailbox.length < 8) && !s.mails.any (·.1 == t) then s1.placeMail s.mails.length else s1

/-- The completion message of a copy (Table 14.3). -/
def Copy.message (c : Copy) : Tagged 64 := ⟨word (2 ^ 60 + c.st * 2 ^ 56 + c.bytes * 2 ^ 16 + c.id), c.mark⟩

/-- COPY_FINISH (R370): any Publish, then the message, then the event line. -/
def execCopyFinish (unit : BitVec 13) (tid : BitVec 16) (s : State) : Out :=
  let u := unit.toNat
  .next (match (s.eng u).copies.find? (·.id == tid.toNat) with
    | some c =>
      if c.phase = .moved then
        let s1 := match c.slot, s.cpCluster c.thread.unit (shadow c.shadows 1) with
          | some _, some (j, _) => s.setCb j (cpCb c.shadows) ((s.cluster j).cb (cpCb c.shadows)).performAll
          | _, _ => s
        let line := if (shadow c.shadows 6).getLsbD 57 then some (field (shadow c.shadows 6) 63 58) else none
        (s1.setCopy u { c with phase := .done }).sendMail c.thread c.message line
      else s
    | none => s)

/-! ## The indirect copy engine -/

/-- A valid indirect descriptor (R372): reserved bits 0, every field in its range. (DEDUCED, log entry 62.) -/
def State.ixOk (s : State) (base ibase pack ctl : Word) : Bool :=
  !ctl.getLsbD 62 && field ctl 55 51 == 0 && !ctl.getLsbD 48 && decide (field ctl 31 0 < 65536)
    && decide (1 ≤ field ctl 47 32) && decide (field ctl 47 32 ≤ 4096)
    && (field base 63 62 == 0 || (field base 63 62 == 2 && field base 52 34 == s.chip))
    && field ibase 63 62 == 0 && aligned pack.toNat 64 && decide (0x100000 ≤ pack.toNat) && decide (pack.toNat < 0x200000)

/-- IXPOST (R397). With SLEEP the thread then waits for the line. -/
def execIxpost (d a : Reg) (sleep : Bool) (s : State) : Out :=
  let i : Instr := .ixpost d a sleep
  runA i (fun s => do
    let at_ := s.x a
    let (v, m) ← alongside (s.needEngine true false) (s.blockL at_ 32 32)
    let w (k : Nat) : Word := word (v / 2 ^ (64 * k))
    if !s.ixOk (w 0) (w 1) (w 2) (w 3) then arith 0x52 0 at_
    else
      let u := engKey s.cur.unit
      let e := s.eng u
      if 8 ≤ e.inds.length + e.marks 1 then holdOn
      else
        let mp := s.rmark i ||| m
        let x : Indirect := { id := e.indNext.toNat, thread := s.cur, base := w 0, ibase := w 1, pack := w 2, ctl := w 3
                              lwin := s.me.csr.lwin.val, part := s.partIx s.cur, mp := mp, phase := .queued, st := 0
                              count := 0, mark := 0, since := none }
        let s1 := (s.setEng u { e with indNext := e.indNext + 1, inds := e.inds ++ [x] }).result d
          (e.indNext.setWidth 64) (s.xm a ||| m)
        .ok (if sleep then s1.setMe { s1.me with hold := some (.line (field (w 3) 61 56) s1.now) } else s1)) s

/-- The engine as the agent of an indirect copy. -/
def Indirect.agent (x : Indirect) (now : Nat) : Agent := ⟨x.thread.unit, x.lwin, some x.part, false, overdue x.since now⟩

/-- ESIZE. -/
def Indirect.esize (x : Indirect) : Nat := field x.ctl 47 32

/-- COUNT. -/
def Indirect.total (x : Indirect) : Nat := field x.ctl 31 0 + 1

/-- Bytes of an index. -/
def Indirect.iw (x : Indirect) : Nat := if x.ctl.getLsbD 49 then 4 else 2

/-- Address of the element that an index names; none for the null index (R373). -/
def Indirect.elem (x : Indirect) (ix : Nat) : Option Word :=
  if ix = 2 ^ (8 * x.iw - 1) then none
  else some (x.base + word ((signExt ix (8 * x.iw)).toNat * x.esize))

/-- Address of the place of element e. -/
def Indirect.place (x : Indirect) (e : Nat) : Word := x.pack + word (e * x.esize)

/-- Reads every index: its value, and whether it is poisoned (R373); the number of the first that cannot be read. -/
def State.indices (s : State) (x : Indirect) (e : Nat) : Nat → List (Nat × Bool) × Mark × Option Nat
  | 0 => ([], 0, none)
  | n + 1 =>
    match s.regionOf (x.agent s.now) (x.ibase + word (e * x.iw)) x.iw false with
    | .error _ => ([], 0, some e)
    | .ok (_, r) => match s.regionLoad (x.agent s.now) r with
      | .error _ => ([], 0, some e)
      | .ok (_, g) =>
        let (l, m, f) := State.indices s x (e + 1) n
        ((ofBytes g.bytes, !g.bad.isEmpty) :: l, g.mark ||| m, f)

/-- Whether the place and the element of an index pass the checks of R373. -/
def State.elemOk (s : State) (x : Indirect) (e ix : Nat) : Bool :=
  let dir := x.ctl.getLsbD 50
  let ok (r : Except Halt (State × Region)) : Bool := match r with | .ok _ => true | .error _ => false
  ok (s.regionOf (x.agent s.now) (x.place e) x.esize (!dir)) &&
    (match x.elem ix with
     | some a => ok (s.regionOf (x.agent s.now) a x.esize dir)
     | none => true)

/-- Writes an element that has been read (R373): the state and ST, 0 when it is written; none without an answer yet. -/
def State.putElem (s : State) (g : Agent) (a : Word) (n : Nat) (r : Got) (m : Mark) : Option (State × Nat) :=
  match s.regionOf g a n true with
  | .error h => some (s, haltSt h)
  | .ok (s1, d) =>
    if (s1.regionOver g d m).isSome then some (s, 2)
    else match s1.regionStore g d r.bytes m r.bad with
      | .ok s2 => some (s2, 0)
      | .error (.refused st x) => some (s.denied (some x), st)
      | .error .silent => none

/-- Moves elements from e on (R373): the state, the marks of every line read, ST and the elements completed; none while
an element waits for an answer. -/
def State.moveElems (s : State) (x : Indirect) (im : Mark) :
    List (Nat × Bool) → Nat → Mark → Option (State × Mark × Nat × Nat)
  | [], e, m => some (s, m, 0, e)
  | (ix, bad) :: t, e, m =>
    let dir := x.ctl.getLsbD 50
    let g := x.agent s.now
    let n := x.esize
    let write (s : State) (a : Word) (r : Got) : Option (State × Mark × Nat × Nat) :=
      match s.putElem g a n (if bad then { r with bad := [(0, n)] } else r) (joins [r.mark, im, x.mp]) with
      | some (s1, 0) => State.moveElems s1 x im t (e + 1) (m ||| r.mark)
      | some (s1, st) => some (s1, m ||| r.mark, st, e)
      | none => none
    match x.elem ix with
    | none =>
      if dir then State.moveElems s x im t (e + 1) m else write s (x.place e) ⟨List.replicate n 0, 0, []⟩
    | some a => match s.regionOf g (if dir then x.place e else a) n false with
      | .error h => some (s, m, haltSt h, e)
      | .ok (s1, r) => match s1.regionLoad g r with
        | .ok (s2, y) => write s2 (if dir then a else x.place e) y
        | .error (.refused st d) => some (s1.denied (some d), m, st, e)
        | .error .silent => none

/-- IndirectRun of R373. -/
def State.runIndirect (s : State) (x : Indirect) : State × Indirect :=
  let (ixs, im, miss) := s.indices x 0 x.total
  let bad := firstNat ixs.length fun e => !s.elemOk x e (nth ixs e (0, false)).1
  match bad, miss with
  | some e, _ => (s, { x with phase := .moved, st := 1, count := e, mark := x.mp ||| im })
  | none, some e => (s, { x with phase := .moved, st := 1, count := e, mark := x.mp ||| im })
  | none, none => match s.moveElems x im ixs 0 0 with
    | some (s1, m, st, n) => (s1, { x with phase := .moved, st := st, count := n, mark := joins [x.mp, im, m] })
    | none => (s, { x with since := some (x.since.getD s.now) })

/-- Whether an element of an indirect copy lies in a unit whose agent is full: the engine then holds its request (R315). -/
def State.indHeld (s : State) (x : Indirect) : Bool :=
  (s.indices x 0 x.total).1.any fun p => (x.elem p.1).any s.fullAt

/-- Replaces an indirect copy of an engine. -/
def State.setInd (s : State) (u : Nat) (x : Indirect) : State :=
  let e := s.eng u
  s.setEng u { e with inds := e.inds.map fun y => if y.id = x.id then x else y }

/-- INDIRECT_RUN: the oldest queued descriptor runs when none runs (R373, Table 14.1). -/
def execIndirectRun (cl : BitVec 9) (s : State) : Out :=
  let u := 0x1000 + cl.toNat
  let e := s.eng u
  .next (if e.inds.any (·.phase == .moved) then s
    else match e.inds.find? (·.phase == .queued) with
      | some x =>
        if s.indHeld x then s
        else
          let (s1, y) := s.runIndirect x
          s1.setInd u y
      | none => s)

/-- INDIRECT_FINISH (R374): the event line, then a message when it is asked for or the command failed. -/
def execIndirectFinish (cl : BitVec 9) (s : State) : Out :=
  let u := 0x1000 + cl.toNat
  .next (match (s.eng u).inds.find? (·.phase == .moved) with
    | some x =>
      let s1 := s.setLine x.thread (field x.ctl 61 56)
      if x.ctl.getLsbD 63 || x.st != 0 then
        (s1.setInd u { x with phase := .done }).sendMail x.thread
          ⟨word (2 * 2 ^ 60 + x.st * 2 ^ 56 + x.count * 2 ^ 16 + x.id), x.mark⟩ none
      else
        let e := s1.eng u
        s1.setEng u { e with inds := e.inds.filter (·.id != x.id) }
    | none => s)

/-! ## Row fetches -/

/-- PMASK (R407). -/
def execPmask (a : Reg) (op : BitVec 2) (s : State) : Out :=
  runA (.pmask a op) (fun s => do
    let (v, m) ← alongside (s.needEngine false true) (s.blockL (s.x a) 8 128)
    let b : BitVec 1024 := BitVec.ofNat 1024 v
    let t := s.me
    let old := t.rowMask
    let new := match op.toNat with
      | 0 => b
      | 1 => old.val &&& b
      | 2 => old.val ||| b
      | _ => old.val &&& ~~~b
    .ok (s.setMe { t with rowMask := ⟨new, joins [if op = 0 then 0 else old.mark, m, s.xm a, s.base]⟩ })) s

/-- A row-set descriptor (Table 15.8). -/
structure RowSet where
  vbase : Word
  rstr : Word
  row0 : Nat
  count : Nat
  rlen : Nat
  ok : Bool
  deriving DecidableEq, Repr

/-- The descriptor that 32 bytes hold (R408). -/
def rowSet (v : Nat) : RowSet :=
  let n := v / 2 ^ 160 % 2 ^ 16
  let rl := v / 2 ^ 192 % 2 ^ 32
  { vbase := word v, rstr := word (v / 2 ^ 64), row0 := v / 2 ^ 128 % 2 ^ 32, count := n, rlen := rl
    ok := bits v 63 62 == 1 && rl % 64 == 0 && decide (64 ≤ rl) && decide (rl ≤ 16384) && decide (1 ≤ n)
      && decide (n ≤ 1024) && bits v 191 176 == 0 && bits v 255 224 == 0 }

/-- Address of row i of a set (R376). -/
def RowSet.row (r : RowSet) (i : Nat) : Word := r.vbase + word ((r.row0 + i) * r.rstr.toNat)

/-- Translates the selected rows in order. -/
def State.rowRegions (s : State) (r : RowSet) (write : Bool) : List Nat → Except Halt (State × List Region)
  | [] => .ok (s, [])
  | i :: t => do
    let (s1, x) ← s.regionOf s.agent (r.row i) r.rlen write
    let (s2, l) ← State.rowRegions s1 r write t
    .ok (s2, x :: l)

/-- The marks that the package itself knows of ranges: those of its own lines, and of its pages with TGT 1 the destination
origins (R477). -/
def State.regionMarks (s : State) (rs : List Region) : Mark :=
  joins (rs.flatMap fun r => (r.places.map fun p => s.mem.markOf p.2.1 p.2.2) ++
    r.pieces.map fun p => if p.leaf.tgt = 1 then originOf p.leaf.ceil else 0)

/-- MARK when a store of a mark to ranges is outside a ceiling: at the first range that fails, with the slots of every range
(R304, R305). -/
def State.regionsCheck (s : State) (rs : List Region) (m : Mark) : Except Halt Unit :=
  let above := rs.filterMap fun r => (s.regionOver s.agent r m).map fun x => (r.addr, x)
  match above.head?, joinOver (above.map (·.2)) with
  | some f, some x => trapWith 0x21 f.1 x
  | _, _ => .ok ()

/-- Asks the owners of a range outside the package for it, before anything moves (R409): LOST through a page, BOUNDS in space
10, and the join of the marks that the owners report (R456, R470). -/
def State.askRegion (s : State) (r : Region) (write : Bool) : Except Halt (State × Mark) :=
  let n (k : Nat) : Nat := if write then 0 else k
  match r.target with
  | .remote c => match s.askRemote s.agent c r.addr (n r.len) with
    | .data s1 _ m => .ok (s1, m)
    | .refused d => denyBounds r.addr write d
    | .silent => .error (.silent c)
  | .virt => r.pieces.foldlM (fun (acc : State × Mark) p =>
      let a := r.addr + word p.at_
      match p.leaf.tgt with
      | 1 => match acc.1.askHost s.agent with
        | .data s1 _ _ => .ok (s1, acc.2)
        | .refused d => denyWith 0x24 a 0 d
        | .silent => .error (.silent hostChip)
      | 2 => match acc.1.askRemote s.agent p.leaf.chip a (n p.len) with
        | .data s1 _ m => .ok (s1, acc.2 ||| m)
        | .refused d => denyWith 0x24 a 0 d
        | .silent => .error (.silent p.leaf.chip)
      | _ => .ok acc) (s, 0)
  | .loc _ => .ok (s, 0)
  | .ctl _ _ => .ok (s, 0)

/-- Asks the owners of several ranges. -/
def State.askRegions (s : State) (write : Bool) (rs : List Region) : Except Halt (State × Mark) :=
  rs.foldlM (fun (acc : State × Mark) r => do
    let (s1, m) ← acc.1.askRegion r write
    .ok (s1, acc.2 ||| m)) (s, 0)

/-- Translates the rows and the packed area: BOUNDS of either before PAGE and LOST of the other (R45). -/
def State.rowPlaces (s : State) (r : RowSet) (store : Bool) (pk : Word) (sel : List Nat) :
    Except Halt (State × List Region × Region) :=
  let area (t : State) := t.regionOf s.agent pk (128 + r.rlen * sel.length) (!store)
  match s.rowRegions r store sel with
  | .error h => match area s with
    | .error x => .error (firstHalt (some h) x)
    | .ok _ => .error h
  | .ok (s1, rows) => (area s1).map fun (s2, packed) => (s2, rows, packed)

/-- The checks of a row command whose header names rows, in the order of R409: places, owners, marks and ceilings. The owner of
a range outside the package is asked at the instruction, and its marks are those of the answer.
(DESIGN CHOICE, log entry 102.) -/
def State.rowChecks (s : State) (r : RowSet) (store : Bool) (pk : Word) (sel : List Nat) (m : Mark) :
    Except Halt (State × List Region × Region × Mark) := do
  let (s1, rows, packed) ← s.rowPlaces r store pk sel
  let src := if store then [packed] else rows
  let dst := if store then rows else [packed]
  let (s2, m1) ← s1.askRegions false src
  let k := m ||| m1
  s2.regionsCheck dst (k ||| s2.regionMarks src)
  let (s3, _) ← s2.askRegions true dst
  .ok (s3, rows, packed, k)

/-- The command that LDROWS or STROWS pushes, after every check (R409). ARITH 0x57 comes after the checks of the packed area
(R45): of the 128 bytes that it has at least where the descriptor is not valid. -/
def rowCommand (i : Instr) (store : Bool) (d a : Reg) (line : BitVec 6) (s : State) : Except Halt (State × RowCmd) := do
  let at_ := s.x a
  let pk := s.x d
  if !aligned pk.toNat 64 then bounds pk 3 (!store)
  else
    let (v, dm) ← s.blockL at_ 32 32
    let r := rowSet v
    if !r.ok then alongside (arith 0x57 0 at_) ((s.regionOf s.agent pk 128 (!store)).bind fun _ => arith 0x57 0 at_)
    else
      let (s1, head, hm) ← (if store then do
          let (s1, bs, m) ← s.loadAs s.agent pk 128
          .ok (s1, BitVec.ofNat 1024 (ofBytes bs), m)
        else .ok (s, s.me.rowMask.val, s.me.rowMask.mark) : Except Halt (State × BitVec 1024 × Mark))
      let sel := (List.range r.count).filter fun i => head.getLsbD i
      let valid := if store && decide (2 ^ r.count ≤ head.toNat) then arith 0x57 0 pk else .ok ()
      let (s2, rows, packed, m) ← alongside valid (s1.rowChecks r store pk sel (joins [s.rmark i, dm, hm]))
      .ok (s2, { id := 0, thread := s.cur, store := store, rows := rows, packed := packed, line := line.toNat, mark := m
                 header := BitVec.ofNat 1024 (sel.foldl (fun acc i => acc + 2 ^ i) 0)
                 part := s.partIx s.cur, lwin := s.me.csr.lwin.val, since := none })

/-- LDROWS and STROWS (R409). -/
def rowForm (i : Instr) (store : Bool) (d a : Reg) (line : BitVec 6) (s : State) : Run? := do
  let (s1, c) ← alongside (s.needEngine false true) (rowCommand i store d a line s)
  let u := engKey s.cur.unit
  let e := s1.eng u
  if 4 ≤ e.rows.length + e.marks 4 then holdOn
  else .ok (s1.setEng u { e with rows := e.rows ++ [{ c with id := e.rowSeq }], rowSeq := e.rowSeq + 1 })

/-- LDROWS (R409). -/
def execLdrows (d a : Reg) (line : BitVec 6) (s : State) : Out :=
  runA (.ldrows d a line) (rowForm (.ldrows d a line) false d a line) s

/-- STROWS (R409). -/
def execStrows (d a : Reg) (line : BitVec 6) (s : State) : Out :=
  runA (.strows d a line) (rowForm (.strows d a line) true d a line) s

/-- Reads ranges one after another. -/
def State.loadAll (s : State) (g : Agent) : List Region → Except Unserved (State × Got)
  | [] => .ok (s, ⟨[], 0, []⟩)
  | r :: t => do
    let (s1, x) ← s.regionLoad g r
    let (s2, y) ← State.loadAll s1 g t
    .ok (s2, ⟨x.bytes ++ y.bytes, x.mark ||| y.mark, x.bad ++ y.bad.map fun b => (b.1 + r.len, b.2)⟩)

/-- The part of a reading from an offset on. -/
def Got.slice (x : Got) (off n : Nat) : Got :=
  ⟨(x.bytes.drop off).take n, x.mark, (x.bad.filter fun b => decide (off < b.1 + b.2) && decide (b.1 < off + n)).map
    fun b => (Nat.max b.1 off - off, Nat.min (b.1 + b.2) (off + n) - Nat.max b.1 off)⟩

/-- Writes the rows of a packed row set, the first at an offset of it. A refused row ends the command: the rows before it
stay written (DESIGN CHOICE, log entry 102). -/
def State.storeRows (s : State) (g : Agent) (x : Got) (m : Mark) : List Region → Nat → Except Unserved State
  | [], _ => .ok s
  | r :: t, off =>
    let y := x.slice off r.len
    match s.regionStore g r y.bytes m y.bad with
    | .ok s1 => State.storeRows s1 g x m t (off + r.len)
    | .error (.refused _ d) => .ok (s.denied (some d))
    | .error .silent => .error .silent

/-- Moves a row command's bytes (R376): LDROWS writes the header and then the rows; STROWS writes each selected row. The mark
of what lies outside the package is the one that its owner reported at the instruction, which the command holds. -/
def State.moveRows (s : State) (c : RowCmd) : Except Unserved State :=
  let g : Agent := ⟨c.thread.unit, c.lwin, some c.part, false, overdue c.since s.now⟩
  if c.store then do
    let (s1, x) ← s.regionLoad g c.packed
    s1.storeRows g x (c.mark ||| s.regionMarks [c.packed]) c.rows 128
  else do
    let (s1, x) ← s.loadAll g c.rows
    let bs := toBytes 128 c.header.toNat ++ x.bytes
    s1.regionStore g c.packed bs (c.mark ||| s.regionMarks c.rows) (x.bad.map fun b => (b.1 + 128, b.2))

/-- ROW_UNIT_RUN: the oldest command moves its rows and sets its line (R376). A command that a refusal ends sets it as well;
one without an answer waits at the head of the queue. (DESIGN CHOICE, log entry 102.) -/
def execRowUnitRun (unit : BitVec 13) (s : State) : Out :=
  let u := unit.toNat
  let fin (t : State) (c : RowCmd) (rest : List RowCmd) : State :=
    let s1 := t.setLine c.thread c.line
    s1.setEng u { s1.eng u with rows := rest }
  .next (match (s.eng u).rows with
    | c :: rest =>
      if s.fullAt c.packed.addr then s
      else match s.moveRows c with
        | .ok s1 => fin s1 c rest
        | .error (.refused _ d) => fin (s.denied (some d)) c rest
        | .error .silent => s.setEng u { s.eng u with rows := { c with since := some (c.since.getD s.now) } :: rest }
    | [] => s)

end Sys2Proof.Machine
end

