-- ==== Sys2Proof/Machine/Gate.lean ====
section
/-! DEFINITION. The mark instructions and the release gate (chapter "Marks and the release gate"): page 7, opcodes 0x00
to 0x04, and the gate's own steps. -/

namespace Sys2Proof.Machine

open Sys2Proof

/-- n bytes of a number from an offset on. -/
def chop (v off n : Nat) : Nat := v / 2 ^ (8 * off) % 2 ^ (8 * n)

/-! ## Reading and raising marks -/

/-- Whether a v register is bound to an open slot (R16, R193). -/
def State.bound (s : State) (n : Nat) : Bool :=
  (decide (28 ≤ n) && (s.slot (n - 28)).opened) || (decide (26 ≤ n) && decide (n < 28) && (s.fibre (n - 26)).opened)

/-- MKRD (R481). -/
def execMkrd (k : BitVec 2) (d a : Reg) (s : State) : Out :=
  runA (.mkrd k d a) (fun s =>
    let give (s : State) (v m : Mark) : Run? := .ok (s.result d (v.setWidth 64) m)
    match k.toNat with
    | 0 => give s (s.xm a) (s.xm a)
    | 1 => if s.bound a.toNat then ill s else give s (s.readV a.toNat).mark (s.readV a.toNat).mark
    | 2 => do
      let (s1, _, m) ← s.loadAs s.agent (s.x a) 1
      give s1 m (m ||| s.xm a)
    | _ => if 7 < a.toNat then ill s else give s (s.readK a.toNat).mark (s.readK a.toNat).mark) s

/-- MKCTX (R482): the E-side instructions before it keep the CMARK they had. -/
def execMkctx (a : Reg) (s : State) : Out :=
  runA (.mkctx a) (fun s =>
    let s1 := s.keep cmarkKey ⟨0, s.me.csr.cmark⟩
    let t := s1.me
    .ok (s1.setMe { t with csr := { t.csr with cmark := joins [t.csr.cmark, (s.x a).setWidth 16, s.xm a] } })) s

/-- MKJOIN (R483). -/
def execMkjoin (v : Bool) (d a b : Reg) (s : State) : Out :=
  runA (.mkjoin v d a b) (fun s =>
    let m := joins [(s.x b).setWidth 16, s.xm b]
    if v then
      if s.bound a.toNat || s.bound d.toNat then ill s
      else
        let x := s.readV a.toNat
        .ok (s.putV d.toNat x.val (joins [x.mark, m, s.base]))
    else .ok (s.result d (s.x a) (s.xm a ||| m))) s

/-! ## Slots and keys -/

/-- Entry k of the key store. -/
def State.keyAt (s : State) (k : Nat) : KeyEntry := (s.sec.keys.get? k).getD ⟨0, 0, false⟩

/-- The word SLOT n of a partition (Table 20.1). -/
def State.slotWord (s : State) (p n : Nat) : Word := ((s.part p).slots.get? n).getD 0

/-- The usable key that slot n of a partition names (R476, R500). -/
def State.slotKeyOf (s : State) (p n : Nat) : Option KeyEntry :=
  let w := s.slotWord p n
  let k := field w 15 0
  if w.getLsbD 63 && decide (k < 256) && (s.keyAt k).v then some (s.keyAt k) else none

/-! ## Submitting a request -/

/-- The requests that the gate's queue holds (R486). -/
def gateCap : Nat := 16

/-- GATESUB (R489). -/
def execGatesub (d a : Reg) (wait evt : Bool) (line : BitVec 6) (s : State) : Out :=
  runA (.gatesub d a wait evt line) (fun s => do
    let at_ := s.x a
    if field at_ 63 62 ≠ 0 then bounds at_ 0 false
    else
      let (v, m) ← s.loadL at_ 32
      let len := chop v 16 4
      if !aligned at_.toNat 32 ∨ chop v 20 4 ≠ 0 ∨ len < 1 ∨ 65536 < len then arith 0x70 0 at_
      else if gateCap ≤ s.gate.queue.length then holdOn
      else
        let g := s.gate
        let q : GateReq := { id := g.next.toNat, thread := s.cur, part := s.partIx s.cur, req := BitVec.ofNat 256 v
                             lwin := s.me.csr.lwin.val, mg := joins [m, s.xm a, s.base]
                             line := if evt then some line.toNat else none, since := none }
        let s1 := ({ s with gate := { g with next := g.next + 1, queue := g.queue ++ [q] } }).result d
          (g.next.setWidth 64) (s.xm a)
        .ok (if wait then s1.setMe { s1.me with hold := some (.gate q.id s1.now) } else s1)) s

/-- The word of Table 20.7. -/
def gateWord (state st slot bytes id : Nat) : Word :=
  word (state * 2 ^ 62 + st * 2 ^ 56 + slot * 2 ^ 48 + bytes * 2 ^ 16 + id)

/-- GATEST (R490): a request of which an access waits for an answer is being checked. -/
def execGatest (d a : Reg) (s : State) : Out :=
  runA (.gatest d a) (fun s =>
    let id := field (s.x a) 15 0
    let p := s.partIx s.cur
    let m := s.xm a
    let recent := decide ((s.gate.next - 1 - BitVec.ofNat 16 id).toNat < 256)
    if !recent then .ok (s.result d (gateWord 0 0 0xFF 0 id) m)
    else match s.gate.queue.find? fun q => q.id == id && q.part == p with
      | some q => .ok (s.result d (gateWord (if q.since.isSome then 2 else 1) 0 0xFF 0 id) m)
      | none => match s.gate.hist.find? fun g => g.id == id && g.part == p with
        | some g => .ok (s.result d (gateWord 3 g.st (if g.st = 8 then g.slot else 0xFF) g.bytes id) (m ||| g.mark))
        | none => .ok (s.result d (gateWord 0 0 0xFF 0 id) m)) s

/-! ## The gate -/

/-- SRC of a request. -/
def GateReq.src (q : GateReq) : Word := word (chop q.req.toNat 0 8)

/-- DST. -/
def GateReq.dst (q : GateReq) : Word := word (chop q.req.toNat 8 8)

/-- LEN. -/
def GateReq.len (q : GateReq) : Nat := chop q.req.toNat 16 4

/-- POLICY. -/
def GateReq.policy (q : GateReq) : Word := word (chop q.req.toNat 24 8)

/-- The gate as it acts for a request at an address (R484): space 01 is reached whatever the issuer's kind of core. -/
def GateReq.agent (q : GateReq) (now : Nat) (a : Word) : Agent :=
  if field a 63 62 = 1 then engineAgent q.part q.since now
  else ⟨q.thread.unit, q.lwin, some q.part, false, overdue q.since now⟩

/-- A byte of the issuer's space 00 as the same byte in space 10 (R484). -/
def GateReq.far (q : GateReq) (chip : Nat) (a : Word) : Word :=
  if field a 63 62 ≠ 0 then a
  else
    let u := q.thread.unit
    let (w, o) := if a.toNat < 0x100000 then (u, a.toNat) else (0x1000 + clusterOf u, a.toNat - 0x100000)
    word (2 * 2 ^ 62 + chip * 2 ^ 34 + w * 2 ^ 21 + o)

/-- The range of a request at an address; none where its checks fail (R486, ST 1). -/
def State.gateRange (s : State) (q : GateReq) (a : Word) (n : Nat) (write : Bool) : Option (State × Region) :=
  if field a 63 62 = 3 ∨ (field a 63 62 = 2 ∧ field a 52 34 ≠ s.chip) then none
  else match s.regionOf (q.agent s.now a) a n write with
    | .ok r => some r
    | .error _ => none

/-- A well-formed policy (R485): `v` is its 1,120 bytes. -/
def policyOk (v : Nat) : Bool :=
  chop v 0 4 == 1 && chop v 4 2 != 0 && decide (popcount 16 (chop v 6 2) ≤ 1) && chop v 8 4 / 2 ^ 19 == 0
    && chop v 0x0E 2 == 0 && chop v 0x30 48 == 0

/-- H: the digest of the body of a policy (R485). -/
def policyHash (v : Nat) : BitVec 256 := BitVec.ofNat 256 (sha256 (toBytes 96 v))

/-- Whether slot n's signature over a policy's body verifies with the key that the slot names (R485, R486). -/
def State.slotSigned (s : State) (p v n : Nat) : Bool :=
  match s.slotKeyOf p n with
  | none => false
  | some k =>
    let big (o : Nat) : Nat := ofBe (toBytes 32 (chop v o 32))
    ecdsaVerify k.x.toNat k.y.toNat (policyHash v).toNat (big (0x60 + 64 * n)) (big (0x80 + 64 * n))

/-- The lowest slot of OMASK whose signature fails. -/
def State.badSlot (s : State) (p v : Nat) : Option Nat :=
  firstNat 16 fun n => bit (chop v 4 2) n && !s.slotSigned p v n

/-- The use entries of a partition whose EXPIRY has not passed (R488). -/
def State.liveUses (s : State) (p : Nat) : List UseEntry := (s.part p).uses.filter fun u => decide (s.tbase.toNat < u.expiry.toNat)

/-- The use table with one more release under a policy; none when USED = MAXN or no entry is free (R486). -/
def countUse (l : List UseEntry) (h : BitVec 256) (maxn : Nat) (expiry : Word) : Option (List UseEntry) :=
  match l.find? (·.hash == h) with
  | some u => if maxn ≤ u.used then none else some (l.map fun x => if x.hash = h then { x with used := x.used + 1 } else x)
  | none => if maxn = 0 ∨ 64 ≤ l.length then none else some (l ++ [⟨h, 1, expiry⟩])

/-- Writes the released bytes with the mark of one origin (R487): whole lines take it alone. -/
def State.release (s : State) (g : Agent) (r : Region) (ps : List Piece) (bs : List Byte) (m : Mark)
    (bad : List (Nat × Nat)) : Except Unserved State :=
  let fin (t : State) : State := { t with mem := t.mem.spread r.places bad }
  match r.target with
  | .loc l => .ok (fin (s.put l bs m true))
  | .virt => match s.storePieces g r.addr bs m true ps with
    | .ok t => .ok (fin t)
    | .error h => .error (unserved h)
  | .remote _ => .error (.refused 7 ⟨none, none⟩)
  | .ctl _ _ => .error (.refused 7 ⟨none, none⟩)

/-- GateRun of R486 for a request: the state after it and its status; none while an access of it has no answer. A refused
access ends the request with the status of its place in GateRun. (DEDUCED, log entry 76.) -/
def State.serveGate (s : State) (q : GateReq) : Option (State × GateDone) :=
  let n := q.len
  let p := q.part
  let stop (s : State) (st slot : Nat) (m : Mark) : Option (State × GateDone) := some (s, ⟨q.id, p, st, slot, 0, m⟩)
  let fails (s : State) (e : Unserved) (st : Nat) (m : Mark) : Option (State × GateDone) := match e with
    | .refused _ d => stop (s.denied (some d)) st 0xFF m
    | .silent => none
  if s.sec.halted then stop { s with free := s.free + 1 } 8 (Config.freeByte s.ix).toNat q.mg
  else if !aligned q.policy.toNat 64 then stop s 1 0xFF q.mg
  else match s.gateRange q q.src n false with
  | none => stop s 1 0xFF q.mg
  | some (s1, src) => match s1.gateRange q q.dst n true with
    | none => stop s1 1 0xFF q.mg
    | some (s2, dst) => match s2.gateRange q q.policy 1120 false with
      | none => stop s2 1 0xFF q.mg
      | some (s3, pol) => match s3.regionLoad (q.agent s.now q.policy) pol with
        | .error e => fails s3 e 1 q.mg
        | .ok (s4, pb) => match s4.regionLoad (q.agent s.now q.src) src with
          | .error e => fails s4 e 1 q.mg
          | .ok (s5, data) =>
            let v := ofBytes pb.bytes
            let m := q.mg ||| data.mark
            let far := (q.far s.chip q.dst).toNat
            let base := chop v 0x10 8
            let dorig : Mark := BitVec.ofNat 16 (chop v 6 2)
            if !pb.bad.isEmpty || !policyOk v then stop s5 2 0xFF m
            else if chop v 8 4 ≠ s.chip ∨ chop v 0x0C 2 ≠ (s.part p).sgid.toNat then stop s5 3 0xFF m
            else if chop v 0x28 8 ≤ s.tbase.toNat then stop s5 4 0xFF m
            else if m &&& ~~~ (BitVec.ofNat 16 (chop v 4 2)) ≠ 0 then stop s5 5 0xFF m
            else if chop v 0x20 4 < n ∨ far < base ∨ base + chop v 0x18 8 < far + n then stop s5 6 0xFF m
            else match s5.unpoisoned.checkAs (q.agent s.now q.dst) q.dst n dorig true with
              | .error _ => stop s5 7 0xFF m
              | .ok (_, _, ps) => match s5.badSlot p v with
                | some k => stop s5 8 k m
                | none => match countUse (s5.liveUses p) (policyHash v) (chop v 0x24 4) (word (chop v 0x28 8)) with
                  | none => stop s5 9 0xFF m
                  | some l => match s5.release (q.agent s.now q.dst) dst ps data.bytes dorig data.bad with
                    | .error e => fails s5 e 7 m
                    | .ok s6 => some (s6.setPart p { s6.part p with uses := l }, ⟨q.id, p, 0, 0xFF, n, dorig⟩)

/-- A request reaches STATE 3 (R489, R490): its status is kept among the last 256, and its line is set. -/
def State.gateFinish (s : State) (q : GateReq) (d : GateDone) : State :=
  let g := s.gate
  let hist := (g.hist ++ [d]).filter fun x => decide ((g.next - 1 - BitVec.ofNat 16 x.id).toNat < 256)
  let s1 := { s with gate := { g with hist := hist } }
  match q.line with
  | some l => s1.setLine q.thread l
  | none => s1

/-- GATE_RUN: the gate serves its oldest request (R486); one without an answer stays the oldest, and so does one that
addresses a unit whose agent is full (R315). -/
def execGateRun (s : State) : Out :=
  .next (match s.gate.queue with
    | [] => s
    | q :: rest =>
      if [q.src, q.dst, q.policy].any s.fullAt then s
      else match ({ s with gate := { s.gate with queue := rest } }).serveGate q with
      | some (s1, d) => s1.gateFinish q d
      | none => { s with gate := { s.gate with queue := { q with since := some (q.since.getD s.now) } :: rest } })

/-- A PSET that resets a partition ends its queued requests with ST 10 (R488). -/
def State.endRequests (s : State) (p : Nat) : State :=
  let s1 := { s with gate := { s.gate with queue := s.gate.queue.filter fun q => q.part != p } }
  (s.gate.queue.filter fun q => q.part == p).foldl (fun t q => t.gateFinish q ⟨q.id, p, 10, 0xFF, 0, q.mg⟩) s1

/-- POLICY_USE_EXPIRY: a use entry whose EXPIRY has passed is freed (R488). -/
def execPolicyUseExpiry (part : BitVec 6) (ix : Nat) (s : State) : Out :=
  let q := s.part part.toNat
  .next (match q.uses[ix]? with
    | some u => if u.expiry.toNat ≤ s.tbase.toNat then s.setPart part.toNat { q with uses := dropNth q.uses ix } else s
    | none => s)

end Sys2Proof.Machine
end

