-- ==== Sys2Proof/Machine/Matrix.lean ====
section
/-! DEFINITION. The matrix unit: leases, format contexts, commands, chunk and output steps, results; code tables and
engine markers (R377 to R390, R398 to R412). -/

namespace Sys2Proof.Machine

open Sys2Proof

/-! ## Halves -/

/-- Split mode: the cores of a cluster belong to two partitions (R378). -/
def State.isSplit (s : State) (j : Nat) : Bool := decide (2 ≤ (s.partsOfCluster j).length)

/-- The half that serves a thread: half 1 for the second partition of a split cluster (R378). -/
def State.halfOf (s : State) (t : ThreadId) : Nat :=
  let j := clusterOf t.unit
  if s.isSplit j && s.partOf t != (s.partsOfCluster j).head? then 1 else 0

/-- A half of a cluster. -/
def Cluster.half (c : Cluster) (h : Nat) : Half := if h = 0 then c.half0 else c.half1

/-- Writes a half of a cluster. -/
def State.setHalf (s : State) (j h : Nat) (x : Half) : State :=
  let c := s.cluster j
  s.setCluster j (if h = 0 then { c with half0 := x } else { c with half1 := x })

/-- The half of the running thread. -/
def State.myHalf (s : State) : Half := (s.cluster (clusterOf s.cur.unit)).half (s.halfOf s.cur)

/-- Writes the half of the running thread. -/
def State.setMyHalf (s : State) (x : Half) : State := s.setHalf (clusterOf s.cur.unit) (s.halfOf s.cur) x

/-- Gives the lease to a thread, with the commands that come back from its save area (R380, R383; DEDUCED, log entry 66). -/
def Half.grant (x : Half) (t : ThreadId) (n : Nat) (back : List MatCmd) : Half :=
  { x with lease := some (t, n), requests := x.requests.filter fun r => r.1 != t
           queue := x.queue ++ back, saved := x.saved.filter fun r => r.1 != t }

/-- The location of a command's save area. -/
def MatCmd.areaLoc (c : MatCmd) : Nat := spadLoc (clusterOf c.thread.unit) + (c.fmt.area.toNat - 0x100000)

/-- An interrupted command with its partial sums as the save area holds them, row by row (R383; DESIGN CHOICE, log entry
103); a poisoned sum makes its row poisoned (R446). -/
def State.reload (s : State) (c : MatCmd) : MatCmd :=
  let l := c.areaLoc
  let bad := s.mem.poisoned l (4 * c.m * c.n)
  let row (g : Nat) : List Nat := (List.range c.m).filter fun i =>
    decide (g < l + 4 * c.n * (i + 1)) && decide (l + 4 * c.n * i < g + poisonSize l)
  if c.sums.isEmpty then c
  else { c with sums := (List.range (c.m * c.n)).map fun i => BitVec.ofNat 32 (ofBytes (s.mem.read (l + 4 * i) 4))
                mark := c.mark ||| s.mem.markOf l (4 * c.m * c.n), badA := c.badA ++ bad.flatMap row }

/-- The commands that a revocation saved for a thread, the first as its save area gives it back (R383). -/
def State.savedFor (s : State) (x : Half) (t : ThreadId) : List MatCmd :=
  (x.saved.filter fun r => r.1 == t).flatMap fun r => match r.2 with
    | c :: rest => s.reload c :: rest
    | [] => []

/-- How far after a holder a waiting thread comes in the rotation of Table 14.5: cores, then hardware threads. -/
def rotation (h t : ThreadId) : Nat :=
  ((t.unit + 15 - h.unit % 8) % 8) * 16 + ((t.ht + 3 - h.ht % 4) % 4) * 4 + t.set

/-- The request that comes first in the rotation. -/
def firstRequest (h : ThreadId) : List (ThreadId × Nat) → Option (ThreadId × Nat)
  | [] => none
  | r :: t => match firstRequest h t with
    | none => some r
    | some x => if rotation h x.1 < rotation h r.1 then some x else some r

/-- LEASE_GRANT: a lease that has ended goes to the waiting thread that comes next in rotation (R380). -/
def execLeaseGrant (cl : BitVec 9) (half : Bool) (s : State) : Out :=
  let j := cl.toNat
  let x := (s.cluster j).half (b2n half)
  .next (match x.lease with
    | some _ => s
    | none => match firstRequest (x.lastHolder.getD ⟨8 * j + 7, 0, 3⟩) x.requests with
      | some (t, n) => s.setHalf j (b2n half) (x.grant t n (s.savedFor x t))
      | none => s)

/-- The wait of a matrix form (R393): form 0 MLEASE, 1 MDRAIN, 2 EPOP. -/
def State.waitMatrix {α : Type} (s : State) (form : Nat) : Except Halt α :=
  waitOn 0x0E (s.halfOf s.cur + 2 * form) (0x1000 + clusterOf s.cur.unit) s.chip

/-- Whether the A-side waits in a matrix form already. -/
def State.inMatrixWait (s : State) (form : Nat) : Bool :=
  match s.me.aWait with
  | some w => w.kind == 0x0E && w.index / 2 == form
  | none => false

/-- Places the request of an MLEASE (Table 14.5): a lease that the thread itself holds ends first. -/
def State.requestLease (s : State) (n : Nat) : State :=
  let x := s.myHalf.endLease s.cur
  if x.requests.any (·.1 == s.cur) then s else s.setMyHalf { x with requests := x.requests ++ [(s.cur, n)] }

/-- MLEASE (R398, Table 14.5): at once when the half is free and nobody waits, otherwise from the request set. -/
def execMlease (n : BitVec 7) (s : State) : Out :=
  let waiting := s.inMatrixWait 0
  runQ (.mlease n) (fun s => s.requestLease n.toNat) (fun s => do
    s.needEngine true false
    let x := s.myHalf
    match x.lease with
    | some (h, _) => if waiting && h == s.cur then .ok s else s.waitMatrix 0
    | none =>
      if x.requests.isEmpty then .ok (s.setMyHalf (x.grant s.cur n.toNat (s.savedFor x s.cur))) else s.waitMatrix 0) s

/-- MREL (R399). -/
def execMrel (s : State) : Out :=
  runA .mrel (fun s => do
    s.needEngine true false
    .ok (s.setMyHalf (s.myHalf.endLease s.cur))) s

/-! ## Format contexts -/

/-- The context set of the running thread. -/
def State.mySet (s : State) : CtxSet := s.ctxSet s.cur.unit s.cur.set

/-- Writes the context set of the running thread. -/
def State.setMySet (s : State) (x : CtxSet) : State := s.setCtxSet s.cur.unit s.cur.set x

/-- ATYPE, BTYPE or CTYPE of a format context. -/
def fmtType (c : BitVec 17) (n : Nat) : ETy := (ETy.ofCode (c.extractLsb' (4 * n) 4)).getD .f32

/-- Bytes of the save area that MFMT requires (R400). -/
def State.saveBytes (s : State) : Nat := if s.isSplit (clusterOf s.cur.unit) then 33792 else 66560

/-- MFMT (R400). -/
def execMfmt (a : Reg) (c : BitVec 17) (s : State) : Out :=
  runA (.mfmt a c) (fun s => do
    let at_ := s.x a
    let x := s.mySet
    let (b, n) := lwinSpad s.me.csr.lwin.val
    let p := at_.toNat - 0x100000
    let placed : Except Halt Unit :=
      if at_ = 0 then .ok ()
      else if field at_ 63 62 ≠ 0 ∨ at_.toNat < 0x100000 ∨ 0x200000 ≤ at_.toNat ∨ !aligned at_.toNat 512 then arith 0x53 0 at_
      else if p < 512 * b ∨ 512 * (b + n) ≤ p then bounds at_ 1 true
      else if 512 * (b + n) < p + s.saveBytes then bounds at_ 2 true
      else .ok ()
    alongside (s.needEngine true false) placed
    .ok (s.setMySet { x with fmt := ⟨c, at_⟩, outb := false })) s

/-! ## Operands of a command -/

/-- A scratchpad operand descriptor (Table 15.6). -/
structure OpDesc where
  kind : Nat
  len : Nat
  lines : Nat
  off : Nat
  brc : Nat
  pitch : Nat
  reserved : Bool
  word1 : Word
  deriving DecidableEq, Repr

/-- The descriptor that a register pair holds. -/
def opDesc (r0 r1 : Word) : OpDesc :=
  { kind := field r0 63 62, len := field r0 61 48 + 1, lines := field r0 40 34 + 1, off := field r0 19 0
    brc := field r1 63 61, pitch := field r1 19 0
    reserved := field r0 47 41 != 0 || field r0 33 20 != 0 || field r1 60 20 != 0, word1 := r1 }

/-- Size of an element, 2 for coded lines (R401). -/
def opSize (t : ETy) : Nat := if t.coded then 2 else t.width / 8

/-- Whether a descriptor is valid for A or B, or for C with N columns (R401). -/
def OpDesc.ok (d : OpDesc) (t : ETy) (tiles : Nat) (isC : Bool) : Bool :=
  decide (d.kind ≤ 1) && !d.reserved && decide (d.brc ≤ 5)
    && (d.kind != 0 || (d.off % opSize t == 0 && d.pitch % opSize t == 0))
    && (!isC || (d.kind == 0 && decide (d.len * opSize t ≤ d.pitch)))
    && (d.kind != 1 || (d.word1 == 0 && decide (d.off < 4) && !t.coded && decide (d.off < tiles)
      && decide (d.lines ≤ 16) && decide (d.len ≤ 16 / opSize t)))

/-- TILES of the running thread's launch; 0 without a launch (R212, R526). -/
def State.tiles (s : State) : Nat :=
  match s.myLaunch with
  | some (_, l) => bits (launchRes l.record) 2 0
  | none => 0

/-- A matrix operand as accepted: a named tile's registers are staged (R381). -/
def State.stage (s : State) (d : OpDesc) : MatSrc :=
  if d.kind = 1 then .tile d.off ((List.range 8).map fun i => (s.readV (8 * d.off + i)).val) else .spad d.off d.pitch

/-- The marks of a staged tile's registers (R387). -/
def State.stageMark (s : State) (d : OpDesc) : Mark :=
  if d.kind = 1 then joins ((List.range 8).map fun i => (s.readV (8 * d.off + i)).mark) else 0

/-- The tile that an operand names. -/
def MatSrc.tno : MatSrc → Option Nat
  | .spad _ _ => none
  | .tile n _ => some n

/-- Whether an earlier command of a thread still uses the staging of a tile (R402). -/
def Half.staged (x : Half) (t : ThreadId) (n : Nat) : Bool :=
  (x.queue ++ x.saved.flatMap (·.2)).any fun c => c.thread == t && (c.a.tno == some n || c.b.tno == some n)

/-- Whether a thread has an open slot on a register of tile 3. -/
def State.tileSlots (s : State) : Bool :=
  (List.range 4).any (fun n => (s.slot n).opened) || (List.range 2).any (fun n => (s.fibre n).opened)

/-- The current code tables of a coded type (R62). (DEDUCED, log entry 64.) -/
def State.latchTabs (s : State) (t : ETy) : List CodeTab :=
  if t.coded then (List.range 4).map (s.codeTab (t == .e5m2c)) else []

/-- Number of a half among the marker queues. -/
def halfQueue (h : Nat) : Nat := 2 + h

/-- The acceptance of a matrix command after its checks (R381, R402). -/
def State.acceptCmd (s : State) (cmd : MatCmd) (tiles : List OpDesc) : Run? :=
  let x := s.myHalf
  let h := s.halfOf s.cur
  let e := s.eng (engKey s.cur.unit)
  if 8 ≤ x.queue.length + e.marks (halfQueue h) then holdOn
  else if tiles.any (fun d => d.kind == 1 && x.staged s.cur d.off) then holdOn
  else
    let lease := match x.lease with
      | some (t, n) => if n ≤ 1 then none else some (t, n - 1)
      | none => none
    let last := if lease.isNone then some s.cur else x.lastHolder
    .ok (s.setMyHalf { x with queue := x.queue ++ [cmd], seqNext := x.seqNext + 1, lease := lease, lastHolder := last })

/-- Whether the running thread holds the lease of its half. -/
def State.holdsLease (s : State) : Bool :=
  match s.myHalf.lease with
  | some (t, _) => t == s.cur
  | none => false

/-- The descriptor in the register pair of an operand. -/
def State.pairDesc (s : State) (r : Reg) : OpDesc := opDesc (s.x r) (s.readX (r.toNat + 1)).val

/-- The command of a push, not yet accepted (R402). -/
def State.newCmd (s : State) (a b : MatSrc) (m n k : Nat) (c : OpDesc) (conv : Option Conv) (acc : Bool) (mk : Mark) :
    MatCmd :=
  let f := s.mySet.fmt
  let ta := s.latchTabs (fmtType f.c 0)
  let tb := s.latchTabs (fmtType f.c 1)
  { seq := s.myHalf.seqNext, thread := s.cur, m := m, n := n, k := k, a := a, b := b, cOff := c.off, cPitch := c.pitch
    conv := conv, fmt := f, tabsA := ta, tabsB := tb, acc := acc, lwin := s.me.csr.lwin.val, step := 0, sums := []
    flags := 0, mark := joins (mk :: (ta ++ tb).map (·.mark)), outb := false, fault := none, badA := [], badB := [] }

/-- MMA (R402). (DEDUCED, log entry 65.) (DEDUCED, log entry 67.) -/
def execMma (d a b : Reg) (acc : Bool) (s : State) : Out :=
  let i : Instr := .mma d a b acc
  runA i (fun s => do
    let f := s.mySet.fmt.c
    let da := s.pairDesc a
    let db := s.pairDesc b
    let dc := s.pairDesc d
    if isCompute s.cur.unit && s.tileSlots && ((da.kind == 1 && da.off == 3) || (db.kind == 1 && db.off == 3)) then ill s
    else do
      s.needEngine true false
      if !s.holdsLease then arith 0x56 0 0
      else if !da.ok (fmtType f 0) s.tiles false then arith 0x55 0 0
      else if !db.ok (fmtType f 1) s.tiles false then arith 0x55 1 0
      else if !dc.ok (fmtType f 2) s.tiles true then arith 0x55 2 0
      else if db.len ≠ da.len ∨ dc.lines ≠ da.lines ∨ dc.len ≠ db.lines then arith 0x55 2 0
      else if s.isSplit (clusterOf s.cur.unit) ∧ 64 < da.lines then arith 0x56 0 0
      else if !mfmtOk f then arith 0x54 0 0
      else
        let mk := joins [s.rmark i, s.stageMark da, s.stageMark db]
        s.acceptCmd (s.newCmd (s.stage da) (s.stage db) da.lines db.lines da.len dc none acc mk) [da, db]) s

/-- The convolution descriptor that 64 bytes hold; none when a field is outside its limits (Table 15.7). -/
def convOf (v : Nat) : Option Conv :=
  let h (off n : Nat) : Nat := v / 2 ^ (8 * off) % 2 ^ (8 * n)
  let c : Conv :=
    { xbase := h 0 4, nb := h 8 2, h := h 10 2, w := h 12 2, cin := h 14 2, fh := h 16 1, fw := h 17 1, sh := h 18 1
      sw := h 19 1, ph := h 20 1, pw := h 21 1, dh := h 22 1, dw := h 23 1, p := h 24 2, q := h 26 2, m0 := h 28 4 }
  if h 0 4 / 2 ^ 20 = 0 ∧ h 4 4 ≤ 5 ∧ h 32 32 = 0 ∧
      [c.nb, c.h, c.w, c.cin, c.fh, c.fw, c.sh, c.sw, c.dh, c.dw, c.p, c.q].all (· != 0) then some c
  else none

/-- MCONV (R403). -/
def execMconv (d a b : Reg) (acc : Bool) (s : State) : Out :=
  let i : Instr := .mconv d a b acc
  runA i (fun s => do
    let f := s.mySet.fmt.c
    let db := s.pairDesc b
    let dc := s.pairDesc d
    let at_ := s.x a
    if isCompute s.cur.unit && s.tileSlots && db.kind == 1 && db.off == 3 then ill s
    else do
      let (v, dm) ← alongside (s.needEngine true false) (s.blockL at_ 64 64)
      if !s.holdsLease then arith 0x56 0 0
      else match convOf v with
        | none => arith 0x55 3 at_
        | some c =>
          let k := c.fh * c.fw * c.cin
          if (fmtType f 0).coded ∨ c.xbase % opSize (fmtType f 0) ≠ 0 ∨ k ≠ db.len then arith 0x55 3 at_
          else if !db.ok (fmtType f 1) s.tiles false then arith 0x55 1 0
          else if !dc.ok (fmtType f 2) s.tiles true then arith 0x55 2 0
          else if dc.len ≠ db.lines then arith 0x55 2 0
          else if s.isSplit (clusterOf s.cur.unit) ∧ 64 < dc.lines then arith 0x56 0 0
          else if !mfmtOk f then arith 0x54 0 0
          else
            let mk := joins [s.rmark i, s.stageMark db, dm]
            s.acceptCmd (s.newCmd (.spad 0 0) (s.stage db) dc.lines db.lines k dc (some c) acc mk) [db]) s

/-! ## Chunk steps -/

/-- The half as the agent of a command. -/
def MatCmd.agent (c : MatCmd) : Agent := ⟨c.thread.unit, c.lwin, none, false, true⟩

/-- What a matrix command reads: bytes, mark, whether the range is poisoned; or cause and address of a fault. -/
abbrev MatRead := Except (Nat × Word) (Nat × Mark × Bool)

/-- The first byte of a range that a check refuses, the first byte where every byte alone passes. -/
def State.firstBad (s : State) (g : Agent) (a : Word) (n : Nat) (write : Bool) : Word :=
  match firstNat n fun k => (match s.resolve00 g (a + word k) 1 write false with | .ok _ => false | .error _ => true) with
  | some k => a + word k
  | none => a

/-- Reads n bytes at a scratchpad offset for a command (R386). -/
def State.matRead (s : State) (c : MatCmd) (off n : Nat) : MatRead :=
  let a := word (0x100000 + off)
  match s.resolve00 c.agent a n false false with
  | .ok (.loc l) => .ok (ofBytes (s.mem.read l n), s.mem.markOf l n, !(s.mem.poisoned l n).isEmpty)
  | .ok _ => .error (6, a)
  | .error _ => .error (6, s.firstBad c.agent a n false)

/-- 32 elements of an operand line, those beyond its end +0, with what reading them met: elements, mark, whether a
block is malformed, whether the bytes are poisoned. -/
structure LineChunk where
  els : List Nat
  mark : Mark
  bad : Bool
  poison : Bool
  deriving DecidableEq, Repr

/-- Pads elements with +0 to 32. -/
def pad32 (l : List Nat) : List Nat := l ++ List.replicate (32 - l.length) 0

/-- Skips blocks of a coded line: the offset of the block after n of them, with the marks of their headers and whether one is
poisoned (R59, R446). The format of the operand gives every block's length, its header's FMT none.
(DESIGN CHOICE, log entry 105.) -/
def State.skipBlocks (s : State) (c : MatCmd) (e5 : Bool) : Nat → Nat → Except (Nat × Word) (Nat × Mark × Bool)
  | 0, off => .ok (off, 0, false)
  | n + 1, off => do
    let (h, m, p) ← s.matRead c off 2
    let (o, k, q) ← State.skipBlocks s c e5 n (off + blockBits e5 h / 8)
    .ok (o, m ||| k, p || q)

/-- One chunk of a coded line. -/
def State.codedChunk (s : State) (c : MatCmd) (e5 : Bool) (tabs : List CodeTab) (off len step : Nat) :
    Except (Nat × Word) LineChunk := do
  let (o, m0, p0) ← s.skipBlocks c e5 step off
  let (h, m1, p1) ← s.matRead c o 2
  let (b, m2, p2) ← s.matRead c o (blockBits e5 h / 8)
  let (el, bad, _) := decodeBlock e5 (fun i => nth tabs i (CodeTab.fresh e5)) b
  .ok ⟨pad32 (el.take (len - 32 * step)), joins [m0, m1, m2], bad, p0 || p1 || p2⟩

/-- One chunk of line i of an operand (R381, R401). -/
def State.lineChunk (s : State) (c : MatCmd) (src : MatSrc) (t : ETy) (tabs : List CodeTab) (len i step : Nat) :
    Except (Nat × Word) LineChunk :=
  let n := Nat.min 32 (len - 32 * step)
  let es := opSize t
  match src with
  | .tile _ rows =>
    let v := (nth rows (i / 2) 0).toNat / 2 ^ (128 * (i % 2))
    .ok ⟨pad32 ((List.range n).map fun j => v / 2 ^ (8 * es * (32 * step + j)) % 2 ^ (8 * es)), 0, false, false⟩
  | .spad off pitch =>
    if t.coded then s.codedChunk c (t == .e5m2c) tabs (off + i * pitch) len step
    else match s.matRead c (off + i * pitch + 32 * step * es) (n * es) with
      | .error e => .error e
      | .ok (v, m, p) => .ok ⟨pad32 ((List.range n).map fun j => v / 2 ^ (8 * es * j) % 2 ^ (8 * es)), m, false, p⟩

/-- Image and coordinates of output row m (R388). -/
def Conv.row (v : Conv) (m : Nat) : Nat × Nat × Nat :=
  let g := v.m0 + m
  (g / (v.p * v.q), g % (v.p * v.q) / v.q, g % v.q)

/-- Whether output row m of a command is neither computed nor stored (R388). -/
def MatCmd.suppressed (c : MatCmd) (m : Nat) : Bool :=
  match c.conv with
  | some v => decide (v.nb ≤ (v.row m).1)
  | none => false

/-- The scratchpad offset of A[m][k] of a convolution; none for padding (R388). -/
def Conv.at_ (v : Conv) (es m k : Nat) : Option Nat :=
  let (n, p, q) := v.row m
  let fr := k / (v.fw * v.cin)
  let fc := k % (v.fw * v.cin) / v.cin
  let ch := k % v.cin
  let h : Int := (p * v.sh + fr * v.dh : Nat) - (v.ph : Int)
  let w : Int := (q * v.sw + fc * v.dw : Nat) - (v.pw : Int)
  if 0 ≤ h ∧ h < v.h ∧ 0 ≤ w ∧ w < v.w then some (v.xbase + (((n * v.h + h.toNat) * v.w + w.toNat) * v.cin + ch) * es)
  else none

/-- Elements of row m of a convolution's A from depth k on (R388). -/
def State.convEls (s : State) (c : MatCmd) (v : Conv) (es m : Nat) : Nat → Nat → Except (Nat × Word) LineChunk
  | _, 0 => .ok ⟨[], 0, false, false⟩
  | k, n + 1 => do
    let (x, xm, p) ← (match v.at_ es m k with
      | none => .ok (0, 0, false)
      | some o => s.matRead c o es)
    let r ← State.convEls s c v es m (k + 1) n
    .ok ⟨x :: r.els, xm ||| r.mark, false, p || r.poison⟩

/-- One chunk of row m of A. -/
def State.rowChunk (s : State) (c : MatCmd) (m : Nat) : Except (Nat × Word) LineChunk :=
  let t := fmtType c.fmt.c 0
  match c.conv with
  | none => s.lineChunk c c.a t c.tabsA c.k m c.step
  | some v =>
    if c.suppressed m then .ok ⟨pad32 [], 0, false, false⟩
    else (s.convEls c v (opSize t) m (32 * c.step) (Nat.min 32 (c.k - 32 * c.step))).map
      fun r => { r with els := pad32 r.els }

/-- The chunks of lines 0 to n - 1. -/
def chunksOf (f : Nat → Except (Nat × Word) LineChunk) (i : Nat) : Nat → Except (Nat × Word) (List LineChunk)
  | 0 => .ok []
  | n + 1 => do
    let x ← f i
    let r ← chunksOf f (i + 1) n
    .ok (x :: r)

/-- The float format of a matrix operand type. -/
def matFmt : ETy → Fmt
  | .f32 => fmt32
  | .f16 => fmt16
  | .bf16 => fmtBf
  | .e4m3 => fmtE4
  | .e5m2 => fmtE5
  | .e4m3c => fmtE4
  | .e5m2c => fmtE5
  | .i8 => fmt32
  | .ui8 => fmt32
  | .i32 => fmt32
  | .i16 => fmt32
  | .i64 => fmt32

/-- An operand element as an FVal or, for an integer type, as an integer. -/
def matInt (t : ETy) (v : Nat) : Int := intOf t v

/-- The rounded sum of a chunk's products (R71). -/
def chunkSum (xs : List (FVal × FVal)) : Nat × FFlags :=
  let ps := xs.map fun p => if p.1.isNan || p.2.isNan then some (FVal.nan false) else p.1.times p.2
  let nv := nvOf (xs.flatMap fun p => [p.1, p.2])
  if ps.any (·.isNone) then (fmt32.canon, fNV)
  else
    let vs := ps.filterMap id
    let up := vs.any fun v => v == .inf false
    let down := vs.any fun v => v == .inf true
    if vs.any (·.isNan) then (fmt32.canon, if up && down then fNV else nv)
    else if up && down then (fmt32.canon, fNV)
    else if up || down then (fmt32.infBits down, 0)
    else
      let t : Int := (vs.map fun v => match v with
        | .fin neg m e => (if neg then -1 else 1) * ((m * 2 ^ (e + 320).toNat : Nat) : Int)
        | _ => 0).sum
      if t = 0 then (0, 0) else fmt32.round 0 false (decide (t < 0)) t.natAbs (-320)

/-- One accumulation of an output element (R71, R72): integer or float. -/
def accumulate (ta tb : ETy) (a b : List Nat) (acc : BitVec 32) : BitVec 32 × FFlags :=
  if ta.isInt then
    let t : Int := ((a.zip b).map fun p => matInt ta p.1 * matInt tb p.2).sum
    (BitVec.ofNat 32 (wrap 32 ((acc.toNat : Int) + t)), 0)
  else
    let (s, f) := chunkSum ((a.zip b).map fun p => ((matFmt ta).unpack p.1, (matFmt tb).unpack p.2))
    let (r, g) := fmt32.add 0 acc.toNat s
    (BitVec.ofNat 32 r, f ||| g)

/-- The initial accumulators of a command (R402): C's elements with ACC = 1, the others 0; the marks of the lines read
and the flags of the conversions. -/
def State.initSums (s : State) (c : MatCmd) (i : Nat) : Nat → Except (Nat × Word) (List (BitVec 32) × Mark × FFlags)
  | 0 => .ok ([], 0, 0)
  | n + 1 => do
    let t := fmtType c.fmt.c 2
    let es := opSize t
    let (row, m, f) ← (if !c.acc || c.suppressed i then .ok (List.replicate c.n (0 : BitVec 32), (0 : Mark), (0 : FFlags))
      else match s.matRead c (c.cOff + i * c.cPitch) (c.n * es) with
        | .error e => .error e
        | .ok (v, m, _) =>
          let conv (j : Nat) : Nat × FFlags :=
            let e := v / 2 ^ (8 * es * j) % 2 ^ (8 * es)
            if t = .i32 then (e, 0) else convFloat (matFmt t) fmt32 0 false e
          let rs := (List.range c.n).map conv
          .ok (rs.map fun r => BitVec.ofNat 32 r.1, m, rs.foldl (fun x r => x ||| r.2) 0))
    let (rest, m2, f2) ← State.initSums s c (i + 1) n
    .ok (row ++ rest, m ||| m2, f ||| f2)

/-- The numbers of the lines whose chunk met poison. -/
def poisonedLines (l : List LineChunk) : List Nat := (List.range l.length).filter fun i => ((l[i]?).map (·.poison)).getD false

/-- One chunk step of a command (R382, R71, R72). -/
def State.chunk (s : State) (c : MatCmd) : MatCmd :=
  let t0 := fmtType c.fmt.c 0
  let t1 := fmtType c.fmt.c 1
  let work : Except (Nat × Word) MatCmd := do
    let (sums, m0, f0) ← (if c.step = 0 then s.initSums c 0 c.m else .ok (c.sums, 0, 0))
    let as_ ← chunksOf (s.rowChunk c) 0 c.m
    let bs ← chunksOf (fun n => s.lineChunk c c.b t1 c.tabsB c.k n c.step) 0 c.n
    let rs := (List.range (c.m * c.n)).map fun i =>
      let m := i / c.n
      if c.suppressed m then (nth sums i 0, (0 : FFlags))
      else accumulate t0 t1 ((as_[m]?.map (·.els)).getD []) ((bs[i % c.n]?.map (·.els)).getD []) (nth sums i 0)
    let nv : FFlags := if (as_ ++ bs).any (·.bad) then fNV else 0
    .ok { c with sums := rs.map (·.1), step := c.step + 1, flags := joinFlags (rs.map (·.2)) (c.flags ||| f0 ||| nv)
                 mark := joins ([c.mark, m0] ++ (as_ ++ bs).map (·.mark))
                 badA := c.badA ++ poisonedLines as_, badB := c.badB ++ poisonedLines bs }
  match work with
  | .ok x => x
  | .error e => { c with fault := some e }
where
  /-- ORs flags. -/
  joinFlags (l : List FFlags) (f : FFlags) : FFlags := l.foldl (· ||| ·) f

/-- Chunk steps of a command. -/
def MatCmd.steps (c : MatCmd) : Nat := (c.k + 31) / 32

/-- A matrix unit of a cluster has run a step in this tick (Table 22.1). -/
def State.mxuRan (s : State) (j : Nat) : State :=
  let d := dieOf (0x1000 + j)
  s.setDie d { s.die d with mxuAt := some s.now }

/-- CHUNK_STEP: the command at the head of a half takes its next step; one of a core with a recorded fault is
discarded (R382, R386). -/
def execChunkStep (cl : BitVec 9) (half : Bool) (s : State) : Out :=
  let j := cl.toNat
  let x := (s.cluster j).half (b2n half)
  .next (match x.queue with
    | c :: rest =>
      if c.fault.isSome || decide (c.steps ≤ c.step) then s
      else if (s.ctxSet c.thread.unit c.thread.set).fault.isSome && c.step == 0 && c.sums.isEmpty then
        s.setHalf j (b2n half) { x with queue := { c with fault := some (0, 0) } :: rest }
      else (s.setHalf j (b2n half) { x with queue := s.chunk c :: rest }).mxuRan j
    | [] => s)

/-! ## Output steps -/

/-- ST of a fault's cause (Table 14.6). -/
def matSt (code : Nat) : Nat :=
  if code = 0 then 5 else if code = 0x21 then 2 else if code = 0x20 then 3 else if code = 0x24 then 4 else 1

/-- The bytes of line m of C and the flags of their rounding (R71, R53). -/
def MatCmd.outLine (c : MatCmd) (m : Nat) : List Byte × FFlags :=
  let t := fmtType c.fmt.c 2
  let one (j : Nat) : Nat × FFlags :=
    let v := (nth c.sums (m * c.n + j) 0).toNat
    if t = .i32 ∨ t = .f32 then (v, 0) else convFloat fmt32 (matFmt t) 0 (c.fmt.c.getLsbD 12) v
  let rs := (List.range c.n).map one
  (rs.flatMap fun r => toBytes (opSize t) r.1, rs.foldl (fun f r => f ||| r.2) 0)

/-- The rows that a command stores. -/
def MatCmd.rows (c : MatCmd) : List Nat := (List.range c.m).filter fun m => !c.suppressed m

/-- Checks every line of C (R304, R386): cause and address of the first failure. -/
def State.checkOut (s : State) (c : MatCmd) (mark : Mark) : List Nat → Option (Nat × Word)
  | [] => none
  | m :: t =>
    let n := c.n * opSize (fmtType c.fmt.c 2)
    let a := word (0x100000 + c.cOff + m * c.cPitch)
    match s.resolve00 c.agent a n true false with
    | .ok (.loc l) =>
      match (markLines l n).find? fun g => s.overCeil g 1 mark != 0 with
      | some g => some (0x21, a + word (g - l))
      | none => State.checkOut s c mark t
    | _ => some (6, s.firstBad c.agent a n true)

/-- Stores the lines of C and the poison that they derive (R386, R446). -/
def State.storeOut (s : State) (c : MatCmd) (mark : Mark) : List Nat → State
  | [] => s
  | m :: t =>
    let es := opSize (fmtType c.fmt.c 2)
    let l := spadLoc (clusterOf c.thread.unit) + c.cOff + m * c.cPitch
    let old := s.mem.poisoned l (c.n * es)
    let s1 := s.put l (c.outLine m).1 mark false
    let bad := if c.badA.contains m then [(l, c.n * es)]
      else (c.badB.map fun n => (l + n * es, es)) ++ (if c.acc then old.map fun g => (Nat.max g l, 1) else [])
    State.storeOut { s1 with mem := bad.foldl (fun x b => x.taint b.1 b.2) s1.mem } c mark t

/-- A result element (Table 14.6). -/
def matElem (st step : Nat) (outb : Bool) (fl : FFlags) (seq : BitVec 32) : Word :=
  word (st * 2 ^ 60 + b2n outb * 2 ^ 56 + fl.toNat * 2 ^ 48 + step % 2 ^ 16 * 2 ^ 32 + seq.toNat)

/-- Records the fault of a command that ends with one (R386). -/
def CtxSet.record (x : CtxSet) (c : MatCmd) (code : Nat) (a : Word) : CtxSet :=
  if code = 0 ∨ x.fault.isSome then x else { x with fault := some ⟨c.thread.ht, code, a, c.step, c.seq.toNat⟩ }

/-- MSTEP.V is cleared when the resumed command completes (R437). -/
def State.clearMstep (s : State) (c : MatCmd) : State :=
  let t := s.thread c.thread
  let v := t.csr.mstep.val
  if v.getLsbD 63 && field v 31 0 == c.seq.toNat then
    s.setThread c.thread { t with csr := { t.csr with mstep := ⟨v &&& ~~~(1#64 <<< 63), t.csr.mstep.mark⟩ } }
  else s

/-- The commands of a half after one that has ended: after a fault, its core's later commands are discarded (R386). -/
def MatCmd.after (c : MatCmd) (fault : Option (Nat × Word)) (later : List MatCmd) : List MatCmd :=
  match fault with
  | some (code, _) =>
    if code = 0 then later else later.map fun x => if x.thread.unit = c.thread.unit then { x with fault := some (0, 0) } else x
  | none => later

/-- Ends the command at the head of a half (R386, R389): its element, its flags for MDRAIN, its fault. OUTB says that rows
of it were suppressed (R388, R403). -/
def State.endCmd (s : State) (j h : Nat) (c : MatCmd) (fault : Option (Nat × Word)) (fl : FFlags) : State :=
  let x := (s.cluster j).half h
  let k := s.ctxSet c.thread.unit c.thread.set
  let outb := decide (c.rows.length < c.m)
  let st := match fault with | some f => matSt f.1 | none => 0
  let k1 := match fault with | some f => k.record c f.1 f.2 | none => k
  let k2 := { k1 with outb := k1.outb || outb, results := k1.results ++ [⟨matElem st c.step outb fl c.seq, c.mark⟩] }
  let x1 := { x with queue := c.after fault x.queue.tail, doneCnt := x.doneCnt + 1
                     drained := x.drained ++ [⟨c.thread.key, fl, c.mark⟩] }
  ((s.setHalf j h x1).setCtxSet c.thread.unit c.thread.set k2).clearMstep c

/-- OUTPUT_STEP: the command at the head of a half that has taken its last step, or met a fault, writes C and appends
its element; a full result queue holds it (R382, R386, R389). -/
def execOutputStep (cl : BitVec 9) (half : Bool) (s : State) : Out :=
  let j := cl.toNat
  let h := b2n half
  .next (match ((s.cluster j).half h).queue with
    | c :: _ =>
      if 8 ≤ (s.ctxSet c.thread.unit c.thread.set).results.length then s
      else match c.fault with
        | some f => s.endCmd j h c (some f) c.flags
        | none =>
          if c.step < c.steps then s
          else
            let fl := c.rows.foldl (fun f m => f ||| (c.outLine m).2) c.flags
            match s.checkOut c c.mark c.rows with
            | some f => s.endCmd j h c (some f) fl
            | none => ((s.storeOut c c.mark c.rows).endCmd j h c none fl).mxuRan j
    | [] => s)

/-! ## Results -/

/-- The commands of a half that have not appended their element. -/
def Half.pending (x : Half) : List MatCmd := x.queue ++ x.saved.flatMap (·.2)

/-- MDRAIN (R404): the merge of flags and the clearing of the record stay when it traps, and so does the removal of the drained
commands, which a re-execution no longer counts. (DESIGN CHOICE, log entry 112.) -/
def execMdrain (d : Reg) (s : State) : Out :=
  let i : Instr := .mdrain d
  let s0 := s.advance
  match s0.needEngine true false with
  | .error e => .next (s.halt i e)
  | .ok _ =>
    let x := s0.myHalf
    let me := s0.cur.key
    if x.pending.any (·.thread == s0.cur) then
      match (s0.waitMatrix 1 : Except Halt Unit) with
      | .error e => .next (s.halt i e)
      | .ok _ => .next s
    else
      let mine := x.drained.filter (·.thread == me)
      let fl := mine.foldl (fun f r => f ||| r.flags) (0 : FFlags)
      let merge (t : State) : State :=
        let t1 := t.setMyHalf { x with drained := x.drained.filter (·.thread != me) }
        if mine.isEmpty then t1 else t1.setFlags fl (joins (mine.map (·.mark)))
      match s0.mySet.fault with
      | some f =>
        if f.thread = s0.cur.ht then
          let s1 := merge s
          .next ((s1.setMySet { s1.mySet with fault := none }).halt i
            (.trap f.code f.addr (word (f.step * 2 ^ 32 + f.seq)) false 0 none))
        else .next ((merge s0).result d (word mine.length) 0)
      | none => .next ((merge s0).result d (word mine.length) 0)

/-- MSTAT's word (Table 14.7). -/
def State.mstatWord (s : State) : Word :=
  let x := s.myHalf
  let k := s.mySet
  let lease := match x.lease with
    | some (t, n) => 2 ^ 63 + t.unit % 8 * 2 ^ 60 + t.ht % 4 * 2 ^ 58 + n * 2 ^ 49
    | none => 0
  word (lease + b2n (s.isSplit (clusterOf s.cur.unit)) * 2 ^ 57 + s.halfOf s.cur * 2 ^ 56 + b2n k.outb * 2 ^ 48
    + Nat.min x.queue.length 8 * 2 ^ 44 + b2n k.fault.isSome * 2 ^ 43 + x.doneCnt.toNat)

/-- MSTAT (R405). -/
def execMstat (d : Reg) (s : State) : Out :=
  runA (.mstat d) (fun s => do
    s.needEngine true false
    .ok (s.result d s.mstatWord 0)) s

/-- EPOP (R406). -/
def execEpop (d : Reg) (w : Win) (s : State) : Out :=
  runA (.epop d w) (fun s => do
    s.needEngine true false
    if s.windowsFull w .x d.toNat then holdOn
    else
      let k := s.mySet
      match k.results with
      | e :: rest => .ok ((s.setMySet { k with results := rest }).resultL w d e.word e.mark)
      | [] =>
        if s.myHalf.pending.any fun c => c.thread.unit == s.cur.unit && c.thread.set == s.cur.set then s.waitMatrix 2
        else .ok (s.resultL w d 0xF000000000000000 0)) s

/-! ## Markers -/

/-- The marker queue that EPUSH's operand selects for the running thread (R410). -/
def State.markerQueue (s : State) (sel : Nat) : Nat :=
  match sel with
  | 0 => 0
  | 1 => 1
  | 2 => halfQueue (s.halfOf s.cur)
  | _ => 4

/-- The numbers of a thread's commands in a queue that have not completed. -/
def State.outstanding (s : State) (u q : Nat) (t : ThreadId) : List Nat :=
  let e := s.eng u
  if q = 0 then (e.copies.filter (·.thread == t)).map (·.id)
  else if q = 1 then (e.inds.filter (·.thread == t)).map (·.id)
  else if q = 4 then (e.rows.filter (·.thread == t)).map (·.id)
  else ((((s.cluster (u - 0x1000)).half (q - 2)).pending).filter (·.thread == t)).map (·.seq.toNat)

/-- Places that a queue has, and those that it gives to commands (Table 14.1). -/
def State.queueUse (s : State) (u q : Nat) : Nat × Nat :=
  let e := s.eng u
  if q = 0 then (if u < 0x1200 then 16 else 8, e.copies.length)
  else if q = 1 then (8, e.inds.length)
  else if q = 4 then (4, e.rows.length)
  else (8, ((s.cluster (u - 0x1000)).half (q - 2)).queue.length)

/-- EPUSH (R410). -/
def execEpush (a b : Reg) (s : State) : Out :=
  runA (.epush a b) (fun s => do
    let sel := field (s.x a) 1 0
    s.needEngine (sel != 3) (sel == 0 || sel == 3)
    let u := engKey s.cur.unit
    let q := s.markerQueue sel
    let e := s.eng u
    let (cap, n) := s.queueUse u q
    if cap ≤ n + e.marks q then holdOn
    else .ok (s.setEng u { e with markers := e.markers ++ [⟨q, s.cur, field (s.x b) 5 0, s.outstanding u q s.cur⟩] })) s

/-- MARKER_COMPLETE: the ix-th marker of an engine sets its line once every command it covers has completed (R410). -/
def execMarkerComplete (unit : BitVec 13) (ix : Nat) (s : State) : Out :=
  let u := unit.toNat
  let e := s.eng u
  .next (match e.markers[ix]? with
    | some m =>
      let left := s.outstanding u m.queue m.thread
      if m.ids.any left.contains then s
      else (s.setEng u { e with markers := dropNth e.markers ix }).setLine m.thread m.line
    | none => s)

/-! ## Code tables -/

/-- Key of a table among those of a cluster. -/
def tabKey (e5 : Bool) (ctid : BitVec 2) : Nat := 4 * b2n e5 + ctid.toNat

/-- Whether a command of a cluster has latched a generation of a table (R62). -/
def Cluster.latched (c : Cluster) (e5 : Bool) (ctid gen : Nat) : Bool :=
  let uses (t : ETy) (l : List CodeTab) : Bool :=
    t == (if e5 then .e5m2c else .e4m3c) && ((l[ctid]?).map (·.gen.toNat)) == some gen
  (c.half0.pending ++ c.half1.pending).any fun x => uses (fmtType x.fmt.c 0) x.tabsA || uses (fmtType x.fmt.c 1) x.tabsB

/-- The lengths of an image of n entries (R411). -/
def lengthsOf (v n : Nat) : List Nat := (List.range n).map fun e => v / 16 ^ e % 16

/-- CTAB (R411, R62): a fifth generation waits for the oldest. -/
def execCtab (d a : Reg) (fmt : Bool) (ctid : BitVec 2) (s : State) : Out :=
  let i : Instr := .ctab d a fmt ctid
  runA i (fun s => do
    let at_ := s.x a
    let n := if fmt then 32 else 16
    let (v, m) ← alongside (s.needEngine true false) (s.blockL at_ 8 (n / 2))
    let lens := lengthsOf v n
    if !tableValid lens then arith 0x59 0 at_
    else
      let j := clusterOf s.cur.unit
      let c := s.cluster j
      let key := tabKey fmt ctid
      let cur := s.codeTab fmt ctid.toNat
      let old := c.oldTabs.filter (·.1 == key)
      let held := match old with
        | (_, t) :: _ => decide (3 ≤ old.length) && c.latched fmt ctid.toNat t.gen.toNat
        | [] => false
      if held then holdOn
      else
        let keep := (if 3 ≤ old.length then old.tail else old) ++ [(key, cur)]
        let mk := joins [m, s.xm a, s.base]
        let c1 := { c with oldTabs := c.oldTabs.filter (·.1 != key) ++ keep
                           tabs := c.tabs.set key ⟨lens, cur.gen + 1, mk⟩ }
        .ok ((s.setCluster j c1).result d ((cur.gen + 1).setWidth 64) mk)) s

/-- CTABG (R412). -/
def execCtabg (d : Reg) (fmt : Bool) (ctid : BitVec 2) (s : State) : Out :=
  runA (.ctabg d fmt ctid) (fun s => do
    s.needEngine true false
    let t := s.codeTab fmt ctid.toNat
    .ok (s.result d (t.gen.setWidth 64) t.mark)) s

end Sys2Proof.Machine
end

