-- ==== Sys2Proof/Machine/Context.lean ====
section
/-! DEFINITION. Page 6: the return from an exception, context sets and their images, the thread and group operations of
the DCP, partitions, queue placement, invalidation and revocation; the DCP event queue and safe points (R422 to R449). -/

namespace Sys2Proof.Machine

open Sys2Proof

/-! ## Checks of page 6 -/

/-- ARITH 0x60: a form on a kind of core that Table 17.1 does not allow; ILL in user mode comes first (R422). -/
def State.needDcp (s : State) : Except Halt Unit :=
  if !s.me.csr.priv then ill s else if isDcp s.cur.unit then .ok () else arith 0x60 0 0

/-- The die of the running DCP. -/
def State.myDie (s : State) : Nat := dieOf s.cur.unit

/-- A compute or channel core of the running DCP's die (R429, R436). -/
def State.coreHere (s : State) (u : Nat) : Bool := (isCompute u || isChannel u) && dieOf u == s.myDie

/-- A cluster scratchpad of the running DCP's die. -/
def State.spadHere (s : State) (u : Nat) : Bool :=
  decide (0x1000 ≤ u) && decide (u < 0x1200) && dieOf u == s.myDie

/-! ## Returning from an exception -/

/-- TRET (R426): it waits for every earlier instruction of either side. -/
def execTret (s : State) : Out :=
  runA .tret (fun s =>
    if !s.me.csr.intrap then ill s
    else if !s.eIdle then holdOn
    else .ok (s.trapReturn s.cur)) s

/-! ## Images of context sets -/

/-- A piece of an image: offset, bytes, mark. -/
abbrev Seg := Nat × List Byte × Mark

/-- The numbers of the control registers of an image, in its order (Table 17.7). -/
def imageCsrs : List Nat :=
  [0, 1, 2, 3, 4, 5, 6, 7, 8, 9, 0x0A, 0x0B, 0x0C, 0x0D, 0x0E, 0x0F, 0x10, 0x12, 0x13, 0x18, 0x19, 0x1A, 0x1B, 0x1C, 0x1D,
   0x1E]

/-- Code of a register file in a frame (Table 17.3). -/
def RegFile.code : RegFile → Nat
  | .x => 0
  | .v => 1
  | .k => 2

/-- The register file of a code. -/
def fileOf (n : Nat) : Option RegFile :=
  match n with
  | 0 => some .x
  | 1 => some .v
  | 2 => some .k
  | _ => none

/-- The 512 bytes of a frame (Table 17.3). -/
def Frame.bytes (f : Frame) : List Byte :=
  let ctl := b2n f.valid * 2 ^ 63 + f.eq.length * 2 ^ 40 + f.rcnt * 2 ^ 32 + b2n f.rout * 2 ^ 31 + b2n f.prep * 2 ^ 21
    + f.pcnt * 2 ^ 4 + f.windows.length
  let win (i : Nat) : List Byte := match f.windows[i]? with
    | some w => toBytes 8 (w.left * 2 ^ 24 + w.file.code * 2 ^ 21 + w.reg * 2 ^ 16 + w.result.mark.toNat) ++ List.replicate 8 0
        ++ toBytes 32 w.result.val.toNat
    | none => List.replicate 48 0
  toBytes 8 ctl ++ toBytes 8 f.wbody.toNat ++ toBytes 8 (wstatOf f.wact f.wlen f.wrepcnt f.wrepix).toNat
    ++ toBytes 8 (bqstatOf f.bq).toNat ++ (List.range 32).flatMap (fun i => toBytes 8 (f.eq.getD i 0).toNat)
    ++ (List.range 4).flatMap win ++ List.replicate 32 0

/-- Join of the marks of the state that a frame holds. -/
def Frame.mark (f : Frame) : Mark := joins (f.bq.bqm :: f.windows.map (·.result.mark))

/-- A window of a frame from its 48 bytes; what its readers receive comes from the image's registers (`Frame.fill`). -/
def windowOf (v : Nat) : Option SavedWindow :=
  match fileOf (bits v 22 21) with
  | none => none
  | some f =>
    if bits v 63 30 ≠ 0 ∨ bit v 23 ∨ chop v 8 8 ≠ 0 then none
    else some ⟨f, bits v 20 16, ⟨0, 0⟩, ⟨BitVec.ofNat 256 (chop v 16 32), BitVec.ofNat 16 v⟩, bits v 29 24, 0⟩

/-- The branch-outcome queue that a BQSTAT word shows (Table 1.9). -/
def queueOf (v : Nat) : OutcomeQueue :=
  ⟨(List.range (Nat.min (bits v 36 32) 16)).map fun i => bit v i, BitVec.ofNat 16 (v / 2 ^ 48)⟩

/-- The frame that 512 bytes hold; none when reserved bits are set or a field is outside its range. -/
def frameOf (v : Nat) : Option Frame :=
  let c := chop v 0 8
  let ws := (List.range (bits c 2 0)).map fun i => windowOf (chop v (0x120 + 48 * i) 48)
  if bits c 62 46 ≠ 0 ∨ bits c 39 38 ≠ 0 ∨ bits c 30 22 ≠ 0 ∨ bit c 3 ∨ 32 < bits c 45 40 ∨ 4 < bits c 2 0
      ∨ 65536 < bits c 20 4 ∨ chop v 0x1E0 32 ≠ 0 ∨ ws.any (·.isNone) then none
  else
    let w := chop v 0x10 8
    some { valid := bit c 63, eq := (List.range (bits c 45 40)).map fun i => word (chop v (0x20 + 8 * i) 8)
           rcnt := bits c 37 32, rout := bit c 31, prep := bit c 21, pcnt := bits c 20 4, wbody := word (chop v 8 8)
           wact := bit w 15, wlen := bits w 12 8, wrepcnt := bits w 47 32, wrepix := bits w 4 0
           bq := queueOf (chop v 0x18 8), windows := ws.filterMap id, keys := [] }

/-- The frame of an image with what readers in its windows receive: the registers hold the values from before (R86).
A REPX that waits in it joins the marks of the slots open in the image (DEDUCED, log entry 39). -/
def Frame.fill (f : Frame) (t : Thread) : Frame :=
  { f with windows := f.windows.map fun w => { w with old := t.regs.wide w.file w.reg }
           keys := t.openSlots }

/-- The state code of a thread (Table 17.7). -/
def Run.code : Run → Nat
  | .idle => 0
  | .running => 1
  | .parkedFault => 2
  | .parkedPre => 3

/-- The run state of a code. -/
def runOf (n : Nat) : Run :=
  match n with
  | 0 => .idle
  | 1 => .running
  | 2 => .parkedFault
  | _ => .parkedPre

/-- The 128 bytes of a fibre slot in an image. -/
def fibreImage (n : Nat) (f : Fibre) (pend : Bool) : List Byte :=
  toBytes 64 f.desc.toNat ++ toBytes 8 (fbcOf n f pend).toNat ++ toBytes 8 f.entry ++ toBytes 8 f.vidx
    ++ toBytes 8 f.fm.toNat ++ List.replicate 32 0

/-- The fibre slot of 128 bytes of an image. -/
def fibreOf (v : Nat) : Fibre :=
  let c := chop v 0x40 8
  { opened := bit c 63, desc := BitVec.ofNat 512 (chop v 0 64), entry := chop v 0x48 8, vidx := chop v 0x50 8
    coord := bits c 31 0, seek := none, ended := bit c 62, pres := bit c 61, err := bit c 59
    fm := BitVec.ofNat 16 (chop v 0x58 2) }

/-- The home of a thread's continuation, by an address that its own core resolves. -/
def State.homeAddr (s : State) (t : ThreadId) (c : Cont) : Word :=
  if field c.home 63 62 = 0 ∧ c.unit ≠ t.unit ∧ c.home.toNat < 0x100000 then
    word (2 * 2 ^ 62 + s.chip * 2 ^ 34 + c.unit * 2 ^ 21 + c.home.toNat)
  else c.home

/-- The image of a thread at an offset, in pieces with the marks of what they hold (Table 17.7, R436). -/
def State.threadSegs (s : State) (t : ThreadId) (o : Nat) : List Seg :=
  let x := s.thread t
  let st := { s with cur := t }
  let xs := (List.range 32).map x.regs.getX
  let vs := (List.range 32).map x.regs.getV
  let ks := (List.range 8).map x.regs.getK
  let cs := imageCsrs.map st.csrGet
  let at_ (b k n : Nat) (f : Nat → Nat × Mark) : List Seg :=
    (List.range k).map fun i => (o + b + n * i, toBytes n (f i).1, (f i).2)
  let tag {w : Nat} (l : List (Tagged w)) (i : Nat) : Nat × Mark := match l[i]? with
    | some y => (y.val.toNat, y.mark)
    | none => (0, 0)
  let mk {w : Nat} (l : List (Tagged w)) (i : Nat) : Nat × Mark := ((tag l i).2.toNat, (tag l i).2)
  let one (b : Nat) (bs : List Byte) (m : Mark) : List Seg := [(o + b, bs, m)]
  let arr (d : Nat) : Nat × Mark := match x.arrivals.get? d with
    | some e => (e.toNat + 2 ^ 16, 0)
    | none => (0, 0)
  at_ 0 32 8 (tag xs) ++ at_ 0x100 32 32 (tag vs) ++ at_ 0x500 8 4 (tag ks) ++ at_ 0x520 32 2 (mk xs)
    ++ at_ 0x560 32 2 (mk vs) ++ at_ 0x5A0 8 2 (mk ks)
    ++ one 0x5B0 (toBytes 8 (x.wheel.wm.toNat * 2 ^ 48 + b2n x.lockLost * 256 + x.run.code)) x.wheel.wm
    ++ one 0x5B8 (toBytes 8 x.lines.toNat) 0 ++ at_ 0x5C0 26 8 (tag cs) ++ at_ 0x690 26 2 (mk cs)
    ++ one 0x6C4 (List.replicate 60 0) 0
    ++ (List.range 4).flatMap (fun n => one (0x700 + 128 * n) (slotImage (st.slot n)) (st.slot n).sm)
    ++ (List.range 2).flatMap (fun n => one (0x900 + 128 * n) (fibreImage n (st.fibre n) x.pend) (st.fibre n).fm)
    ++ at_ 0xA00 8 8 (tag x.mailbox) ++ at_ 0xA40 8 2 (mk x.mailbox) ++ one 0xA50 (List.replicate 8 0) 0
    ++ one 0xA58 (toBytes 2 x.rowMask.mark.toNat) x.rowMask.mark ++ one 0xA5A (List.replicate 38 0) 0
    ++ one 0xA80 (toBytes 128 x.rowMask.val.toNat) x.rowMask.mark ++ at_ 0xB00 64 3 arr
    ++ one 0xBC0 (toBytes 8 ((x.cont.map fun c => (s.homeAddr t c).toNat).getD 0) ++ List.replicate 56 0) x.csr.cmark
    ++ one 0xC00 x.trapFrame.bytes x.trapFrame.mark ++ one 0xE00 x.resumeFrame.bytes x.resumeFrame.mark

/-- The group handle and partition of a set: those of the group placed on it, or those that its image brought. -/
def State.setOwner (s : State) (u i : Nat) : Nat × Nat :=
  match s.groups.find? fun g => g.2.places.any fun p => p.unit == u && p.set == i with
  | some g => (g.1, g.2.part)
  | none => ((s.ctxSet u i).gh.toNat, (s.ctxSet u i).part.toNat)

/-- The image of a set in pieces (R433). -/
def State.imageSegs (s : State) (u i : Nat) : List Seg :=
  let c := s.ctxSet u i
  let (gh, p) := s.setOwner u i
  (0, toBytes 8 (gh * 2 ^ 48 + p % 64 * 2 ^ 42 + c.qrem.toNat)
    ++ toBytes 8 (b2n c.outb * 2 ^ 17 + c.fmt.c.toNat) ++ toBytes 8 c.fmt.area.toNat ++ toBytes 8 c.mark.toNat
    ++ List.replicate 32 0, c.mark)
    :: (List.range 4).flatMap fun h => s.threadSegs ⟨u, i, h⟩ (0x40 + 0x1000 * h)

/-- What an image gives one thread; none when the image is invalid (R433). -/
def State.threadOf (s : State) (u part_ gh : Nat) (a : Word) (seq : Nat) (v : Nat) : Option Thread :=
  let m (o i : Nat) : Mark := BitVec.ofNat 16 (chop v (o + 2 * i) 2)
  let st := chop v 0x5B0 8
  let csr (i : Nat) : Tagged 64 := ⟨word (chop v (0x5C0 + 8 * i) 8) &&& csrFields (imageCsrs.getD i 0), m 0x690 i⟩
  let slots := (List.range 4).map fun n => slotOfImage (a + word (0x700 + 128 * n)) (toBytes 128 (chop v (0x700 + 128 * n) 128))
  let f0 := chop v 0x900 128
  let f1 := chop v 0x980 128
  let arr := (List.range 64).map fun d => (d, chop v (0xB00 + 3 * d) 3)
  let reserved : Bool := bits st 47 9 != 0 || bits st 7 2 != 0 || chop v 0x6C4 60 != 0 || chop v 0xA50 8 != 0
    || chop v 0xA5A 38 != 0 || chop v 0xBC8 56 != 0 || chop f0 0x5A 38 != 0 || chop f1 0x5A 38 != 0
    || arr.any (fun e => decide (1 < e.2 / 2 ^ 16))
  match frameOf (chop v 0xC00 512), frameOf (chop v 0xE00 512) with
  | some tf, some rf =>
    if reserved || slots.any (·.isNone) || decide (8 < bits (csr 18).val.toNat 3 0) then none
    else
      let f := Thread.fresh
      let status := (csr 0).val
      let home := word (chop v 0xBC0 8)
      let rec_ : ContRec := match s.readRec ⟨u, part_, u, false, none⟩ home with
        | .ok (_, r, _) => r
        | .error _ => { recOfBytes [] with aff := affOf gh 0 0 0 }
      let run := runOf (bits st 1 0)
      let regs : Regs :=
        { x := Vector.ofFn fun i : Fin 32 => ⟨word (if i.val = 0 then 0 else chop v (8 * i) 8), if i.val = 0 then 0 else m 0x520 i⟩
          v := Vector.ofFn fun i : Fin 32 => ⟨BitVec.ofNat 256 (chop v (0x100 + 32 * i) 32), m 0x560 i⟩
          k := Vector.ofFn fun i : Fin 8 => if i.val = 0 then plain 0xFFFFFFFF
            else ⟨BitVec.ofNat 32 (chop v (0x500 + 4 * i) 4), m 0x5A0 i⟩ }
      let t : Thread := { f with
        regs := regs
        pc := (csr 3).val
        csr := { gcp := status.getLsbD 2, priv := status.getLsbD 1, intrap := status.getLsbD 0
                 statusMark := (csr 0).mark, wstatMark := (csr 11).mark, cause := csr 1, epc := csr 2, aepc := csr 3
                 faddr := csr 4, finfo := csr 5, tvec := csr 6, evec := csr 7, fflags := csr 8
                 frm := if 4 < (csr 9).val.toNat then ⟨0, (csr 9).mark⟩ else csr 9
                 cmark := BitVec.ofNat 16 (csr 10).val.toNat, lwin := csr 13, widb := csr 16, mstep := csr 17
                 shadows := Vector.ofFn fun i : Fin 7 => csr (19 + i) }
        wheel := { Wheel.empty with len := field (csr 11).val 12 8, wm := BitVec.ofNat 16 (st / 2 ^ 48) }
        seq := seq
        slots := Vector.ofFn fun i : Fin 4 => ((slots[i.val]?).bind id).getD Slot.closed
        fibres := Vector.ofFn fun i : Fin 2 => fibreOf (if i.val = 0 then f0 else f1)
        pend := bit (chop f0 0x40 8) 60
        lines := BitVec.ofNat 64 (chop v 0x5B8 8)
        mailbox := (List.range (bits (csr 18).val.toNat 3 0)).map fun i => ⟨word (chop v (0xA00 + 8 * i) 8), m 0xA40 i⟩
        rowMask := ⟨BitVec.ofNat 1024 (chop v 0xA80 128), m 0xA58 0⟩
        arrivals := (arr.filter fun e => bit e.2 16).map fun e => (e.1, BitVec.ofNat 16 e.2)
        cont := if run = .idle then none else some ⟨rec_, home, u, part_, rec_.trigd⟩
        run := run, lockLost := bit st 8 }
      some { t with trapFrame := tf.fill t, resumeFrame := rf.fill t }
  | _, _ => none

/-- Loads an image into a set (R433, R434, R436); none when it is invalid. A thread that was to run in a handler goes on
at a place that the image does not hold (a free value). -/
def State.loadImage (s : State) (u i : Nat) (a : Word) (v : Nat) : Option State :=
  let w (k : Nat) : Nat := chop v (8 * k) 8
  let gh := w 0 / 2 ^ 48
  let p := bits (w 0) 47 42
  if bits (w 0) 41 32 ≠ 0 ∨ w 1 / 2 ^ 18 ≠ 0 ∨ w 3 / 2 ^ 16 ≠ 0 ∨ chop v 32 32 ≠ 0 then none
  else
    let ts := (List.range 4).map fun h =>
      (h, s.threadOf u p gh (a + word (0x40 + 0x1000 * h)) (s.thread ⟨u, i, h⟩).seq (chop v (0x40 + 0x1000 * h) 0x1000))
    if ts.any (·.2.isNone) then none
    else
      let put (t : State) (e : Nat × Option Thread) : State := match e.2 with
        | some x =>
          let x1 := if x.csr.intrap ∧ x.run ≠ .idle then { x with pc := Config.freeWord t.ix } else x
          { t with free := t.free + 1 }.setThread ⟨u, i, e.1⟩ x1
        | none => t
      let s1 := ts.foldl put s
      let c : CtxSet := { loaded := true, gh := BitVec.ofNat 16 gh, part := BitVec.ofNat 6 p, qrem := BitVec.ofNat 32 (w 0)
                          qremAt := s.now, mark := BitVec.ofNat 16 (w 3)
                          fmt := ⟨BitVec.ofNat 17 (w 1), word (w 2)⟩, outb := bit (w 1) 17, results := [], fault := none }
      let mine (t : ThreadId) : Bool := t.unit == u && t.set == i
      let e := s1.eng (engKey u)
      let s2 := s1.setEng (engKey u)
        { e with copies := e.copies.map (fun c => if mine c.thread then { c with hidden := true } else c)
                 copyHist := e.copyHist.filter fun c => !mine c.thread }
      some (s2.setCtxSet u i c)

/-! ## Switching sets -/

/-- Charges the ticks since the last reckoning to a set that is selected; the record QEXP when QREM reaches 0 (R436). -/
def State.charge (s : State) (u i : Nat) : State :=
  let c := s.ctxSet u i
  let used := s.now - c.qremAt
  let s1 := s.setCtxSet u i { c with qrem := BitVec.ofNat 32 (c.qrem.toNat - used), qremAt := s.now }
  if c.qrem ≠ 0 ∧ c.qrem.toNat ≤ used then s1.postDcp (dieOf u) 4 ⟨u, i, 0⟩ 0 0 0 0 0 c.mark else s1

/-- Stops a running thread of an outgoing set: its work goes into the resume frame (R435). -/
def State.setAside (s : State) (t : ThreadId) : State :=
  if (s.thread t).run ≠ .running then s
  else
    let s0 := ((s.takeGrant t).loseLocks t).dropRequests t
    let x := s0.thread t
    let (fr, y) := saveFrame x x.equeue x.seq
    let c := y.csr
    let aepc : Tagged 64 := if c.intrap then c.aepc else ⟨x.pc, c.cmark⟩
    (s0.setThread t { y with resumeFrame := fr, asking := none, sending := none, target := none
                             csr := { c with aepc := aepc } }).endLeases t

/-- Lets a running thread of an incoming set go on from its resume frame (R435). -/
def State.takeUp (s : State) (t : ThreadId) : State :=
  let x := s.thread t
  if x.run ≠ .running ∨ !x.resumeFrame.valid then s
  else
    let s1 := (s.setThread t { x with resumeFrame := Frame.empty }).restoreFrame t x.resumeFrame x.resumeFrame.eq
    { s1 with cur := s.cur, latch := s.latch }

/-- Selects a loaded set of a core (R435). -/
def State.switchSet (s : State) (u i : Nat) : State :=
  let c := s.core u
  if c.sel = i ∨ !(s.ctxSet u i).loaded then s
  else
    let s1 := (List.range 4).foldl (fun t h => t.setAside ⟨u, c.sel, h⟩) (s.charge u c.sel)
    let s2 := s1.setCore u { s1.core u with sel := i }
    let s3 := s2.setCtxSet u i { s2.ctxSet u i with qremAt := s2.now }
    (List.range 4).foldl (fun t h => t.takeUp ⟨u, i, h⟩) s3

/-- A write of CTXP (Table 17.8, R435): the thread stops after its own instruction. -/
def execCtxpWrite (op : CsOp) (d : Reg) (s : State) : Out :=
  runA (.ctxpWrite op d) (fun s =>
    if !s.me.csr.priv then ill s
    else
      let u := s.cur.unit
      let k := s.core u
      let x := (s.x d).toNat % 4
      let (v, keep) := match op with
        | .w => (x, (0 : Mark))
        | .s => (k.sel ||| x, k.ctxpMark)
        | .c => (k.sel &&& (3 - x), k.ctxpMark)
      let s1 := s.setCore u { k with ctxpMark := joins [s.xm d, s.base, keep] }
      .ok (s1.switchSet u v)) s

/-- QREM_EXPIRY: the quantum of a core's selected set has run out (R436). -/
def execQremExpiry (unit : BitVec 13) (s : State) : Out :=
  let u := unit.toNat
  let i := (s.core u).sel
  let c := s.ctxSet u i
  .next (if c.qrem ≠ 0 ∧ c.qrem.toNat ≤ s.now - c.qremAt then s.charge u i else s)

/-- Whether an engine still owes a set's threads a delivery, an event line of a marker included, or the end of one waits for
its engines (R436, R410). -/
def State.setBusy (s : State) (u i : Nat) : Bool :=
  let e := s.eng (engKey u)
  let mine (t : ThreadId) : Bool := t.unit == u && t.set == i
  e.copies.any (fun c => mine c.thread) || e.inds.any (fun c => mine c.thread) || e.rows.any (fun c => mine c.thread)
    || e.markers.any (fun m => mine m.thread) || s.mails.any (fun m => mine m.1)
    || (List.range 4).any (fun h => (s.thread ⟨u, i, h⟩).hold == some .ending) ||
    (isCompute u && (let c := s.cluster (clusterOf u)
                     (c.half0.pending ++ c.half1.pending).any fun x => mine x.thread))

/-- Checks every piece of an image before any is written. -/
def State.checkSegs (s : State) (a : Word) : List Seg → Except Halt Unit
  | [] => .ok ()
  | (o, bs, m) :: t => do
    let _ ← s.checkAs s.agent (a + word o) bs.length m false
    State.checkSegs s a t

/-- Writes the pieces of an image. -/
def State.storeSegs (s : State) (a : Word) : List Seg → Except Halt State
  | [] => .ok s
  | (o, bs, m) :: t => do
    let s1 ← s.storeAs s.agent (a + word o) bs m
    State.storeSegs s1 a t

/-- Whether another thread of the running DCP has a CTXSEL SAVE of a core in progress: it waits for deliveries (R436,
R449). -/
def State.saving (s : State) (u : Nat) : Bool :=
  [0, 1, 2, 3].any fun h =>
    let id : ThreadId := ⟨s.cur.unit, s.cur.set, h⟩
    let t := s.thread id
    id != s.cur && t.run == .running && t.aWait.isSome && match (findInstr s.code t.pc).instr with
      | .ctxsel op _ _ a => op == 1 && field (t.regs.getX a.toNat).val 31 19 == u
      | _ => false

/-- CTXSEL (R436, R449). (DEDUCED, log entry 68.) -/
def execCtxsel (op set : BitVec 2) (d a : Reg) (s : State) : Out :=
  runA (.ctxsel op set d a) (fun s => do
    s.needDcp
    let t := s.x a
    let u := field t 31 19
    let i := set.toNat
    let at_ := s.x d
    let bad : Run? := arith 0x61 0 0
    let noCore : Bool := field t 63 32 != 0 || field t 18 0 != s.chip || !s.coreHere u
    let c := s.ctxSet u i
    let sel := (s.core u).sel
    match op.toNat with
    | 0 => if noCore ∨ !c.loaded then bad else if s.saving u then holdOn else .ok (s.switchSet u i)
    | 1 =>
      if !aligned at_.toNat 64 then bounds at_ 3 true
      else if noCore then do
        let _ ← s.checkAs s.agent at_ 16448 0 false
        bad
      else do
        let segs := s.imageSegs u i
        s.checkSegs at_ segs
        if !c.loaded ∨ (sel = i ∧ (List.range 4).any fun h => (s.thread ⟨u, i, h⟩).run == .running) then bad
        else if s.setBusy u i then holdOn
        else if !c.results.isEmpty ∨ c.fault.isSome then bad
        else (if sel = i then s.charge u i else s).storeSegs at_ ((if sel = i then s.charge u i else s).imageSegs u i)
    | 2 =>
      if !aligned at_.toNat 64 then bounds at_ 3 false
      else do
        let (s1, bs, _) ← s.loadAs s.agent at_ 16448
        if noCore ∨ sel = i then bad
        else match s1.loadImage u i at_ (ofBytes bs) with
          | some s2 => .ok s2
          | none => bad
    | _ => if noCore ∨ sel = i then bad else .ok (s.setCtxSet u i { c with loaded := false })) s

/-! ## Threads and groups -/

/-- The thread that an HTRES names (R429), of its core's selected set. (DEDUCED, log entry 69.) -/
def State.namedThread (s : State) (v : Word) : Option ThreadId :=
  let u := field v 31 19
  if field v 63 34 = 0 ∧ field v 18 0 = s.chip ∧ s.coreHere u then some ⟨u, (s.core u).sel, field v 33 32⟩ else none

/-- The group that an X(A) of HTRES or QSET names: its handle (R429, R443). -/
def State.namedGroup (s : State) (v : Word) : Option (Nat × Group) :=
  let gh := field v 15 0
  if field v 63 22 ≠ 0 then none
  else match s.group? gh with
    | some g => if g.part = field v 21 16 then some (gh, g) else none
    | none => none

/-- An HTRES form: its checks, and its result with the mark of R422. -/
def htres (i : Instr) (d a b : Reg) (act : State → Option (State × Nat)) (s : State) : Out :=
  runA i (fun s => do
    s.needDcp
    if 4 < field (s.x b) 2 0 then arith 0x62 0 0
    else match act s with
      | some (s1, n) => .ok (s1.result d (word n) (s.xm a ||| s.xm b))
      | none => arith 0x62 0 0) s

/-- RESUME of a thread (Table 17.6); one whose end has begun is not resumed. -/
def State.resume (s : State) (t : ThreadId) : State × Nat :=
  if (s.thread t).hold = some .ending then (s, 0)
  else match (s.thread t).run with
  | .parkedFault =>
    let s1 := s.trapReturn t
    let s2 := s1.setThread t { s1.thread t with run := .running }
    ({ s2 with cur := s.cur, latch := s.latch }, 1)
  | .parkedPre => (s.resumePre t, 1)
  | .idle => (s, 0)
  | .running => (s, 0)

/-- HTRES RESUME (R429). -/
def execHtresResume (d a b : Reg) (s : State) : Out :=
  htres (.htresResume d a b) d a b (fun s => (s.namedThread (s.x a)).map s.resume) s

/-- HTRES PREEMPT at milestone: the request stands on the group and on each of its threads, parked ones included (R429,
R430). -/
def execHtresPreemptMilestone (d a b : Reg) (s : State) : Out :=
  htres (.htresPreemptMilestone d a b) d a b (fun s =>
    (s.namedGroup (s.x a)).map fun g =>
      (State.askThreads (s.setGroup g.1 { g.2 with milestoneReq := true }) g.1 g.2 fun r => { r with pending := true }, 1)) s

/-- HTRES PREEMPT at safe points (R429, R431). -/
def execHtresPreemptSafepoint (d a b : Reg) (s : State) : Out :=
  htres (.htresPreemptSafepoint d a b) d a b (fun s =>
    (s.namedGroup (s.x a)).map fun g => (s.askThreads g.1 g.2 fun r => { r with safe := true }, 1)) s

/-- HTRES PARK (R429, R438): an idle or parked thread is left alone. -/
def execHtresPark (d a b : Reg) (s : State) : Out :=
  htres (.htresPark d a b) d a b (fun s =>
    (s.namedThread (s.x a)).map fun t =>
      let x := s.thread t
      if x.run = .running then
        let s1 := s.parkPre t 3
        ((if x.gh = 0 then s1 else s1.parkRings x.gh), 1)
      else (s, 0)) s

/-- The thread that an HTRES END ends: none where the form traps or the thread is idle. -/
def State.endTarget (s : State) (a b : Reg) : Option ThreadId :=
  match s.needDcp with
  | .error _ => none
  | .ok _ =>
    if 4 < field (s.x b) 2 0 then none
    else (s.namedThread (s.x a)).bind fun t => if (s.thread t).run = .idle then none else some t

/-- The state in which a thread's end has gone as far as its engines let it (R429). -/
def State.endThread (s : State) (t : ThreadId) : State :=
  (if (s.thread t).hold = some .ending then s else s.beginEnd t).finishEnd t

/-- HTRES END (R429): the thread runs nothing more, and the form waits until that end is over, as at EXIT. -/
def execHtresEnd (d a b : Reg) (s : State) : Out :=
  let i : Instr := .htresEnd d a b
  let ended (s : State) : Out := htres i d a b (fun _ => some ((s.setMe { s.me with target := none }).advance, 1)) s
  match s.me.target with
  | some t =>
    let s1 := if (s.thread t).hold = some .ending then s.finishEnd t else s
    if (s1.thread t).hold = some .ending then .next (s1.halt i (.wait 0 0 0 0)) else ended s1
  | none => match s.endTarget a b with
    | none => htres i d a b (fun s => (s.namedThread (s.x a)).map fun _ => (s, 0)) s
    | some t =>
      let s1 := s.endThread t
      if (s1.thread t).run = .idle then htres i d a b (fun _ => some (s1.advance, 1)) s
      else .next ((s1.setMe { s1.me with target := some t }).halt i (.wait 0 0 0 0))

/-! ## Partitions -/

/-- Whether a core lies in an interval. -/
def inSpan (base len u : Nat) : Bool := decide (base ≤ u) && decide (u < base + len)

/-- A valid configuration (R440): the intervals as base and length, empty ones left out. -/
def validParts (l : List (Nat × Nat)) : Bool :=
  let ok (p : (Nat × Nat) × Nat) : Bool :=
    (l.zip (List.range l.length)).all fun q => p.2 == q.2 || decide (p.1.1 + p.1.2 ≤ q.1.1) || decide (q.1.1 + q.1.2 ≤ p.1.1)
  (l.zip (List.range l.length)).all ok && l.all (fun p => decide (p.1 + p.2 ≤ 4096)) &&
    (List.range 512).all fun j => decide ((l.filter fun p => decide (p.1 < 8 * j + 8) && decide (8 * j < p.1 + p.2)).length ≤ 2)

/-- What a PSET resets for a partition that it creates or changes (R441, R442, R455, R476, R488). (DEDUCED, log entry 70.) -/
def Partition.remade (q : Partition) (base len : Nat) : Partition :=
  let f := Partition.fresh
  { q with base := base, len := len, queue := [], gangs := [], domains := [], troot := q.troot &&& ~~~1#64, wdexp := f.wdexp
           minbw := if q.len = 0 then 0 else q.minbw, bwclass := if q.len = 0 then 0 else q.bwclass
           slots := [], porig := 0, heldSlots := [], uses := [], sgid := 0, recBase := 0, recLen := 0, recMode := 0
           recPos := 0, recFull := false, recUsed := [], recHeld := [], recSince := none, replayStart := none }

/-- Gives the ceiling of a partition in a cluster its reset value. -/
def State.openCeil (s : State) (p j : Nat) : State :=
  let c := s.cluster j
  s.setCluster j (if (s.partsOfCluster j).head? = some p then { c with ceil0 := 0xFFFF } else { c with ceil1 := 0xFFFF })

/-- The clusters that an interval of cores touches. -/
def touched (base len : Nat) : List Nat := span (base / 8) ((base + len - 1) / 8 + 1 - base / 8)

/-- PSET (R441): removal changes an interval too, to an empty one. -/
def execPset (d a b : Reg) (s : State) : Out :=
  runA (.pset d a b) (fun s => do
    s.needDcp
    let p := (s.x d).toNat
    let base := (s.x a).toNat
    let len := (s.x b).toNat
    if 63 < p ∨ 4095 < base ∨ 4096 < len then arith 0x63 0 0
    else
      let q := s.part p
      let others := (s.parts.filter fun e => e.1 != p && e.2.len != 0).map fun e => (e.2.base, e.2.len)
      let l := if len = 0 then others else (base, len) :: others
      let changed (u : Nat) : Bool := isCompute u && (inSpan q.base q.len u != inSpan base len u)
      let used : Bool := s.groups.any (fun g => (span g.2.first g.2.cores).any changed)
        || s.cores.any (fun c => changed c.1 && (List.range 4).any fun i => i != 0 && (s.ctxSet c.1 i).loaded)
        || s.threads.any (fun t => changed (t.1 / 16) && t.2.run != .idle)
      if !validParts l ∨ used then arith 0x63 0 0
      else if q.len = len ∧ (len = 0 ∨ q.base = base) then .ok s
      else
        let s0 := { s with xlats := s.xlats.filter (·.part != p) }
        let s1 := (s0.setPart p (q.remade base len)).endRequests p
        .ok (if len = 0 then (touched q.base q.len).foldl (fun t j => t.setCluster j ((s.openCeil p j).cluster j)) s1
             else (touched base len).foldl (fun t j => t.openCeil p j) s1)) s

/-! ## Queue placement -/

/-- Channels in service (R442). -/
def State.channelsUp (s : State) : Nat := 384 - (s.pkg.retired.filter isChannel).length

/-- The entries of a safe-point table (R431): ARITH 0x64 when it is unreadable or not in ascending order (R443). -/
def State.readTable (s : State) (a : Word) : Except Halt (State × List (Word × BitVec 32 × BitVec 32)) := do
  let no {α : Type} (d : Option Denial) : Except Halt α := .error (.trap 0x05 0 (word (0x64 * 2 ^ 56)) false 0 d)
  let read (s : State) (a : Word) (n : Nat) : Except Halt (State × Nat) := do
    match ← outcomeOf (s.loadAs s.agent a n) with
    | .error (.trap _ _ _ _ _ d) => no d
    | .error _ => no none
    | .ok (s1, bs, _) => .ok (s1, ofBytes bs)
  let (s1, n) ← read s a 8
  if n < 1 ∨ 4096 < n then no none
  else do
    let (s2, v) ← read s1 (a + 16) (16 * n)
    let l := (List.range n).map fun i =>
      let e := v / 2 ^ (128 * i)
      (word e, BitVec.ofNat 32 (e / 2 ^ 64), BitVec.ofNat 32 (e / 2 ^ 96))
    if (l.zip l.tail).all fun p => decide (p.1.1.toNat < p.2.1.toNat) then .ok (s2, l) else no none

/-- QSET (R443). -/
def execQset (sel : BitVec 3) (d a : Reg) (s : State) : Out :=
  runA (.qset sel d a) (fun s => do
    s.needDcp
    let t := s.x a
    let v := s.x d
    let no : Run? := arith 0x64 0 0
    match sel.toNat with
    | 0 =>
      let u := field t 12 0
      let ok := field t 63 18 == 0 && field t 15 13 == 0 && (s.spadHere u || (isChannel u && s.coreHere u))
        && (field v 63 62 == 1 || field v 63 62 == 2) && field v 11 0 != 0
      if !ok then no
      else
        let q := s.readyQ u
        .ok (s.setReady u { q with spill := q.spill.setIfInBounds (field t 17 16) v })
    | 1 =>
      if t.toNat < 1 ∨ 512 < t.toNat ∨ !aligned v.toNat 64 ∨ 0x10000 < v.toNat + 64 * t.toNat then no
      else
        let x := s.die s.myDie
        .ok (s.setDie s.myDie { x with evPlaced := true, evBase := v, evLen := t.toNat, evNext := 0 })
    | 2 =>
      let p := t.toNat
      let sum := ((s.parts.filter fun e => e.1 != p && e.2.len != 0).map fun e => e.2.minbw.toNat).sum + field v 15 0
      if 63 < p ∨ field v 63 18 ≠ 0 ∨ 175 * s.channelsUp < 2 * sum then no
      else .ok (s.setPart p { s.part p with minbw := BitVec.ofNat 16 v.toNat, bwclass := BitVec.ofNat 2 (field v 17 16) })
    | 3 =>
      match s.namedGroup t with
      | none => no
      | some (gh, g) =>
        if v = 0 then .ok (s.setGroup gh { g with safeTable := [], hasTable := false })
        else do
          let (s1, l) ← s.readTable v
          .ok (s1.setGroup gh { g with safeTable := l, hasTable := true })
    | 4 =>
      let p := t.toNat
      if 63 < p ∨ field v 63 62 ≠ 1 ∨ !aligned v.toNat 64 then no
      else
        let q := s.part p
        .ok ((s.setPart p { q with ovBase := some v, ovCount := 0 }).drainOverflow p (q.ovHeld.length + 1))
    | _ => no) s

/-! ## Translation invalidation -/

/-- Whether an SLINV covers a cached translation (R447). -/
def covers (ty : BitVec 2) (a len : Word) (x : Xlat) : Bool :=
  let va := field a 47 0
  if ty = 0 then true
  else if ty = 1 then decide (x.vbase ≤ va) && decide (va < x.vbase + x.size)
  else decide (x.vbase < va + len.toNat) && decide (va < x.vbase + x.size) && len != 0

/-- SLINV (R447): it waits for the thread's earlier stores. -/
def execSlinv (a b : Reg) (ty : BitVec 2) (part : BitVec 6) (s : State) : Out :=
  runA (.slinv a b ty part) (fun s =>
    if !s.me.csr.priv then ill s
    else if !isDcp s.cur.unit && part != 0 then ill s
    else if isSec s.cur.unit then arith 0x60 0 0
    else if !s.eMemIdle then holdOn
    else
      let p := if isDcp s.cur.unit then part.toNat else s.partIx s.cur
      .ok { s with xlats := s.xlats.filter fun x => !(x.part == p && covers ty (s.x a) (s.x b) x) }) s

/-! ## Revocation -/

/-- Writes the work of a revoked command into its save area (R383): the partial sums row by row in its first M·N·4 bytes,
and 1,024 bytes for the later commands, to which the spec gives no layout. (DESIGN CHOICE, log entry 103.) -/
def State.saveArea (s : State) (c : MatCmd) : State :=
  let sums := (List.range (c.m * c.n)).flatMap fun i => toBytes 4 (nth c.sums i 0).toNat
  let bs := (List.range 1024).map fun i => Config.freeByte (s.ix * 2 ^ 20 + i)
  { s with free := s.free + 1 }.put c.areaLoc (sums ++ bs) c.mark false

/-- Saves a holder's commands and ends its lease (R383, R437). -/
def State.revoke (s : State) (j h : Nat) (t : ThreadId) (c : MatCmd) (mine : List MatCmd) : State :=
  let x := ((s.cluster j).half h).endLease t
  let s1 := s.setHalf j h { x with queue := x.queue.filter fun c => c.thread != t, saved := x.saved ++ [(t, mine)] }
  let y := s1.thread t
  let v := word (2 ^ 63 + h * 2 ^ 56 + (mine.length - 1) * 2 ^ 48 + c.step * 2 ^ 32 + c.seq.toNat)
  (s1.setThread t { y with csr := { y.csr with mstep := ⟨v, c.mark⟩ } }).saveArea c

/-- The thread whose lease of a half, or whose commands where the lease has ended, an MLREV revokes (R437). -/
def Half.holder (x : Half) : Option ThreadId :=
  match x.lease, x.queue with
  | some (t, _), _ => some t
  | none, c :: _ => some c.thread
  | none, [] => none

/-- The half that X(A) of an MLREV names. -/
def revHalf (v : Word) : Nat × Nat := (field v 12 0 - 0x1000, b2n (v.getLsbD 13))

/-- MLREV (R383, R437): commands whose lease has already ended are revoked with their thread. One that waits goes on with the
holder that it found. D is 0 where a lease is held without a command, and 2 after a wait, also one for an output step of a
holder that has a save area. (DESIGN CHOICE, log entry 114.) -/
def execMlrev (d a : Reg) (s : State) : Out :=
  let found := s.me.target
  let half (s : State) : Half := (s.cluster (revHalf (s.x a)).1).half (revHalf (s.x a)).2
  let holder (s : State) : Option ThreadId := found.orElse fun _ => (half s).holder
  runSteps (.mlrev d a) (fun s => s.setMe { s.me with target := holder s }) (fun s => do
    s.needDcp
    let v := s.x a
    if field v 63 14 ≠ 0 ∨ !s.spadHere (field v 12 0) then arith 0x65 0 0
    else
      let (j, h) := revHalf v
      let done (s : State) (n : Nat) : Run? := .ok ((s.setMe { s.me with target := none }).result d (word n) (s.xm a))
      match holder s with
      | none => done s 0
      | some t =>
        let mine := (half s).queue.filter fun c => c.thread == t
        match mine with
        | [] => done (s.setHalf j h ((half s).endLease t)) (if found.isSome then 2 else 0)
        | c :: _ =>
          if c.fmt.area = 0 ∨ c.fault.isSome ∨ c.steps ≤ c.step then holdOn
          else done (s.revoke j h t c mine) 1) s

/-! ## The DCP event queue and safe points -/

/-- DCP_EVENT_APPEND (R428): the oldest waiting record enters the next slot when that slot's KIND is 0. -/
def execDcpEventAppend (die : BitVec 3) (s : State) : Out :=
  let k := die.toNat
  let x := s.die k
  .next (match x.waiting with
    | r :: rest =>
      if !x.evPlaced then s
      else
        let l := unitLoc (0x1380 + k) + x.evBase.toNat + 64 * x.evNext
        if s.mem.get (l + 7) ≠ 0 then s
        else
          let s1 := s.put l (toBytes 64 r.word.toNat) r.mark false
          let s2 := s1.setDie k { x with waiting := rest, evNext := (x.evNext + 1) % x.evLen }
          s2.setLine ⟨0x1380 + k, (s2.core (0x1380 + k)).sel, 0⟩ 0
    | [] => s)

/-- The entry of a group's safe-point table for an address. -/
def Group.safeAt (g : Group) (a : Word) : Option (BitVec 32 × BitVec 32) := (g.safeTable.find? (·.1 == a)).map (·.2)

/-- The safe point at which a thread is about to stop: the live registers there (R431). -/
def State.atSafePoint (s : State) (t : ThreadId) : Option (BitVec 32 × BitVec 32) :=
  let x := s.thread t
  if x.reqs.safe && x.run == .running && !x.csr.intrap then
    match s.group? x.gh with
    | some g => if g.hasTable then g.safeAt x.pc else none
    | none => none
  else none

/-- Sets the registers that are not live to 0 (R431). -/
def Regs.clearDead (r : Regs) (xl vl : BitVec 32) : Regs :=
  { r with x := Vector.ofFn fun i : Fin 32 => if i.val = 0 ∨ xl.getLsbD i then r.x.getD i (plain 0) else plain 0
           v := Vector.ofFn fun i : Fin 32 => if vl.getLsbD i then r.v.getD i (plain 0) else plain 0 }

/-- Whether nothing of a thread is in flight (R431). -/
def Thread.still (t : Thread) : Bool :=
  t.equeue.isEmpty && !t.wheel.act && t.windows.all fun w => decide (w.last < t.seq)

/-- SAFE_POINT_PARK: the running thread stops at a safe point once its E-side and its windows are done (R431, R438). -/
def execSafePointPark (s : State) : Out :=
  .next (match s.atSafePoint s.cur with
    | some (xl, vl) =>
      let t := s.me
      if t.still then
        ((s.setMe { t with regs := t.regs.clearDead xl vl, windows := [] }).parkPre s.cur 2).parkRings t.gh
      else s
    | none => s)

end Sys2Proof.Machine
end

