-- ==== Sys2Proof/Machine/Control.lean ====
section
/-! DEFINITION. Control space (Table 11.3): its registers, their reads and writes, LDG and STG in every space, and the
steps that are writes and reads of single registers. -/

namespace Sys2Proof.Machine

open Sys2Proof

/-! ## The registers of control space -/

/-- A register of Table 11.3. -/
inductive CtlReg where
  | dcfg (d : Nat) | dstat (d : Nat) | dtime (d : Nat) | troot | wdlim
  | cbcfg (j b : Nat) | cbstat (j b : Nat) | ceil (j : Nat) (second : Bool) | vwcfg (j i : Nat)
  | rcfg (q : Nat) | rseg (q i : Nat) | rstop (q n : Nat)
  | slot (p n : Nat) | porig (p : Nat)
  | secdb | secst | dbgnonce | meas (n i : Nat) | key (k i : Nat) | kctl (k : Nat)
  | pwrst (d : Nat) | pkgpwr
  deriving DecidableEq, Repr

/-- The register at an offset of a block; none where Table 11.3 lists none. -/
def ctlReg (block off : Nat) : Option CtlReg :=
  if off % 8 ≠ 0 then none
  else if block = 0 then
    if off < 0x800 then
      match off % 32 with
      | 0 => some (.dcfg (off / 32))
      | 8 => some (.dstat (off / 32))
      | 16 => some (.dtime (off / 32))
      | _ => none
    else if off = 0x800 then some .troot
    else if off = 0x808 then some .wdlim
    else none
  else if 0x1000 ≤ block ∧ block < 0x1200 then
    let j := block - 0x1000
    if off < 0x400 then some (if off % 16 = 0 then .cbcfg j (off / 16) else .cbstat j (off / 16))
    else if off = 0x400 then some (.ceil j false)
    else if off = 0x408 then some (.ceil j true)
    else if 0x500 ≤ off ∧ off < 0x540 then some (.vwcfg j ((off - 0x500) / 8))
    else none
  else if 0x1200 ≤ block ∧ block < 0x1220 then
    let q := block - 0x1200
    if off = 0 then some (.rcfg q)
    else if 0x100 ≤ off ∧ off < 0x120 then some (.rseg q ((off - 0x100) / 8))
    else if 0x200 ≤ off ∧ off < 0x280 then some (.rstop q ((off - 0x200) / 8))
    else none
  else if 0x1400 ≤ block ∧ block < 0x1440 then
    if off < 0x80 then some (.slot (block - 0x1400) (off / 8))
    else if off = 0x80 then some (.porig (block - 0x1400))
    else none
  else if block = 0x1440 then
    if off = 0 then some .secdb
    else if off = 8 then some .secst
    else if off = 0x10 then some .dbgnonce
    else if 0x100 ≤ off ∧ off < 0x200 then some (.meas ((off - 0x100) / 32) ((off - 0x100) % 32 / 8))
    else if 0x1000 ≤ off ∧ off < 0x9000 then
      let k := (off - 0x1000) / 128
      let r := (off - 0x1000) % 128
      if r < 64 then some (.key k (r / 8)) else if r = 64 then some (.kctl k) else none
    else none
  else if block = 0x1480 then
    if off < 0x40 then some (.pwrst (off / 8)) else if off = 0x40 then some .pkgpwr else none
  else none

/-! ## Reads -/

/-- Key-store entries with V = 1. -/
def Sec.nkey (x : Sec) : Nat := (x.keys.filter fun k => k.2.v).length

/-- SECST (Table 21.2). -/
def Sec.st (x : Sec) : Word :=
  word (x.nkey * 2 ^ 16 + x.doorbells.length * 2 ^ 8 + b2n x.dbg * 4 + b2n x.wiped * 2)

/-- DBGNONCE: a value of the random source that is never 0 (R497), or what the external debugger wrote (R507). -/
def Sec.nonce (x : Sec) : Word := x.nonceSet.getD (word (Config.randomSource x.nonceIx % (2 ^ 64 - 1) + 1))

/-- MXU utilisation of a die over the last 2^16 ticks, in percent: 0 where no matrix unit of it has run in them, after reset
too; measured otherwise (Table 22.1). -/
def State.util (s : State) (d : Nat) : Nat :=
  match (s.die d).mxuAt with
  | some t => if s.now - t < 2 ^ 16 then Config.measuredUtil s.ix % 101 else 0
  | none => 0

/-- PWRST of a die, with the measurements that this read draws (Table 22.1). -/
def State.pwrst (s : State) (d : Nat) : Word :=
  let x := s.die d
  word ((Config.measuredTj s.ix).toNat * 2 ^ 40 + s.util d * 2 ^ 32 + x.why.toNat * 2 ^ 16 + x.fclk.toNat)

/-- PKGPWR (Table 22.2). -/
def State.pkgpwr (s : State) : Word := word (s.pkg.pcap.toNat * 2 ^ 16 + (Config.measuredPower s.ix).toNat)

/-- Takes the oldest doorbell: the SEC alone removes it (R496). -/
def State.takeDoorbell (s : State) : State × Tagged 64 :=
  match s.sec.doorbells with
  | x :: rest => if isSec s.cur.unit then ({ s with sec := { s.sec with doorbells := rest } }, x) else (s, plain 0)
  | [] => (s, plain 0)

/-- The value of a register of control space, for a partition (R298). -/
def State.ctlValue (s : State) (p : Nat) (r : CtlReg) : Word :=
  match r with
  | .dcfg d => (s.dom p d).dcfg
  | .dstat d => (s.dom p d).stat
  | .dtime d => (s.dom p d).mtb
  | .troot => (s.part p).troot
  | .wdlim => (s.part p).wdexp.setWidth 64
  | .cbcfg j b => ((s.cluster j).cb b).cfg
  | .cbstat j b => ((s.cluster j).cb b).stat
  | .ceil j k => (if k then (s.cluster j).ceil1 else (s.cluster j).ceil0).setWidth 64
  | .vwcfg j i => ((s.cluster j).vwcfg.get? i).getD 0
  | .rcfg q => (s.quad q).seg.setWidth 64
  | .rseg q i => ((s.quad q).sg i).word
  | .rstop q n => (s.stop (16 * q + n)).rstop
  | .slot p n => s.slotWord p n
  | .porig p => (s.part p).porig
  | .secdb => (s.sec.doorbells.head?.map (·.val)).getD 0
  | .secst => s.sec.st
  | .dbgnonce => s.sec.nonce
  | .meas n i => strWord (s.sec.meas.getD n 0) i
  | .key k i => if i < 4 then strWord (s.keyAt k).x i else strWord (s.keyAt k).y (i - 4)
  | .kctl k => word (b2n (s.keyAt k).v * 2 ^ 63)
  | .pwrst d => s.pwrst d
  | .pkgpwr => s.pkgpwr

/-- Whether a read of a register draws measurements. -/
def CtlReg.measured : CtlReg → Bool
  | .pwrst _ => true
  | .pkgpwr => true
  | _ => false

/-- A read of a register of control space by the running thread (R298). -/
def State.ctlRead (s : State) (r : CtlReg) : State × Tagged 64 :=
  if r = .secdb then s.takeDoorbell
  else (if r.measured then { s with free := s.free + 1 } else s, plain (s.ctlValue (s.partIx s.cur) r))

/-! ## Writes -/

/-- Whether EN = 1 of a circular buffer may take effect (R310): its slots fit and lie in the owner's range. (DEDUCED, log entry 73.) -/
def State.mayEnable (s : State) (j : Nat) (v : Word) : Bool :=
  let base := field v 10 0
  let n := field v 23 16 * field v 43 32
  n != 0 && decide (base + n ≤ 2048) &&
    match s.group? (field v 63 48) with
    | some g => g.ranges.any fun r => r.cluster == j && decide (r.base ≤ base) && decide (base + n ≤ r.base + r.len)
    | none => false

/-- A write of CBCFG (R310): a running buffer holds it until EN = 0. -/
def State.writeCbcfg (s : State) (j b : Nat) (w : Word) : State :=
  let v := w &&& 0xFFFF8FFF00FF07FF
  let x := (s.cluster j).cb b
  let off : Word := ~~~(1#64 <<< 47)
  if x.en then
    let y := { x with heldCfg := some v }
    s.setCb j b (if v.getLsbD 47 then y else y.disable)
  else if v.getLsbD 47 && s.mayEnable j v then s.setCb j b { CircBuf.fresh with cfg := v, free := field v 23 16 }
  else s.setCb j b { x with cfg := v &&& off }

/-- WDLIM.EXP after a write (Table 11.13). -/
def wdlimWith (old : BitVec 6) (v : Word) : BitVec 6 :=
  let e := field v 5 0
  if e = 0 ∨ (16 ≤ e ∧ e ≤ 40) then BitVec.ofNat 6 e else old

/-- A write of a SLOT register or of PORIG (key 16) by the SEC (R476). (DEDUCED, log entry 74.) -/
def State.writeSlot (s : State) (p n : Nat) (v : Word) : State :=
  let q := s.part p
  let old := if n = 16 then q.porig else s.slotWord p n
  let bit_ := if n = 16 then 17 else 63
  let w := if n = 16 then v &&& 0x2FFFF else v &&& 0x800000000000FFFF
  let clears := old.getLsbD bit_ && !w.getLsbD bit_
  if clears then
    let q1 := { q with heldSlots := q.heldSlots.filter fun h => h.1 != n }
    s.setPart p (if n = 16 then { q1 with porig := porigWith old w } else { q1 with slots := q1.slots.set n w })
  else (s.setPart p { q with heldSlots := q.heldSlots ++ [(n, w)] }).applySlots p

/-- Writes an entry of the key store. -/
def State.setKey (s : State) (k : Nat) (e : KeyEntry) : State :=
  { s with sec := { s.sec with keys := s.sec.keys.set k e } }

/-- The lifecycle byte (Table 21.3). -/
def State.lcs (s : State) : Nat := (s.sec.lcs.getD ((Config.fuse 0).setWidth 8)).toNat

/-- A write of KCTL by the SEC (R500, Table 21.4). -/
def State.writeKctl (s : State) (k : Nat) (v : Word) : State :=
  let e := s.keyAt k
  if !v.getLsbD 63 then s.setKey k { e with v := false }
  else if onCurve e.x.toNat e.y.toNat && !s.sec.dbg && (s.lcs == 0x03 || s.lcs == 0x07) then
    let s1 := s.setKey k { e with v := true }
    { s1 with sec := { s1.sec with wiped := false } }
  else s

/-- A write of a word of a key by the SEC (R500). -/
def State.writeKey (s : State) (k i : Nat) (v : Word) : State :=
  let e := s.keyAt k
  s.setKey k (if i < 4 then { e with x := strPut e.x i v, v := false } else { e with y := strPut e.y (i - 4) v, v := false })

/-- The entries that SECDB holds (R496). -/
def secdbCap : Nat := 16

/-- A write of SECDB (R496); none while the queue is full or the SEC is halted (R497). -/
def State.ringDoorbell (s : State) (v : Tagged 64) : Option State :=
  if secdbCap ≤ s.sec.doorbells.length || s.sec.halted then none
  else
    let s1 := { s with sec := { s.sec with doorbells := s.sec.doorbells ++ [v] } }
    some (s1.setLine ⟨0x1440, (s1.core 0x1440).sel, 0⟩ 1)

/-- A write of a register of control space with PRIV = 1 for a partition, by the SEC or another core (R298): it has no effect
on a register that its writer may not write; none while it must wait. -/
def State.ctlSet (s : State) (p : Nat) (sec : Bool) (r : CtlReg) (v : Tagged 64) : Option State :=
  let w := v.val
  let bySec (t : State) : Option State := some (if sec then t else s)
  match r with
  | .dcfg d => some (s.writeDcfg p d w)
  | .troot => some (s.setPart p { s.part p with troot := w &&& 0xFFFFFFF001 })
  | .wdlim => some (s.setPart p { s.part p with wdexp := wdlimWith (s.part p).wdexp w })
  | .cbcfg j b => some (s.writeCbcfg j b w)
  | .ceil j k =>
    let c := s.cluster j
    some (s.setCluster j (if k then { c with ceil1 := w.setWidth 16 } else { c with ceil0 := w.setWidth 16 }))
  | .vwcfg j i =>
    let c := s.cluster j
    some (s.setCluster j { c with vwcfg := c.vwcfg.set i (w &&& 0xFFFF800001FF07FF) })
  | .rcfg q => some (s.writeRcfg q w)
  | .rseg q i => some (s.writeRseg q i w)
  | .rstop q n => some (s.writeRstop (16 * q + n) w)
  | .slot p n => bySec (s.writeSlot p n w)
  | .porig p => bySec (s.writeSlot p 16 w)
  | .key k i => bySec (s.writeKey k i w)
  | .kctl k => bySec (s.writeKctl k w)
  | .secdb => s.ringDoorbell v
  | .dstat _ => some s
  | .dtime _ => some s
  | .cbstat _ _ => some s
  | .secst => some s
  | .dbgnonce => some s
  | .meas _ _ => some s
  | .pwrst _ => some s
  | .pkgpwr => some s

/-- A write of a register of control space by the running thread (R298): it has no effect without PRIV; none while it must
wait. -/
def State.ctlWrite (s : State) (r : CtlReg) (v : Tagged 64) : Option State :=
  if s.me.csr.priv then s.ctlSet (s.partIx s.cur) (isSec s.cur.unit) r v else some s

/-! ## LDG and STG -/

/-- LDG (R347). -/
def execLdg (z : BitVec 2) (d a : Reg) (off : Word) (w : Win) (s : State) : Out :=
  runA (.ldg z d a off w) (fun s => do
    let at_ := s.x a + off
    let n := bytesZ z
    if s.windowsFull w .x d.toNat then holdOn
    else match ← s.resolve s.agent at_ n false false with
      | .ctl b o => match ctlReg b o with
        | none => bounds at_ 0 false
        | some r =>
          let (s1, v) := s.ctlRead r
          .ok (s1.resultL w d v.val (v.mark ||| s.xm a))
      | _ => do
        let (s1, bs, m) ← s.loadAs s.agent at_ n
        .ok (s1.resultL w d (signExt (ofBytes bs) (8 * n)) (m ||| s.xm a))) s

/-- STG (R347). -/
def execStg (z : BitVec 2) (d a : Reg) (off : Word) (s : State) : Out :=
  runA (.stg z d a off) (fun s => do
    let at_ := s.x a + off
    let n := bytesZ z
    let m := joins [s.xm d, s.xm a, s.base]
    match ← s.resolve s.agent at_ n true false with
    | .ctl b o => match ctlReg b o with
      | none => bounds at_ 0 true
      | some r => match s.ctlWrite r ⟨s.x d, m⟩ with
        | some s1 => .ok s1
        | none => holdOn
    | _ => s.storeAs s.agent at_ (toBytes n (s.x d).toNat) m) s

/-! ## Steps that are single writes and reads -/

/-- The effect of a write by the running thread; unchanged while the write must wait. -/
def State.ctlPut (s : State) (r : CtlReg) (v : Tagged 64) : State := (s.ctlWrite r v).getD s

/-- The effect of a write at an offset of a block; unchanged where no register is listed. -/
def State.ctlPutAt (s : State) (block off : Nat) (v : Word) : State :=
  match ctlReg block off with
  | some r => s.ctlPut r (plain v)
  | none => s

/-- RSEG_WRITE (R242). -/
def execRsegWrite (q : BitVec 5) (seg : BitVec 2) (val : Word) (s : State) : Out :=
  .next (s.ctlPut (.rseg q.toNat seg.toNat) (plain val))

/-- RCFG_WRITE (Table 9.1). -/
def execRcfgWrite (q : BitVec 5) (val : Word) (s : State) : Out := .next (s.ctlPut (.rcfg q.toNat) (plain val))

/-- CBCFG_WRITE (R310). -/
def execCbcfgWrite (cl : BitVec 9) (buf : BitVec 6) (val : Word) (s : State) : Out :=
  .next (s.ctlPut (.cbcfg cl.toNat buf.toNat) (plain val))

/-- SLOT_TABLE_WRITE (R475, R476). -/
def execSlotTableWrite (part : BitVec 6) (off : BitVec 21) (val : Word) (s : State) : Out :=
  .next (s.ctlPutAt (0x1400 + part.toNat) off.toNat val)

/-- KCTL_WRITE: a write of a word of the key store (R500). -/
def execKctlWrite (off : BitVec 21) (val : Word) (s : State) : Out := .next (s.ctlPutAt 0x1440 off.toNat val)

/-- SECDB_WRITE (R496). -/
def execSecdbWrite (val : Tagged 64) (s : State) : Out := .next (s.ctlPut .secdb val)

/-- SECDB_READ (R496). -/
def execSecdbRead (s : State) : Out := .next s.takeDoorbell.1

/-- CONTROL_REGISTER_WRITE: a write of any other register of control space (R298). -/
def execControlRegisterWrite (block : BitVec 13) (off : BitVec 21) (val : Word) (s : State) : Out :=
  .next (s.ctlPutAt block.toNat off.toNat val)

end Sys2Proof.Machine
end

