-- ==== Sys2Proof/Machine/Sec.lean ====
section
/-! DEFINITION. The security core: fuses, measurement, attestation, the wiping of keys, debug unlock and the external
debugger (chapter "Security core, identity, attestation and debug unlock"). -/

namespace Sys2Proof.Machine

open Sys2Proof

/-- A SEC form: ILL off the SEC (R501, R98). -/
def runSec (i : Instr) (body : State → Run?) (s : State) : Out :=
  runA i (fun s => if isSec s.cur.unit then body s else ill s) s

/-! ## Fuses -/

/-- The identity private key: a number from 1 to n - 1 (R498). -/
def identity : Nat := 1 + Config.identityKey % (n256 - 1)

/-- Word i of IDPUB, the identity public key (Table 21.3). -/
def idPub (i : Nat) : Word :=
  match mulPoint identity g256 256 none with
  | some (x, y) => strWord (BitVec.ofNat 256 (if i < 4 then x else y)) (i % 4)
  | none => 0

/-- A fuse word (Table 21.3); words not listed read 0. -/
def State.fuse (s : State) (n : Nat) : Word :=
  if n = 0 then word s.lcs
  else if n ≤ 10 then Config.fuse n
  else if 16 ≤ n ∧ n < 24 then idPub (n - 16)
  else 0

/-- Four fuse words as a byte string of 32 bytes (R496, R498). -/
def State.fuseString (s : State) (n : Nat) : Nat := ofBe ((span n 4).flatMap fun k => toBytes 8 (s.fuse k).toNat)

/-- FUSERD (R503). -/
def execFuserd (d : Reg) (word : BitVec 6) (s : State) : Out :=
  runSec (.fuserd d word) (fun s => .ok (s.result d (s.fuse word.toNat) 0)) s

/-! ## Wiping -/

/-- What KWIPE does after its waits (R504). (DEDUCED, log entry 75.) -/
def State.wipe (s : State) : State :=
  let noFed (q : Partition) : Partition :=
    { q with porig := q.porig &&& ~~~(1#64 <<< 17)
             heldSlots := q.heldSlots.map fun h => if h.1 = 16 then (h.1, h.2 &&& ~~~(1#64 <<< 17)) else h }
  { s with sec := { s.sec with keys := [], wiped := true }
           mem := s.mem.zero (unitLoc 0x1440 + 0x8000) 0x8000
           parts := s.parts.map fun p => (p.1, noFed p.2) }

/-- KWIPE (R504). -/
def execKwipe (s : State) : Out := runSec .kwipe (fun s => if !s.eMemIdle then holdOn else .ok s.wipe) s

/-! ## Verification of the firmware -/

/-- Whether the boot ROM accepts the SEC firmware image of the n-th reset (R497): the digest of its key is FWKH, its signature
verifies under that key, and its security version is not below the SVN count. -/
def State.firmwareOk (s : State) (n : Nat) : Bool :=
  let k := Config.firmwareKey n
  let g := Config.firmwareSignature n
  sha256 (beBytes 32 k.1 ++ beBytes 32 k.2) == s.fuseString 2
    && ecdsaVerify k.1 k.2 (Config.firmwareDigest n).toNat g.1 g.2
    && decide (popcount 64 (s.fuse 10).toNat ≤ Config.firmwareVersion n)

/-! ## Measurement -/

/-- The input of MEASX or DBGOPEN (R502): n bytes of local memory, with their input mark. -/
def State.secInput (s : State) (a : Reg) (n align : Nat) : Except Halt (List Byte) := do
  let at_ := s.x a
  let (v, lm) ← s.loadL at_ n
  let m := joins [lm, s.xm a, s.base]
  if m ≠ 0 then trapWith 0x21 at_ (word (2 ^ 16 + m.toNat))
  else if !aligned at_.toNat align then arith 0x78 0 at_
  else .ok (toBytes n v)

/-- Extends a measurement register by a digest (R505). -/
def State.measure (s : State) (n : Nat) (d : Nat) : State :=
  { s with sec := { s.sec with meas := s.sec.meas.setIfInBounds n (extend (s.sec.meas.getD n 0) (BitVec.ofNat 256 d)) } }

/-- MEASX (R505). (DEDUCED, log entry 77.) -/
def execMeasx (a : Reg) (n : BitVec 3) (s : State) : Out :=
  runSec (.measx a n) (fun s => do
    let bs ← s.secInput a 32 8
    .ok (s.measure n.toNat (ofBe bs))) s

/-! ## Attestation -/

/-- The 64 bytes X ‖ Y of a key. -/
def KeyEntry.bytes (k : KeyEntry) : List Byte := beBytes 32 k.x.toNat ++ beBytes 32 k.y.toNat

/-- The 72 bytes of a slot of a partition in SDIG (R506). -/
def State.slotRecord (s : State) (p n : Nat) : List Byte :=
  let w := s.slotWord p n
  let key := match s.slotKeyOf p n with
    | some k => k.bytes
    | none => List.replicate 64 0
  toBytes 1 (b2n (w.getLsbD 63)) ++ toBytes 2 (field w 15 0) ++ List.replicate 5 0 ++ key

/-- SDIG (R506). -/
def State.sdig (s : State) (p : Nat) : Nat := sha256 ((List.range 16).flatMap (s.slotRecord p))

/-- The report of Table 21.7 up to its signature. -/
def State.reportBody (s : State) (p : Nat) (nonce : List Byte) : List Byte :=
  let w (v : Word) : List Byte := toBytes 8 v.toNat
  toBytes 4 1 ++ List.replicate 4 0 ++ w (s.fuse 0) ++ nonce ++ w (s.fuse 1) ++ w (s.fuse 10)
    ++ (List.range 8).flatMap (fun n => beBytes 32 (s.sec.meas.getD n 0).toNat) ++ w s.sec.st
    ++ w (word ((s.part p).sgid.toNat * 2 ^ 48 + p * 2 ^ 32 + s.chip)) ++ beBytes 32 (s.sdig p) ++ w s.tbase
    ++ List.replicate 8 0

/-- The report with its signature (R506). -/
def State.report (s : State) (p : Nat) (nonce : List Byte) : List Byte :=
  let body := s.reportBody p nonce
  let (r, t) := ecdsaSign identity (sha256 body)
  body ++ beBytes 32 r ++ beBytes 32 t

/-- ATTEST (R506). -/
def execAttest (d a : Reg) (part : BitVec 6) (s : State) : Out :=
  runSec (.attest d a part) (fun s => do
    let at_ := s.x a
    let _ ← s.resolve00 s.agent at_ 448 true false
    let (v, lm) ← s.loadL (at_ + 0x10) 32
    if !aligned at_.toNat 64 then arith 0x78 0 at_
    else
      let m := joins [lm, s.xm a, s.base]
      let s1 ← s.storeL at_ (s.report part.toNat (toBytes 32 v)) m
      .ok (s1.result d 0 (s.xm a))) s

/-! ## Debug unlock -/

/-- The status of DBGOPEN for a token (R507). -/
def State.tokenStatus (s : State) (bs : List Byte) : Nat :=
  let le (o n : Nat) : Nat := ofBytes ((bs.drop o).take n)
  let be (o : Nat) : Nat := ofBe ((bs.drop o).take 32)
  let id := le 8 8
  if s.sec.dbg then 1
  else if le 0 4 ≠ 1 ∨ le 0x18 8 ≠ 0 ∨ le 0x60 32 ≠ 0 then 3
  else if !s.sec.wiped ∨ s.sec.nkey ≠ 0 then 2
  else if sha256 ((bs.drop 0x20).take 64) ≠ s.fuseString 6 then 4
  else if le 4 4 ≠ s.lcs then 5
  else if id ≠ (s.fuse 1).toNat ∧ !(id = 0 ∧ s.lcs = 0x03) then 6
  else if le 0x10 8 ≠ s.sec.nonce.toNat then 7
  else if !ecdsaVerify (be 0x20) (be 0x40) (sha256 (bs.take 128)) (be 0x80) (be 0xA0) then 8
  else 0

/-- DBGOPEN (R507). -/
def execDbgopen (d a : Reg) (s : State) : Out :=
  runSec (.dbgopen d a) (fun s => do
    let bs ← s.secInput a 192 64
    let st := s.tokenStatus bs
    let s1 := if st = 0 then
        let t := s.measure 7 (sha256 (bs.take 128))
        { t with sec := { t.sec with dbg := true } }
      else s
    .ok (s1.result d (word st) (s.xm a))) s

/-! ## The external debugger -/

/-- Lifecycle values of Table 21.3. -/
def lifecycles : List Nat := [0x01, 0x03, 0x07, 0x0F]

/-- A fibre whose FBC (Table 6.7) takes a value. -/
def Fibre.withFbc (f : Fibre) (v : Tagged 64) : Fibre :=
  { f with opened := v.val.getLsbD 63, ended := v.val.getLsbD 62, pres := v.val.getLsbD 61, err := v.val.getLsbD 59
           coord := field v.val 31 0, fm := v.mark }

/-- Gives any control register of a thread a value (R507); reserved fields stay zero (R5). -/
def State.debugCsr (s : State) (t : ThreadId) (n : Nat) (w : Tagged 64) : State :=
  let v : Tagged 64 := ⟨w.val &&& csrFields n, w.mark⟩
  let x := s.thread t
  let k := x.csr
  let put (k : Csrs) : State := s.setThread t { x with csr := k }
  match n with
  | 0x00 => put { k with gcp := v.val.getLsbD 2, priv := v.val.getLsbD 1, intrap := v.val.getLsbD 0, statusMark := v.mark }
  | 0x01 => put { k with cause := v }
  | 0x04 => put { k with faddr := v }
  | 0x05 => put { k with finfo := v }
  | 0x0A => put { k with cmark := v.val.setWidth 16 }
  | 0x0B => s.setThread t { x with csr := { k with wstatMark := v.mark }
                                   wheel := { x.wheel with act := v.val.getLsbD 15, len := field v.val 12 8
                                                           repcnt := field v.val 47 32, repix := field v.val 4 0 } }
  | 0x0C => s.setThread t { x with bq := queueOf v.val.toNat }
  | 0x0E => s.setThread t { x with fibres := x.fibres.setIfInBounds 0 ((x.fibres.getD 0 Fibre.closed).withFbc v)
                                   pend := v.val.getLsbD 60 }
  | 0x0F => s.setThread t { x with fibres := x.fibres.setIfInBounds 1 ((x.fibres.getD 1 Fibre.closed).withFbc v) }
  | 0x10 => put { k with widb := v }
  | 0x12 => put { k with mstep := v }
  | n => { (({ s with cur := t }).csrPut n v) with cur := s.cur }

/-- The value and mark of a register of a thread, of any set, for the debugger (R507). -/
def State.debugRead (s : State) (t : ThreadId) (f : DebugFile) (n : Nat) : Tagged 256 :=
  let x := s.thread t
  match f with
  | .x => x.regs.wide .x n
  | .v => x.regs.wide .v n
  | .k => x.regs.wide .k n
  | .csr =>
    let v := ({ s with cur := t }).csrGet n
    ⟨v.val.setWidth 256, v.mark⟩
  | .pc => plain (x.pc.setWidth 256)
  | .slot =>
    let y := ({ s with cur := t }).slot (n / 16)
    ⟨(word (ofBytes (((slotImage y).drop (8 * (n % 16))).take 8))).setWidth 256, if y.opened then y.sm else 0⟩

/-- A write of a register of a thread by the debugger (R507); a stream slot whose image would not be valid stays. -/
def State.debugWrite (s : State) (t : ThreadId) (f : DebugFile) (n : Nat) (v : Tagged 256) : State :=
  let x := s.thread t
  match f with
  | .x => s.setThread t { x with regs := x.regs.setWide .x n v }
  | .v => s.setThread t { x with regs := x.regs.setWide .v n v }
  | .k => s.setThread t { x with regs := x.regs.setWide .k n v }
  | .csr => s.debugCsr t n ⟨v.val.setWidth 64, v.mark⟩
  | .pc => s.setThread t { x with pc := v.val.setWidth 64 &&& ~~~3#64 }
  | .slot =>
    let y := ({ s with cur := t }).slot (n / 16)
    let bs := slotImage y
    match slotOfImage y.daddr (bs.take (8 * (n % 16)) ++ toBytes 8 v.val.toNat ++ bs.drop (8 * (n % 16) + 8)) with
    | some z => { (({ s with cur := t }).setSlot (n / 16) z) with cur := s.cur }
    | none => s

/-- A write of a register of control space by the debugger (R507): as the SEC writes it, or directly where no core may write it,
but for the power registers, which no write changes (R515). (DESIGN CHOICE, log entry 119.) -/
def State.debugCtl (s : State) (p : Nat) (r : CtlReg) (v : Word) : State :=
  match r with
  | .dstat d =>
    let x := s.dom p d
    s.setDom p d { x with epoch := BitVec.ofNat 16 (field v 63 48), pend := field v 43 16, arr := field v 15 0 }
  | .dtime d => s.setDom p d { s.dom p d with mtb := v }
  | .cbstat j b =>
    let x := (s.cluster j).cb b
    s.setCb j b { x with free := field v 63 56, filled := field v 55 48, pclm := field v 47 40, ctake := field v 39 32
                         ppend := field v 31 24, cheld := field v 23 16 }
  | .secst => { s with sec := { s.sec with dbg := v.getLsbD 2, wiped := v.getLsbD 1 } }
  | .dbgnonce => { s with sec := { s.sec with nonceSet := some v } }
  | .meas n i => { s with sec := { s.sec with meas := s.sec.meas.setIfInBounds n (strPut (s.sec.meas.getD n 0) i v) } }
  | r => (s.ctlSet p true r (plain v)).getD s

/-- EXTERNAL_DEBUGGER_ACCESS: while DBG = 1, one read or write of a register, a byte or a mark, or an advance of the
lifecycle (R507, R499). -/
def State.debug (s : State) (a : DebugAccess) : State :=
  let out (v : BitVec 256) : State := { s with sec := { s.sec with debugOut := v } }
  match a with
  | .readReg u i h f n => out (s.debugRead ⟨u.toNat, i.toNat, h.toNat⟩ f n.toNat).val
  | .readRegMark u i h f n => out ((s.debugRead ⟨u.toNat, i.toNat, h.toNat⟩ f n.toNat).mark.setWidth 256)
  | .writeReg u i h f n v m => s.debugWrite ⟨u.toNat, i.toNat, h.toNat⟩ f n.toNat ⟨v, m⟩
  | .readCtl p b o => match ctlReg b.toNat o.toNat with
    | some r =>
      let t := out ((s.ctlValue p.toNat r).setWidth 256)
      if r.measured then { t with free := t.free + 1 } else t
    | none => s
  | .writeCtl p b o v => match ctlReg b.toNat o.toNat with
    | some r => s.debugCtl p.toNat r v
    | none => s
  | .readByte l => out ((s.mem.get l).setWidth 256)
  | .writeByte l b => { s with mem := s.mem.write l [b] }
  | .readMark l => out ((s.mem.markOf l 1).setWidth 256)
  | .writeMark l m => { s with mem := s.mem.putMark l 1 m }
  | .advance v =>
    if lifecycles.contains v.toNat && decide (s.lcs ≤ v.toNat) && lifecycles.contains s.lcs then
      { s with sec := { s.sec with lcs := some v } }
    else s

/-- EXTERNAL_DEBUGGER_ACCESS (R507). -/
def execExternalDebuggerAccess (a : DebugAccess) (s : State) : Out := .next (if s.sec.dbg then s.debug a else s)

end Sys2Proof.Machine
end

