-- ==== Sys2Proof/Machine/Power.lean ====
section
/-! DEFINITION. Power, clocks, bring-up, management access and wear: the steps of chapter "Package, power, clocks and
bring-up", soft errors, poison and retirement (R442, R444 to R446). -/

namespace Sys2Proof.Machine

open Sys2Proof

/-! ## Clocks -/

/-- The lowest of a list of limits with the code of WHY that names it; the earlier on a tie. -/
def lowest : List (Nat × Nat) → Nat × Nat
  | [] => (1100, 0)
  | l :: rest =>
    let r := lowest rest
    if l.1 < 1100 ∧ l.1 ≤ r.1 then l else r

/-- The frequency that a limit allows: a step of 50 MHz from 700 to 1,100 MHz (R514). (DEDUCED, log entry 78.) -/
def stepOf (mhz : Nat) : Nat := Nat.max 700 (Nat.min 1100 (mhz / 50 * 50))

/-- FREQUENCY_CHANGE: the power manager moves a die's clock to the lowest of its limits (R514). The utilisation, power
and current limits are inputs; that of utilisation counts only while the die's utilisation exceeds 80%. A thermal or current
limit below the clock forces a lower step at once. -/
def execFrequencyChange (die : BitVec 3) (util power current : BitVec 11) (s : State) : Out :=
  let x := s.die die.toNat
  let busy := if s.util die.toNat ≤ 80 then 1100 else util.toNat
  let (f, why) := lowest [(busy, 1), (power.toNat, 2), ((x.thermal.getD 1100).toNat, 3), (current.toNat, 4)]
  let n := stepOf f
  let rested := match x.freqAt with
    | some t => decide (2 ^ 16 ≤ s.now - t)
    | none => true
  let forced := decide (stepOf (Nat.min (x.thermal.getD 1100).toNat current.toNat) < x.fclk.toNat)
  .next (if n = x.fclk.toNat then s.setDie die.toNat { x with why := BitVec.ofNat 3 why }
    else if rested || forced then
      s.setDie die.toNat { x with fclk := BitVec.ofNat 11 n, why := BitVec.ofNat 3 why, freqAt := some s.now }
    else s)

/-! ## Thermal limits -/

/-- Posts a THERM event (R517). -/
def State.therm (s : State) (die status : Nat) : State := s.postHost 0 0x0C status 0 (word die) 0

/-- THERMAL_THROTTLE: at 95 degrees or more the thermal limit falls one step each 2^10 ticks (Table 22.3). -/
def execThermalThrottle (die : BitVec 3) (tj : BitVec 8) (s : State) : Out :=
  let d := die.toNat
  let x := s.die d
  let lower (n : Nat) : State :=
    let l := BitVec.ofNat 11 (stepOf n)
    let y := { x with thermal := some l, thermAt := some s.now }
    s.setDie d (if l < x.fclk then { y with fclk := l, why := 3, freqAt := some s.now } else y)
  .next (if tj.toNat < 95 then s
    else match x.thermal, x.thermAt with
      | some l, some t => if 2 ^ 10 ≤ s.now - t then lower (l.toNat - 50) else s
      | _, _ => (lower (x.fclk.toNat - 50)).therm d 0)

/-- THERMAL_RELEASE: below 90 degrees the thermal limit is removed (Table 22.3). -/
def execThermalRelease (die : BitVec 3) (tj : BitVec 8) (s : State) : Out :=
  let d := die.toNat
  let x := s.die d
  .next (if tj.toNat < 90 ∧ x.thermal.isSome then (s.setDie d { x with thermal := none, thermAt := none }).therm d 1 else s)

/-- THERMAL_TRIP: at 110 degrees or more every arithmetic clock of the package stops (R517). -/
def execThermalTrip (die : BitVec 3) (tj : BitVec 8) (s : State) : Out :=
  .next (if tj.toNat < 110 then s
    else
      let t := s.therm die.toNat 2
      { t with pkg := { t.pkg with stopped := true, devst := 0xFF } })

/-! ## Reset and bring-up -/

/-- The package right after a reset (R518): the host's memory, the lifecycle, the sparing map with the bypass of the stops
that it leaves out (R259), and the clock of the model stay; no program of the session before does (R519), and the random source
gives a new nonce. (DEDUCED, log entry 79.) -/
def State.afterReset (s : State) : State :=
  let f := State.reset
  let n := s.pkg.resets + 1
  let gone := s.pkg.retired.filter fun u => decide (0x1000 ≤ u) && decide (u < 0x1200)
  { f with agenda := s.agenda, now := s.now, free := s.free
           mem := { f.mem with cells := s.mem.cells.filter fun c => decide (hostLoc ≤ c.1) }
           clusters := gone.foldl (fun t u =>
             t.set (u - 0x1000) { Cluster.fresh with stop := { Stop.fresh with bypass := true } }) f.clusters
           sec := Sec.fresh n s.sec.lcs
           pkg := { Package.fresh n with retired := s.pkg.retired, spared := s.pkg.spared, tbaseOff := -(word s.now)
                                         syncAt := s.now } }

/-- RESET (R518). -/
def execReset (s : State) : Out := .next s.afterReset

/-- SMBUS_RESET_REQUEST (R521). -/
def execSmbusResetRequest (s : State) : Out := .next s.afterReset

/-- Starts HT0 of a core at an address with its registers as reset leaves them. -/
def State.startCore (s : State) (u : Nat) (entry : Word) : State :=
  s.setThread ⟨u, 0, 0⟩ { Thread.fresh with run := .running, pc := entry }

/-- The SEC boot ROM and firmware (R497, Table 22.4 stage 2). -/
def State.boot (s : State) : State :=
  let n := s.sec.nonceIx
  if !s.firmwareOk n then
    { s with sec := { s.sec with halted := true }, pkg := { s.pkg with devst := 0xFF } }
  else
    let s1 := s.measure 0 (Config.firmwareDigest n).toNat
    let s2 := if s1.lcs = 0x01 then
        let t := s1.measure 7 (2 ^ 256 - 1)
        { t with sec := { t.sec with dbg := true } }
      else s1
    let s3 := s2.startCore 0x1440 Config.secEntry
    let s4 := (List.range 8).foldl (fun t d => t.startCore (0x1380 + d) (Config.dcpEntry d)) s3
    { s4 with pkg := { s4.pkg with devst := 0x03 } }

/-- The zero-fill of stage 4 (R519). (DEDUCED, log entry 80.) -/
def State.zeroAll (s : State) : State :=
  { s with mem := { cells := s.mem.cells.filter (fun c => decide (hostLoc ≤ c.1)), marks := [], poison := [] } }

/-- BRINGUP_STAGE: the stage in progress ends and the next begins (R519). The package reference is 0 when stage 2
begins (R455). -/
def execBringupStage (s : State) : Out :=
  let stage (t : State) (n : BitVec 8) : State := { t with pkg := { t.pkg with devst := n } }
  .next (match s.pkg.devst.toNat with
    | 0x01 => stage { s with pkg := { s.pkg with tbaseOff := -(word s.now) } } 0x02
    | 0x02 => s.boot
    | 0x03 => stage s 0x04
    | 0x04 => stage s.zeroAll 0x10
    | _ => s)

/-! ## Management access -/

/-- SMBUS_BLOCK_READ: the management port returns a register (R521). (DESIGN CHOICE, log entry 17.) -/
def execSmbusBlockRead (reg : SmbusReg) (s : State) : Out :=
  let v : Word := match reg with
    | .pwrst d => s.pwrst d.toNat
    | .pkgpwr => s.pkgpwr
    | .devst => s.pkg.devst.setWidth 64
    | .fuse0 => s.fuse 0
    | .fuse1 => s.fuse 1
  .next { s with pkg := { s.pkg with smbus := v }, free := s.free + 1 }

/-! ## Soft errors -/

/-- Posts a SOFTERR record (Table 17.5), with the hardware thread of a register file and the set of a context store.
(DEDUCED, log entry 72.) -/
def State.postSoft (s : State) (t : ThreadId) (corrected : Bool) (str : Nat) (addr : Word) (m : Mark) : State :=
  s.postDcp (dieOf t.unit) 8 t (word (str * 2 + b2n corrected)) addr 0 0 0 m

/-- SOFTERR: a corrected error is reported at most once per unit per 2^16 ticks, and not while a report of the unit
waits (R445, R428). Which thread's registers or which set it hit is a free value (DESIGN CHOICE, log entry 72). -/
def execSofterr (unit : BitVec 13) (str : BitVec 3) (addr : Word) (s : State) : Out :=
  let u := unit.toNat
  let recent := match s.pkg.softAt.get? u with
    | some t => decide (s.now - t < 2 ^ 16)
    | none => false
  let waiting := (s.die (dieOf u)).waiting.any fun r =>
    r.source == u && decide (r.word.toNat / 2 ^ 56 % 256 = 8) && r.word.getLsbD 64
  .next (if recent || waiting then s
    else
      let k := (Config.freeWord s.ix).toNat % 4
      let at_ : ThreadId := ⟨u, if str = 3 then k else if str = 0 then (s.core u).sel else 0, if str = 0 then k else 0⟩
      let t := ({ s with free := s.free + 1 }).postSoft at_ true str.toNat addr 0
      { t with pkg := { t.pkg with softAt := t.pkg.softAt.set u s.now } })

/-- Unit, structure code and reported address of a location (Table 17.5): that of the memory of a unit, or HBM, whose
unit is one of the channels. -/
def State.siteOf (s : State) (l : Nat) : Nat × Nat × Word :=
  if l < hbmLoc then
    let u := l / 2 ^ 21
    (u, if isSpadLoc l then 2 else 1, word (2 * 2 ^ 62 + s.chip * 2 ^ 34 + u * 2 ^ 21 + l % 2 ^ 21))
  else (0x1200 + (Config.freeWord s.ix).toNat % 384, 5, word (l - hbmLoc))

/-- A register-file error parks its thread with LOST (R446). (DEDUCED, log entry 81.) -/
def State.lostRegister (s : State) (t : ThreadId) : State :=
  let x := s.thread t
  if x.run ≠ .running then s
  else
    let s1 := { s with cur := t, latch := ⟨x.pc, 0, 0, .access, [], x.seq⟩ }
    { s1.trapEntry 0x24 0 2 false 0 x.csr.cmark with cur := s.cur, latch := s.latch }

/-- POISON: an uncorrectable error (R446). -/
def execPoison (site : PoisonSite) (s : State) : Out :=
  .next (match site with
    | .mem l =>
      if hostLoc ≤ l then s
      else
        let (u, str, a) := s.siteOf l
        ({ s with mem := s.mem.taint l 1, free := s.free + 1 }).postSoft ⟨u, 0, 0⟩ false str a (s.mem.markOf l 1)
    | .regFile u h =>
      let t : ThreadId := ⟨u.toNat, (s.core u.toNat).sel, h.toNat⟩
      (s.lostRegister t).postSoft t false 0 0 0
    | .ctxStore u i =>
      let c := s.ctxSet u.toNat i.toNat
      (s.setCtxSet u.toNat i.toNat { c with loaded := false }).postSoft ⟨u.toNat, i.toNat, 0⟩ false 3 0 c.mark)

/-! ## Retirement -/

/-- The minima of one class under a remainder in units of 0.5 GB/s (R442): in full, or in proportion, rounded down to whole
GB/s, since the spec does not say how a share is rounded. (DESIGN CHOICE, log entry 115.) -/
def shareClass (mins : List Nat) (rem : Nat) : List Nat × Nat :=
  let sum := mins.sum
  if 2 * sum ≤ rem then (mins, rem - 2 * sum) else (mins.map fun m => rem * m / (2 * sum), 0)

/-- The recomputed minima of partitions, given as number, class and minimum (R442): classes from 3 down; after the
first that does not fit, every lower one receives 0. -/
def recut (l : List (Nat × Nat × Nat)) (rem : Nat) : List (Nat × Nat) :=
  let go (acc : List (Nat × Nat) × Nat × Bool) (c : Nat) : List (Nat × Nat) × Nat × Bool :=
    let mine := l.filter fun p => p.2.1 == c
    let mins := mine.map (·.2.2)
    if acc.2.2 then (acc.1 ++ mine.map (fun p => (p.1, 0)), 0, true)
    else
      let (new, r) := shareClass mins acc.2.1
      (acc.1 ++ (mine.map (·.1)).zip new, r, decide (acc.2.1 < 2 * mins.sum))
  ([3, 2, 1, 0].foldl go ([], rem, false)).1

/-- Recomputes the minima and posts BWCUT for each that changes (R442, Table 19.5). -/
def State.recompute (s : State) : State :=
  let l := (s.parts.filter fun p => p.2.len != 0).map fun p => (p.1, p.2.bwclass.toNat, p.2.minbw.toNat)
  (recut l (175 * s.channelsUp)).foldl (fun t e =>
    let q := t.part e.1
    if q.minbw.toNat = e.2 then t
    else (t.setPart e.1 { q with minbw := BitVec.ofNat 16 e.2 }).postHost 0 0x06 q.bwclass.toNat 0
      (word (e.1 * 2 ^ 16 + e.2)) 0) s

/-- Ends every thread of a retired unit as HTRES END does (R444). -/
def State.endThreads (s : State) (mine : Nat → Bool) : State :=
  (s.threads.filter fun t => mine (t.1 / 16) && t.2.run != .idle).foldl (fun u t =>
    u.endThread ⟨t.1 / 16, t.1 / 4 % 4, t.1 % 4⟩) s

/-- Whether the spare that could take a unit's position is free (R439, R444): a quadrant's one spare cluster, unless the map
fixed at reset uses it; a channel's is a free value (DESIGN CHOICE, log entry 100). -/
def State.spareFree (s : State) (u : Nat) : Bool :=
  if isChannel u then Config.freeBool s.ix
  else
    let q (x : Nat) : Nat := (x - 0x1000) / 16
    !Config.spareUsed (q u) && s.pkg.spared.all fun x => isChannel x || q x != q u

/-- The records that wait in the ready queue of a unit retired without a spare go to their partitions' overflow areas, as one
routed to it does (R228). (DEDUCED, log entry 100.) -/
def State.emptyQueue (s : State) (u : Nat) : State :=
  let q := s.readyQ u
  q.levels.toList.flatten.foldl (fun t r => t.overflow r.part r.record.bytes r.record.mark)
    (s.setReady u { q with levels := Vector.replicate 4 [], spilled := Vector.replicate 4 0 })

/-- RETIREMENT of a logical cluster or a channel (R444, R259, R442): a spare takes its place when one is free. -/
def execRetirement (unit : BitVec 13) (s : State) : Out :=
  let u := unit.toNat
  let cluster := decide (0x1000 ≤ u) && decide (u < 0x1200)
  .next (if s.pkg.retired.contains u || !(cluster || isChannel u) then s
    else
      let s1 := s.endThreads fun c => if cluster then isCompute c && clusterOf c == u - 0x1000 else c == u
      let s2 := (s1.postDcp (dieOf u) 9 ⟨u, 0, 0⟩ (word u) 0 0 0 0 0).postHost 0 0x05 0 0 (word u) 0
      let s3 := { s2 with free := s2.free + 1 }
      if s.spareFree u then ({ s3 with pkg := { s3.pkg with spared := s3.pkg.spared ++ [u] } }).recompute
      else
        let s4 := { s3 with pkg := { s3.pkg with retired := s3.pkg.retired ++ [u] } }
        let s5 := if cluster then s4.setStop (u - 0x1000) { s4.stop (u - 0x1000) with bypass := true } else s4
        (s5.emptyQueue u).recompute)

/-! ## Links -/

/-- LINK_TRAINING: a scale-out port comes up or is lost (R457). -/
def execLinkTraining (port : BitVec 4) (up : Bool) (s : State) : Out :=
  let m : BitVec 16 := 1#16 <<< port.toNat
  .next { s with pkg := { s.pkg with portsUp := if up then s.pkg.portsUp ||| m else s.pkg.portsUp &&& ~~~m } }

/-! ## The time base -/

/-- A synchronisation flit of the time master arrives (R466): an input. -/
def State.syncFlit (s : State) : State := { s with pkg := { s.pkg with syncAt := s.now } }

/-- Whether no synchronisation flit has arrived for 2^20 ticks (R466); the time master itself needs none. -/
def State.unsynced (s : State) : Bool := s.pkg.tmaster != s.pkg.pchip && decide (s.pkg.syncAt + 2 ^ 20 ≤ s.now)

/-- TIME_LOCK_LOSS: no synchronisation for 2^20 ticks (R466). -/
def execTimeLockLoss (s : State) : Out :=
  .next (if s.pkg.locked && s.unsynced then ({ s with pkg := { s.pkg with locked := false } }).postHost 0 0x08 0 0 0 0 else s)

/-- Whether the bound across packages holds again: flits arrive, and the reference lies within the bound of the time master's,
which only that package knows (a free value). (DESIGN CHOICE, log entry 118.) -/
def State.boundHolds (s : State) : Bool := s.pkg.tmaster == s.pkg.pchip || (!s.unsynced && Config.freeBool s.ix)

/-- TIME_LOCK_REGAIN (R466). -/
def execTimeLockRegain (s : State) : Out :=
  let s1 := { s with free := s.free + 1 }
  .next (if s.pkg.locked then s
    else if s.boundHolds then ({ s1 with pkg := { s1.pkg with locked := true } }).postHost 0 0x08 1 0 0 0
    else s1)

end Sys2Proof.Machine
end

