-- ==== Sys2Proof/Machine/Host.lean ====
section
/-! DEFINITION. The host mailbox engine, host events, and what reaches a package from other packages: commands,
CONFIG, requests, timeouts and replay (chapter "Dies, devices and the host"). -/

namespace Sys2Proof.Machine

open Sys2Proof

/-! ## Commands -/

/-- A command of Table 19.3. -/
structure HostCmd where
  op : Nat
  opRest : Nat
  daddr : Word
  haddr : Word
  len : Nat
  tag : Nat
  value : Word
  rest : Nat
  deriving DecidableEq, Repr

/-- The command that 64 bytes hold. -/
def hostCmdOf (v : BitVec 512) : HostCmd :=
  let n := v.toNat
  { op := chop n 0 1, opRest := chop n 1 7, daddr := word (chop n 8 8), haddr := word (chop n 16 8)
    len := chop n 24 4, tag := chop n 28 4, value := word (chop n 32 8), rest := chop n 40 24 }

/-- The command at the head of a channel. -/
def State.headCmd (s : State) (ch : Nat) : Option HostCmd := (s.channel ch).cmds.head?.map hostCmdOf

/-- Ends the command at the head of a channel with its DONE event, under a tag and with the mark of the data that it
reports (R460, R464; DEDUCED, log entry 84). -/
def State.cmdDone (s : State) (ch : Nat) (status tag : Nat) (detail : Word) (m : Mark) : State :=
  (s.setChannel ch { s.channel ch with cmds := (s.channel ch).cmds.tail, qfull := false, since := none }).postHost ch 0x01
    status
    tag detail m

/-- Ends a command that reports no data with its own TAG. -/
def State.cmdEnd (s : State) (ch : Nat) (c : HostCmd) (status : Nat) (detail : Word) : State :=
  s.cmdDone ch status c.tag detail 0

/-- A command with an OP outside the table, a nonzero reserved byte or a LEN outside its range (R460). -/
def HostCmd.malformed (c : HostCmd) : Bool :=
  c.op == 0 || decide (4 < c.op) || c.opRest != 0 || c.rest != 0
    || (decide (c.op ≤ 2) && (c.len == 0 || decide (4096 < c.len)))

/-- Origin mark of a channel. -/
def Channel.mark (c : Channel) : Mark := BitVec.ofNat 16 (field c.chcfg 63 48)

/-- Partition that a channel serves. -/
def Channel.part (c : Channel) : Nat := field c.chcfg 47 42

/-- Runs the command at the head of a channel when it is the one that a step performs: a malformed one ends with
STATUS 5. Commands are held until bring-up is done and after a trip (R517, R519). (DEDUCED, log entry 82.) -/
def State.onCmd (s : State) (ch op : Nat) (f : HostCmd → State) : State :=
  match (if s.pkg.devst = 0x10 ∧ s.pkg.stopped = false then s.headCmd ch else none) with
  | none => s
  | some c =>
    if c.malformed then s.cmdEnd ch c 5 0
    else if c.op = op then f c else s

/-- MAILBOX_COMMAND_WRITE: the host writes a register of a channel page; a command's own memory is filled first
(R459, R460). -/
def execMailboxCommandWrite (ch : BitVec 4) (off : BitVec 12) (val : BitVec 512) (data : Nat) (s : State) : Out :=
  let n := ch.toNat
  let x := s.channel n
  .next (match off.toNat with
    | 0x008 => s.setChannel n { x with evbase := val.setWidth 64 &&& ~~~0xFFF#64 }
    | 0x010 => s.setChannel n { x with evlen := val.setWidth 64 }
    | 0x020 => s.setChannel n { x with evtail := val.setWidth 32 }
    | 0x040 =>
      let c := hostCmdOf val
      let bytes := if c.op = 1 then Nat.min c.len 4096 else if c.op = 3 then 128 else 0
      let s1 := if bytes = 0 then s
        else { s with mem := s.mem.write (hostLoc + c.haddr.toNat) (toBytes bytes data) }
      if !x.chcfg.getLsbD 0 || decide (64 ≤ x.cmds.length) then s1.postHost n 0x01 7 c.tag 0 0
      else s1.setChannel n { x with cmds := x.cmds ++ [val] }
    | _ => s)

/-! ## WRITE and READ -/

/-- Whether DADDR may be used by the mailbox engine for n bytes: space 01, or space 10 within a compute core or
scratchpad of the own package (R461). -/
def State.hostPlace (s : State) (a : Word) : Bool :=
  field a 63 62 == 1 || (field a 63 62 == 2 && field a 52 34 == s.chip && decide (field a 33 21 < 0x1200))

/-- STATUS of a failure (Table 19.5). -/
def hostSt : Halt → Nat
  | .trap c _ _ _ _ _ => if c = 0x20 then 3 else if c = 0x21 then 2 else if c = 0x24 then 4 else 1
  | .wait _ _ _ _ => 4
  | .silent _ => 4

/-- The mailbox engine as the agent of the command at the head of a channel (R456). -/
def State.channelAgent (s : State) (ch : Nat) : Agent := engineAgent (s.channel ch).part (s.channel ch).since s.now

/-- The command at the head of a channel waits for an answer: from when on is kept (R456). -/
def State.channelWaits (s : State) (ch : Nat) : State :=
  let x := s.channel ch
  s.setChannel ch { x with since := some (x.since.getD s.now) }

/-- The first of n bytes at an address that the engine may not reach, with its STATUS; the whole range otherwise. -/
def State.hostRange (s : State) (g : Agent) (a : Word) (n : Nat) (write : Bool) : Except (Nat × Word) (State × Region) :=
  if !s.hostPlace a then .error (1, a)
  else match s.regionOf g a n write with
    | .ok r => .ok r
    | .error h =>
      let bad (k : Nat) : Bool :=
        !s.hostPlace (a + word k) ||
          (match s.regionOf g (a + word k) 1 write with
           | .ok _ => false
           | .error _ => true)
      let k := (firstNat n bad).getD 0
      match s.regionOf g (a + word k) 1 write with
      | .error e => .error (hostSt e, a + word k)
      | .ok _ => .error (hostSt h, a + word k)

/-- The first of the bytes of a range whose line or block may not take a mark. -/
def State.firstOver (s : State) (g : Agent) (r : Region) (m : Mark) : Word :=
  let bad (k : Nat) : Bool :=
    match s.regionOf g (r.addr + word k) 1 true with
    | .ok (s1, q) => (s1.regionOver g q m).isSome
    | .error _ => false
  r.addr + word ((firstNat r.len bad).getD 0)

/-- Address of the first part of a range at which moving its parts in order fails. -/
def Region.firstRefused (r : Region) (ok : List Piece → Bool) : Word :=
  match firstNat r.pieces.length fun k => !ok (r.pieces.take (k + 1)) with
  | some k => r.addr + word ((r.pieces.map (·.at_)).getD k 0)
  | none => r.addr

/-- A mailbox WRITE that does not complete: STATUS, the first failing address and the event of a refusal (R461, R464), or
no answer so far (R456). -/
inductive WriteFail where
  | failed (status : Nat) (addr : Word) (denial : Option Denial)
  | silent

/-- The mailbox WRITE of R461: why it does not complete, or the state after it. -/
def State.hostWrite (s : State) (g : Agent) (a : Word) (bs : List Byte) (m : Mark) : Except WriteFail State :=
  match s.hostRange g a bs.length true with
  | .error e => .error (.failed e.1 e.2 none)
  | .ok (s1, r) =>
    if (s1.regionOver g r m).isSome then .error (.failed 2 (s1.firstOver g r m) none)
    else match s1.regionStore g r bs m [] with
      | .ok s2 => .ok s2
      | .error .silent => .error .silent
      | .error (.refused _ d) =>
        .error (.failed 4 (r.firstRefused fun ps => (s1.storePieces g a bs m false ps).toBool) (some d))

/-- The bytes of the host's memory that a command names. -/
def State.hostBytes (s : State) (c : HostCmd) (n : Nat) : List Byte := s.mem.read (hostLoc + c.haddr.toNat) n

/-- MAILBOX_WRITE (R461, R473, R474); one that addresses a unit whose agent is full is held (R315). -/
def execMailboxWrite (ch : BitVec 4) (s : State) : Out :=
  let n := ch.toNat
  let x := s.channel n
  .next (s.onCmd n 1 fun c =>
    if (s.part x.part).recMode = 2 then s.cmdEnd n c 6 0
    else if s.fullAt c.daddr then s
    else
      let bs := s.hostBytes c c.len
      match s.hostWrite (s.channelAgent n) c.daddr bs x.mark with
      | .error .silent => s.channelWaits n
      | .error (.failed st a d) => (s.denied d).cmdEnd n c st a
      | .ok s1 =>
        (({ s1 with free := s1.free + 1 }).recordInput x.part 1 (field (Config.freeWord s1.ix) 18 0)
          (field (Config.freeWord s1.ix) 31 19) x.mark c.daddr bs).cmdEnd n c 0 0)

/-- The first byte of a range that is marked outside a set of slots. -/
def State.firstMarked (s : State) (g : Agent) (r : Region) (m : Mark) : Word :=
  let bad (k : Nat) : Bool :=
    match s.regionOf g (r.addr + word k) 1 false with
    | .ok (s1, q) => match s1.regionLoad g q with
      | .ok (_, x) => x.mark &&& ~~~m != 0
      | .error _ => false
    | .error _ => false
  r.addr + word ((firstNat r.len bad).getD 0)

/-- MAILBOX_READ (R461, R464, R478); one that addresses a unit whose agent is full is held (R315). -/
def execMailboxRead (ch : BitVec 4) (s : State) : Out :=
  let n := ch.toNat
  let x := s.channel n
  .next (s.onCmd n 2 fun c =>
    let e := s.channelAgent n
    if s.fullAt c.daddr then s
    else match s.hostRange e c.daddr c.len false with
    | .error (st, a) => s.cmdEnd n c st a
    | .ok (s1, r) =>
      match s1.regionLoad e r with
      | .error .silent => s.channelWaits n
      | .error (.refused _ d) =>
        (s1.denied (some d)).cmdEnd n c 4 (r.firstRefused fun ps => (s1.unpoisoned.loadPieces e c.daddr ps).toBool)
      | .ok (s2, g) =>
        match g.bad with
        | (o, _) :: _ => s2.cmdEnd n c 4 (c.daddr + word o)
        | [] =>
          if g.mark &&& ~~~x.mark ≠ 0 then s2.cmdDone n 2 c.tag (s1.firstMarked e r x.mark) g.mark
          else
            let s3 := { s2 with mem := s2.mem.write (hostLoc + c.haddr.toNat) g.bytes }
            s3.cmdDone n 0 c.tag 0 g.mark)

/-! ## LAUNCH -/

/-- Whether a launch record asks for PRIV or GCP on a channel that does not permit it (R462). -/
def launchDenied (x : Channel) (r : BitVec 1024) : Bool :=
  (bit (launchCtl r) 2 && !x.chcfg.getLsbD 2) || (bit (launchCtl r) 3 && !x.chcfg.getLsbD 3)

/-- MAILBOX_LAUNCH (R462, R473, R474). A record whose address is not a multiple of 128 is read as it lies, since the spec
gives no outcome for one. (DESIGN CHOICE, log entry 108.) -/
def execMailboxLaunch (ch : BitVec 4) (s : State) : Out :=
  let n := ch.toNat
  let x := s.channel n
  let p := x.part
  .next (s.onCmd n 3 fun c =>
    if (s.part p).recMode = 2 then s.cmdEnd n c 6 0
    else
      let bs := s.hostBytes c 128
      let r : BitVec 1024 := BitVec.ofNat 1024 (ofBytes bs)
      if launchDenied x r then s.cmdEnd n c 5 0
      else if !s.queueRoom p then
        (if x.qfull then s else (s.setChannel n { x with qfull := true }).postHost n 0x04 0 0 (word p) 0)
      else
        let (s1, num) := s.queueLaunch p (launchMark r x.mark) (some n)
        (({ s1 with free := s1.free + 1 }).recordInput p 2 (field (Config.freeWord s1.ix) 18 0)
          (field (Config.freeWord s1.ix) 31 19) x.mark (num.setWidth 64) bs).cmdDone n 0 num.toNat 0 0)

/-! ## CONFIG -/

/-- Runs a CONFIG command for one item (R463): on a channel without CONF, and for a value that its item does not take,
it ends with STATUS 5 and no effect. `f` is given the index and the value. -/
def State.config (s : State) (ch : BitVec 4) (item : Nat) (f : Nat → Word → Option State) : State :=
  let n := ch.toNat
  s.onCmd n 4 fun c =>
    if !(s.channel n).chcfg.getLsbD 4 then s.cmdEnd n c 5 0
    else if field c.daddr 15 0 = item then
      (if field c.daddr 63 22 ≠ 0 then s.cmdEnd n c 5 0
       else match f (field c.daddr 21 16) c.value with
         | some t => t.cmdEnd n c 0 0
         | none => s.cmdEnd n c 5 0)
    else if item = 1 ∧ (field c.daddr 15 0 = 0 ∨ 0xB < field c.daddr 15 0) then s.cmdEnd n c 5 0
    else s

/-- The state with the package's registers changed. -/
def State.withPkg (s : State) (f : Package → Package) : State := { s with pkg := f s.pkg }

/-- CONFIG_PCHIP (R463): accepted while no partition has a reservation. An item outside the table ends here too. -/
def execConfigPchip (ch : BitVec 4) (s : State) : Out :=
  .next (s.config ch 0x0001 fun _ v =>
    if field v 63 19 ≠ 0 ∨ !s.groups.isEmpty then none
    else some (s.withPkg fun k => { k with pchip := v.setWidth 19 }))

/-- CONFIG_SYSN (R463). -/
def execConfigSysn (ch : BitVec 4) (s : State) : Out :=
  .next (s.config ch 0x0002 fun _ v =>
    if v = 0 ∨ 524288 < v.toNat then none else some (s.withPkg fun k => { k with sysn := v.toNat }))

/-- CONFIG_SGID (R463, R454). -/
def execConfigSgid (ch : BitVec 4) (s : State) : Out :=
  .next (s.config ch 0x0003 fun p v =>
    if field v 63 16 ≠ 0 then none else some (s.setPart p { s.part p with sgid := v.setWidth 16 }))

/-- CONFIG_CHIPST (R463, R456). -/
def execConfigChipst (ch : BitVec 4) (s : State) : Out :=
  .next (s.config ch 0x0004 fun _ v =>
    if field v 62 19 ≠ 0 then none
    else
      let c := field v 18 0
      let rest := s.pkg.failed.filter (· != c)
      some (s.withPkg fun k => { k with failed := if v.getLsbD 63 then rest ++ [c] else rest }))

/-- CONFIG_CHCFG: the configuration of a channel from 1 to 15, which only a command on channel 0 sets (R459, R463). -/
def execConfigChcfg (ch : BitVec 4) (s : State) : Out :=
  .next (s.config ch 0x0005 fun c v =>
    if ch ≠ 0 ∨ c = 0 ∨ 15 < c ∨ v &&& ~~~0xFFFFFC000000001D#64 ≠ 0 ∨ 1 < popcount 16 (field v 63 48) then none
    else some (s.setChannel c { s.channel c with chcfg := v }))

/-- CONFIG_TMASTER (R463). -/
def execConfigTmaster (ch : BitVec 4) (s : State) : Out :=
  .next (s.config ch 0x0006 fun _ v =>
    if field v 63 19 ≠ 0 then none else some (s.withPkg fun k => { k with tmaster := v.setWidth 19 }))

/-- CONFIG_TSET: steps the package reference while no partition has a reservation (R465). -/
def execConfigTset (ch : BitVec 4) (s : State) : Out :=
  .next (s.config ch 0x0007 fun _ v =>
    if !s.groups.isEmpty then none else some (s.withPkg fun k => { k with tbaseOff := v - word s.now }))

/-- CONFIG_RECBASE (R463). -/
def execConfigRecbase (ch : BitVec 4) (s : State) : Out :=
  .next (s.config ch 0x0008 fun p v =>
    if field v 63 62 ≠ 1 ∨ field v 11 0 ≠ 0 then none else some (s.setPart p { s.part p with recBase := v }))

/-- CONFIG_RECLEN (R463). -/
def execConfigReclen (ch : BitVec 4) (s : State) : Out :=
  .next (s.config ch 0x0009 fun p v =>
    if field v 11 0 ≠ 0 then none else some (s.setPart p { s.part p with recLen := v }))

/-- Begins a partition's replay at its first entry (R474): a region that has found no answer is asked again. -/
def State.beginReplay (s : State) (p : Nat) : State :=
  let q := s.part p
  match s.recAt p 0 with
  | .ok (some e) => s.setPart p { q with recSince := none, replayStart := some (s.now, e.stamp) }
  | .ok none => s.setPart p { q with recSince := none }
  | .error _ => s.setPart p { q with recSince := some (q.recSince.getD s.now) }

/-- CONFIG_RECMODE: recording or replay begins at the start of the region (R473, R474). -/
def execConfigRecmode (ch : BitVec 4) (s : State) : Out :=
  .next (s.config ch 0x000A fun p v =>
    if 2 < v.toNat then none
    else
      let q := { s.part p with recMode := v.setWidth 2, recPos := 0, recFull := false, recUsed := [], recHeld := []
                               recSince := none, replayStart := none }
      let s1 := s.setPart p q
      some (if v = 2 then s1.beginReplay p else s1))

/-- CONFIG_PCAP (R463, R516). -/
def execConfigPcap (ch : BitVec 4) (s : State) : Out :=
  .next (s.config ch 0x000B fun _ v =>
    if v.toNat < 800 ∨ 2000 < v.toNat then none else some (s.withPkg fun k => { k with pcap := v.setWidth 16 }))

/-! ## Host events -/

/-- Whether a channel has a ring that the engine can write: EVLEN a power of two from 16 to 65,536 and EVBASE set
(Table 19.1). -/
def Channel.ringed (c : Channel) : Bool :=
  c.evbase != 0 && (List.range 13).any fun k => c.evlen == word (2 ^ (4 + k))

/-- The 32 bytes of an event record (Table 19.5). (DEDUCED, log entry 84.) -/
def HostEvent.bytes (e : HostEvent) : List Byte :=
  toBytes 32 (ofWords [e.head.toNat, e.detail.toNat, e.tbase.toNat, e.mark.toNat])

/-- HOST_EVENT_WRITE: the oldest waiting event goes to entry EVHEAD of the ring, unless the ring is full (R464). -/
def execHostEventWrite (ch : BitVec 4) (s : State) : Out :=
  let n := ch.toNat
  let x := s.channel n
  .next (match x.events with
    | [] => s
    | e :: rest =>
      if !x.ringed || (x.evhead - x.evtail).toNat == x.evlen.toNat then s
      else
        let at_ := hostLoc + x.evbase.toNat + 32 * (x.evhead.toNat % x.evlen.toNat)
        let s1 := s.setChannel n { x with evhead := x.evhead + 1, events := rest }
        { s1 with mem := s1.mem.write at_ e.bytes })

/-! ## Requests of other packages -/

/-- REQUEST_TIMEOUT: a request of a thread that has had no answer for 2^24 ticks is refused, and SUSPECT is posted for a
chip (R456, R458). -/
def execRequestTimeout (unit : BitVec 13) (ht : BitVec 2) (s : State) : Out :=
  let t : ThreadId := ⟨unit.toNat, (s.core unit.toNat).sel, ht.toNat⟩
  let x := s.thread t
  .next (match x.remote with
    | some r =>
      if r.answer.isNone && decide (2 ^ 24 ≤ s.now - r.since) then
        let s1 := s.setThread t { x with remote := some { r with answer := some .refused } }
        if r.chip = hostChip then s1 else s1.postHost 0 0x07 0 0 (word r.chip) 0
      else s
    | none => s)

/-- Bytes that a request touches at its address. -/
def reqSpan (r : RemoteReq) : Nat :=
  match r.kind with
  | .record => 64
  | .decrement => 64
  | .ldv => 8
  | .stv => 8
  | .reclaim => 8 * r.len
  | .load => r.len
  | .store => r.len
  | .amo => r.len
  | .acas => r.len
  | .deliver => r.len

/-- Whether a request of a kind is a versioned one, to which R297's rule on versioned windows does not apply. -/
def reqVersioned (r : RemoteReq) : Bool :=
  match r.kind with
  | .ldv => true
  | .stv => true
  | .reclaim => true
  | .deliver => r.aux.getLsbD 16
  | .load => false
  | .store => false
  | .amo => false
  | .acas => false
  | .record => false
  | .decrement => false

/-- The partition that accepts a request (R454): one with the same SGID that owns the core or scratchpad range named,
any such for a channel core's local memory, and for a page that the requester maps with TGT 2 (an address in space 01
here stands for a physical address of HBM, R468). DCP local memory is never reachable, and every word of a versioned
request lies in one enabled window (R349, R350). (DEDUCED, log entry 83.) -/
def State.acceptor (s : State) (r : RemoteReq) : Option Nat :=
  let u := field r.addr 33 21
  let peers := ((s.parts.filter fun q => q.2.len != 0 && q.2.sgid == r.sgid).map (·.1))
  let inWin := (reqVersioned r)
  let n := Nat.max (reqSpan r) 1
  let owns (p : Nat) : Bool :=
    match s.resolve10 ⟨0x1FFF, 0, some p, false, true⟩ r.addr n true inWin with
    | .ok (.loc l) => !inWin || (aligned r.addr.toNat 8 && s.windowed l n)
    | .ok .virt => false
    | .ok (.remote _) => false
    | .ok (.ctl _ _) => false
    | .error _ => false
  match field r.addr 63 62 with
  | 1 => peers.head?
  | 2 =>
    if isDcp u then none
    else if r.kind == .record then
      (peers.find? fun p => match s.routeOf (recOfBytes (toBytes 64 r.data)) with
        | some (k, _) => isChannel k || (s.partsOfCluster (k - 0x1000)).contains p
        | none => true)
    else peers.find? owns
  | _ => none

/-- The location that an accepted request names. -/
def reqLoc (r : RemoteReq) : Nat :=
  if field r.addr 63 62 = 1 then hbmLoc + field r.addr 39 0
  else unitLoc (field r.addr 33 21) + field r.addr 20 0

/-- Whether a write of an accepted request keeps the ceilings of R304 and, for a page that the requester maps with
TGT 2, the CEIL that the requester's entry supplies in AUX[63:48] (R305, R468). -/
def State.remoteFits (s : State) (r : RemoteReq) (n : Nat) (m : Mark) : Bool :=
  s.overCeil (reqLoc r) n m == 0 &&
    (field r.addr 63 62 != 1 ||
      (markLines (reqLoc r) n).all fun g => (markGet s.mem.marks g ||| m) &&& ~~~(BitVec.ofNat 16 (field r.aux 63 48)) == 0)

/-- Whether the agent of a unit has a place for a request that reaches it (R315). -/
def State.agentTakes (s : State) (r : RemoteReq) : Bool :=
  field r.addr 63 62 != 2 || !s.agentHolds16 (field r.addr 33 21)

/-- Leaves a versioned word of an accepted request at its home, which performs what it can (R314). -/
def State.leaveWord (s : State) (p : Nat) (r : RemoteReq) (l : Nat) (v : Word) : State :=
  let j := (l - spadLoc 0) / 2 ^ 21
  let c := s.cluster j
  (s.setCluster j { c with
    vreqs := c.vreqs ++ [⟨none, true, true, l, r.aux.setWidth 16, ⟨v, r.mark⟩, p, none, none⟩] }).serveAll j

/-- The words of a versioned delivery that the agent takes, from the k-th on, and how many it has taken (R315). -/
def State.takeWords (s : State) (p : Nat) (r : RemoteReq) (l : Nat) : Nat → Nat → State × Nat
  | 0, k => (s, k)
  | n + 1, k =>
    if s.agentTakes r then State.takeWords (s.leaveWord p r (l + 8 * k) (word (r.data / 2 ^ (64 * k)))) p r l n (k + 1)
    else (s, k)

/-- What an accepted request does at its home (R315, R454), and the part of it that is performed: of a versioned delivery
the words that found a place. None when the requester has to hold the whole of it. A record counts for its group here
(R229). (DEDUCED, log entry 83.) -/
def State.serveRemote (s : State) (p : Nat) (r : RemoteReq) : Option (State × RemoteReq) :=
  let l := (reqLoc r)
  let u := field r.addr 33 21
  let k : Asker := ⟨u, p, u, false, none⟩
  let whole (t : State) : Option (State × RemoteReq) := some (t, r)
  let home (st : Except Halt (State × Nat × Mark)) : Option (State × RemoteReq) :=
    match st with
    | .ok (s1, _, _) => whole s1
    | .error _ => whole s
  if !s.agentTakes r then none
  else match r.kind with
  | .load => whole s
  | .ldv => whole s
  | .store => whole (if s.remoteFits r r.len r.mark then s.put l (toBytes r.len r.data) r.mark false else s)
  | .amo =>
    if s.remoteFits r r.len r.mark then
      home (s.rmwLoc r.addr l r.len (fun old => some (amoOp (r.aux.setWidth 4) (8 * r.len) old r.data)) r.mark)
    else whole s
  | .acas =>
    if s.remoteFits r r.len r.mark then
      home (s.rmwLoc r.addr l r.len (fun old => if old = r.aux.toNat % 2 ^ (8 * r.len) then some r.data else none) r.mark)
    else whole s
  | .stv => whole (s.leaveWord p r l (word r.data))
  | .reclaim =>
    whole (((List.range r.len).foldl (fun t k => t.reclaimAt (l + 8 * k) (r.aux.setWidth 16)) s).serveAll
      ((l - spadLoc 0) / 2 ^ 21))
  | .deliver =>
    if !s.remoteFits r r.len r.mark then
      whole (s.postDcp (dieOf u) 6 ⟨u, 0, 0⟩ 0 r.addr (word (field r.aux 22 17)) 0 0 r.mark)
    else if r.aux.getLsbD 16 then
      let (s1, n) := s.takeWords p r l (r.len / 8) 0
      some (s1, { r with len := 8 * n, data := r.data % 2 ^ (64 * n) })
    else whole (s.put l (toBytes r.len r.data) r.mark false)
  | .record =>
    let c := recOfBytes (toBytes 64 r.data)
    match outcomeOf ((s.live c.gh true).enqueueRec c r.addr k) with
    | .ok (.ok (some s1)) => whole s1
    | .ok (.ok none) => none
    | .ok (.error h) => whole (s.afterHalt h)
    | .error _ => none
  | .decrement =>
    match outcomeOf (s.decrement k r.addr r.mark) with
    | .ok (.ok (some (s1, _, _))) => whole s1
    | .ok (.ok none) => none
    | .ok (.error h) => whole (s.afterHalt h)
    | .error _ => none

/-- Code of a kind of request in a recorded entry (DESIGN CHOICE, log entry 31). -/
def kindNo : RemoteKind → Nat
  | .load => 0
  | .store => 1
  | .amo => 2
  | .acas => 3
  | .ldv => 4
  | .stv => 5
  | .reclaim => 6
  | .deliver => 7
  | .record => 8
  | .decrement => 9

/-- Bytes of data that a request carries. -/
def reqBytes (r : RemoteReq) : Nat :=
  match r.kind with
  | .load => 0
  | .ldv => 0
  | .reclaim => 0
  | .decrement => 0
  | .stv => 8
  | .record => 64
  | .store => r.len
  | .amo => r.len
  | .acas => r.len
  | .deliver => r.len

/-- A request as the payload of a recorded entry: kind, SGID, length, AUX, data (DESIGN CHOICE, log entry 31). -/
def reqPayload (r : RemoteReq) : List Byte :=
  toBytes 1 (kindNo r.kind) ++ toBytes 2 r.sgid.toNat ++ toBytes 5 r.len ++ toBytes 8 r.aux.toNat
    ++ toBytes (reqBytes r) r.data

/-- The request that a recorded entry holds. -/
def remoteOf (e : RecEntry) : RemoteReq :=
  let v := ofBytes e.payload
  let kinds : List RemoteKind := [.load, .store, .amo, .acas, .ldv, .stv, .reclaim, .deliver, .record, .decrement]
  { kind := nth kinds (chop v 0 1) .load, chip := BitVec.ofNat 19 e.chip, unit := BitVec.ofNat 13 e.unit
    sgid := BitVec.ofNat 16 (chop v 1 2), addr := e.daddr, len := chop v 3 5
    data := v / 2 ^ 128, mark := e.mark, aux := word (chop v 8 8) }

/-- REMOTE_REQUEST: a request of another package reaches its home, through a working port, and is refused unless a
partition accepts it that is not in replay (R315, R454, R474). What finds its agent full stays with the
requester, which retries. Its mark counts where the sender's partition has FED = 1
and is 0x0000 otherwise (R477), as the request carries it. -/
def execRemoteRequest (r : RemoteReq) (s : State) : Out :=
  .next (if s.pkg.portsUp = 0 then s
    else match s.acceptor r with
      | none => s
      | some p =>
        if (s.part p).recMode = 2 then s
        else match s.serveRemote p r with
          | none => s
          | some (s1, r1) => s1.recordInput p 3 r.chip.toNat r.unit.toNat r.mark r.addr (reqPayload r1))

/-! ## Replay -/

/-- Performs an entry of a region in replay: none when the partition cannot accept it yet (R474, R315). -/
def State.replayEntry (s : State) (p : Nat) (e : RecEntry) : Option State :=
  match e.kind with
  | 1 => if s.fullAt e.daddr then none else match s.hostWrite (engineAgent p (s.part p).recSince s.now) e.daddr e.payload e.mark with
    | .ok s1 => some s1
    | .error (.failed _ _ d) => some (s.denied d)
    | .error .silent => none
  | 2 =>
    if !s.queueRoom p then none
    else some (s.queueLaunch p (launchMark (BitVec.ofNat 1024 (ofBytes e.payload)) e.mark) none).1
  | 3 => (s.serveRemote p (remoteOf e)).map (·.1)
  | _ => some s

/-- REPLAY_ENTRY: the next entry of a region in replay is performed, when its time has come and the partition can
accept it (R474). A recorded response is left for the request that it answers. -/
def execReplayEntry (part : BitVec 6) (s : State) : Out :=
  let p := part.toNat
  let q := s.part p
  let asks : State := s.setPart p { q with recSince := some (q.recSince.getD s.now) }
  .next (if q.recMode ≠ 2 then s
    else match q.replayStart with
      | none => if q.recSince.isSome then s.beginReplay p else s
      | some (t0, first) => match s.recAt p q.recPos with
        | .error _ => asks
        | .ok none => s
        | .ok (some e) =>
          if s.now < t0 + (e.stamp - first).toNat then s
          else match s.replayEntry p e with
            | some t =>
              t.setPart p { t.part p with recPos := q.recPos + entryBytes e.payload.length, recSince := none }
            | none => if e.kind = 1 ∧ s.fullAt e.daddr = false then asks else s)

end Sys2Proof.Machine
end

