-- ==== Sys2Proof/Machine/Issue.lean ====
section
/-! DEFINITION. Issue: when an instruction of a thread may issue on its side (R29 to R35, R179), what a turn runs, and
the machine's own steps that belong to a thread: fetching ahead, the watchdog, a wait that is satisfied, a translation
walk. -/

namespace Sys2Proof.Machine

open Sys2Proof

/-! ## Latching -/

/-- The state in which the A-side instruction at the program counter of the running thread is latched. -/
def State.latchA (s : State) (f : Found) : State :=
  { s with latch := ⟨s.me.pc, f.len, f.finfo, .access, [], s.me.seq⟩ }

/-- The E-side instruction of the running thread that is next to issue, and the source it issues from: the wheel while
it replays, then the E-queue (R187). -/
def State.nextE (s : State) : Option (EEntry × Source) :=
  let t := s.me
  if t.wheel.act then (t.wheel.body[t.wheel.repix]?).map fun e => ({ e with seq := t.wheel.place }, .wheel)
  else t.equeue.head?.map fun e => (e, .queue)

/-- The state in which an E-side instruction is latched. -/
def State.latchE (s : State) (e : EEntry) (src : Source) : State :=
  { s with latch := ⟨e.addr, e.len, e.finfo, src, e.caps, e.seq⟩ }

/-- The instruction at the program counter of the running thread. HTRES is one encoding with a row for each operation
in X(B) (R429, DEDUCED, log entry 11). (DEDUCED, log entry 46.) -/
def State.foundA (s : State) : Found :=
  let f := findInstr s.code s.me.pc
  match f.instr with
  | .htresResume d a b =>
    let v := ((s.latchA f).x b).toNat % 8
    let i : Instr := match v with
      | 1 => .htresPreemptMilestone d a b
      | 2 => .htresPreemptSafepoint d a b
      | 3 => .htresPark d a b
      | 4 => .htresEnd d a b
      | _ => .htresResume d a b
    { f with instr := i }
  | _ => f

/-! ## What an A-side instruction waits for -/

/-- Bytes that an instruction accesses: first address and length. -/
structure Footprint where
  addr : Word
  len : Nat
  deriving DecidableEq, Repr

/-- The location of a byte of the local window, whatever LWIN grants. -/
def localLoc (u : Nat) (a : Word) : Nat :=
  if a.toNat < 0x100000 then unitLoc u + a.toNat else spadLoc (clusterOf u) + (a.toNat - 0x100000)

/-- The location that names a byte for R33 and R326, so that every address of one byte gives one location; those of
other packages lie past the locations of this one. None in control space and where nothing is mapped. -/
def State.placeOf (s : State) (a : Word) : Option Nat :=
  match field a 63 62 with
  | 0 => some (localLoc s.cur.unit a)
  | 1 => match s.translate (s.agent.part.getD 0) (field a 47 0) with
    | .ok (_, x) =>
      let lf := leafOf x (field a 47 0)
      some (match lf.tgt with
        | 0 => hbmLoc + lf.pa
        | 1 => hostLoc + lf.pa
        | _ => 2 ^ 80 + lf.chip * 2 ^ 64 + lf.pa)
    | .error _ => none
  | 2 => some (if field a 52 34 = s.chip then unitLoc (field a 33 21) + field a 20 0 else 2 ^ 100 + a.toNat)
  | _ => none

/-- The bytes of a footprint as runs of locations, one for each 64 KiB or part of it. -/
def State.runsOf (s : State) (f : Footprint) : List (Nat × Nat) :=
  let o := f.addr.toNat % 2 ^ 16
  (List.range ((o + f.len + 2 ^ 16 - 1) / 2 ^ 16)).filterMap fun k =>
    let b := Nat.max (2 ^ 16 * k) o - o
    let e := Nat.min (2 ^ 16 * (k + 1) - o) f.len
    (s.placeOf (f.addr + word b)).map (·, e - b)

/-- The package and unit whose agent serves a space-10 access (R315). -/
def Footprint.agent (f : Footprint) : Option Nat := if field f.addr 63 62 = 2 then some (field f.addr 52 21) else none

/-- Whether one unit's agent serves two accesses: those keep their order (R329). -/
def sameAgent (f g : Footprint) : Bool := f.agent.isSome && f.agent == g.agent

/-- Whether two accesses share a byte, or an agent (R326, R329). -/
def State.clash (s : State) (f g : Footprint) : Bool :=
  sameAgent f g ||
    (s.runsOf f).any fun x => (s.runsOf g).any fun y => decide (x.1 < y.1 + y.2) && decide (y.1 < x.1 + x.2)

/-- Whether a footprint lies in the local window. -/
def Footprint.isLocal (f : Footprint) : Bool := field f.addr 63 62 == 0

/-- The coordinates or bitmap, and the values, of a fibre (Table 6.6). -/
def fibrePrints (d : BitVec 512) : List Footprint :=
  let ctl := dget d 0x10 4
  let n := dget d 0x14 4
  [⟨word (dget d 0 8), n * (ctlWidth ctl / 8)⟩,
   ⟨word (dget d 8 8), if bit ctl 4 then dget d 0x18 4 / 8 + 8 else n * if bit ctl 5 then 4 else 2⟩]

/-- The packed vector at an address, as far as its header goes (R200). -/
def State.packedPrint (s : State) (a : Word) : Footprint :=
  match s.packedHead a false with
  | .ok (_, h, _) => ⟨a, Nat.max 8 h.cap⟩
  | .error _ => ⟨a, 8⟩

/-- The hash table at an address, as far as its header goes (R203). -/
def State.hashPrint (s : State) (a : Word) : Footprint :=
  match s.hashAt a false with
  | .ok t => ⟨a, 64 + 8 * t.nslot⟩
  | .error _ => ⟨a, 64⟩

/-- What an A-side instruction accesses by itself, and whether it reads there; none for the forms that hand work to an
engine, which wait for every earlier access (R337). -/
def State.printsA (s : State) : Instr → Option (List Footprint × Bool)
  | .ld z _ a off => some ([⟨s.x a + off, bytesZ z⟩], true)
  | .st z _ a off => some ([⟨s.x a + off, bytesZ z⟩], false)
  | .ldp z _ a off => some ([⟨s.x a + off, 2 * bytesZ z⟩], true)
  | .stp z _ a off => some ([⟨s.x a + off, 2 * bytesZ z⟩], false)
  | .ldg z _ a off _ => some ([⟨s.x a + off, bytesZ z⟩], true)
  | .stg z _ a off => some ([⟨s.x a + off, bytesZ z⟩], false)
  | .ldv _ a off _ => some ([⟨s.x a + off, 8⟩], true)
  | .stv _ a off => some ([⟨s.x a + off, 8⟩], false)
  | .reclaim d a _ => some ([⟨s.x a, 8 * Nat.min (s.x d).toNat 16384⟩], false)
  | .amo z _ _ _ _ a _ _ => some ([⟨s.x a, bytesZ z⟩], true)
  | .acas z _ _ _ a _ _ => some ([⟨s.x a, bytesZ z⟩], true)
  | .sopen _ a _ _ => some ([⟨s.x a, 64⟩], true)
  | .sopenx _ a _ _ => some ([⟨s.x a, 64⟩], true)
  | .ssave _ a => some ([⟨s.x a, 128⟩], false)
  | .srest _ a => some ([⟨s.x a, 128⟩], true)
  | .fopen _ a _ => some (⟨s.x a, 64⟩ :: (match s.block64 (s.x a) 64 with
      | .ok (bs, _) => fibrePrints (BitVec.ofNat 512 (ofBytes bs))
      | .error _ => []), true)
  | .hacc _ _ _ _ a _ => some ([s.hashPrint (s.x a)], true)
  | .hprobe _ _ a _ _ => some ([s.hashPrint (s.x a)], true)
  | .cpset a _ => some ([⟨s.x a, 64⟩], true)
  | .pmask a _ => some ([⟨s.x a, 128⟩], true)
  | .ctab _ a _ _ => some ([⟨s.x a, 16⟩], true)
  | .measx a _ => some ([⟨s.x a, 32⟩], true)
  | .attest _ a _ => some ([⟨s.x a, 448⟩], true)
  | .dbgopen _ a => some ([⟨s.x a, 192⟩], true)
  | _ => none

/-- The value that an entry has captured of a register; none where its passes see two. -/
def EEntry.cap (e : EEntry) (r : Reg) : Option Word :=
  if (capOf e.caps (lastKey r.toNat)).isSome then none else (capOf e.caps r.toNat).map (·.val)

/-- What a pending E-side instruction accesses by itself; none where a pass of the wheel will compute its address. -/
def State.printE (s : State) (e : EEntry) : Option Footprint :=
  match e.instr with
  | .vld _ _ a off _ => (e.cap a).map fun x => ⟨x + off, 32⟩
  | .vst _ _ a off _ => (e.cap a).map fun x => ⟨x + off, 32⟩
  | .accz a => (e.cap a).map fun x => ⟨x, 128⟩
  | .accw _ _ _ a _ _ => (e.cap a).map fun x => ⟨x, 128⟩
  | .accrd _ _ a _ => (e.cap a).map fun x => ⟨x, 128⟩
  | .spack _ _ a _ => (e.cap a).map s.packedPrint
  | .sunpk _ _ a _ _ => (e.cap a).map s.packedPrint
  | _ => none

/-- The pending E-side instructions of the running thread, each with how often it has still to issue. -/
def State.pendingTimes (s : State) : List (EEntry × Nat) :=
  let w := s.me.wheel
  let body := w.body.zipIdx
  (if w.act then body.map fun e => (e.1, w.repcnt + if w.repix ≤ e.2 then 1 else 0)
   else match s.me.equeue.findSome? (·.passes) with
    | some n => body.map fun e => (e.1, n)
    | none => [])
    ++ s.me.equeue.map (·, 1)

/-- The numbers of the elements of slot n that pending E-side instructions pop or push. -/
def State.slotSpan (s : State) (n : Nat) : List Nat :=
  let x := s.slot n
  let k := (s.pendingTimes.map fun e =>
    if ((usesOf e.1.instr).vr ++ (usesOf e.1.instr).vw).contains (28 + n) then e.2 else 0).sum
  if !x.opened then [] else span x.pos (Nat.min (k * x.lanes) (x.len - x.pos))

/-- The indices that name those elements (R173). -/
def State.slotIndices (s : State) (n : Nat) : List Footprint :=
  let x := s.slot n
  if x.indirect then (s.slotSpan n).map fun e => ⟨indexAt x.desc e, indexSize x.desc⟩ else []

/-- Those elements (R33, R178). -/
def State.slotElems (s : State) (n : Nat) : List Footprint :=
  let x := s.slot n
  (s.slotSpan n).flatMap fun e => match s.elemAddr x e fun _ r => r with
    | .ok (_, a, _) => [⟨a, x.width / 8⟩]
    | .error _ => []

/-- What pending E-side instructions read of fibre n. -/
def State.fibreSlotPrints (s : State) (n : Nat) : List Footprint :=
  if (s.fibre n).opened && s.pendingInstrs.any (fun e =>
      (usesOf e.instr).fibres.contains n || (usesOf e.instr).vr.contains (26 + n)) then fibrePrints (s.fibre n).desc
  else []

/-- Whether an A-side access to memory would overtake a pending E-side one to a byte of it or through its agent (R33, R326,
R329): an access of the instruction itself, a push, the read of an index, a read of a fibre, or a pop, which a store that
only shares bytes with the element may overtake (R34). A pass of the wheel may access any byte of the local window where it
computes its address. (DEDUCED, log entry 8.) -/
def State.memoryWaits (s : State) (i : Instr) : Bool :=
  (usesOf i).mem && match s.printsA i with
    | none => s.pendingInstrs.any fun e => s.touchesMem e.instr
    | some (fs, reads) =>
      let meets (g : Footprint) : Bool := fs.any fun f => s.clash f g
      s.pendingInstrs.any (fun e => (usesOf e.instr).mem && match s.printE e with
        | some g => meets g
        | none => fs.any (·.isLocal))
      || (List.range 4).any (fun n => (s.slotIndices n).any meets
        || (s.slotElems n).any fun g => if reads || (s.slot n).wr then meets g else fs.any fun f => sameAgent f g)
      || (List.range 2).any fun n => (s.fibreSlotPrints n).any meets

/-- The registers of the tiles that a matrix form names as operands (R14, R401). -/
def State.tileRegs (s : State) (i : Instr) : List Nat :=
  let of (a : Reg) : List Nat := if field (s.x a) 63 62 = 1 then span (8 * field (s.x a) 1 0) 8 else []
  match i with
  | .mma _ a b _ => of a ++ of b
  | .mconv _ _ b _ => of b
  | _ => []

/-- The stream and fibre slots that an instruction pops, pushes or names: 0 to 3, and 4 and 5 for fibres (R179). -/
def slotsNamed (u : Uses) : List Nat :=
  u.slots ++ u.fibres.map (4 + ·) ++ ((u.vr ++ u.vw).filter (28 ≤ ·)).map (· - 28)
    ++ ((u.vr ++ u.vw).filter fun n => decide (26 ≤ n) && decide (n < 28)).map (· - 22)

/-- Whether two lists share an element. -/
def shares (a b : List Nat) : Bool := a.any b.contains

/-- Whether a pending E-side instruction writes a register that an instruction reads or writes, or reads a v or k
register that it writes, or uses a slot that it names (R32, R179). -/
def State.registerWaits (s : State) (i : Instr) : Bool :=
  let u := usesOf i
  let reads := u.vr ++ s.tileRegs i
  s.pendingInstrs.any fun e =>
    let p := usesOf e.instr
    shares p.xw (u.xr ++ u.xw) || shares p.vw (reads ++ u.vw) || shares p.vr u.vw || shares p.kw (u.kr ++ u.kw)
      || shares p.kr u.kw || shares (slotsNamed p) (slotsNamed u)

/-- Forms that make a release, or hand work to an engine, a queue or another thread: they wait until every earlier
E-side access has been made (R331, R336, R337). -/
def isRelease : Instr → Bool
  | .evsig _ => true
  | .stv _ _ _ => true
  | .amo _ _ ord _ _ _ _ _ => ord.getLsbD 1
  | .acas _ ord _ _ _ _ _ => ord.getLsbD 1
  | .spawn _ _ _ _ => true
  | .spawnd _ _ _ _ => true
  | .join _ _ => true
  | .gdone _ _ => true
  | .glaunch _ _ => true
  | .rinj _ _ _ => true
  | .bara _ => true
  | .wqput _ _ _ => true
  | .cplaunchRead _ => true
  | .cpgo _ _ => true
  | .ixpost _ _ _ => true
  | .epush _ _ => true
  | .mma _ _ _ _ => true
  | .mconv _ _ _ _ => true
  | .ldrows _ _ _ => true
  | .strows _ _ _ => true
  | .gatesub _ _ _ _ _ => true
  | .xsend _ _ _ _ => true
  | _ => false

/-- Whether an instruction fixes the order of its thread's later loads after something earlier: it loads, or acquires
from another thread or an engine, or is a fence (R322, R326, R329, R332, R336, R337). -/
def State.ordersLoads (s : State) (i : Instr) : Bool :=
  s.touchesMem i || match i with
    | .fence _ _ => true
    | .wfe _ => true
    | .wfm => true
    | .mbrd _ => true
    | .barw _ _ => true
    | .llock _ => true
    | .cbclm _ _ _ => true
    | .cbwait _ _ _ => true
    | .wqtake _ => true
    | .epop _ _ => true
    | .mdrain _ => true
    | .rdrain _ _ => true
    | .cpstat _ _ => true
    | .gatest _ _ => true
    | _ => false

/-- The slots without what they have fetched ahead, as an instruction issues that orders later loads: their pops read
after it. A slot that is the only source of its loads keeps what follows, which it has fetched in order.
(DEDUCED, log entry 99.) -/
def State.dropAhead (s : State) (i : Instr) : State :=
  let u := usesOf i
  let popped := (List.range 4).filter fun n => (s.slot n).opened && u.vr.contains (28 + n)
  let alone (n : Nat) : Bool := popped == [n] && !u.mem && u.fibres.isEmpty
    && !(u.vr.any fun r => decide (26 ≤ r) && decide (r < 28) && (s.fibre (r - 26)).opened)
  let t := s.me
  if s.ordersLoads i && t.slots.toList.any (fun x => !x.fetched.isEmpty) then
    s.setMe { t with slots := Vector.ofFn fun n : Fin 4 => if alone n.val then t.slots[n] else t.slots[n].unfetched }
  else s

/-- The state in which an A-side instruction finds the slots that it names: a REPX that issued before it and whose passes
have not begun has joined its WM into the marks of those (R188). No pending E-side instruction uses them, since the
instruction waits for those (R179). -/
def State.wheelMarked (s : State) (i : Instr) : State :=
  let named := slotsNamed (usesOf i)
  match s.me.equeue.find? (·.passes.isSome) with
  | some e => s.joinSlots ((e.caps.map (·.1)).filter fun k => named.any fun n => k == slotKey n) s.me.wheel.wm
  | none => s

/-- Whether an x, v or k register that an instruction names stands in a window that a REPBRK still to come may lengthen: how
many instructions the window has seen is known once the passes are over (R84, R187). -/
def State.breakWaits (s : State) (i : Instr) : Bool :=
  let u := usesOf i
  let t := s.me
  let from_ := if t.wheel.act then t.wheel.place else (t.equeue.find? (·.passes.isSome)).elim t.seq (·.seq)
  (s.pendingInstrs.any fun e => e.instr == .repbrk) && t.windows.any fun w => decide (from_ ≤ w.last) &&
    match w.file with
    | .x => (u.xr ++ u.xw).contains w.reg
    | .v => (u.vr ++ s.tileRegs i ++ u.vw).contains w.reg
    | .k => (u.kr ++ u.kw).contains w.reg

/-- Whether the body of a REP captures a register that a pending E-side instruction writes (R32). -/
def State.bodyWaits (s : State) (i : Instr) : Bool :=
  let body := s.readBody (bodyLen i) (s.latch.addr + word s.latch.len)
  let own := bodyWrites body
  shares (s.pendingInstrs.flatMap fun e => (usesOf e.instr).xw)
    ((body.flatMap fun e => (usesOf e.instr).xr).filter fun n => !own.contains n)

/-- Whether the latched A-side instruction has to wait for pending E-side work. (DEDUCED, log entry 8.) -/
def State.issueWaits (s : State) (i : Instr) : Bool :=
  !s.pendingInstrs.isEmpty &&
    (s.registerWaits i || s.memoryWaits i || s.bodyWaits i || s.breakWaits i || (isRelease i && !s.eMemIdle))

/-- Whether decode of an E-side instruction has to wait: the E-queue is full (R31), or an x register that it captures
has still to be written by a pending E-side instruction (R32). -/
def State.decodeWaits (s : State) (i : Instr) : Bool :=
  decide (32 ≤ s.me.equeue.length)
    || shares (s.pendingInstrs.flatMap fun e => (usesOf e.instr).xw) (usesOf i).xr
    || (!(usesOf i).xr.isEmpty && s.breakWaits i)

/-! ## Turns -/

/-- What a turn comes to: an instruction that runs in a state, a state, an outcome, or nothing since every clock is
stopped. -/
inductive Plan where
  | run (i : Instr) (s : State)
  | next (s : State)
  | out (o : Out)
  | stop

/-- A thread that waits for an event line (R397) or for its gate request (R489) after an instruction that has
completed, or whose end by HTRES waits for engines (R429). A WAITTO in such a wait takes CMARK alone. (DESIGN CHOICE, log
entry 113.) -/
def State.holdTurn (s : State) : State :=
  let t := s.me
  let l := s.latchA ⟨.nop, 0, 0⟩
  let late (kind index since : Nat) : State :=
    if s.waitOver kind since then
      { l.trapEntry 0x07 0 (waitInfo kind index 0x1FFF s.chip) false 0 l.base with latch := s.latch }
    else s
  match t.hold with
  | none => s
  | some (.line n since) =>
    if t.lines.getLsbD n then
      s.setMe { t with hold := none, lines := t.lines &&& ~~~(1#64 <<< n), slots := t.slots.map Slot.unfetched }
    else late 0x06 n since
  | some (.gate id since) =>
    if s.gate.queue.any fun q => q.id == id && q.thread == s.cur then late 0x0F 0 since
    else s.setMe { t with hold := none, slots := t.slots.map Slot.unfetched }
  | some .ending => s.finishEnd s.cur

/-- Whether a milestone request lets the running thread issue once more: it completes the BARW in which it waits
(R430). -/
def State.inBarw (s : State) (i : Instr) : Bool :=
  match i with
  | .barw _ _ => (match s.me.aWait with | some w => w.kind == 0x05 | none => false)
  | _ => false

/-- Whether decode finds an instruction illegal, by the thread's STATUS, its kind of core or the body that it names (R29,
R41, R98, R128, R186, R281, R422, R501): it traps in its turn, whatever it would wait for at issue. -/
def State.decodeIll (s : State) (i : Instr) : Bool :=
  let c := s.me.csr
  let body (n : Nat) : Bool := c.intrap || (s.readBody n (s.latch.addr + word s.latch.len)).any bodyIllegal
  match i with
  | .bqb _ => c.intrap
  | .repbrk => c.intrap
  | .bqpush _ => c.intrap
  | .rep _ _ => body (bodyLen i)
  | .repx _ _ => body (bodyLen i)
  | .tret => !c.intrap
  | .csrw _ n => privWrites n.toNat && !c.priv
  | .csrs _ n => privWrites n.toNat && !c.priv
  | .csrc _ n => privWrites n.toNat && !c.priv
  | .ctxpWrite _ _ => !c.priv
  | .ctxsel _ _ _ _ => !c.priv
  | .htresResume _ _ _ => !c.priv
  | .htresPreemptMilestone _ _ _ => !c.priv
  | .htresPreemptSafepoint _ _ _ => !c.priv
  | .htresPark _ _ _ => !c.priv
  | .htresEnd _ _ _ => !c.priv
  | .pset _ _ _ => !c.priv
  | .qset _ _ _ => !c.priv
  | .mlrev _ _ => !c.priv
  | .slinv _ _ _ part => !c.priv || (!isDcp s.cur.unit && part != 0)
  | .gdone _ _ => !c.gcp
  | .fuserd _ _ => !isSec s.cur.unit
  | .kwipe => !isSec s.cur.unit
  | .measx _ _ => !isSec s.cur.unit
  | .attest _ _ _ => !isSec s.cur.unit
  | .dbgopen _ _ => !isSec s.cur.unit
  | .mkrd k _ a => k == 3 && decide (7 < a.toNat)
  | _ => false

/-- A turn of the A-side and of decode of the running thread (R29 to R33, R430, R431). `defer` leaves an E-side
instruction in the E-queue even where it could issue. -/
def State.accessTurn (s : State) (defer : Bool) : Plan :=
  let t := s.me
  if t.run ≠ .running then .next s
  else if t.hold.isSome then .next s.holdTurn
  else
    let f := s.foundA
    let s1 := s.latchA f
    let i := f.instr
    if t.reqs.milestone && !s.inBarw i then .next (s.parkPre s.cur 1)
    else if !(usesOf i).eSide && (s.atSafePoint s.cur).isSome then .run .safePointPark s1
    else if s1.decodeIll i then .run i s1
    else if (usesOf i).eSide then
      if s1.decodeWaits i then .next s
      else if s.eIdle && !defer then
        .run i (State.dropAhead { s1 with latch := { s1.latch with src := .decode } } i)
      else .next (s1.enqueue i)
    else if s1.issueWaits i then .next s
    else .run i ((s1.wheelMarked i).dropAhead i)

/-- Whether the running thread waits in WFE or WFM, or as they do (IXPOST's line, MBRD): then neither side is ready (R30,
R139, R397). -/
def State.sleeping (s : State) : Bool :=
  (match s.me.hold with
   | some (.line _ _) => true
   | _ => false)
  || s.me.aWait.isSome && match s.foundA.instr with
    | .wfe _ => true
    | .wfm => true
    | .mbrd _ => true
    | _ => false

/-- A turn of the E-side of the running thread. -/
def State.executeTurn (s : State) : Plan :=
  if s.me.run ≠ .running ∨ s.sleeping = true then .next s
  else match s.nextE with
    | none => .next s
    | some (e, src) =>
      if (usesOf e.instr).eSide || e.passes.isSome then .run e.instr ((s.latchE e src).dropAhead e.instr) else .next s

/-- The machine's own steps, which the agenda may name: not those of decode, nor another name of an encoding's words. -/
def isStep : Instr → Bool
  | .illegalInstruction _ => false
  | .emulationTrap _ => false
  | i => (encode i).isNone

/-- Steps of the host, the links and the management port, which go on while the arithmetic clocks are stopped
(R517). -/
def clockless : Instr → Bool
  | .mailboxWrite _ => true
  | .mailboxRead _ => true
  | .mailboxLaunch _ => true
  | .configPchip _ => true
  | .configSysn _ => true
  | .configSgid _ => true
  | .configChipst _ => true
  | .configChcfg _ => true
  | .configTmaster _ => true
  | .configTset _ => true
  | .configRecbase _ => true
  | .configReclen _ => true
  | .configRecmode _ => true
  | .configPcap _ => true
  | .mailboxCommandWrite _ _ _ _ => true
  | .hostEventWrite _ => true
  | .linkTraining _ _ => true
  | .smbusBlockRead _ => true
  | .smbusResetRequest => true
  | .thermalThrottle _ _ => true
  | .thermalRelease _ _ => true
  | .thermalTrip _ _ => true
  | .reset => true
  | _ => false

/-! ## Steps of a thread -/

/-- STREAM_FETCH: a read slot of the running thread fetches an element ahead of its pops (R176). -/
def execStreamFetch (n : BitVec 2) (s : State) : Out :=
  .next (if s.me.run = .running then s.fetchAhead n.toNat else s)

/-- TRANSLATION_WALK: a virtual address is translated for a partition, and the translation kept (R318). -/
def execTranslationWalk (part : BitVec 6) (va : Word) (s : State) : Out :=
  .next (if field va 63 48 ≠ 0 then s
    else match s.translate part.toNat (field va 47 0) with
      | .ok (s1, _) => s1
      | .error _ => s)

/-- The instruction that waits on a side of the running thread, in the state in which it is latched. -/
def State.waiting (s : State) (eSide : Bool) : Option (Instr × State × Wait) :=
  if eSide then
    match s.me.eWait, s.nextE with
    | some w, some (e, src) => some (e.instr, s.latchE e src, w)
    | _, _ => none
  else
    match s.me.aWait with
    | some w => let f := s.foundA
                some (f.instr, s.latchA f, w)
    | none => none



/-- A waiting instruction tried again (R320): the forms with a blocked wait. -/
def retryWait (i : Instr) (s : State) : Out :=
  match i with
  | .wfe n => execWfe n s
  | .wfm => execWfm s
  | .mbrd d => execMbrd d s
  | .bqpush a => execBqpush a s
  | .bqb n => execBqb n s
  | .llock a => execLlock a s
  | .amo z op ord sc d a b w => execAmo z op ord sc d a b w s
  | .acas z ord sc d a b w => execAcas z ord sc d a b w s
  | .cbclm d a b => execCbclm d a b s
  | .cbwait d a b => execCbwait d a b s
  | .ldv d a off w => execLdv d a off w s
  | .stv d a off => execStv d a off s
  | .barw d a => execBarw d a s
  | .xsend a d t l => execXsend a d t l s
  | .rinj d a b => execRinj d a b s
  | .rdrain d a => execRdrain d a s
  | .glaunch d a => execGlaunch d a s
  | .wqput d a b => execWqput d a b s
  | .mlease n => execMlease n s
  | .mdrain d => execMdrain d s
  | .epop d w => execEpop d w s
  | _ => .next s

/-- What the instruction that waits, latched in a state, comes to when it is tried again; none while it still waits,
and where its thread does not run. -/
def State.completes (s : State) (i : Instr) (s1 : State) (w : Wait) : Option Out :=
  let w1 : Wait := { w with since := s.now }
  match retryWait i ((s1.setWait (some w1)).dropAhead i) with
  | .next t =>
    let done : Bool := t.me.csr.intrap == s.me.csr.intrap && t.me.run == .running
    if s.me.run = .running ∧ t.myWait = none ∧ t.cur = s.cur ∧ done = true then some (.next t) else none
  | o => if s.me.run = .running then some o else none

/-- WAIT_SATISFIED: the instruction that waits on a side of the running thread completes if its condition holds now;
otherwise nothing changes (R134, R320). -/
def execWaitSatisfied (eSide : Bool) (s : State) : Out :=
  match s.waiting eSide with
  | some (i, s1, w) => (s.completes i s1 w).getD (.next s)
  | none => .next s

/-- WAITTO: the blocked wait in progress on a side of the running thread has reached its limit; a wait that is satisfied
in that tick completes (R320, R321). -/
def execWaitto (eSide : Bool) (s : State) : Out :=
  match s.waiting eSide with
  | some (i, s1, w) =>
    if s.me.run = .running ∧ s1.waitOver w.kind w.since = true then
      (s.completes i s1 w).getD
        (.next (s1.trapEntry 0x07 0 (waitInfo w.kind w.index w.unit w.chip) false 0 (s1.trapMark i)))
    else .next s
  | none => .next s

end Sys2Proof.Machine
end

