-- ==== Sys2Proof/Machine/Dispatch.lean ====
section
/-! DEFINITION. One arm for each constructor of the syntax: a direct call of its meaning. -/

namespace Sys2Proof.Machine

open Sys2Proof

/-- What an instruction or machine step does. -/
def exec (i : Instr) (s : State) : Host.Outcome State Fault Refusal :=
  match i with
  | .add d a b => Sys2Proof.Machine.execAdd d a b s
  | .sub d a b => Sys2Proof.Machine.execSub d a b s
  | .and d a b => Sys2Proof.Machine.execAnd d a b s
  | .or d a b => Sys2Proof.Machine.execOr d a b s
  | .xor d a b => Sys2Proof.Machine.execXor d a b s
  | .sll d a b => Sys2Proof.Machine.execSll d a b s
  | .srl d a b => Sys2Proof.Machine.execSrl d a b s
  | .sra d a b => Sys2Proof.Machine.execSra d a b s
  | .slt d a b => Sys2Proof.Machine.execSlt d a b s
  | .sltu d a b => Sys2Proof.Machine.execSltu d a b s
  | .min d a b => Sys2Proof.Machine.execMin d a b s
  | .max d a b => Sys2Proof.Machine.execMax d a b s
  | .minu d a b => Sys2Proof.Machine.execMinu d a b s
  | .maxu d a b => Sys2Proof.Machine.execMaxu d a b s
  | .mul d a b w => Sys2Proof.Machine.execMul d a b w s
  | .mulh d a b w => Sys2Proof.Machine.execMulh d a b w s
  | .mulhu d a b w => Sys2Proof.Machine.execMulhu d a b w s
  | .div d a b w => Sys2Proof.Machine.execDiv d a b w s
  | .divu d a b w => Sys2Proof.Machine.execDivu d a b w s
  | .rem d a b w => Sys2Proof.Machine.execRem d a b w s
  | .remu d a b w => Sys2Proof.Machine.execRemu d a b w s
  | .addi d b imm => Sys2Proof.Machine.execAddi d b imm s
  | .andi d b imm => Sys2Proof.Machine.execAndi d b imm s
  | .ori d b imm => Sys2Proof.Machine.execOri d b imm s
  | .xori d b imm => Sys2Proof.Machine.execXori d b imm s
  | .slli d b sh => Sys2Proof.Machine.execSlli d b sh s
  | .srli d b sh => Sys2Proof.Machine.execSrli d b sh s
  | .srai d b sh => Sys2Proof.Machine.execSrai d b sh s
  | .slti d b imm => Sys2Proof.Machine.execSlti d b imm s
  | .sltiu d b imm => Sys2Proof.Machine.execSltiu d b imm s
  | .li d imm => Sys2Proof.Machine.execLi d imm s
  | .clz d a => Sys2Proof.Machine.execClz d a s
  | .ctz d a => Sys2Proof.Machine.execCtz d a s
  | .popc d a => Sys2Proof.Machine.execPopc d a s
  | .brev d a => Sys2Proof.Machine.execBrev d a s
  | .bext d a b => Sys2Proof.Machine.execBext d a b s
  | .bins d a b => Sys2Proof.Machine.execBins d a b s
  | .mv d a => Sys2Proof.Machine.execMv d a s
  | .cmov d a b => Sys2Proof.Machine.execCmov d a b s
  | .ld z d a off => Sys2Proof.Machine.execLd z d a off s
  | .st z d a off => Sys2Proof.Machine.execSt z d a off s
  | .ldp z d a off => Sys2Proof.Machine.execLdp z d a off s
  | .stp z d a off => Sys2Proof.Machine.execStp z d a off s
  | .beq a b off => Sys2Proof.Machine.execBeq a b off s
  | .bne a b off => Sys2Proof.Machine.execBne a b off s
  | .blt a b off => Sys2Proof.Machine.execBlt a b off s
  | .bge a b off => Sys2Proof.Machine.execBge a b off s
  | .bltu a b off => Sys2Proof.Machine.execBltu a b off s
  | .bgeu a b off => Sys2Proof.Machine.execBgeu a b off s
  | .j off => Sys2Proof.Machine.execJ off s
  | .jal off => Sys2Proof.Machine.execJal off s
  | .jr a => Sys2Proof.Machine.execJr a s
  | .jalr d a => Sys2Proof.Machine.execJalr d a s
  | .bqpush a => Sys2Proof.Machine.execBqpush a s
  | .csrr d c => Sys2Proof.Machine.execCsrr d c s
  | .csrw d c => Sys2Proof.Machine.execCsrw d c s
  | .csrs d c => Sys2Proof.Machine.execCsrs d c s
  | .csrc d c => Sys2Proof.Machine.execCsrc d c s
  | .cplaunchRead d => Sys2Proof.Machine.execCplaunchRead d s
  | .ctxpWrite op d => Sys2Proof.Machine.execCtxpWrite op d s
  | .trap imm => Sys2Proof.Machine.execTrap imm s
  | .brk imm => Sys2Proof.Machine.execBrk imm s
  | .wfe line => Sys2Proof.Machine.execWfe line s
  | .evsig a => Sys2Proof.Machine.execEvsig a s
  | .mbrd d => Sys2Proof.Machine.execMbrd d s
  | .vadd f d a b k => Sys2Proof.Machine.execVadd f d a b k s
  | .vsub f d a b k => Sys2Proof.Machine.execVsub f d a b k s
  | .vmul f d a b k => Sys2Proof.Machine.execVmul f d a b k s
  | .vfma f d a b k => Sys2Proof.Machine.execVfma f d a b k s
  | .vfms f d a b k => Sys2Proof.Machine.execVfms f d a b k s
  | .vfnma f d a b k => Sys2Proof.Machine.execVfnma f d a b k s
  | .vfnms f d a b k => Sys2Proof.Machine.execVfnms f d a b k s
  | .vmin f d a b k => Sys2Proof.Machine.execVmin f d a b k s
  | .vmax f d a b k => Sys2Proof.Machine.execVmax f d a b k s
  | .vabs f d a k => Sys2Proof.Machine.execVabs f d a k s
  | .vneg f d a k => Sys2Proof.Machine.execVneg f d a k s
  | .vrcp f d a k w => Sys2Proof.Machine.execVrcp f d a k w s
  | .vrsq f d a k w => Sys2Proof.Machine.execVrsq f d a k w s
  | .vsqrt f d a k w => Sys2Proof.Machine.execVsqrt f d a k w s
  | .vdiv f d a b k w => Sys2Proof.Machine.execVdiv f d a b k w s
  | .vexp2 f d a k w => Sys2Proof.Machine.execVexp2 f d a k w s
  | .vcmp f p d a b k => Sys2Proof.Machine.execVcmp f p d a b k s
  | .vsel z d a b k => Sys2Proof.Machine.execVsel z d a b k s
  | .vcvt src dst sat part ctid d a k => Sys2Proof.Machine.execVcvt src dst sat part ctid d a k s
  | .vclass f d a k => Sys2Proof.Machine.execVclass f d a k s
  | .viadd z m d a b k => Sys2Proof.Machine.execViadd z m d a b k s
  | .visub z m d a b k => Sys2Proof.Machine.execVisub z m d a b k s
  | .vimul z m d a b k => Sys2Proof.Machine.execVimul z m d a b k s
  | .vsh z m d a b k => Sys2Proof.Machine.execVsh z m d a b k s
  | .vand z d a b k => Sys2Proof.Machine.execVand z d a b k s
  | .vor z d a b k => Sys2Proof.Machine.execVor z d a b k s
  | .vxor z d a b k => Sys2Proof.Machine.execVxor z d a b k s
  | .vdot4 t d a b k w => Sys2Proof.Machine.execVdot4 t d a b k w s
  | .vred f op d a k w => Sys2Proof.Machine.execVred f op d a k w s
  | .vbcast z lane d a k => Sys2Proof.Machine.execVbcast z lane d a k s
  | .vperm z zhi d a b k => Sys2Proof.Machine.execVperm z zhi d a b k s
  | .vmvx z lane d a => Sys2Proof.Machine.execVmvx z lane d a s
  | .vmxv z d a k => Sys2Proof.Machine.execVmxv z d a k s
  | .vld z d a off k => Sys2Proof.Machine.execVld z d a off k s
  | .vst z d a off k => Sys2Proof.Machine.execVst z d a off k s
  | .vldi d imm => Sys2Proof.Machine.execVldi d imm s
  | .kop op d a b => Sys2Proof.Machine.execKop op d a b s
  | .kpop d a => Sys2Proof.Machine.execKpop d a s
  | .bqb n => Sys2Proof.Machine.execBqb n s
  | .accz a => Sys2Proof.Machine.execAccz a s
  | .accw bf prod d a b k => Sys2Proof.Machine.execAccw bf prod d a b k s
  | .accrd bf d a w => Sys2Proof.Machine.execAccrd bf d a w s
  | .sopen n a wr vec => Sys2Proof.Machine.execSopen n a wr vec s
  | .sopenx n a wr vec => Sys2Proof.Machine.execSopenx n a wr vec s
  | .sadv n a => Sys2Proof.Machine.execSadv n a s
  | .stend d n => Sys2Proof.Machine.execStend d n s
  | .sclose n => Sys2Proof.Machine.execSclose n s
  | .ssave n a => Sys2Proof.Machine.execSsave n a s
  | .srest n a => Sys2Proof.Machine.execSrest n a s
  | .fopen n a start => Sys2Proof.Machine.execFopen n a start s
  | .fadv n a => Sys2Proof.Machine.execFadv n a s
  | .ftend d n => Sys2Proof.Machine.execFtend d n s
  | .fclose n => Sys2Proof.Machine.execFclose n s
  | .fisect d => Sys2Proof.Machine.execFisect d s
  | .funion d => Sys2Proof.Machine.execFunion d s
  | .bmand andn d a b => Sys2Proof.Machine.execBmand andn d a b s
  | .bmpfx inc d a b => Sys2Proof.Machine.execBmpfx inc d a b s
  | .spack z d a k => Sys2Proof.Machine.execSpack z d a k s
  | .sunpk z d a b k => Sys2Proof.Machine.execSunpk z d a b k s
  | .rep len cnt => Sys2Proof.Machine.execRep len cnt s
  | .repx len a => Sys2Proof.Machine.execRepx len a s
  | .hacc op i32 start d a b => Sys2Proof.Machine.execHacc op i32 start d a b s
  | .hprobe i32 d a b w => Sys2Proof.Machine.execHprobe i32 d a b w s
  | .widf d n => Sys2Proof.Machine.execWidf d n s
  | .widr d a b => Sys2Proof.Machine.execWidr d a b s
  | .spawn a gh pri here => Sys2Proof.Machine.execSpawn a gh pri here s
  | .spawnd d a gh pri => Sys2Proof.Machine.execSpawnd d a gh pri s
  | .susp a b => Sys2Proof.Machine.execSusp a b s
  | .join d a => Sys2Proof.Machine.execJoin d a s
  | .gdone d a => Sys2Proof.Machine.execGdone d a s
  | .glaunch d a => Sys2Proof.Machine.execGlaunch d a s
  | .sstep d a => Sys2Proof.Machine.execSstep d a s
  | .vote a dom => Sys2Proof.Machine.execVote a dom s
  | .xsend a dom start len => Sys2Proof.Machine.execXsend a dom start len s
  | .bara dom => Sys2Proof.Machine.execBara dom s
  | .barw d a => Sys2Proof.Machine.execBarw d a s
  | .wqput d a b => Sys2Proof.Machine.execWqput d a b s
  | .wqtake d => Sys2Proof.Machine.execWqtake d s
  | .rinj d a b => Sys2Proof.Machine.execRinj d a b s
  | .mtset d a e => Sys2Proof.Machine.execMtset d a e s
  | .mtclr d a => Sys2Proof.Machine.execMtclr d a s
  | .rstat d a => Sys2Proof.Machine.execRstat d a s
  | .rdrain d a => Sys2Proof.Machine.execRdrain d a s
  | .rtake d => Sys2Proof.Machine.execRtake d s
  | .ldg z d a off w => Sys2Proof.Machine.execLdg z d a off w s
  | .stg z d a off => Sys2Proof.Machine.execStg z d a off s
  | .ldv d a off w => Sys2Proof.Machine.execLdv d a off w s
  | .stv d a off => Sys2Proof.Machine.execStv d a off s
  | .reclaim d a b => Sys2Proof.Machine.execReclaim d a b s
  | .llock a => Sys2Proof.Machine.execLlock a s
  | .sunlk d a => Sys2Proof.Machine.execSunlk d a s
  | .amo z op ord sc d a b w => Sys2Proof.Machine.execAmo z op ord sc d a b w s
  | .acas z ord sc d a b w => Sys2Proof.Machine.execAcas z ord sc d a b w s
  | .fence kind sc => Sys2Proof.Machine.execFence kind sc s
  | .cbwait d a buf => Sys2Proof.Machine.execCbwait d a buf s
  | .cbrel a buf => Sys2Proof.Machine.execCbrel a buf s
  | .cbclm d a buf => Sys2Proof.Machine.execCbclm d a buf s
  | .cbpub a buf => Sys2Proof.Machine.execCbpub a buf s
  | .cbPublish cl buf => Sys2Proof.Machine.execCbPublish cl buf s
  | .cbRelease cl buf => Sys2Proof.Machine.execCbRelease cl buf s
  | .versionedRequest cl => Sys2Proof.Machine.execVersionedRequest cl s
  | .lockGrant cl bit => Sys2Proof.Machine.execLockGrant cl bit s
  | .cpset a sel => Sys2Proof.Machine.execCpset a sel s
  | .cpgo d a => Sys2Proof.Machine.execCpgo d a s
  | .cpstat d a => Sys2Proof.Machine.execCpstat d a s
  | .ixpost d a sleep => Sys2Proof.Machine.execIxpost d a sleep s
  | .mlease n => Sys2Proof.Machine.execMlease n s
  | .mfmt a c => Sys2Proof.Machine.execMfmt a c s
  | .mma d a b acc => Sys2Proof.Machine.execMma d a b acc s
  | .mconv d a b acc => Sys2Proof.Machine.execMconv d a b acc s
  | .mdrain d => Sys2Proof.Machine.execMdrain d s
  | .mstat d => Sys2Proof.Machine.execMstat d s
  | .pmask a op => Sys2Proof.Machine.execPmask a op s
  | .ldrows d a line => Sys2Proof.Machine.execLdrows d a line s
  | .strows d a line => Sys2Proof.Machine.execStrows d a line s
  | .epush a b => Sys2Proof.Machine.execEpush a b s
  | .epop d w => Sys2Proof.Machine.execEpop d w s
  | .ctab d a fmt ctid => Sys2Proof.Machine.execCtab d a fmt ctid s
  | .ctabg d fmt ctid => Sys2Proof.Machine.execCtabg d fmt ctid s
  | .copyRun unit tid => Sys2Proof.Machine.execCopyRun unit tid s
  | .copyFinish unit tid => Sys2Proof.Machine.execCopyFinish unit tid s
  | .indirectRun cl => Sys2Proof.Machine.execIndirectRun cl s
  | .indirectFinish cl => Sys2Proof.Machine.execIndirectFinish cl s
  | .mailboxDelivery src => Sys2Proof.Machine.execMailboxDelivery src s
  | .rowUnitRun unit => Sys2Proof.Machine.execRowUnitRun unit s
  | .leaseGrant cl half => Sys2Proof.Machine.execLeaseGrant cl half s
  | .chunkStep cl half => Sys2Proof.Machine.execChunkStep cl half s
  | .outputStep cl half => Sys2Proof.Machine.execOutputStep cl half s
  | .markerComplete unit ix => Sys2Proof.Machine.execMarkerComplete unit ix s
  | .ctxsel op set d a => Sys2Proof.Machine.execCtxsel op set d a s
  | .htresResume d a b => Sys2Proof.Machine.execHtresResume d a b s
  | .htresPreemptMilestone d a b => Sys2Proof.Machine.execHtresPreemptMilestone d a b s
  | .htresPreemptSafepoint d a b => Sys2Proof.Machine.execHtresPreemptSafepoint d a b s
  | .htresPark d a b => Sys2Proof.Machine.execHtresPark d a b s
  | .htresEnd d a b => Sys2Proof.Machine.execHtresEnd d a b s
  | .pset d a b => Sys2Proof.Machine.execPset d a b s
  | .qset sel d a => Sys2Proof.Machine.execQset sel d a s
  | .slinv a b ty part => Sys2Proof.Machine.execSlinv a b ty part s
  | .mlrev d a => Sys2Proof.Machine.execMlrev d a s
  | .mkrd kd d a => Sys2Proof.Machine.execMkrd kd d a s
  | .mkctx a => Sys2Proof.Machine.execMkctx a s
  | .mkjoin v d a b => Sys2Proof.Machine.execMkjoin v d a b s
  | .gatesub d a wait evt line => Sys2Proof.Machine.execGatesub d a wait evt line s
  | .gatest d a => Sys2Proof.Machine.execGatest d a s
  | .fuserd d word => Sys2Proof.Machine.execFuserd d word s
  | .measx a n => Sys2Proof.Machine.execMeasx a n s
  | .attest d a part => Sys2Proof.Machine.execAttest d a part s
  | .dbgopen d a => Sys2Proof.Machine.execDbgopen d a s
  | .dcpEventAppend die => Sys2Proof.Machine.execDcpEventAppend die s
  | .reservationCheck part => Sys2Proof.Machine.execReservationCheck part s
  | .gangTimeout part gang => Sys2Proof.Machine.execGangTimeout part gang s
  | .initialEnqueue gh => Sys2Proof.Machine.execInitialEnqueue gh s
  | .continuationStart unit ht => Sys2Proof.Machine.execContinuationStart unit ht s
  | .groupEnd gh => Sys2Proof.Machine.execGroupEnd gh s
  | .xsendDelivery ix => Sys2Proof.Machine.execXsendDelivery ix s
  | .deadline gh => Sys2Proof.Machine.execDeadline gh s
  | .deadlineForce unit ht => Sys2Proof.Machine.execDeadlineForce unit ht s
  | .beatBoundary q seg => Sys2Proof.Machine.execBeatBoundary q seg s
  | .pairCopy q stop => Sys2Proof.Machine.execPairCopy q stop s
  | .segmentPark q seg => Sys2Proof.Machine.execSegmentPark q seg s
  | .segmentResume q seg => Sys2Proof.Machine.execSegmentResume q seg s
  | .mailboxWrite ch => Sys2Proof.Machine.execMailboxWrite ch s
  | .mailboxRead ch => Sys2Proof.Machine.execMailboxRead ch s
  | .mailboxLaunch ch => Sys2Proof.Machine.execMailboxLaunch ch s
  | .configPchip ch => Sys2Proof.Machine.execConfigPchip ch s
  | .configSysn ch => Sys2Proof.Machine.execConfigSysn ch s
  | .configSgid ch => Sys2Proof.Machine.execConfigSgid ch s
  | .configChipst ch => Sys2Proof.Machine.execConfigChipst ch s
  | .configChcfg ch => Sys2Proof.Machine.execConfigChcfg ch s
  | .configTmaster ch => Sys2Proof.Machine.execConfigTmaster ch s
  | .configTset ch => Sys2Proof.Machine.execConfigTset ch s
  | .configRecbase ch => Sys2Proof.Machine.execConfigRecbase ch s
  | .configReclen ch => Sys2Proof.Machine.execConfigReclen ch s
  | .configRecmode ch => Sys2Proof.Machine.execConfigRecmode ch s
  | .configPcap ch => Sys2Proof.Machine.execConfigPcap ch s
  | .hostEventWrite ch => Sys2Proof.Machine.execHostEventWrite ch s
  | .requestTimeout unit ht => Sys2Proof.Machine.execRequestTimeout unit ht s
  | .illegalInstruction finfo => Sys2Proof.Machine.execIllegalInstruction finfo s
  | .emulationTrap finfo => Sys2Proof.Machine.execEmulationTrap finfo s
  | .streamFetch n => Sys2Proof.Machine.execStreamFetch n s
  | .cbClaim cl buf => Sys2Proof.Machine.execCbClaim cl buf s
  | .cbTake cl buf => Sys2Proof.Machine.execCbTake cl buf s
  | .remoteRequest r => Sys2Proof.Machine.execRemoteRequest r s
  | .translationWalk part va => Sys2Proof.Machine.execTranslationWalk part va s
  | .policyUseExpiry part ix => Sys2Proof.Machine.execPolicyUseExpiry part ix s
  | .waitto eSide => Sys2Proof.Machine.execWaitto eSide s
  | .waitSatisfied eSide => Sys2Proof.Machine.execWaitSatisfied eSide s
  | .launchPromotion part => Sys2Proof.Machine.execLaunchPromotion part s
  | .readyPromotion unit level => Sys2Proof.Machine.execReadyPromotion unit level s
  | .rsegWrite q seg val => Sys2Proof.Machine.execRsegWrite q seg val s
  | .rcfgWrite q val => Sys2Proof.Machine.execRcfgWrite q val s
  | .cbcfgWrite cl buf val => Sys2Proof.Machine.execCbcfgWrite cl buf val s
  | .slotTableWrite part off val => Sys2Proof.Machine.execSlotTableWrite part off val s
  | .kctlWrite off val => Sys2Proof.Machine.execKctlWrite off val s
  | .secdbWrite val => Sys2Proof.Machine.execSecdbWrite val s
  | .controlRegisterWrite block off val => Sys2Proof.Machine.execControlRegisterWrite block off val s
  | .qremExpiry unit => Sys2Proof.Machine.execQremExpiry unit s
  | .softerr unit str addr => Sys2Proof.Machine.execSofterr unit str addr s
  | .poison site => Sys2Proof.Machine.execPoison site s
  | .retirement unit => Sys2Proof.Machine.execRetirement unit s
  | .mailboxCommandWrite ch off val data => Sys2Proof.Machine.execMailboxCommandWrite ch off val data s
  | .replayEntry part => Sys2Proof.Machine.execReplayEntry part s
  | .frequencyChange die util power current => Sys2Proof.Machine.execFrequencyChange die util power current s
  | .thermalThrottle die tj => Sys2Proof.Machine.execThermalThrottle die tj s
  | .thermalRelease die tj => Sys2Proof.Machine.execThermalRelease die tj s
  | .thermalTrip die tj => Sys2Proof.Machine.execThermalTrip die tj s
  | .smbusBlockRead reg => Sys2Proof.Machine.execSmbusBlockRead reg s
  | .externalDebuggerAccess a => Sys2Proof.Machine.execExternalDebuggerAccess a s
  | .linkTraining port up => Sys2Proof.Machine.execLinkTraining port up s
  | .nop => Sys2Proof.Machine.execNop s
  | .exit => Sys2Proof.Machine.execExit s
  | .wfm => Sys2Proof.Machine.execWfm s
  | .repbrk => Sys2Proof.Machine.execRepbrk s
  | .trig => Sys2Proof.Machine.execTrig s
  | .mrel => Sys2Proof.Machine.execMrel s
  | .tret => Sys2Proof.Machine.execTret s
  | .kwipe => Sys2Proof.Machine.execKwipe s
  | .gateRun => Sys2Proof.Machine.execGateRun s
  | .joinDecrement => Sys2Proof.Machine.execJoinDecrement s
  | .safePointPark => Sys2Proof.Machine.execSafePointPark s
  | .secdbRead => Sys2Proof.Machine.execSecdbRead s
  | .timeLockLoss => Sys2Proof.Machine.execTimeLockLoss s
  | .timeLockRegain => Sys2Proof.Machine.execTimeLockRegain s
  | .reset => Sys2Proof.Machine.execReset s
  | .bringupStage => Sys2Proof.Machine.execBringupStage s
  | .smbusResetRequest => Sys2Proof.Machine.execSmbusResetRequest s

end Sys2Proof.Machine
end

