-- ==== Sys2Proof/Machine/Schedule.lean ====
section
/-! DEFINITION. Which turn comes next when the agenda names none: threads in rotation, and the machine's steps whose
time may have come (DESIGN CHOICE, log entry 2). A step offered here that has nothing to do changes nothing (DESIGN CHOICE, log entry 7). -/

namespace Sys2Proof.Machine

open Sys2Proof

/-- A turn offered to the scheduler. -/
abbrev Offer := State → Plan

/-- An instruction offered. -/
def offer (i : Instr) : Offer := fun s => .run i s

/-- A unit number. -/
def unitBv (u : Nat) : BitVec 13 := BitVec.ofNat 13 u

/-- A cluster number. -/
def clBv (j : Nat) : BitVec 9 := BitVec.ofNat 9 j

/-- The offers of the dies: event records that wait. -/
def State.dieOffers (s : State) : List Offer :=
  s.dies.filterMap fun d => if d.2.waiting.isEmpty then none else some (offer (.dcpEventAppend (BitVec.ofNat 3 d.1)))

/-- The step of the command at the head of a channel. -/
def cmdStep (ch : BitVec 4) (c : HostCmd) : Instr :=
  match c.op with
  | 2 => .mailboxRead ch
  | 3 => .mailboxLaunch ch
  | 4 => match field c.daddr 15 0 with
    | 2 => .configSysn ch
    | 3 => .configSgid ch
    | 4 => .configChipst ch
    | 5 => .configChcfg ch
    | 6 => .configTmaster ch
    | 7 => .configTset ch
    | 8 => .configRecbase ch
    | 9 => .configReclen ch
    | 10 => .configRecmode ch
    | 11 => .configPcap ch
    | _ => .configPchip ch
  | _ => .mailboxWrite ch

/-- The offers of the mailbox channels. -/
def State.hostOffers (s : State) : List Offer :=
  s.channels.flatMap fun c =>
    let ch := BitVec.ofNat 4 c.1
    (if c.2.events.isEmpty || !c.2.ringed then [] else [offer (.hostEventWrite ch)])
      ++ (match s.headCmd c.1 with
          | some x => [offer (cmdStep ch x)]
          | none => [])

/-- The offers of the partitions: launches, gangs, replay, use entries. -/
def State.partOffers (s : State) : List Offer :=
  s.parts.flatMap fun p =>
    let n := BitVec.ofNat 6 p.1
    (if p.2.queue.isEmpty && p.2.gangs.isEmpty
        && s.launches.all (fun l => l.2.part != p.1 || decide (launchGroups l.2.record ≤ l.2.placed)) then []
     else [offer (.reservationCheck n), fun t => .out (execLaunchPromotion n t)])
      ++ p.2.gangs.map (fun g => offer (.gangTimeout n g.id))
      ++ (if p.2.replayStart.isSome || p.2.recSince.isSome then [fun t => .out (execReplayEntry n t)] else [])
      ++ (if p.2.ovHeld.isEmpty then [] else [fun t => .next (t.drainOverflow p.1 p.2.ovHeld.length)])
      ++ (if p.2.recHeld.isEmpty then [] else [fun t => .next (t.flushRecord p.1 p.2.recHeld.length)])
      ++ (List.range p.2.uses.length).map fun ix => (fun t => .out (execPolicyUseExpiry n ix t) : Offer)

/-- The offers of the groups: their first records, their end, their deadlines. -/
def State.groupOffers (s : State) : List Offer :=
  s.groups.flatMap fun g =>
    let h := BitVec.ofNat 16 g.1
    [if g.2.enqueued then offer (.groupEnd h) else offer (.initialEnqueue h)]
      ++ (match s.launchOf g.2 with
          | some l => if launchDeadline l.record = 0 then [] else [offer (.deadline h)]
          | none => [])

/-- The offers of the ready queues. -/
def State.readyOffers (s : State) : List Offer :=
  s.ready.flatMap fun q =>
    if q.2.levels.toList.all (·.isEmpty) then []
    else
      ((s.nextStart q.1).map fun t => offer (.continuationStart (unitBv t.unit) (BitVec.ofNat 2 t.ht))).toList
      ++ [0, 1, 2].map fun l => (fun t => .out (execReadyPromotion (unitBv q.1) (BitVec.ofNat 2 l) t) : Offer)

/-- The offers of the engines of a cluster or channel core. -/
def engineOffers (u : Nat) (e : Engines) : List Offer :=
  e.copies.map (fun c =>
      let id := BitVec.ofNat 16 c.id
      match c.phase with
      | .queued => offer (.copyRun (unitBv u) id)
      | .waiting => offer (.copyRun (unitBv u) id)
      | .moving => offer (.copyRun (unitBv u) id)
      | .moved => offer (.copyFinish (unitBv u) id)
      | .done => offer (.copyFinish (unitBv u) id))
    ++ (if e.inds.isEmpty then []
        else [offer (.indirectRun (clBv (u - 0x1000))), offer (.indirectFinish (clBv (u - 0x1000)))])
    ++ (if e.rows.isEmpty then [] else [offer (.rowUnitRun (unitBv u))])
    ++ (List.range e.markers.length).map fun ix => offer (.markerComplete (unitBv u) ix)

/-- The offers of a matrix half. -/
def halfOffers (j : BitVec 9) (h : Bool) (x : Half) : List Offer :=
  (if x.requests.isEmpty then [] else [offer (.leaseGrant j h)])
    ++ (if x.queue.isEmpty then [] else [offer (.chunkStep j h), offer (.outputStep j h)])

/-- The offers of a cluster. -/
def clusterOffers (n : Nat) (c : Cluster) : List Offer :=
  let j := clBv n
  halfOffers j false c.half0 ++ halfOffers j true c.half1
    ++ (if c.vreqs.isEmpty then [] else [offer (.versionedRequest j)])
    ++ c.locks.filterMap (fun l => if l.2.holder.isNone then some (offer (.lockGrant j (BitVec.ofNat 9 l.1))) else none)
    ++ c.cbs.flatMap (fun b =>
        let k := BitVec.ofNat 6 b.1
        (if b.2.ops.isEmpty then [] else [offer (.cbPublish j k), offer (.cbRelease j k)])
          ++ (if b.2.claimers.isEmpty then [] else [(fun t => .out (execCbClaim j k t) : Offer)])
          ++ (if b.2.takers.isEmpty then [] else [(fun t => .out (execCbTake j k t) : Offer)]))
    ++ (if c.stop.captures.isEmpty then [] else [offer (.pairCopy (BitVec.ofNat 5 (n / 16)) (BitVec.ofNat 4 n))])

/-- The offers of the ring segments that are asked to park or to resume (R257, R258). -/
def State.ringOffers (s : State) : List Offer :=
  s.quads.flatMap fun q => (List.range 4).filterMap fun j =>
    let g := q.2.sg j
    if !g.en then none
    else if g.parked then some (offer (.segmentResume (BitVec.ofNat 5 q.1) (BitVec.ofNat 2 j)))
    else if g.parkReq && g.beatAt.isNone then some (offer (.segmentPark (BitVec.ofNat 5 q.1) (BitVec.ofNat 2 j)))
    else none

/-- The offers of threads and cores: ends that wait for engines, overdue parks, overdue requests, quanta. -/
def State.threadOffers (s : State) : List Offer :=
  s.threads.flatMap (fun t =>
      let u := unitBv (t.1 / 16)
      let h := BitVec.ofNat 2 t.1
      (if t.2.hold == some .ending then [fun x => .next (x.finishEnd ⟨t.1 / 16, t.1 / 4 % 4, t.1 % 4⟩)] else [])
        ++ (if t.2.reqs.force.isSome then [offer (.deadlineForce u h)] else [])
        ++ (if t.2.remote.isSome then [offer (.requestTimeout u h)] else []))
    ++ s.cores.filterMap fun c =>
        if (s.ctxSet c.1 c.2.sel).qrem = 0 then none else some (fun t => .out (execQremExpiry (unitBv c.1) t))

/-- The offers of the time base, on a package that is not the time master: a synchronisation flit that may arrive, the loss of
lock and its return (R466). -/
def State.timeOffers (s : State) : List Offer :=
  if s.pkg.tmaster = s.pkg.pchip then (if s.pkg.locked then [] else [offer .timeLockRegain])
  else [fun t => .next (if Config.freeBool t.ix then { t.syncFlit with free := t.free + 1 } else { t with free := t.free + 1 }),
        if s.pkg.locked then offer .timeLockLoss else offer .timeLockRegain]

/-- Every step offered. -/
def State.offers (s : State) : List Offer :=
  s.hostOffers
    ++ (if s.pkg.stopped then []
        else
          s.dieOffers ++ s.partOffers ++ s.groupOffers ++ s.readyOffers
            ++ s.engines.flatMap (fun e => engineOffers e.1 e.2)
            ++ s.clusters.flatMap (fun c => clusterOffers c.1 c.2)
            ++ s.ringOffers ++ s.threadOffers ++ s.timeOffers
            ++ (if s.mails.isEmpty then [] else [offer (.mailboxDelivery .engine)])
            ++ (if s.decs.isEmpty then [] else [offer .joinDecrement])
            ++ (List.range s.sends.length).map (fun ix => offer (.xsendDelivery ix))
            ++ (if s.gate.queue.isEmpty then [] else [offer .gateRun]))

/-- A thread of a key. -/
def keyThread (k : Nat) : ThreadId := ⟨k / 16, k / 4 % 4, k % 4⟩

/-- Whether a thread may run: running, of its core's selected set (R434), and not of a core outside every partition
(R439). -/
def State.mayTurn (s : State) (t : ThreadId) : Bool :=
  (s.thread t).run == .running && (s.core t.unit).sel == t.set
    && (!isCompute t.unit || (s.partOfCore t.unit).isSome)

/-- What a turn of a core serves: its decode, its A-side or its E-side. -/
inductive Side where
  | decode | access | execute
  deriving DecidableEq, Repr

/-- Number of a side in the order of a tick. -/
def Side.num : Side → Nat
  | .decode => 0
  | .access => 1
  | .execute => 2

/-- Whether the running thread is ready on a side (R30): on decode with an E-side instruction that it can take, and on its
A-side also to be tried again while it waits for a line or the gate, to be parked, or to trap at decode. -/
def State.readyOn (s : State) (side : Side) : Bool :=
  let early := s.me.hold.isSome || s.me.reqs.milestone
  let f := s.foundA
  let l := s.latchA f
  let e := (usesOf f.instr).eSide
  match side with
  | .execute => s.nextE.isSome && !s.sleeping
  | .decode => !early && !l.decodeIll f.instr && e && !l.decodeWaits f.instr
  | .access => early || l.decodeIll f.instr || (!e && !l.issueWaits f.instr)

/-- The threads that may run. -/
def State.runners (s : State) : List ThreadId := (s.threads.map fun t => keyThread t.1).filter s.mayTurn

/-- The threads of a core that are ready on a side. -/
def State.readyThreads (s : State) (u : Nat) (side : Side) : List ThreadId :=
  s.runners.filter fun t => t.unit == u && ({ s with cur := t } : State).readyOn side

/-- The thread of a core that issues next on a side: of those that are ready, the one that follows the last in
round-robin order (R30). -/
def State.pick (s : State) (u : Nat) (eSide : Bool) : Option ThreadId :=
  let ready := s.readyThreads u (if eSide then .execute else .access)
  let last := if eSide then (s.core u).lastE else (s.core u).lastA
  match ready.find? fun t => decide (last < t.ht) with
  | some t => some t
  | none => ready.head?

/-- The sides on which some thread is ready, as numbers: four times the core's unit, and the side's. -/
def State.sides (s : State) : List Nat :=
  (s.runners.map (·.unit)).eraseDups.flatMap fun u =>
    [Side.decode, .access, .execute].filterMap fun e =>
      if (s.readyThreads u e).isEmpty then none else some (4 * u + e.num)

/-- The side whose turn comes next in the tick: each has one turn in it (R30). -/
def State.nextSide (s : State) : Option Nat := s.sides.find? fun k => decide (s.rota ≤ k)

/-- Decode gives the E-side instructions that it can take to the E-queues of a core's threads, one each (R29). -/
def State.decodeTurn (s : State) (u : Nat) : State :=
  (s.readyThreads u .decode).foldl (fun t th =>
    match ({ t with cur := th } : State).accessTurn true with
    | .next x => x
    | _ => t) s

/-- A turn of a side: the thread that follows in its core's rotation issues on it. -/
def State.sideTurn (s : State) (k : Nat) : Plan :=
  let u := k / 4
  let s0 := { s with rota := k + 1 }
  if k % 4 = 0 then .next (s0.decodeTurn u)
  else
    let e := k % 4 == 2
    match s0.pick u e with
    | none => .next s0
    | some t =>
      let c := s0.core u
      let s1 := ({ s0 with cur := t } : State).setCore u (if e then { c with lastE := t.ht } else { c with lastA := t.ht })
      if e then s1.executeTurn else s1.accessTurn true

/-! ## Time -/

/-- The steps of the rings that fall due by a time: a boundary of a segment that runs, or its park (R244, R257), and the end
of a pair's copy that lies ahead (R248). -/
def State.dueSteps (s : State) (t : Nat) : List (Instr × Nat) :=
  s.quads.flatMap (fun q => (List.range 4).filterMap fun j =>
    let g := q.2.sg j
    match g.beatAt with
    | some d =>
      if g.en && !g.parked && decide (d ≤ t) then
        let n : BitVec 5 := BitVec.ofNat 5 q.1
        some (if g.parkReq then .segmentPark n (BitVec.ofNat 2 j) else .beatBoundary n (BitVec.ofNat 2 j), d)
      else none
    | none => none)
  ++ s.clusters.filterMap fun c => match c.2.stop.captures with
    | k :: _ =>
      let d := c.2.stop.copyDue k
      if s.now < d ∧ d ≤ t then some (.pairCopy (BitVec.ofNat 5 (c.1 / 16)) (BitVec.ofNat 4 c.1), d) else none
    | [] => none

/-- The first of the steps that fall due by a time. -/
def State.dueStep (s : State) (t : Nat) : Option (Instr × Nat) :=
  if s.pkg.stopped then none
  else (s.dueSteps t).foldl (fun o x => match o with
    | some y => if x.2 < y.2 then some x else some y
    | none => some x) none

/-- The first turn of a tick that is an offered step's. -/
def offerTurn : Nat := 2 ^ 20

/-- The turn that the default schedule gives: the stages of bring-up first; then in each tick one turn of every side that
is ready, and one of every offered step, before the next tick begins. -/
def State.defaultTurn (s : State) : Plan :=
  if s.pkg.devst ≠ 0x10 ∧ s.pkg.devst ≠ 0xFF then .run .bringupStage { s with now := s.now + 1 }
  else match (if s.pkg.stopped then none else s.nextSide) with
    | some k => s.sideTurn k
    | none =>
      let n := s.rota - offerTurn
      match s.offers[n]? with
      | some o => o { s with rota := offerTurn + n + 1 }
      | none => .next { s with now := s.now + 1, rota := 0 }

/-- A correction of the package reference towards that of the time master: one tick is added or withheld, at most once in
4,096 ticks (R465). The time master has nothing to correct. -/
def State.correct (s : State) (add : Bool) : State :=
  let rested := match s.pkg.corrAt with
    | some t => decide (2 ^ 12 ≤ s.now - t)
    | none => true
  if rested && s.pkg.tmaster != s.pkg.pchip then
    { s with pkg := { s.pkg with tbaseOff := s.pkg.tbaseOff + (if add then 1 else -1), corrAt := some s.now } }
  else s

/-- The turn that a slate of the agenda gives. -/
def State.slateTurn (s : State) (x : Slate) : Plan :=
  let go (t : ThreadId) (f : State → Plan) : Plan :=
    if s.pkg.stopped then .stop else if s.mayTurn t then f { s with cur := t } else .next s
  match x.turn with
  | .access t => go t fun s => s.accessTurn x.defer
  | .execute t => go t State.executeTurn
  | .hold t => go t fun s => .next s.holdTurn
  | .event i => if !isStep i then .next s else if s.pkg.stopped && !clockless i then .stop else .run i s
  | .correct add => .next (s.correct add)
  | .sync => .next s.syncFlit
  | .idle => .next s

/-- The state in which every thread whose wait was satisfied has completed its instruction (R311, R314, R320). -/
def State.settled (s : State) : State :=
  (s.runners.filter s.served).foldl (fun u t => u.takeGrant t) s

/-- What a step comes to: waits that were satisfied are over, then a step of the rings that falls due takes place at its
time, and otherwise the time of the turn passes and the turn takes place (log entries 2 and 3). -/
def State.plan (s : State) : Plan :=
  let s := s.settled
  match s.agenda with
  | x :: rest => match s.dueStep (s.now + x.ticks) with
    | some (i, d) =>
      let at_ := Nat.max s.now d
      .run i { s with now := at_, agenda := { x with ticks := s.now + x.ticks - at_ } :: rest }
    | none => ({ s with agenda := rest, now := s.now + x.ticks } : State).slateTurn x
  | [] => match s.dueStep s.now with
    | some (i, _) => .run i s
    | none => s.defaultTurn

/-- The state in which the very next step runs the instruction of a table word: HT0 of core 0 runs, the word stands at
its program counter, and the turn is its (DESIGN CHOICE, log entry 5). -/
def State.placeWord (s : State) (nbits w : Nat) : State :=
  let t : ThreadId := ⟨0, 0, 0⟩
  let x := s.thread t
  { s.setThread t { x with run := .running } with
    code := codeLoad s.code x.pc.toNat (tableParcels nbits w), agenda := ⟨.access t, 1, false⟩ :: s.agenda }

end Sys2Proof.Machine
end

