-- ==== Sys2Proof/Machine/Step.lean ====
section
/-! DEFINITION. One step of a package. -/

namespace Sys2Proof.Machine

open Sys2Proof

/-- One step: the turn that the agenda or the default schedule gives (DESIGN CHOICE, log entry 2). -/
def step (s : State) : Host.Outcome State Fault Refusal :=
  match s.plan with
  | .run i t => exec i t
  | .next t => .next t
  | .out o => o
  | .stop => .fault .clocksStopped

/-- A state whose next step runs a word of the opcode table: it stands at the program counter of HT0 of core 0
(DESIGN CHOICE, log entry 5). -/
def State.withFetchWord (s : State) (nbits w : Nat) : State := s.placeWord nbits w

end Sys2Proof.Machine
end

