-- ==== Sys2Proof/Safety.lean ====
section
/-! DEFINITION. What a safe run is, and the words in which claims about instructions are stated: what an instruction
answers, what it writes, what it leaves alone, and when an access lies in a thread's ranges. -/

namespace Sys2Proof.Safety

open Sys2Proof Machine

/-- A step that goes on: neither a fault nor a refusal. -/
def Goes (o : Host.Outcome State Fault Refusal) : Prop := ∃ t, o = .next t

/-- An instruction answers a next state of which something holds. -/
def Answers (i : Instr) (s : State) (p : State → Prop) : Prop := ∃ t, exec i s = .next t ∧ p t

/-- The row of the table whose words stand for an instruction's: the five rows of HTRES share one encoding (R429). -/
def encoded (i : Instr) : Instr :=
  match i with
  | .htresPreemptMilestone d a b => .htresResume d a b
  | .htresPreemptSafepoint d a b => .htresResume d a b
  | .htresPark d a b => .htresResume d a b
  | .htresEnd d a b => .htresResume d a b
  | i => i

/-- The row that a decoded instruction runs: HTRES by the operation in X(B)[2:0] (Table 17.6), any other as it is. -/
def rowOf (i : Instr) (s : State) : Instr :=
  match i with
  | .htresResume d a b =>
    if (s.x b).extractLsb' 0 3 = 1 then .htresPreemptMilestone d a b
    else if (s.x b).extractLsb' 0 3 = 2 then .htresPreemptSafepoint d a b
    else if (s.x b).extractLsb' 0 3 = 3 then .htresPark d a b
    else if (s.x b).extractLsb' 0 3 = 4 then .htresEnd d a b
    else .htresResume d a b
  | i => i

/-! ## What is left alone -/

/-- Nothing but the record of the running thread has changed: every other component of the package, every byte of
memory and every other thread is as it was. -/
structure OnlyThread (s t : State) : Prop where
  rest : { t with threads := s.threads } = s
  bytes : ∀ a, t.mem.get a = s.mem.get a
  others : ∀ k, k ≠ s.cur.key → t.threadAt k = s.threadAt k

/-- Nothing but the record of the running thread and memory has changed. -/
structure OnlyThreadMem (s t : State) : Prop where
  rest : { t with threads := s.threads, mem := s.mem } = s
  others : ∀ k, k ≠ s.cur.key → t.threadAt k = s.threadAt k

/-- Every byte of memory outside n bytes from a location on reads as before. -/
def BytesKept (s t : State) (l n : Nat) : Prop := ∀ a, a < l ∨ l + n ≤ a → t.mem.get a = s.mem.get a

/-- Every x register outside a list reads as before. -/
def XKept (s t : State) (ds : List Nat) : Prop := ∀ n, n ∉ ds → t.me.regs.getX n = s.me.regs.getX n

/-- Every v register outside a list reads as before. -/
def VKept (s t : State) (ds : List Nat) : Prop := ∀ n, n ∉ ds → t.me.regs.getV n = s.me.regs.getV n

/-- Every k register outside a list reads as before. -/
def KKept (s t : State) (ds : List Nat) : Prop := ∀ n, n ∉ ds → t.me.regs.getK n = s.me.regs.getK n

/-- The value windows after an instruction that writes register d of a file (R84): one on another register is as before, as
long as it covers an instruction that has not issued; one on d is that which an instruction with a window of `len` opens,
and holds the value from before. -/
structure WindowsAfter (s t : State) (f : RegFile) (d len : Nat) : Prop where
  others : ∀ w, w ∈ t.me.windows → ¬(w.file = f ∧ w.reg = d) → w ∈ s.me.windows
  kept : ∀ w, w ∈ s.me.windows → ¬(w.file = f ∧ w.reg = d) → s.stillOpen w = true → w ∈ t.me.windows
  own : ∀ w, w ∈ t.me.windows → w.file = f → w.reg = d →
    len ≠ 0 ∧ w = ⟨f, d, s.me.regs.wide f d, s.latch.seq, s.latch.seq + len⟩

/-- The value windows are as before. -/
def WindowsSame (s t : State) : Prop := t.me.windows = s.me.windows

/-- The value windows are as before, but for those on some x registers, which have ended (R84). -/
def WindowsEnded (s t : State) (ds : List Nat) : Prop :=
  t.me.windows = s.me.windows.filter fun w => !(w.file == .x && ds.contains w.reg)

/-- The running thread has changed in nothing but its registers, its value windows, its program counter with the place
in program order, and the wait of its A-side: its control registers, queues, slots, lines and frames are as before. -/
def ControlKept (s t : State) : Prop :=
  { t.me with regs := s.me.regs, windows := s.me.windows, pc := s.me.pc, seq := s.me.seq, aWait := s.me.aWait } = s.me

/-- The program counter is past the instruction. -/
def Passed (s t : State) : Prop := t.me.pc = s.latch.addr + word s.latch.len

/-- x register d holds a value with a mark; a write to x0 is discarded (R11). -/
def XHolds (t : State) (d : Nat) (v : Word) (m : Mark) : Prop :=
  t.me.regs.getX d = if d = 0 then plain 0 else ⟨v, m⟩

/-! ## Instructions of the A-side -/

/-- An A-side instruction has completed with no effect but its place in the program. -/
structure NoEffect (s t : State) : Prop where
  xs : XKept s t []
  vs : VKept s t []
  ks : KKept s t []
  windows : WindowsSame s t
  control : ControlKept s t
  pc : Passed s t
  only : OnlyThread s t

/-- An A-side instruction, with a window of `len` if it is of long latency, has written x register d and nothing else. -/
structure WroteX (s t : State) (d : Reg) (v : Word) (m : Mark) (len : Nat := 0) : Prop where
  result : XHolds t d.toNat v m
  xs : XKept s t [d.toNat]
  vs : VKept s t []
  ks : KKept s t []
  windows : WindowsAfter s t .x d.toNat len
  control : ControlKept s t
  pc : Passed s t
  only : OnlyThread s t

/-- An A-side instruction waits (R320): nothing has changed but the record of its wait, of the KIND and INDEX of Table
11.14, and the program counter still names it. -/
structure Waits (s t : State) (kind index : Nat) : Prop where
  wait : ∃ w, t.me.aWait = some w ∧ w.kind = kind ∧ w.index = index
  rest : t = s.setMe { s.me with aWait := t.me.aWait }

/-- The watchdog does not end a wait of a KIND that the running instruction makes (R320). -/
def Patient (s : State) (kind : Nat) : Prop := s.waitOver kind (s.waitSince kind) = false

/-- The running instruction issues on the A-side, and the watchdog does not end its wait. -/
def PatientA (s : State) (kind : Nat) : Prop := s.latch.src = .access ∧ Patient s kind

/-! ## Instructions of the E-side -/

/-- The mark of V(r). -/
def vm (s : State) (r : Reg) : Mark := (s.readV r.toNat).mark

/-- The mark of K(k). -/
def km (s : State) (k : KReg) : Mark := (s.readK k.toNat).mark

/-- The mask that K(k) holds. -/
def mask (s : State) (k : KReg) : BitVec 32 := (s.readK k.toNat).val

/-- No branch outcome suppresses the running E-side instruction (R162). -/
def Live (s : State) : Prop := s.me.rcnt = 0 ∨ s.me.rout = true

/-- v register n is bound to no open slot (R16, R18). -/
def Unbound (s : State) (n : Nat) : Prop :=
  (28 ≤ n → (s.slot (n - 28)).opened = false) ∧ (n = 26 ∨ n = 27 → (s.fibre (n - 26)).opened = false)

/-- The running E-side instruction executes, and no v register that it names is bound to a slot. -/
structure Ready (s : State) (rs : List Reg) : Prop where
  live : Live s
  unbound : ∀ r, r ∈ rs → Unbound s r.toNat

/-- The place of an E-side instruction is passed: the program counter, the E-queue or the wheel has moved on, by where
it issues from (R31, R187). -/
def Retired (s t : State) : Prop :=
  match s.latch.src with
  | .queue => t.me.pc = s.me.pc ∧ t.me.equeue = s.me.equeue.tail ∧ t.me.wheel = s.me.wheel
  | .wheel => t.me.pc = s.me.pc ∧ t.me.equeue = s.me.equeue ∧
      t.me.wheel = if s.me.wheel.act then s.me.wheel.next else s.me.wheel
  | .access => Passed s t ∧ t.me.equeue = s.me.equeue ∧ t.me.wheel = s.me.wheel
  | .decode => Passed s t ∧ t.me.equeue = s.me.equeue ∧ t.me.wheel = s.me.wheel

/-- An E-side instruction is past, and the running thread has changed in nothing but its registers, its windows, its
place and its FFLAGS: every other control register, every slot and every frame is as before, and so are the marks of
STATUS and WSTAT but for an instruction of the wheel (R23). -/
structure Completed (s t : State) : Prop where
  place : Retired s t
  control : { t.me with regs := s.me.regs, windows := s.me.windows, pc := s.me.pc, seq := s.me.seq
                        equeue := s.me.equeue, wheel := s.me.wheel, eWait := s.me.eWait, rcnt := s.me.rcnt
                        csr := s.me.csr } = s.me
  csr : { t.me.csr with fflags := s.me.csr.fflags, wstatMark := s.me.csr.wstatMark
                        statusMark := s.me.csr.statusMark } = s.me.csr
  marks : s.latch.src ≠ .wheel →
    t.me.csr.statusMark = s.me.csr.statusMark ∧ t.me.csr.wstatMark = s.me.csr.wstatMark

/-- FFLAGS is as before. -/
def FlagsKept (s t : State) : Prop := t.me.csr.fflags = s.me.csr.fflags

/-- FFLAGS has gained the flags that meet a condition, and its mark the mark m (R23, R46). -/
def FlagsRaised (s t : State) (p : Nat → Prop) (m : Mark) : Prop :=
  t.me.csr.fflags.mark = s.me.csr.fflags.mark ||| m ∧
  ∀ b, t.me.csr.fflags.val.getLsbD b = true ↔ (s.me.csr.fflags.val.getLsbD b = true ∨ p b)

/-- An E-side instruction, with a window of `len` if it is of long latency, has written v register d and no other register. -/
structure WroteV (s t : State) (d : Reg) (v : BitVec 256) (m : Mark) (len : Nat := 0) : Prop where
  result : t.me.regs.getV d.toNat = ⟨v, m⟩
  xs : XKept s t []
  vs : VKept s t [d.toNat]
  ks : KKept s t []
  windows : WindowsAfter s t .v d.toNat len
  done : Completed s t
  only : OnlyThread s t

/-- An E-side instruction has written k register d, and no other register; a write to k0 is discarded (R11). -/
structure WroteK (s t : State) (d : KReg) (v : BitVec 32) (m : Mark) : Prop where
  result : t.me.regs.getK d.toNat = if d = 0 then plain 0xFFFFFFFF else ⟨v, m⟩
  xs : XKept s t []
  vs : VKept s t []
  ks : KKept s t [d.toNat]
  windows : WindowsAfter s t .k d.toNat 0
  done : Completed s t
  only : OnlyThread s t

/-- An E-side instruction has written x register d, and no other register. -/
structure WroteXE (s t : State) (d : Reg) (v : Word) (m : Mark) : Prop where
  result : XHolds t d.toNat v m
  xs : XKept s t [d.toNat]
  vs : VKept s t []
  ks : KKept s t []
  windows : WindowsAfter s t .x d.toNat 0
  done : Completed s t
  only : OnlyThread s t

/-- An E-side instruction has changed no register, and of the package memory at most. -/
structure KeptRegs (s t : State) : Prop where
  xs : XKept s t []
  vs : VKept s t []
  ks : KKept s t []
  windows : WindowsSame s t
  done : Completed s t
  only : OnlyThreadMem s t

/-- Every lane of width w is selected. -/
def Full (s : State) (k : KReg) (w : Nat) : Prop := ∀ j, j < 256 / w → (mask s k).getLsbD j = true

/-- What a register value holds after a masked write (R13): the selected lanes of width w have the values f, the masked
ones those of D before; the mark is m, joined with D's before when a lane is masked. -/
structure Lanes (s : State) (d : Reg) (k : KReg) (w : Nat) (f : Nat → Nat) (m : Mark) (v : Tagged 256) : Prop where
  lanes : ∀ j, j < 256 / w →
    lane v.val w j = if (mask s k).getLsbD j then f j % 2 ^ w else lane (s.readV d.toNat).val w j
  whole : Full s k w → v.mark = m
  part : ¬Full s k w → v.mark = m ||| (s.readV d.toNat).mark

/-- An instruction writes lanes of D by a value and flags a lane: FFLAGS gains the flags of the selected lanes (R141), or
is left alone by a form that raises none; `len` is the length of the instruction's window. -/
def LaneResult (s : State) (i : Instr) (d : Reg) (k : KReg) (w : Nat) (m : Mark) (float : Bool)
    (f : Nat → Nat × FFlags) (len : Nat := 0) : Prop :=
  ∃ v, Lanes s d k w (fun j => (f j).1) m v ∧ Answers i s fun t =>
    WroteV s t d v.val v.mark len ∧
    (if float then
      FlagsRaised s t (fun b => ∃ j, j < 256 / w ∧ (mask s k).getLsbD j = true ∧ (f j).2.getLsbD b = true) m
    else FlagsKept s t)

/-- An instruction of long latency leaves the instructions of its window D's value from before (R84). -/
def Windowed (s t : State) (w : Win) (d : Reg) : Prop :=
  w.la ≠ 0 → ∀ u : State, u.me = t.me → s.latch.seq < u.latch.seq →
    u.latch.seq ≤ s.latch.seq + (if w.ver1 then 4 else 1) * w.la.toNat → u.readV d.toNat = s.me.regs.getV d.toNat

/-- An A-side form of long latency has a place for its window: no more than three others are open (R85). -/
def MayOpen (s : State) (w : Win) (d : Reg) : Prop := s.advance.windowsFull w .x d.toNat = false

/-- An A-side instruction of long latency leaves the A-side instructions of its window x register D's value from before
(R84). -/
def WindowedX (s t : State) (w : Win) (d : Reg) : Prop :=
  d ≠ 0 → w.la ≠ 0 → ∀ u : State, u.me = t.me → u.cur = t.cur → u.latch.src = .access →
    s.latch.seq < u.latch.seq → u.latch.seq ≤ s.latch.seq + (if w.ver1 then 4 else 1) * w.la.toNat →
    u.readX d.toNat = s.me.regs.getX d.toNat

/-- An integer clamped to a range. -/
def clampInt (lo hi v : Int) : Int := if v < lo then lo else if hi < v then hi else v

/-- The signed saturation of an integer to w bits. -/
def satS (w : Nat) (v : Int) : Int := clampInt (-(2 : Int) ^ (w - 1)) ((2 : Int) ^ (w - 1) - 1) v

/-- The unsigned saturation of an integer to w bits. -/
def satU (w : Nat) (v : Int) : Int := clampInt 0 ((2 : Int) ^ w - 1) v

/-- The w-bit pattern of an integer. -/
def pattern (w : Nat) (v : Int) : Nat := (v % (2 : Int) ^ w).toNat

/-! ## Rounding -/

/-- (-1)^neg · m · 2^e as an integer of units of 2^lo, for lo ≤ e. -/
def units (lo : Int) (neg : Bool) (m : Nat) (e : Int) : Int := (if neg then -1 else 1) * (m : Int) * (2 : Int) ^ (e - lo).toNat

/-- An integer of units of 2^lo is a value with p fraction bits, no exponent limit above and the quantum 2^q0 below. -/
def OnGrid (p : Nat) (q0 lo v : Int) : Prop :=
  ∃ (m : Nat) (q : Int), m < 2 ^ (p + 1) ∧ q0 ≤ q ∧ v.natAbs = m * 2 ^ (q - lo).toNat

/-- Such a value has an even last fraction bit. -/
def EvenLast (p : Nat) (q0 lo v : Int) : Prop :=
  ∃ (m : Nat) (q : Int), m < 2 ^ (p + 1) ∧ q0 ≤ q ∧ (2 ^ p ≤ m ∨ q = q0) ∧ m % 2 = 0 ∧ v.natAbs = m * 2 ^ (q - lo).toNat

/-- y is the value that a mode takes for x: 0 RNE, 1 RTZ, 2 RDN, 3 RUP, 4 RNA (R52, step 1). -/
structure Nearest (p : Nat) (q0 : Int) (mode : Nat) (lo x y : Int) : Prop where
  grid : OnGrid p q0 lo y
  even : mode = 0 → ∀ z, OnGrid p q0 lo z →
    (y - x).natAbs ≤ (z - x).natAbs ∧ (z ≠ y → (z - x).natAbs = (y - x).natAbs → EvenLast p q0 lo y)
  zero : mode = 1 → 0 ≤ y * x ∧ y.natAbs ≤ x.natAbs ∧ ∀ z, OnGrid p q0 lo z → z.natAbs ≤ x.natAbs → z.natAbs ≤ y.natAbs
  down : mode = 2 → y ≤ x ∧ ∀ z, OnGrid p q0 lo z → z ≤ x → z ≤ y
  up : mode = 3 → x ≤ y ∧ ∀ z, OnGrid p q0 lo z → x ≤ z → y ≤ z
  away : mode = 4 → ∀ z, OnGrid p q0 lo z →
    (y - x).natAbs ≤ (z - x).natAbs ∧ ((z - x).natAbs = (y - x).natAbs → z.natAbs ≤ y.natAbs)

/-- The result on overflow (Table 2.3), by sign and mode. -/
def overflowed (f : Fmt) (mode : Nat) (sat neg : Bool) : Nat :=
  if sat ∨ mode = 1 ∨ (mode = 2 ∧ neg = false) ∨ (mode = 3 ∧ neg = true) then f.maxBits neg
  else if f.ieee then f.infBits neg else f.canon

/-- Bits and flags are the nonzero exact value x, of units of 2^lo, rounded once to a format (R52 to R54): the value that the
mode takes, with NX where it differs and UF where it is tiny as well; past the maximum the result of Table 2.3, with OF
and NX. -/
def Rounds (f : Fmt) (mode : Nat) (sat : Bool) (lo x : Int) (r : Nat × FFlags) : Prop :=
  let neg := decide (x < 0)
  let inMax (v : Int) : Prop := ∀ m e, f.unpack (f.maxBits false) = .fin false m e → v.natAbs ≤ (units lo false m e).natAbs
  let tiny := ∀ z, Nearest f.p lo mode lo x z → z.natAbs < 2 ^ (1 - f.bias - lo).toNat
  ∃ y, Nearest f.p f.low mode lo x y ∧
    (inMax y → r.1 < 2 ^ f.width ∧ (∃ m e, f.unpack r.1 = .fin neg m e ∧ f.low ≤ e ∧ units lo neg m e = y) ∧
      (y = x → r.2 = 0) ∧ (y ≠ x → tiny → r.2 = fUF ||| fNX) ∧ (y ≠ x → ¬tiny → r.2 = fNX)) ∧
    (¬inMax y → r = (overflowed f mode sat neg, fOF ||| fNX))

/-! ## The local window -/

/-- n bytes at an address of space 00 lie in the ranges that a window opens to a unit, at a location (R25 to R27, Table
1.10): in its part of local memory, or, on a compute core, in its range of the cluster's scratchpad outside every
versioned window. -/
def LocalIn (s : State) (unit : Nat) (w : Word) (a : Word) (n l : Nat) : Prop :=
  let o := a.toNat
  0 < n ∧
  ((o + n ≤ 0x10000 ∧ (lwinLocal w).1 ≤ o ∧ o + n ≤ (lwinLocal w).1 + (lwinLocal w).2 ∧ l = unitLoc unit + o) ∨
   (isCompute unit = true ∧ 0x100000 ≤ o ∧ o + n ≤ 0x200000 ∧
      512 * (lwinSpad w).1 ≤ o - 0x100000 ∧
      o - 0x100000 + n ≤ 512 * ((lwinSpad w).1 + (lwinSpad w).2) ∧
      s.inWindow (clusterOf unit) (o - 0x100000) n = false ∧
      l = spadLoc (clusterOf unit) + (o - 0x100000)))

/-- n bytes at a local address lie in the running thread's ranges, at a location. -/
def LocalAt (s : State) (a : Word) (n l : Nat) : Prop := LocalIn s s.cur.unit s.agent.lwin a n l

/-- n bytes at a home in the space 00 of a unit, at a location (R224). -/
def HomeAt (s : State) (unit : Nat) (a : Word) (n l : Nat) : Prop := LocalIn s unit fullWindow a n l

/-- n bytes at an address of space 10 lie in the memory of a unit of the own package that an agent may reach, at a
location (R295, R297): `mine` says whether it may reach a core or a scratchpad line of a partition. Scratchpad bytes
lie outside every versioned window. -/
def FarAt (s : State) (mine : Option Nat → Prop) (a : Word) (n l : Nat) : Prop :=
  let u := field a 33 21
  let o := field a 20 0
  field a 63 62 = 2 ∧ field a 61 53 = 0 ∧ field a 52 34 = s.chip ∧ s.chip < s.pkg.sysn ∧ 0 < n ∧ l = unitLoc u + o ∧
    ((u < 0x1000 ∧ o + n ≤ 0x10000 ∧ mine (s.partOfCore u)) ∨
     (0x1000 ≤ u ∧ u < 0x1200 ∧ o + n ≤ 0x100000 ∧ s.inWindow (u - 0x1000) o n = false ∧
        ∀ p, p ∈ linesOf o n 512 → mine (s.lineParts (u - 0x1000) (p / 512))) ∨
     (0x1200 ≤ u ∧ u < 0x1388 ∧ o + n ≤ 0x10000))

/-- n bytes of the own package's memory at an address, at a location (R295, R297): in the thread's ranges of space 00;
or in space 10, where the thread's partition covers a core or a scratchpad and the remote request agent has a place
(R315). -/
def ReachAt (s : State) (a : Word) (n l : Nat) : Prop :=
  LocalAt s a n l ∨
  (FarAt s (fun p => everyPart s.cur.unit = true ∨ (p ≠ none ∧ p = s.partOf s.cur)) a n l ∧
    s.agentFull (field a 33 21) = false)

/-- n bytes at an address of space 10 that the mailbox engine may use for a partition, at a location (R461): in a compute
core or a scratchpad of the own package. -/
def HostAt (s : State) (p : Nat) (a : Word) (n l : Nat) : Prop := field a 33 21 < 0x1200 ∧ FarAt s (· = some p) a n l

/-- None of n bytes at a location is poisoned (R446). -/
def Clean (s : State) (l n : Nat) : Prop := s.mem.poisoned l n = []

/-- A store of a mark to n bytes at a location passes the ceilings of the scratchpad (R304). -/
def UnderCeil (s : State) (l n : Nat) (m : Mark) : Prop := s.overCeil l n m = 0

/-- n bytes at a location hold the little-endian number v, and no other byte has changed. -/
structure StoredAt (s t : State) (l n v : Nat) : Prop where
  value : ∀ i, i < n → t.mem.get (l + i) = BitVec.ofNat 8 (v / 256 ^ i)
  others : BytesKept s t l n

/-- An A-side instruction has stored n bytes at a location and changed no register. -/
structure WroteMem (s t : State) (l n v : Nat) (m : Mark) : Prop where
  stored : StoredAt s t l n v
  marks : ∀ g, g ∈ markLines l n → markGet t.mem.marks g = markGet s.mem.marks g ||| m
  xs : XKept s t []
  vs : VKept s t []
  ks : KKept s t []
  windows : WindowsSame s t
  control : ControlKept s t
  pc : Passed s t
  only : OnlyThreadMem s t

/-- An E-side instruction has stored n bytes at a location and changed no register. -/
structure WroteMemE (s t : State) (l n v : Nat) (m : Mark) : Prop where
  stored : StoredAt s t l n v
  marks : ∀ g, g ∈ markLines l n → markGet t.mem.marks g = markGet s.mem.marks g ||| m
  kept : KeptRegs s t

/-- An A-side instruction is past and has left every register, every control register and every other thread as it
was. -/
structure Past (s t : State) : Prop where
  regs : t.me.regs = s.me.regs
  windows : WindowsSame s t
  csr : t.me.csr = s.me.csr
  pc : Passed s t
  others : ∀ k, k ≠ s.cur.key → t.threadAt k = s.threadAt k

/-- An A-side instruction, with a window of `len` if it is of long latency, is past and, of the running thread's registers
and control registers, has written x register d alone; every other thread is as before. -/
structure GaveX (s t : State) (d : Reg) (v : Word) (m : Mark) (len : Nat := 0) : Prop where
  result : XHolds t d.toNat v m
  xs : XKept s t [d.toNat]
  vs : VKept s t []
  ks : KKept s t []
  windows : WindowsAfter s t .x d.toNat len
  csr : t.me.csr = s.me.csr
  pc : Passed s t
  others : ∀ k, k ≠ s.cur.key → t.threadAt k = s.threadAt k

/-- An A-side instruction is past and has changed, of the whole package, only the running thread's place and its slots. -/
structure SlotForm (s t : State) : Prop where
  past : Past s t
  only : OnlyThread s t

/-- Every stream slot but one is as before. -/
def SlotsKept (s t : State) (n : Nat) : Prop := ∀ j, j ≠ n → t.slot j = s.slot j

/-- Every fibre slot outside a list is as before. -/
def FibresKept (s t : State) (l : List Nat) : Prop := ∀ j, j ∉ l → t.fibre j = s.fibre j

/-- A block of n bytes at an address that is aligned to 64 bytes and lies in the thread's ranges at a location. -/
def Block (s : State) (a : Word) (n l : Nat) : Prop := a.toNat % 64 = 0 ∧ LocalAt s a n l ∧ Clean s l n

/-- A record that SPAWN accepts (R274): JOIN not negative, no reserved field, KIND below 3, a home neither READY nor
RUN, and no bit of STATUS that the spawner lacks. -/
structure ValidRec (s : State) (r : ContRec) : Prop where
  join : r.join.getLsbD 31 = false
  reserved : r.reserved = false
  kind : r.kind ≠ 3
  state : r.state ≠ 1 ∧ r.state ≠ 2
  priv : r.flags.getLsbD 2 = true → s.me.csr.priv = true
  gcp : r.flags.getLsbD 3 = true → s.me.csr.gcp = true

/-- The coordinates of a fibre in list form (Table 6.6) can be read, and rise strictly below its extent. -/
structure Coords (s : State) (d : BitVec 512) (loc : Nat → Nat) (c : Nat → Nat) : Prop where
  list : bit (dget d 0x10 4) 4 = false
  at_ : ∀ e, e < dget d 0x14 4 →
    let nb := if bit (dget d 0x10 4) 5 then 4 else 2
    LocalAt s (word (dget d 8 8 + e * nb)) nb (loc e) ∧ Clean s (loc e) nb ∧ c e = ofBytes (s.mem.read (loc e) nb)
  rise : ∀ e, e + 1 < dget d 0x14 4 → c e < c (e + 1)
  below : ∀ e, e < dget d 0x14 4 → c e < dget d 0x18 4

/-- A fibre stands at entry e of its coordinates, or past the last one. -/
def StandsAt (f : Fibre) (c : Nat → Nat) (e : Nat) : Prop :=
  f.opened = true ∧ f.seek = none ∧ f.err = false ∧
  (if e < f.nnz then f.ended = false ∧ f.entry = e ∧ f.vidx = e ∧ f.coord = c e else f.ended = true)

/-! ## Hash tables -/

/-- The key that marks an empty slot (Table 6.9). -/
def nullKey : Nat := 2 ^ 32 - 1

/-- The location of a slot of a hash table at a location (Table 6.9). -/
def slotLoc (l n : Nat) : Nat := l + 0x40 + 8 * n

/-- The slot that step j of a key's probe sequence visits (R203). -/
def probeAt (ns key j : Nat) : Nat := ((key ^^^ (key / 2 ^ 16)) % ns + j) % ns

/-- The key that stands in the slot of step j of a key's probe sequence. -/
def keyAt (s : State) (l ns key j : Nat) : Nat := ofBytes (s.mem.read (slotLoc l (probeAt ns key j)) 4)

/-- Step j of the probe sequence is the first that meets the key or an empty slot. -/
def Reaches (s : State) (l ns mp key j : Nat) : Prop :=
  j < mp ∧ (keyAt s l ns key j = key ∨ keyAt s l ns key j = nullKey) ∧
  ∀ i, i < j → keyAt s l ns key i ≠ key ∧ keyAt s l ns key i ≠ nullKey

/-- A valid hash table of ns slots and probe limit mp lies at an address, in the thread's range of the scratchpad, at a
location, with no poison (R203). -/
structure HashTable (s : State) (a : Word) (l ns mp : Nat) : Prop where
  aligned : a.toNat % 64 = 0
  spad : 0x100000 ≤ a.toNat
  at_ : LocalAt s a (64 + 8 * ns) l
  clean : Clean s l (64 + 8 * ns)
  slots : ofBytes (s.mem.read l 4) = ns
  limit : ofBytes (s.mem.read (l + 8) 4) = mp
  power : ∃ e, 3 ≤ e ∧ e ≤ 17 ∧ ns = 2 ^ e
  range : 1 ≤ mp ∧ mp ≤ ns

/-! ## The host and the scheduler -/

/-- A command of an OP stands at the head of a channel, well formed, after bring-up (R460, R519). -/
structure CmdAt (s : State) (ch : BitVec 4) (op : Nat) (c : HostCmd) : Prop where
  up : s.pkg.devst = 0x10
  run : s.pkg.stopped = false
  head : s.headCmd ch.toNat = some c
  good : c.malformed = false
  op : c.op = op

/-- A CONFIG command of an item with an index and a value stands at the head of a channel with CONF (R463). -/
structure ConfigAt (s : State) (ch : BitVec 4) (item ix : Nat) (v : Word) (c : HostCmd) : Prop where
  cmd : CmdAt s ch 4 c
  conf : (s.channel ch.toNat).chcfg.getLsbD 4 = true
  index : ix < 64
  item : c.daddr = word (ix * 2 ^ 16 + item)
  value : c.value = v

/-- The command at the head of a channel has ended with its DONE event, which bears a mark (R460, R464, Table 19.5). -/
structure Ended (s t : State) (ch : BitVec 4) (status tag : Nat) (detail : Word) (m : Mark) : Prop where
  cmds : (t.channel ch.toNat).cmds = (s.channel ch.toNat).cmds.tail
  room : (t.channel ch.toNat).qfull = false
  event : (t.channel ch.toNat).events =
    (s.channel ch.toNat).events ++ [⟨word (2 ^ 56 + status * 2 ^ 48 + tag), detail, t.tbase, m⟩]

/-- A host event has been posted on a channel, and nothing else of the channels has changed (R464). -/
structure Posted (s t : State) (ch kind status tag : Nat) (detail : Word) : Prop where
  event : t.channel ch =
    { s.channel ch with events := (s.channel ch).events ++
        [⟨word (kind * 2 ^ 56 + status * 2 ^ 48 + tag), detail, s.tbase, 0⟩] }
  others : ∀ k, k ≠ ch → t.channel k = s.channel k

/-- A group has been placed for a launch from a core on (R218, R219): under a handle that was free, on threads of the
selected sets of its cores that were idle and held by no group, with local ranges that overlap no other's. -/
def Placed (s t : State) (p key ix c : Nat) (r : BitVec 1024) : Prop :=
  ∃ gh g, gh ≠ 0 ∧ s.group? gh = none ∧ t.group? gh = some g ∧ (∀ k, k ≠ gh → t.group? k = s.group? k) ∧
    g.launch = key ∧ g.index = ix ∧ g.part = p ∧ g.first = c ∧ g.cores = (launchTpg r + launchH r - 1) / launchH r ∧
    (s.part p).base ≤ c ∧ c + g.cores ≤ (s.part p).base + (s.part p).len ∧
    g.live = launchTpg r ∧ g.enqueued = false ∧ g.places.length = g.cores * launchH r ∧
    ∀ x, x ∈ g.places →
      c ≤ x.unit ∧ x.unit < c + g.cores ∧ x.set = (s.core x.unit).sel ∧
      (s.thread ⟨x.unit, x.set, x.ht⟩).run = .idle ∧ x.llen = launchPart r ∧ x.lbase + x.llen ≤ 1024 ∧
      ∀ y, y ∈ s.placesOn x.unit → ¬(y.set = x.set ∧ y.ht = x.ht) ∧
        (x.lbase + x.llen ≤ y.lbase ∨ y.lbase + y.llen ≤ x.lbase ∨ y.llen = 0)

/-! ## Operand rings -/

/-- The stop at a position of a segment. -/
def stopAt (s : State) (q j k : Nat) : Stop := s.stop (nth (s.segStops q j) k 0)

/-- The tile of one direction at a position after the crossings of the beat in progress (R244): E-tiles move up at even
beats, W-tiles down at odd ones, and a retired tile has left the ring (R249). -/
def crossed (s : State) (q j k : Nat) (east : Bool) : Option Tile :=
  let rn := (s.segStops q j).length
  let even := ((s.quad q).sg j).beat % 2 == 0
  let t := if east then (if even then (stopAt s q j ((k + rn - 1) % rn)).e else (stopAt s q j k).e)
    else (if even then (stopAt s q j k).w else (stopAt s q j ((k + 1) % rn)).w)
  t.bind fun x => if x.need = 0 then none else some x

/-- A tile as it stands at a position after the boundary: one that arrived at its HOME has counted a lap (R252). -/
def lapped (s : State) (q j k : Nat) (east : Bool) (t : Tile) : Tile :=
  if ((((s.quad q).sg j).beat % 2 == 0) == east) ∧ t.home = k then { t with lap := min (t.lap + 1) 15 } else t

/-- No tile of a segment is marked for removal, and none reaches the lap limit at the next boundary. -/
structure Smooth (s : State) (q j : Nat) : Prop where
  force : ((s.quad q).sg j).force = false
  tiles : ∀ k x, k < (s.segStops q j).length → ((stopAt s q j k).e = some x ∨ (stopAt s q j k).w = some x) →
    x.removal = none ∧ x.lap + 1 < ((s.quad q).sg j).laplim.toNat
  queues : ∀ k x, k < (s.segStops q j).length → (x ∈ (stopAt s q j k).injE ∨ x ∈ (stopAt s q j k).injW) →
    x.removal = none

/-! ## Traps -/

/-- A local trap has been taken on the A-side (R40): CAUSE, EPC, AEPC, FADDR and FINFO hold what the trap gives, all
with one mark; INTRAP is set; and the thread is at its vector. -/
structure Trapped (s t : State) (code : Nat) (at_ addr info : Word) (m : Mark) (vec : Word) : Prop where
  cause : t.me.csr.cause = ⟨word code, m⟩
  epc : t.me.csr.epc = ⟨at_, m⟩
  aepc : t.me.csr.aepc = ⟨at_, m⟩
  faddr : t.me.csr.faddr = ⟨addr, m⟩
  finfo : t.me.csr.finfo = ⟨info, m⟩
  intrap : t.me.csr.intrap = true
  pc : t.me.pc = vec
  run : t.me.run = s.me.run

end Sys2Proof.Safety
end

