-- ==== Sys2Proof/Certificates/Slice0/Obligations.lean ====
section
/-! DEFINITION. The statements about this model. Each is written from the numbered rules of the spec that its docstring
names. -/

open Sys2Proof

open Sys2Proof.Machine

/-! ## Encodings -/

/-- Decoding the words of a well-formed instruction gives it back, with every operand at every value its encoding admits,
whatever parcels follow (R75 to R100, R104). The five rows of HTRES share one encoding, told apart by a register
(R429), so their words decode to the row of RESUME. -/
def Obligations.DecodeOfEncode : Prop :=
  ∀ (i : Instr) (ps rest : List Parcel), encode i = some ps →
    ∃ fi, decode (ps ++ rest) = .instr (Safety.encoded i) (2 * ps.length) fi

/-- What decodes is well-formed and has an encoding: no field rule of R79, R99 and the forms' entries is passed over. An
instruction takes 2 to 10 bytes, and the parcel at its end is a base parcel (R75). A fifth prefix parcel raises ILL,
with that parcel in FINFO[15:0] and 4 in FINFO[22:20] (R79, R42); a base parcel on pages 9 to 15 raises EMU once the
checks of the prefixes have passed (R100). -/
def Obligations.DecodedForms : Prop :=
  (∀ (ps : List Parcel) (i : Instr) (n : Nat) (fi : Word), decode ps = .instr i n fi →
     i.WellFormed = true ∧ (encode i).isSome = true) ∧
  (∀ (ps : List Parcel) (i : Instr) (n : Nat) (fi : Word), decode ps = .instr i n fi →
     2 ≤ n ∧ n ≤ 10 ∧ n % 2 = 0 ∧ n / 2 ≤ ps.length ∧
     (opField (ps.getD (n / 2 - 1) 0)).toNat < 0x3C ∧
     ∀ j, j < n / 2 - 1 → 0x3C ≤ (opField (ps.getD j 0)).toNat) ∧
  ((∀ (p0 p1 p2 p3 p4 : Parcel) (rest : List Parcel),
     0x3C ≤ (opField p0).toNat → 0x3C ≤ (opField p1).toNat → 0x3C ≤ (opField p2).toNat →
     0x3C ≤ (opField p3).toNat → 0x3C ≤ (opField p4).toNat →
     ∃ fi, decode (p0 :: p1 :: p2 :: p3 :: p4 :: rest) = .illegal fi 10 ∧
       fi.toNat % 2 ^ 16 = p4.toNat ∧ fi.toNat / 2 ^ 20 = 4) ∧
   (∀ (g : BitVec 4) (b : Parcel) (rest : List Parcel), (opField b).toNat < 0x3C → 9 ≤ g.toNat →
     decode (((0x3C : BitVec 6) ++ (0 : BitVec 6) ++ g) :: b :: rest) = .emulate (illFinfo b g 1) 4))

/-- Words written out from the encodings of chapter 3 decode to the instructions they stand for: Table 3.14 and the
examples of the chapters. -/
def Obligations.DecodeWords : Prop :=
  decode [0xF428, 0x04D0] = .instr (.sub 3 4 5) 4 0x1004D0 ∧
  decode [0x54F8] = .instr (.addi 3 3 (-8)) 2 0x54F8 ∧
  decode [0xF80C, 0xA10A] = .instr (.st 2 4 2 12) 4 0x10A10A ∧
  decode [0xD988] = .instr (.csrr 6 0x08) 2 0xD988 ∧
  decode [0xE800] = .instr .nop 2 0xE800 ∧
  decode [0xF002, 0xF802, 0x0011] = .instr (.sopen 1 4 false true) 6 0x220011 ∧
  decode [0xF002, 0xF81F, 0x4467] = .instr (.rep 3 999) 6 0x224467 ∧
  decode [0xF007, 0xF468, 0x0954] = .instr (.mkjoin false 5 5 13) 6 0x270954

/-! ## Steps -/

/-- The turn of a running thread's A-side runs the instruction that its program counter names: when the bytes there
decode to i, the thread is of its core's selected set, its core of a partition (R439), it waits for nothing, no
milestone is asked for and no safe point stops it, and nothing on the E-side holds i, a step is exec of i in the state
in which i is latched (R29, R30) and the read slots hold nothing that was fetched ahead of an access that i orders it
after (`dropAhead`: R326, R329, R332; the model's reading, log entry 99); an A-side instruction finds the slots that it
names with the wheel mark of a REPX before it (`wheelMarked`, R188). What decode finds illegal, by the thread's mode,
its kind of core or the body that it names, runs at decode as that trap, whatever the E-side still holds (R29, R41,
R501). The statement is of turns at which no wait is over and no step of the rings falls due: those come first (log
entries 2 and 3). What fetch reads that is no instruction runs as the trap that decode finds (R29, R99, R100): an
encoding that no form has raises ILL, and one of pages 9 to 15 raises EMU, on the A-side. -/
def Obligations.StepRunsDecoded : Prop :=
  (∀ (s : State) (u : ThreadId) (rest : List Slate) (n : Nat) (i : Instr) (len : Nat) (fi : Word),
     s.agenda = ⟨.access u, n, false⟩ :: rest → s.runners.filter s.served = [] → s.dueStep (s.now + n) = none →
     s.pkg.stopped = false → (s.core u.unit).sel = u.set →
     (isCompute u.unit = false ∨ (s.partOfCore u.unit).isSome) →
     (s.thread u).run = .running → (s.thread u).hold = none → (s.thread u).reqs.milestone = false →
     decode (fetch s.code (s.thread u).pc) = .instr i len fi →
     let at_ : State := { s with agenda := rest, now := s.now + n, cur := u }
     let l : Latch := ⟨(s.thread u).pc, len, fi, .access, [], (s.thread u).seq⟩
     at_.atSafePoint u = none →
     let r := Safety.rowOf i { at_ with latch := l }
     let m : State := { at_ with latch := l }
     (m.decodeIll r = true → step s = exec r m) ∧
     ((usesOf i).eSide = false → m.decodeIll r = false → m.issueWaits r = false →
       step s = exec r ((m.wheelMarked r).dropAhead r)) ∧
     ((usesOf i).eSide = true → m.decodeIll r = false → m.decodeWaits i = false → at_.eIdle = true →
       step s = exec i (State.dropAhead { at_ with latch := { l with src := .decode } } i))) ∧
  (∀ (s : State) (u : ThreadId) (rest : List Slate) (n : Nat) (len : Nat) (fi : Word),
     s.agenda = ⟨.access u, n, false⟩ :: rest → s.runners.filter s.served = [] → s.dueStep (s.now + n) = none →
     s.pkg.stopped = false → (s.core u.unit).sel = u.set →
     (isCompute u.unit = false ∨ (s.partOfCore u.unit).isSome) →
     (s.thread u).run = .running → (s.thread u).hold = none → (s.thread u).reqs.milestone = false →
     let at_ : State := { s with agenda := rest, now := s.now + n, cur := u }
     let l : Latch := ⟨(s.thread u).pc, len, fi, .access, [], (s.thread u).seq⟩
     at_.atSafePoint u = none →
     (decode (fetch s.code (s.thread u).pc) = .illegal fi len →
       step s = exec (.illegalInstruction fi) { at_ with latch := l }) ∧
     (decode (fetch s.code (s.thread u).pc) = .emulate fi len →
       step s = exec (.emulationTrap fi) { at_ with latch := l }))

/-- Memory stays in its one canonical form, so that equal memories are equal data: every step keeps listed bytes and marks
nonzero and every list strictly rising. -/
def Obligations.StepKeepsMemoryForm : Prop :=
  ∀ s t : State, s.mem.wf = true → step s = .next t → t.mem.wf = true

/-- Only a thermal trip stops a step: a step faults only when every arithmetic clock is stopped, and it never refuses
(R517). No instruction and no machine step stops the machine: each answers a next state in every state, with its
effect, the exception it raises, or its wait (R39, R40, R320). -/
def Obligations.StepGoes : Prop :=
  (∀ s : State, Safety.Goes (step s) ∨ (s.pkg.stopped = true ∧ step s = .fault .clocksStopped)) ∧
  (∀ (i : Instr) (s : State), Safety.Goes (exec i s))

/-! ## Exceptions -/

/-- Trap entry outside a handler (R40, Tables 1.4 and 17.3): EPC is the trapping instruction's address, or the next
instruction's for TRAP and BRK; AEPC is EPC on the A-side and otherwise the oldest A-side instruction not issued, past
the E-side instructions before it, which the frame takes as far as it has entries (R424, R425; how the model finds
that instruction is DEDUCED, log entry 35); FADDR and FINFO take what the trap gives; all five registers take one
mark; CAUSE names the cause, the side and the slot; the E-queue, the branch-outcome queue and the wheel move into the
trap frame; and the thread goes to its vector, bits [1:0] ignored, with INTRAP set, or parks when the cause is a
system fault or the vector is zero. Memory is unchanged. A trap of any cause taken inside a handler (R40): EPC, AEPC,
FADDR and the trap frame keep the first trap; FINFO becomes the second cause's code; CAUSE becomes DOUBLE with SYS
set; the handler's own work is dropped; and the thread parks with a PARK record that carries the second trap's address
and information (R44, Table 17.5). -/
def Obligations.TrapEntry : Prop :=
  (∀ (s : State) (code : Nat) (addr info : Word) (defer : Bool) (slot : Nat) (m : Mark),
     s.me.csr.intrap = false → code < 64 → slot < 4 →
     let t := s.trapEntry code addr info defer slot m
     let epc := if code = 0x03 ∨ code = 0x04 then s.latch.addr + word s.latch.len else s.latch.addr
     let vec := (if code = 0x02 then s.me.csr.evec.val else s.me.csr.tvec.val) &&& 0xFFFFFFFFFFFFFFFC
     let parks := 0x20 ≤ code ∨ vec = 0
     t.me.csr.epc = ⟨epc, m⟩ ∧
     t.me.csr.aepc = ⟨if s.latch.src = .access then epc else s.aSideAt, m⟩ ∧
     (s.latch.src ≠ .access → s.pendingE.length < 32 → (usesOf (findInstr s.code s.aSideAt).instr).eSide = false) ∧
     t.me.csr.faddr = ⟨addr, m⟩ ∧ t.me.csr.finfo = ⟨info, m⟩ ∧
     t.me.csr.cause.mark = m ∧
     field t.me.csr.cause.val 5 0 = code ∧ field t.me.csr.cause.val 25 24 = slot ∧
     (t.me.csr.cause.val.getLsbD 28 = true ↔ parks) ∧
     (t.me.csr.cause.val.getLsbD 29 = true ↔ s.latch.src ≠ .access) ∧
     (t.me.csr.cause.val.getLsbD 30 = true ↔ s.latch.src = .wheel) ∧
     t.me.csr.cause.val.getLsbD 31 = defer ∧
     t.me.equeue = [] ∧ t.me.wheel.act = false ∧ t.me.bq = ⟨[], 0⟩ ∧
     t.me.trapFrame.eq = s.pendingE.map (·.addr) ∧ t.me.trapFrame.bq = s.me.bq ∧
     t.me.trapFrame.wact = s.me.wheel.act ∧ t.me.trapFrame.wrepcnt = s.me.wheel.repcnt ∧
     t.me.trapFrame.wrepix = s.me.wheel.repix ∧
     (parks → t.me.run = .parkedFault ∧ t.me.csr.intrap = false) ∧
     (¬parks → t.me.run = s.me.run ∧ t.me.csr.intrap = true ∧ t.me.pc = vec) ∧
     t.mem = s.mem) ∧
  (∀ (s : State) (code : Nat) (addr info : Word) (defer : Bool) (slot : Nat) (m : Mark),
     s.me.csr.intrap = true → code < 64 →
     let t := s.trapEntry code addr info defer slot m
     t.me.csr.epc = s.me.csr.epc ∧ t.me.csr.aepc = s.me.csr.aepc ∧ t.me.csr.faddr = s.me.csr.faddr ∧
     t.me.trapFrame = s.me.trapFrame ∧
     t.me.csr.finfo.val = word code ∧
     field t.me.csr.cause.val 5 0 = 0x2F ∧ t.me.csr.cause.val.getLsbD 28 = true ∧
     (t.me.csr.cause.val.getLsbD 29 = true ↔ s.latch.src ≠ .access) ∧
     t.me.equeue = [] ∧ t.me.run = .parkedFault ∧ t.mem = s.mem ∧
     ∃ r, (t.die (dieOf s.cur.unit)).waiting = (s.die (dieOf s.cur.unit)).waiting ++ [r] ∧
       r.word.toNat / 2 ^ 256 % 2 ^ 64 = addr.toNat ∧ r.word.toNat / 2 ^ 320 % 2 ^ 64 = info.toNat)

/-- TRAP and BRK raise their causes with FADDR 0 and FINFO the immediate, EPC and AEPC at the next instruction (R131); an
encoding that is no instruction raises ILL and a base parcel of pages 9 to 15 raises EMU, which goes to EVEC, both
with EPC and AEPC at the instruction and the FINFO that decode gives (R29, R42, R99, R100). In a handler or with a
zero vector each is the trap entry of those states. TRET (R426): outside a handler it raises ILL; with E-side work of
the handler's own in flight it waits and changes nothing but its wait; otherwise INTRAP is cleared, the A-side resumes
at AEPC, the frame is used up, the saved outcomes come back, and it changes no mark: CMARK stays, every control register
but STATUS stays with its mark and STATUS with its mark, and every register that no window of the frame names keeps its
value and its mark. -/
def Obligations.TrapForms : Prop :=
  ((∀ (s : State) (imm : BitVec 6) (fi : Word), s.latch.src = .access →
     exec (.trap imm) s = .next (s.trapEntry 0x03 0 (imm.setWidth 64) false 0 s.base) ∧
     exec (.brk imm) s = .next (s.trapEntry 0x04 0 (imm.setWidth 64) false 0 s.base) ∧
     exec (.illegalInstruction fi) s = .next (s.trapEntry 0x01 0 fi false 0 s.base) ∧
     exec (.emulationTrap fi) s = .next (s.trapEntry 0x02 0 fi false 0 s.base)) ∧
   (∀ (s : State) (imm : BitVec 6) (fi : Word), s.latch.src = .access → s.me.csr.intrap = false →
     let vec := s.me.csr.tvec.val &&& 0xFFFFFFFFFFFFFFFC
     let here := s.latch.addr
     let after := s.latch.addr + word s.latch.len
     (vec ≠ 0 →
       Safety.Answers (.trap imm) s (fun t => Safety.Trapped s t 0x03 after 0 (imm.setWidth 64) s.base vec) ∧
       Safety.Answers (.brk imm) s (fun t => Safety.Trapped s t 0x04 after 0 (imm.setWidth 64) s.base vec) ∧
       Safety.Answers (.illegalInstruction fi) s (fun t => Safety.Trapped s t 0x01 here 0 fi s.base vec)) ∧
     (s.me.csr.evec.val &&& 0xFFFFFFFFFFFFFFFC ≠ 0 →
       Safety.Answers (.emulationTrap fi) s
         (fun t => Safety.Trapped s t 0x02 here 0 fi s.base (s.me.csr.evec.val &&& 0xFFFFFFFFFFFFFFFC))))) ∧
  ((∀ s : State, s.me.csr.intrap = false → s.latch.src = .access →
     exec .tret s = .next (s.trapEntry 0x01 0 s.latch.finfo false 0 s.base)) ∧
   (∀ s : State, s.me.csr.intrap = true → s.eIdle = true →
     Safety.Answers .tret s fun t =>
       t.me.csr.intrap = false ∧ t.me.pc = s.me.csr.aepc.val ∧ t.me.csr.cmark = s.me.csr.cmark ∧
       t.me.trapFrame.valid = false ∧ t.me.run = s.me.run ∧ t.mem = s.mem ∧
       (s.me.trapFrame.valid = true →
         t.me.bq = s.me.trapFrame.bq ∧ t.me.equeue.length = s.me.trapFrame.eq.length ∧
         t.me.wheel.act = s.me.trapFrame.wact ∧ t.me.wheel.repcnt = s.me.trapFrame.wrepcnt ∧
         t.me.wheel.repix = s.me.trapFrame.wrepix) ∧
       t.me.csr = { s.me.csr with intrap := false } ∧
       (∀ n, (∀ w, s.me.trapFrame.valid = true → w ∈ s.me.trapFrame.windows → w.file = .x → w.reg ≠ n) →
         t.me.regs.getX n = s.me.regs.getX n) ∧
       (∀ n, (∀ w, s.me.trapFrame.valid = true → w ∈ s.me.trapFrame.windows → w.file = .v → w.reg ≠ n) →
         t.me.regs.getV n = s.me.regs.getV n) ∧
       (∀ n, (∀ w, s.me.trapFrame.valid = true → w ∈ s.me.trapFrame.windows → w.file = .k → w.reg ≠ n) →
         t.me.regs.getK n = s.me.regs.getK n)) ∧
   (∀ s : State, s.me.csr.intrap = true → s.eIdle = false → s.latch.src = .access →
     Safety.Answers .tret s fun t =>
       t.me.aWait.isSome = true ∧ t = s.setMe { s.me with aWait := t.me.aWait }))

/-! ## Page 0: arithmetic and moves -/

/-- The register forms of one cycle (R112, Table 4.1): D := X(A) op X(B), with the join of both marks and CMARK; a write
to x0 is discarded (R11); nothing else changes. The immediate forms (R115, R116, Table 4.4): D := X(B) op I with the
join of B's mark and CMARK; LI reads no register, so its mark is CMARK alone. MV and CMOV (R119): MV copies A with A's
mark; CMOV moves only where X(B) is not 0, and in either case takes the join of the marks of the old D, of A and of B,
and CMARK. -/
def Obligations.ScalarArithmetic : Prop :=
  (∀ (s : State) (d a b : Reg),
     let x := s.x a
     let y := s.x b
     let gives (i : Instr) (v : Word) : Prop :=
       Safety.Answers i s fun t => Safety.WroteX s t d v (s.xm a ||| s.xm b ||| s.base)
     gives (.add d a b) (x + y) ∧ gives (.sub d a b) (x - y) ∧
     gives (.and d a b) (x &&& y) ∧ gives (.or d a b) (x ||| y) ∧ gives (.xor d a b) (x ^^^ y) ∧
     gives (.sll d a b) (x <<< (y.extractLsb' 0 6).toNat) ∧ gives (.srl d a b) (x >>> (y.extractLsb' 0 6).toNat) ∧
     gives (.sra d a b) (x.sshiftRight (y.extractLsb' 0 6).toNat) ∧
     gives (.slt d a b) (if x.toInt < y.toInt then 1 else 0) ∧
     gives (.sltu d a b) (if x.toNat < y.toNat then 1 else 0) ∧
     gives (.min d a b) (if x.toInt ≤ y.toInt then x else y) ∧
     gives (.max d a b) (if x.toInt ≤ y.toInt then y else x) ∧
     gives (.minu d a b) (if x.toNat ≤ y.toNat then x else y) ∧
     gives (.maxu d a b) (if x.toNat ≤ y.toNat then y else x)) ∧
  (∀ (s : State) (d b : Reg) (imm : Word) (sh : BitVec 6),
     let x := s.x b
     let gives (i : Instr) (v : Word) : Prop :=
       Safety.Answers i s fun t => Safety.WroteX s t d v (s.xm b ||| s.base)
     gives (.addi d b imm) (x + imm) ∧ gives (.andi d b imm) (x &&& imm) ∧ gives (.ori d b imm) (x ||| imm) ∧
     gives (.xori d b imm) (x ^^^ imm) ∧ gives (.slli d b sh) (x <<< sh.toNat) ∧ gives (.srli d b sh) (x >>> sh.toNat) ∧
     gives (.srai d b sh) (x.sshiftRight sh.toNat) ∧
     gives (.slti d b imm) (if x.toInt < imm.toInt then 1 else 0) ∧
     gives (.sltiu d b imm) (if x.toNat < imm.toNat then 1 else 0) ∧
     Safety.Answers (.li d imm) s fun t => Safety.WroteX s t d imm s.base) ∧
  (∀ (s : State) (d a b : Reg),
     (Safety.Answers (.mv d a) s fun t => Safety.WroteX s t d (s.x a) (s.xm a ||| s.base)) ∧
     (Safety.Answers (.cmov d a b) s fun t =>
       Safety.WroteX s t d (if s.x b = 0 then s.x d else s.x a) (s.xm d ||| s.xm a ||| s.xm b ||| s.base)))

/-- CLZ, CTZ, POPC and BREV (R117): the number of leading zeros, of trailing zeros and of set bits, each 64 at most, and
the bits in reverse order; the mark is the join of A's mark and CMARK. BEXT takes l bits of X(A) from position p and
extends them; BINS puts the low l bits of X(A) at position p of X(D) (R118): p := X(B)[5:0], l := X(B)[11:6] + 1, and
X(B)[12] selects the sign for BEXT. -/
def Obligations.BitOperations : Prop :=
  (∀ (s : State) (d a : Reg),
     let x := s.x a
     let gives (i : Instr) (p : Word → Prop) : Prop :=
       ∃ v, p v ∧ Safety.Answers i s fun t => Safety.WroteX s t d v (s.xm a ||| s.base)
     gives (.clz d a) (fun v => v.toNat ≤ 64 ∧ (∀ j, j < v.toNat → x.getLsbD (63 - j) = false) ∧
       (v.toNat < 64 → x.getLsbD (63 - v.toNat) = true)) ∧
     gives (.ctz d a) (fun v => v.toNat ≤ 64 ∧ (∀ j, j < v.toNat → x.getLsbD j = false) ∧
       (v.toNat < 64 → x.getLsbD v.toNat = true)) ∧
     gives (.popc d a) (fun v => v.toNat = (List.range 64).countP fun j => x.getLsbD j) ∧
     gives (.brev d a) (fun v => ∀ j, j < 64 → v.getLsbD (63 - j) = x.getLsbD j)) ∧
  (∀ (s : State) (d a b : Reg),
     let p := ((s.x b).extractLsb' 0 6).toNat
     let l := ((s.x b).extractLsb' 6 6).toNat + 1
     (∃ v, (∀ j, j < 64 → v.getLsbD j =
         if j < l then (s.x a).getLsbD (p + j) else (s.x b).getLsbD 12 && (s.x a).getLsbD (p + l - 1)) ∧
       Safety.Answers (.bext d a b) s fun t => Safety.WroteX s t d v (s.xm a ||| s.xm b ||| s.base)) ∧
     (∃ v, (∀ j, j < 64 → v.getLsbD j = if p ≤ j ∧ j < p + l then (s.x a).getLsbD (j - p) else (s.x d).getLsbD j) ∧
       Safety.Answers (.bins d a b) s fun t => Safety.WroteX s t d v (s.xm d ||| s.xm a ||| s.xm b ||| s.base)))

/-- The multiply and divide forms (R112, R113, R84): the products and their high halves, and quotients and remainders
by R113; without a window the old value is gone at once, with one it is kept for the instructions that the window
covers. A fifth window waits (R85): the form waits at issue, and nothing but its wait changes. R113 as arithmetic of
integers: where the divisor is not 0 and the quotient fits, the dividend is the divisor times the quotient plus the
remainder, the quotient is truncated toward zero, and the remainder takes the sign of the dividend; in the two other
cases R113 names the results. -/
def Obligations.LongArithmetic : Prop :=
  (∀ (s : State) (d a b : Reg) (w : Win),
     let x := s.x a
     let y := s.x b
     let gives (i : Instr) (v : Word) : Prop :=
       (Safety.MayOpen s w d → Safety.Answers i s fun t =>
         Safety.WroteX s t d v (s.xm a ||| s.xm b ||| s.base) (winLen w) ∧ Safety.WindowedX s t w d ∧
         (w.la = 0 → ∀ x, x ∈ t.me.windows → ¬(x.file = .x ∧ x.reg = d.toNat))) ∧
       (¬Safety.MayOpen s w d → s.latch.src = .access → Safety.Answers i s fun t => Safety.Waits s t 0 0)
     gives (.mul d a b w) (x * y) ∧
     gives (.mulh d a b w) ((x.signExtend 128 * y.signExtend 128).extractLsb' 64 64) ∧
     gives (.mulhu d a b w) ((x.setWidth 128 * y.setWidth 128).extractLsb' 64 64) ∧
     gives (.div d a b w) (if y = 0 then -1 else if x = 0x8000000000000000 ∧ y = -1 then 0x8000000000000000
       else BitVec.ofInt 64 (x.toInt.tdiv y.toInt)) ∧
     gives (.rem d a b w) (if y = 0 then x else if x = 0x8000000000000000 ∧ y = -1 then 0
       else BitVec.ofInt 64 (x.toInt - y.toInt * x.toInt.tdiv y.toInt)) ∧
     gives (.divu d a b w) (if y = 0 then -1 else x / y) ∧
     gives (.remu d a b w) (if y = 0 then x else x % y)) ∧
  ((∀ a b : Word, b ≠ 0 → ¬(a = 0x8000000000000000 ∧ b = -1) →
     a.toInt = b.toInt * (divS a b).toInt + (remS a b).toInt ∧
     (remS a b).toInt.natAbs < b.toInt.natAbs ∧ (0 ≤ a.toInt → 0 ≤ (remS a b).toInt) ∧
     (a.toInt ≤ 0 → (remS a b).toInt ≤ 0)) ∧
   (∀ a b : Word, b ≠ 0 → a.toNat = b.toNat * (divU a b).toNat + (remU a b).toNat ∧ (remU a b).toNat < b.toNat) ∧
   (∀ a : Word, divS a 0 = -1 ∧ remS a 0 = a ∧ divU a 0 = -1 ∧ remU a 0 = a) ∧
   divS 0x8000000000000000 (-1) = 0x8000000000000000 ∧ remS 0x8000000000000000 (-1) = 0)

/-! ## Page 0: local memory -/

/-- LD and LDP (R120, R121, R122): an access within the thread's ranges reads its bytes little-endian and sign-extends
them; the result mark joins the marks of the lines read, the address mark and CMARK; memory does not change. ST and
STP (R120, R121, R122, R28): an access within the thread's ranges, under the ceilings of the scratchpad, writes the
low bytes of X(D) little-endian, and joins the marks of the data and of the address and CMARK into each line; every
other byte and every register stays. What ST.D stores, a later LD.D of the same address loads: the value comes back
bit for bit, from every state whose memory has the canonical form. -/
def Obligations.LocalMemory : Prop :=
  (∀ (s : State) (z : BitVec 2) (d a : Reg) (off : Word) (l : Nat),
     let n := 2 ^ z.toNat
     let m := s.mem.markOf l n ||| s.xm a ||| s.base
     let m2 := s.mem.markOf l (2 * n) ||| s.xm a ||| s.base
     (Safety.LocalAt s (s.x a + off) n l → Safety.Clean s l n →
       Safety.Answers (.ld z d a off) s fun t =>
         Safety.WroteX s t d (signExt (ofBytes (s.mem.read l n)) (8 * n)) m) ∧
     (Safety.LocalAt s (s.x a + off) (2 * n) l → Safety.Clean s l (2 * n) → d.toNat % 2 = 0 →
       Safety.Answers (.ldp z d a off) s fun t =>
         Safety.XHolds t d.toNat (signExt (ofBytes (s.mem.read l n)) (8 * n)) m2 ∧
         Safety.XHolds t (d.toNat + 1) (signExt (ofBytes (s.mem.read (l + n) n)) (8 * n)) m2 ∧
         Safety.XKept s t [d.toNat, d.toNat + 1] ∧ Safety.VKept s t [] ∧ Safety.KKept s t [] ∧
         Safety.WindowsEnded s t [d.toNat, d.toNat + 1] ∧
         Safety.ControlKept s t ∧ Safety.Passed s t ∧ Safety.OnlyThread s t)) ∧
  (∀ (s : State) (z : BitVec 2) (d a : Reg) (off : Word) (l : Nat), s.mem.wf = true →
     let n := 2 ^ z.toNat
     let m := s.xm d ||| s.xm a ||| s.base
     let m2 := s.xm d ||| s.xm (d + 1) ||| s.xm a ||| s.base
     (Safety.LocalAt s (s.x a + off) n l → Safety.Clean s l n → Safety.UnderCeil s l n m →
       Safety.Answers (.st z d a off) s fun t => Safety.WroteMem s t l n (s.x d).toNat m) ∧
     (Safety.LocalAt s (s.x a + off) (2 * n) l → Safety.Clean s l (2 * n) → Safety.UnderCeil s l (2 * n) m2 →
       d.toNat % 2 = 0 →
       Safety.Answers (.stp z d a off) s fun t =>
         Safety.WroteMem s t l (2 * n)
           ((s.x d).toNat % 256 ^ n + (s.x (d + 1)).toNat % 256 ^ n * 256 ^ n) m2)) ∧
  (∀ (s t : State) (d e a b : Reg) (off off2 : Word) (l : Nat) (next : Latch), s.mem.wf = true →
     s.latch.src = .access → next.src = .access →
     Safety.LocalAt s (s.x a + off) 8 l → Safety.Clean s l 8 → Safety.UnderCeil s l 8 (s.xm d ||| s.xm a ||| s.base) →
     exec (.st 3 d a off) s = .next t →
     let u : State := { t with latch := next }
     u.x b + off2 = s.x a + off → e ≠ 0 →
     Safety.Answers (.ld 3 e b off2) u fun v => (v.me.regs.getX e.toNat).val = s.x d)

/-- An access of the local window that leaves the thread's ranges traps before any byte moves (R25, R26, R27, R43, R120,
R351): it raises BOUNDS with FADDR the first address and FINFO the reason and the write bit. An address whose bits
[63:62] are not 00, and every offset outside local memory and, on a compute core, the scratchpad, is a hole, reason 0;
an access that begins in one of the two memories outside the thread's range there has reason 1, one that begins in the
range and passes its end or the memory's reason 2, and one in the range that meets an enabled versioned window
reason 5. -/
def Obligations.LocalBounds : Prop :=
  ∀ (s : State) (z : BitVec 2) (d a : Reg) (off : Word),
    let x := s.x a + off
    let w := s.agent.lwin
    let m := s.trapMark (.ld z d a off)
    let ms := s.trapMark (.st z d a off)
    let traps (r : Nat) : Prop :=
      exec (.ld z d a off) s = .next (s.trapEntry 0x06 x (word (2 * r)) false 0 m) ∧
      exec (.st z d a off) s = .next (s.trapEntry 0x06 x (word (2 * r + 1)) false 0 ms)
    let n := 2 ^ z.toNat
    let o := x.toNat
    let lo := 64 * field w 19 10
    let hi := lo + 64 * field w 31 21
    let spad := isCompute s.cur.unit = true ∧ 0x100000 ≤ o ∧ o < 0x200000
    let slo := 0x100000 + 512 * field w 50 40
    let shi := slo + 512 * field w 63 52
    (field x 63 62 ≠ 0 → traps 0) ∧
    (field x 63 62 = 0 → 0x10000 ≤ o → ¬spad → traps 0) ∧
    (o < 0x10000 → (o < lo ∨ hi ≤ o) → traps 1) ∧
    (o < 0x10000 → lo ≤ o → o < hi → (hi < o + n ∨ 0x10000 < o + n) → traps 2) ∧
    (spad → (o < slo ∨ shi ≤ o) → traps 1) ∧
    (spad → slo ≤ o → o < shi → (shi < o + n ∨ 0x200000 < o + n) → traps 2) ∧
    (spad → slo ≤ o → o + n ≤ shi → o + n ≤ 0x200000 →
      s.inWindow (clusterOf s.cur.unit) (o - 0x100000) n = true → traps 5)

/-! ## Page 0: branches and jumps -/

/-- The conditional branches (R123, R37): the operands' marks join CMARK whether or not the branch is taken; the target is
the branch's own address plus twice the offset; no register and no memory changes. The jumps (R124, R125): J and JAL
go to their own address plus twice the offset, and JAL links in x1 with mark CMARK; JR and JALR go to X(A) with bit 0
cleared, read before the link is written, and join A's mark into CMARK first, so that the link's mark includes it. -/
def Obligations.ControlFlow : Prop :=
  (∀ (s : State) (a b : Reg) (off : Word),
     let x := s.x a
     let y := s.x b
     let goes (i : Instr) (taken : Prop) : Prop :=
       Safety.Answers i s fun t =>
         (taken → t.me.pc = s.latch.addr + 2 * off) ∧ (¬taken → Safety.Passed s t) ∧
         t.me.csr = { s.me.csr with cmark := s.me.csr.cmark ||| (s.xm a ||| s.xm b) } ∧
         t.me.regs = s.me.regs ∧ Safety.WindowsSame s t ∧ Safety.OnlyThread s t
     goes (.beq a b off) (x = y) ∧ goes (.bne a b off) (x ≠ y) ∧
     goes (.blt a b off) (x.toInt < y.toInt) ∧ goes (.bge a b off) (y.toInt ≤ x.toInt) ∧
     goes (.bltu a b off) (x.toNat < y.toNat) ∧ goes (.bgeu a b off) (y.toNat ≤ x.toNat)) ∧
  (∀ (s : State) (d a : Reg) (off : Word), s.latch.src = .access →
     let next := s.latch.addr + word s.latch.len
     (Safety.Answers (.j off) s fun t => t.me.pc = s.latch.addr + 2 * off ∧ t.me.regs = s.me.regs ∧
       Safety.WindowsSame s t ∧ t.me.csr = s.me.csr ∧ Safety.OnlyThread s t) ∧
     (Safety.Answers (.jal off) s fun t => t.me.pc = s.latch.addr + 2 * off ∧ Safety.XHolds t 1 next s.base ∧
       Safety.XKept s t [1] ∧ Safety.WindowsEnded s t [1] ∧ t.me.csr = s.me.csr ∧ Safety.OnlyThread s t) ∧
     (Safety.Answers (.jr a) s fun t => t.me.pc = s.x a &&& 0xFFFFFFFFFFFFFFFE ∧ t.me.regs = s.me.regs ∧
       Safety.WindowsSame s t ∧
       t.me.csr = { s.me.csr with cmark := s.me.csr.cmark ||| s.xm a } ∧ Safety.OnlyThread s t) ∧
     (Safety.Answers (.jalr d a) s fun t => t.me.pc = s.x a &&& 0xFFFFFFFFFFFFFFFE ∧
       Safety.XHolds t d.toNat next (s.me.csr.cmark ||| s.xm a) ∧ Safety.XKept s t [d.toNat] ∧
       Safety.WindowsEnded s t [d.toNat] ∧
       t.me.csr = { s.me.csr with cmark := s.me.csr.cmark ||| s.xm a } ∧ Safety.OnlyThread s t))

/-! ## Page 0: control registers -/

/-- CSRR (R22, R23, R128): it completes for every register of Table 1.2, D taking the register's value with the join
of its mark and CMARK and nothing else changing, but for the time base, whose reading the thread remembers; a read of
CPLAUNCH is a row of its own. FFLAGS, WSTAT, BQSTAT and the fibre coordinates wait, with nothing changed but the wait,
until every earlier E-side instruction has completed (R35, R192), and the coordinates of an open fibre slot are those
at which the slot then stands. A read of the time base (R22, R465) gives a value within 2 ticks of the package time
base at issue, never one below the thread's last reading; only a last reading that lies ahead, after the reference was
stepped back, by at most 4 ticks of what the core's copy shows, is given again (the copy's offset and this bound are
the model's, log entry 12). What the registers hold: Tables 1.3 to 1.10, 3.10 to 3.13, 4.8, 6.7, 14.2, 17.8 and 17.10,
with WSTAT and BQSTAT as saved while INTRAP = 1 (R41); that a core other than a compute core keeps the reset values of
HPBASE and HPLEN is DEDUCED, log entry 28. -/
def Obligations.ControlRegisterReads : Prop :=
  ((∀ (s : State) (d : Reg) (c : BitVec 6), csNumbers.contains c.toNat = true → c ≠ 0x11 → c ≠ 0x1F →
      ((c = 0x08 ∨ c = 0x0B ∨ c = 0x0C ∨ c = 0x0E ∨ c = 0x0F) → s.eIdle = true) →
      (c = 0x0E ∨ c = 0x0F → ∀ u f, s.advance.settle (c.toNat - 0x0E) = .ok (u, f) → f.opened = false) →
      Safety.Answers (.csrr d c) s fun t =>
        Safety.WroteX s t d (s.csrGet c.toNat).val ((s.csrGet c.toNat).mark ||| s.base)) ∧
   (∀ (s u : State) (d : Reg) (c : BitVec 6) (f : Fibre), c = 0x0E ∨ c = 0x0F → s.eIdle = true →
      s.advance.settle (c.toNat - 0x0E) = .ok (u, f) → f.opened = true →
      let v := u.setFibre (c.toNat - 0x0E) f
      Safety.Answers (.csrr d c) s fun t =>
        Safety.WroteX v t d (v.csrGet c.toNat).val ((v.csrGet c.toNat).mark ||| v.base)) ∧
   (∀ (s : State) (d : Reg) (c : BitVec 6), (c = 0x08 ∨ c = 0x0B ∨ c = 0x0C ∨ c = 0x0E ∨ c = 0x0F) →
      s.eIdle = false → s.latch.src = .access → Safety.Answers (.csrr d c) s fun t => Safety.Waits s t 0 0)) ∧
  (∀ (s : State) (d : Reg), Safety.Answers (.csrr d 0x11) s fun t =>
     Safety.XHolds t d.toNat t.me.tread s.base ∧
     (2 ≤ s.tbase.toNat → s.tbase.toNat + 8 < 2 ^ 64 → s.me.tread.toNat ≤ s.tbase.toNat + 2 →
       s.tbase.toNat ≤ t.me.tread.toNat + 2 ∧ t.me.tread.toNat ≤ s.tbase.toNat + 2 ∧
       s.me.tread.toNat ≤ t.me.tread.toNat) ∧
     ((t.me.tread - s.tbase + 2).toNat ≤ 4 ∨
       (t.me.tread = s.me.tread ∧ (s.me.tread - s.tbase + 2).toNat ≤ 8)) ∧
     Safety.XKept s t [d.toNat] ∧ Safety.VKept s t [] ∧ Safety.KKept s t [] ∧
     Safety.WindowsAfter s t .x d.toNat 0 ∧ Safety.Passed s t ∧
     { t.me with regs := s.me.regs, windows := s.me.windows, pc := s.me.pc, seq := s.me.seq, aWait := s.me.aWait
                 tread := s.me.tread } = s.me ∧
     { t with threads := s.threads, free := s.free } = s ∧ ∀ k, k ≠ s.cur.key → t.threadAt k = s.threadAt k) ∧
  (∀ s : State,
     let u := s.cur.unit
     let wheel := if s.me.csr.intrap then (s.me.trapFrame.wact, s.me.trapFrame.wlen, s.me.trapFrame.wrepcnt,
       s.me.trapFrame.wrepix) else (s.me.wheel.act, s.me.wheel.len, s.me.wheel.repcnt, s.me.wheel.repix)
     let q := if s.me.csr.intrap then s.me.trapFrame.bq else s.me.bq
     ((s.csrGet 0x00).val.getLsbD 0 = s.me.csr.intrap ∧ (s.csrGet 0x00).val.getLsbD 1 = s.me.csr.priv ∧
      (s.csrGet 0x00).val.getLsbD 2 = s.me.csr.gcp ∧ field (s.csrGet 0x00).val 12 11 = s.cur.ht % 4 ∧
      field (s.csrGet 0x00).val 10 8 =
        (if isCompute u then 0 else if isChannel u then 1 else if isDcp u then 2 else 3) ∧
      s.csrGet 0x01 = s.me.csr.cause ∧ s.csrGet 0x02 = s.me.csr.epc ∧ s.csrGet 0x03 = s.me.csr.aepc ∧
      s.csrGet 0x04 = s.me.csr.faddr ∧ s.csrGet 0x05 = s.me.csr.finfo ∧ s.csrGet 0x06 = s.me.csr.tvec ∧
      s.csrGet 0x07 = s.me.csr.evec ∧ s.csrGet 0x08 = s.me.csr.fflags ∧ s.csrGet 0x09 = s.me.csr.frm ∧
      (s.csrGet 0x0A).val = s.me.csr.cmark.setWidth 64 ∧ s.csrGet 0x0D = s.me.csr.lwin ∧
      s.csrGet 0x10 = s.me.csr.widb ∧ s.csrGet 0x12 = s.me.csr.mstep ∧
      (∀ j : Fin 7, s.csrGet (0x18 + j.val) = s.me.csr.shadows[j])) ∧
     ((s.csrGet 0x0B).mark = s.me.csr.wstatMark ∧
      (wheel.2.1 < 32 → wheel.2.2.1 < 2 ^ 16 → wheel.2.2.2 < 32 →
        let v := (s.csrGet 0x0B).val
        v.getLsbD 15 = wheel.1 ∧ field v 12 8 = wheel.2.1 ∧ field v 47 32 = wheel.2.2.1 ∧
        field v 4 0 = wheel.2.2.2 ∧ field v 63 48 = 0 ∧ field v 31 16 = 0 ∧ field v 14 13 = 0 ∧ field v 7 5 = 0 ∧
        (s.csrGet 0x00).val.getLsbD 3 = wheel.1) ∧
      (s.csrGet 0x0C).mark = q.bqm ∧
      (q.outs.length ≤ 16 →
        let v := (s.csrGet 0x0C).val
        field v 63 48 = q.bqm.toNat ∧ field v 36 32 = q.outs.length ∧
        (∀ j, j < 16 → v.getLsbD j = q.outs.getD j false) ∧ field v 31 16 = 0 ∧ field v 47 37 = 0)) ∧
     (∀ n : Fin 2,
        let f := s.fibre n.val
        let r := s.csrGet (0x0E + n.val)
        r.mark = f.fm ∧ r.val.getLsbD 63 = f.opened ∧ r.val.getLsbD 62 = f.ended ∧ r.val.getLsbD 61 = f.pres ∧
        r.val.getLsbD 60 = (n == 0 && s.me.pend) ∧ r.val.getLsbD 59 = f.err ∧ field r.val 58 32 = 0 ∧
        (f.coord < 2 ^ 32 → field r.val 31 0 = f.coord)) ∧
     ((s.csrGet 0x13).mark = joins (s.me.mailbox.map (·.mark)) ∧
      (s.me.mailbox.length ≤ 8 →
        let v := (s.csrGet 0x13).val
        field v 3 0 = s.me.mailbox.length ∧ field v 7 4 = 0 ∧ field v 63 12 = 0 ∧
        field v 11 8 = (match s.me.mailbox with
          | [] => 0
          | x :: _ => field x.val 63 60)) ∧
      (s.csrGet 0x14).mark = (s.core u).ctxpMark ∧
      ((s.core u).sel < 4 →
        field (s.csrGet 0x14).val 1 0 = (s.core u).sel ∧ field (s.csrGet 0x14).val 15 2 = 0 ∧
        field (s.csrGet 0x14).val 63 20 = 0 ∧
        ∀ j : Fin 4, (s.csrGet 0x14).val.getLsbD (16 + j.val) = (s.core u).sets[j].loaded)) ∧
     (s.csrGet 0x20 = plain 0x030301FF ∧ s.csrGet 0x21 = plain 3 ∧ s.csrGet 0x22 = plain 0x0000040444102020 ∧
      (s.csrGet 0x23).val.toNat = (if isCompute u then 4 else 2) + (if isSec u then 1 else 0) ∧
      (isCompute u = true → ∀ p, s.partOfCore u = some p → p < 64 → (s.part p).base < 2 ^ 12 → (s.part p).len < 2 ^ 13 →
        (s.csrGet 0x24).val.getLsbD 63 = true ∧ field (s.csrGet 0x24).val 21 16 = p ∧
        field (s.csrGet 0x24).val 11 0 = (s.part p).base ∧ field (s.csrGet 0x24).val 62 22 = 0 ∧
        field (s.csrGet 0x24).val 15 12 = 0 ∧ (s.csrGet 0x25).val.toNat = (s.part p).len) ∧
      (isCompute u = true → s.partOfCore u = none → (s.csrGet 0x24).val.getLsbD 63 = false) ∧
      (isCompute u = false → s.csrGet 0x24 = plain 0x8000000000000000 ∧ s.csrGet 0x25 = plain 0x1000)))

/-- CSRW, CSRS and CSRC (R23, R128): the RW fields take X(D), or OR it in, or clear it out; the mark becomes the
instruction's, joined with the old one where the old value is read, for CSRS and CSRC (DEDUCED, log entry 48); the
reserved fields of LWIN, CPLEN and CPMESH keep reading zero (R4, R5); every other control register and every register
stays. A register that only PRIV = 1 may write raises ILL in user mode, whatever it would write, and a write of an RO
register has no effect. A write of FRM.MODE with 5 to 7 leaves MODE unchanged and still sets the register's mark, and
so does a CSRS or CSRC that would set such a value (R128, Table 1.7). -/
def Obligations.ControlRegisterWrites : Prop :=
  (∀ (s : State) (d : Reg) (c : BitVec 6),
     let old := s.csrGet c.toNat
     let writes (i : Instr) (v : Word) (m : Mark) (rw : Word) : Prop :=
       Safety.Answers i s fun t =>
         t.csrGet c.toNat = ⟨(v &&& rw) ||| (old.val &&& ~~~rw), m⟩ ∧
         (∀ k, csNumbers.contains k = true → k ≠ c.toNat → t.csrGet k = s.csrGet k) ∧
         t.me.regs = s.me.regs ∧ Safety.WindowsSame s t ∧ Safety.Passed s t ∧ Safety.OnlyThread s t
     let all (rw : Word) : Prop :=
       writes (.csrw d c) (s.x d) (s.xm d ||| s.base) rw ∧
       writes (.csrs d c) (old.val ||| s.x d) (s.xm d ||| s.base ||| old.mark) rw ∧
       writes (.csrc d c) (old.val &&& ~~~s.x d) (s.xm d ||| s.base ||| old.mark) rw
     ((c = 0x02 ∨ c = 0x03 ∨ c = 0x06 ∨ c = 0x07 ∨ c = 0x18 ∨ c = 0x19 ∨ c = 0x1B ∨ c = 0x1C ∨ c = 0x1D) → all (~~~0)) ∧
     (c = 0x08 → s.eIdle = true → all 0x1F) ∧
     (c = 0x0D → s.me.csr.priv = true → all 0xFFF7FF00FFEFFC00) ∧
     (c = 0x00 → s.me.csr.priv = true → all 0x6) ∧
     (c = 0x1A → all 0xFFFFFFFFF0FFFFFF) ∧
     (c = 0x1E → all 0xFFFFFFFE00000000) ∧
     (c = 0x09 → old.val.toNat < 5 →
       let mode (v : Word) : Word := if (v &&& 7).toNat < 5 then v else old.val
       writes (.csrw d c) (mode (s.x d)) (s.xm d ||| s.base) 7 ∧
       writes (.csrs d c) (mode (old.val ||| s.x d)) (s.xm d ||| s.base ||| old.mark) 7 ∧
       writes (.csrc d c) (mode (old.val &&& ~~~s.x d)) (s.xm d ||| s.base ||| old.mark) 7) ∧
     ((c = 0x00 ∨ c = 0x0D) → s.me.csr.priv = false →
       exec (.csrw d c) s = .next (s.trapEntry 0x01 0 s.latch.finfo false 0 (s.trapMark (.csrw d c))) ∧
       exec (.csrs d c) s = .next (s.trapEntry 0x01 0 s.latch.finfo false 0 (s.trapMark (.csrs d c))) ∧
       exec (.csrc d c) s = .next (s.trapEntry 0x01 0 s.latch.finfo false 0 (s.trapMark (.csrc d c)))) ∧
     ((c = 0x01 ∨ c = 0x04 ∨ c = 0x05 ∨ c = 0x0A ∨ c = 0x0B ∨ c = 0x0C ∨ c = 0x0E ∨ c = 0x0F ∨ c = 0x10 ∨ c = 0x11 ∨
         c = 0x12 ∨ c = 0x13 ∨ c = 0x1F ∨ (0x20 ≤ c.toNat ∧ c.toNat ≤ 0x25)) →
       Safety.Answers (.csrw d c) s (Safety.NoEffect s) ∧ Safety.Answers (.csrs d c) s (Safety.NoEffect s) ∧
       Safety.Answers (.csrc d c) s (Safety.NoEffect s))) ∧
  (∀ (s : State) (d : Reg), 5 ≤ (s.x d &&& 7).toNat → s.me.csr.frm.val.toNat < 5 →
     Safety.Answers (.csrw d 0x09) s fun t =>
       t.me.csr.frm = ⟨s.me.csr.frm.val, s.xm d ||| s.base⟩ ∧ t.me.regs = s.me.regs ∧ Safety.OnlyThread s t)

/-! ## Page 0: system forms -/

/-- NOP has no effect (R130). WFE of a pending line clears that bit and completes; otherwise it waits (R134). WFM
completes, removing nothing, while a message is held, and waits otherwise (R138). MBRD removes the oldest message into
D, with the join of its mark and CMARK, and waits on an empty mailbox (R139). BQPUSH appends the outcome X(A) ≠ 0 and
joins A's mark and CMARK into BQM; it waits while the queue holds 16, and raises ILL in a handler (R127, R41). EVSIG
sets the line X(A)[5:0] of thread X(A)[7:6] of core X(A)[10:8] of the cluster, or of the same core outside a cluster,
and changes no register, no other line and no byte of memory (R136). -/
def Obligations.SystemForms : Prop :=
  (∀ (s : State) (d a : Reg) (line : BitVec 6), s.latch.src = .access →
     Safety.Answers .nop s (Safety.NoEffect s) ∧
     (s.me.lines.getLsbD line.toNat = true →
       Safety.Answers (.wfe line) s fun t =>
         t.me.lines.getLsbD line.toNat = false ∧
         (∀ j, j ≠ line.toNat → t.me.lines.getLsbD j = s.me.lines.getLsbD j) ∧
         t.me.regs = s.me.regs ∧ Safety.WindowsSame s t ∧ t.me.csr = s.me.csr ∧ Safety.Passed s t ∧
         Safety.OnlyThread s t) ∧
     (s.me.lines.getLsbD line.toNat = false → Safety.Patient s 6 →
       Safety.Answers (.wfe line) s fun t => Safety.Waits s t 6 line.toNat) ∧
     (s.me.mailbox ≠ [] → Safety.Answers .wfm s (Safety.NoEffect s)) ∧
     (s.me.mailbox = [] → Safety.Patient s 7 →
       Safety.Answers .wfm s (fun t => Safety.Waits s t 7 0) ∧ Safety.Answers (.mbrd d) s fun t => Safety.Waits s t 7 0) ∧
     (∀ m rest, s.me.mailbox = m :: rest →
       Safety.Answers (.mbrd d) s fun t =>
         t.me.mailbox = rest ∧ Safety.XHolds t d.toNat m.val (m.mark ||| s.base) ∧ Safety.XKept s t [d.toNat] ∧
         Safety.VKept s t [] ∧ Safety.KKept s t [] ∧ Safety.WindowsEnded s t [d.toNat] ∧
         t.me.csr = s.me.csr ∧ Safety.Passed s t ∧ Safety.OnlyThread s t) ∧
     (s.me.csr.intrap = false → s.me.bq.outs.length < 16 →
       Safety.Answers (.bqpush a) s fun t =>
         t.me.bq.outs = s.me.bq.outs ++ [decide (s.x a ≠ 0)] ∧ t.me.bq.bqm = s.me.bq.bqm ||| s.xm a ||| s.base ∧
         t.me.regs = s.me.regs ∧ Safety.WindowsSame s t ∧ t.me.csr = s.me.csr ∧ Safety.Passed s t ∧
           Safety.OnlyThread s t) ∧
     (s.me.csr.intrap = false → 16 ≤ s.me.bq.outs.length → Safety.Patient s 8 →
       Safety.Answers (.bqpush a) s fun t => Safety.Waits s t 8 0) ∧
     (s.me.csr.intrap = true →
       exec (.bqpush a) s = .next (s.trapEntry 0x01 0 s.latch.finfo false 0 (s.trapMark (.bqpush a))))) ∧
  (∀ (s : State) (a : Reg),
     let v := s.x a
     let u := if isCompute s.cur.unit then s.cur.unit / 8 * 8 + (v.extractLsb' 8 3).toNat else s.cur.unit
     let who : ThreadId := ⟨u, if u = s.cur.unit then s.cur.set else (s.core u).sel, (v.extractLsb' 6 2).toNat⟩
     let line := (v.extractLsb' 0 6).toNat
     Safety.Answers (.evsig a) s fun t =>
       (t.thread who).lines.getLsbD line = true ∧
       (∀ k j, j < 64 → (k ≠ who.key ∨ j ≠ line) → (t.threadAt k).lines.getLsbD j = (s.threadAt k).lines.getLsbD j) ∧
       (∀ k, (t.threadAt k).regs = (s.threadAt k).regs ∧ (t.threadAt k).csr = (s.threadAt k).csr) ∧
       t.mem = s.mem ∧ { t with threads := s.threads } = s ∧ (who.key ≠ s.cur.key → Safety.Passed s t))

/-! ## Page 1: lanes -/

/-- The floating-point forms of one latency (R144, R145, Table 5.1): each selected lane is the rounded result of the
operation on the lanes, in FRM.MODE; a masked lane keeps its value; the mark follows R13 and R36; FFLAGS gains the
flags of the selected lanes; nothing else changes. The special operands of Table 2.4 (R51, R52, R144, R145): a NaN
operand gives the canonical NaN, with NV when one is signalling; infinities that cancel, 0 · ∞, 0 / 0 and ∞ / ∞ give
the canonical NaN with NV; a finite number over 0 gives an infinity with DZ; an exact sum of 0 is +0, and -0 in RDN,
unless both terms have one sign. -/
def Obligations.FloatArithmetic : Prop :=
  (∀ (s : State) (f : FpTy) (d a b : Reg) (k : KReg), Safety.Ready s [d, a, b] →
     let g := fmtOf f
     let x (j : Nat) : Nat := lane (s.v a) g.width j
     let y (j : Nat) : Nat := lane (s.v b) g.width j
     let z (j : Nat) : Nat := lane (s.v d) g.width j
     let m := Safety.vm s a ||| Safety.vm s b ||| Safety.km s k ||| s.base
     let two (i : Instr) (op : Nat → Nat × FFlags) : Prop := Safety.LaneResult s i d k g.width m true op
     let three (i : Instr) (op : Nat → Nat × FFlags) : Prop :=
       Safety.LaneResult s i d k g.width (m ||| Safety.vm s d) true op
     two (.vadd f d a b k) (fun j => g.add s.frm (x j) (y j)) ∧
     two (.vsub f d a b k) (fun j => g.sub s.frm (x j) (y j)) ∧
     two (.vmul f d a b k) (fun j => g.mul s.frm (x j) (y j)) ∧
     two (.vmin f d a b k) (fun j => g.minMax false (x j) (y j)) ∧
     two (.vmax f d a b k) (fun j => g.minMax true (x j) (y j)) ∧
     three (.vfma f d a b k) (fun j => g.fma s.frm false false (x j) (y j) (z j)) ∧
     three (.vfms f d a b k) (fun j => g.fma s.frm false true (x j) (y j) (z j)) ∧
     three (.vfnma f d a b k) (fun j => g.fma s.frm true false (x j) (y j) (z j)) ∧
     three (.vfnms f d a b k) (fun j => g.fma s.frm true true (x j) (y j) (z j))) ∧
  (∀ (f : FpTy) (mode a b : Nat),
     let g := fmtOf f
     let x := g.unpack a
     let y := g.unpack b
     let inval : Nat × FFlags := (g.canon, fNV)
     (x.isNan = true ∨ y.isNan = true →
       let r := (g.canon, if x = .nan true ∨ y = .nan true then fNV else 0)
       g.add mode a b = r ∧ g.sub mode a b = r ∧ g.mul mode a b = r ∧ g.div mode a b = r) ∧
     (∀ n, x = .inf n → y = .inf n → g.add mode a b = (g.infBits n, 0) ∧ g.sub mode a b = inval) ∧
     (∀ n, x = .inf n → y = .inf (!n) → g.add mode a b = inval ∧ g.sub mode a b = (g.infBits n, 0)) ∧
     (∀ n p q e, x = .inf n → y = .fin p q e → g.add mode a b = (g.infBits n, 0) ∧
       g.div mode a b = (g.infBits (n != p), 0) ∧
       g.mul mode a b = if q = 0 then inval else (g.infBits (n != p), 0)) ∧
     (x.isInf = true → y.isInf = true → g.div mode a b = inval) ∧
     (∀ p q e n, x = .fin p q e → y = .inf n → g.div mode a b = (g.sign (p != n), 0)) ∧
     (∀ p q e n h, x = .fin p q e → y = .fin n 0 h →
       g.div mode a b = if q = 0 then inval else (g.infBits (p != n), fDZ)) ∧
     (∀ p e n h, x = .fin p 0 e → y = .fin n 0 h →
       g.add mode a b = (g.sign (if p = n then p else mode = 2), 0)) ∧
     (∀ p q e, q ≠ 0 → x = .fin p q e → y = .fin (!p) q e → g.add mode a b = (g.sign (mode = 2), 0)))

/-- The floating-point forms of long latency (R147, R152, R153, R84): division and the functions of one operand lane by
lane, VDOT4 on 32-bit lanes, and VRED, whose result stands in lane 0 with every other lane 0 and the result mark
alone; each leaves D's old value to the instructions of its window. A fifth window waits (R85): the form waits at issue,
and nothing but its wait changes. -/
def Obligations.LongVectorForms : Prop :=
  ∀ (s : State) (f : FpTy) (d a b : Reg) (k : KReg) (w : Win), Safety.Ready s [d, a, b] →
    let open_ := s.windowsFull w .v d.toNat = false
    let fifth (i : Instr) : Prop :=
      ¬open_ → s.latch.src ≠ .access → Safety.Answers i s fun t =>
        t.me.eWait.isSome = true ∧ t.me.regs = s.me.regs ∧ Safety.WindowsSame s t ∧ t.me.csr = s.me.csr ∧
        Safety.OnlyThread s t ∧ (s.latch.src ≠ .decode → t = s.setMe { s.me with eWait := t.me.eWait })
    let g := fmtOf f
    let x (j : Nat) : Nat := lane (s.v a) g.width j
    let y (j : Nat) : Nat := lane (s.v b) g.width j
    let m1 := Safety.vm s a ||| Safety.km s k ||| s.base
    let m2 := m1 ||| Safety.vm s b
    let lanes (i : Instr) (m : Mark) (n : Nat) (float : Bool) (op : Nat → Nat × FFlags) : Prop :=
      (open_ → Safety.LaneResult s i d k n m float op (winLen w) ∧ Safety.Answers i s (Safety.Windowed s · w d)) ∧ fifth i
    let dot (t : DotTy) (float : Bool) (op : Nat → Nat → Nat → Nat × FFlags) : Prop :=
      lanes (.vdot4 t d a b k w) (m2 ||| Safety.vm s d) 32 float
        (fun j => op (lane (s.v a) 32 j) (lane (s.v b) 32 j) (lane (s.v d) 32 j))
    lanes (.vdiv f d a b k w) m2 g.width true (fun j => g.div s.frm (x j) (y j)) ∧
    lanes (.vrcp f d a k w) m1 g.width true (fun j => g.rcp s.frm (x j)) ∧
    lanes (.vrsq f d a k w) m1 g.width true (fun j => g.rsq s.frm (x j)) ∧
    lanes (.vsqrt f d a k w) m1 g.width true (fun j => g.sqrt s.frm (x j)) ∧
    lanes (.vexp2 f d a k w) m1 g.width true (fun j => g.exp2 s.frm (x j)) ∧
    dot .i8 false (fun x y z => (Safety.pattern 32 ((z : Int)
      + sint 8 x * sint 8 y + sint 8 (x / 2 ^ 8) * sint 8 (y / 2 ^ 8)
      + sint 8 (x / 2 ^ 16) * sint 8 (y / 2 ^ 16) + sint 8 (x / 2 ^ 24) * sint 8 (y / 2 ^ 24)), 0)) ∧
    dot .ui8 false (fun x y z => ((z + x % 256 * (y % 256) + x / 2 ^ 8 % 256 * (y / 2 ^ 8 % 256)
      + x / 2 ^ 16 % 256 * (y / 2 ^ 16 % 256) + x / 2 ^ 24 * (y / 2 ^ 24)) % 2 ^ 32, 0)) ∧
    dot .e4m3 true (dotLane fmtE4 s.frm) ∧ dot .e5m2 true (dotLane fmtE5 s.frm) ∧
    (∀ op : BitVec 2, op ≠ 3 →
      let ident := if op = 0 then g.sign true else g.infBits (op = 2)
      let ls := (List.range (256 / g.width)).map fun j => if (Safety.mask s k).getLsbD j then x j else ident
      let r := tree (fun p q => if op = 0 then g.add s.frm p q else g.minMax (op == 2) p q) 6 ls
      (open_ → Safety.Answers (.vred f op d a k w) s fun t =>
        Safety.WroteV s t d (BitVec.ofNat 256 (r.1 % 2 ^ g.width)) m1 (winLen w) ∧
        Safety.FlagsRaised s t (fun b => r.2.getLsbD b = true) m1 ∧ Safety.Windowed s t w d) ∧
      fifth (.vred f op d a k w))

/-- The integer and bitwise forms (R146, R149, R151, Table 5.4) raise no flag: sums, differences, products and shifts of
w-bit lanes, wrapped, saturated or halved by the control immediate; the sign bit cleared or inverted; one class bit.
-/
def Obligations.IntegerLanes : Prop :=
  ∀ (s : State) (z : BitVec 2) (d a b : Reg) (k : KReg), Safety.Ready s [d, a, b] →
    let w := 8 * 2 ^ z.toNat
    let x (j : Nat) : Nat := lane (s.v a) w j
    let y (j : Nat) : Nat := lane (s.v b) w j
    let sx (j : Nat) : Int := sint w (x j)
    let sy (j : Nat) : Int := sint w (y j)
    let n (j : Nat) : Nat := y j % w
    let m := Safety.vm s a ||| Safety.vm s b ||| Safety.km s k ||| s.base
    let gives (i : Instr) (op : Nat → Int) : Prop :=
      Safety.LaneResult s i d k w m false (fun j => (Safety.pattern w (op j), 0))
    gives (.viadd z 0 d a b k) (fun j => (x j : Int) + y j) ∧
    gives (.viadd z 1 d a b k) (fun j => Safety.satS w (sx j + sy j)) ∧
    gives (.viadd z 2 d a b k) (fun j => Safety.satU w ((x j : Int) + y j)) ∧
    gives (.visub z 0 d a b k) (fun j => (x j : Int) - y j) ∧
    gives (.visub z 1 d a b k) (fun j => Safety.satS w (sx j - sy j)) ∧
    gives (.visub z 2 d a b k) (fun j => Safety.satU w ((x j : Int) - y j)) ∧
    gives (.vimul z 0 d a b k) (fun j => (x j : Int) * y j) ∧
    gives (.vimul z 1 d a b k) (fun j => sx j * sy j / (2 : Int) ^ w) ∧
    gives (.vimul z 2 d a b k) (fun j => (x j : Int) * y j / (2 : Int) ^ w) ∧
    gives (.vimul z 3 d a b k) (fun j => Safety.satS w (sx j * sy j)) ∧
    gives (.vsh z 0 d a b k) (fun j => (x j : Int) * (2 : Int) ^ n j) ∧
    gives (.vsh z 1 d a b k) (fun j => (x j : Int) / (2 : Int) ^ n j) ∧
    gives (.vsh z 2 d a b k) (fun j => sx j / (2 : Int) ^ n j) ∧
    gives (.vand z d a b k) (fun j => (x j &&& y j : Nat)) ∧
    gives (.vor z d a b k) (fun j => (x j ||| y j : Nat)) ∧
    gives (.vxor z d a b k) (fun j => (x j ^^^ y j : Nat)) ∧
    (∀ f : FpTy,
      let g := fmtOf f
      let v (j : Nat) : Nat := lane (s.v a) g.width j
      let one (i : Instr) (op : Nat → Nat) : Prop :=
        Safety.LaneResult s i d k g.width (Safety.vm s a ||| Safety.km s k ||| s.base) false (fun j => (op j, 0))
      one (.vabs f d a k) (fun j => v j % 2 ^ (g.width - 1)) ∧
      one (.vneg f d a k) (fun j => v j ^^^ 2 ^ (g.width - 1)) ∧
      one (.vclass f d a k) (fun j => match g.unpack (v j) with
        | .nan true => 2 ^ 8
        | .nan false => 2 ^ 9
        | .inf true => 1
        | .inf false => 2 ^ 7
        | .fin true 0 _ => 2 ^ 3
        | .fin false 0 _ => 2 ^ 4
        | .fin true _ _ => if v j / 2 ^ g.p % 2 ^ g.k = 0 then 2 ^ 2 else 2
        | .fin false _ _ => if v j / 2 ^ g.p % 2 ^ g.k = 0 then 2 ^ 5 else 2 ^ 6))

/-- The forms that move lanes (R150, R154, R155, R161) operate on bits and raise no flag: VSEL writes every lane, with the
result mark whole; VBCAST, VPERM and VMXV write the selected lanes; VMVX writes a sign-extended lane to an x register;
VLDI writes its immediate to every 32-bit lane with mark CMARK. The mask forms (R148, R156, Table 5.3): VCMP sets bit
i of K(D) where lane i is selected and the predicate holds and clears every other bit, with the NV of the selected
lanes; KOP combines all 32 bits; KPOP counts the set bits. A write to k0 is discarded. -/
def Obligations.LaneMovesAndMasks : Prop :=
  (∀ (s : State) (z : BitVec 2) (d a b : Reg) (k : KReg) (ln : BitVec 5) (imm : BitVec 32),
     Safety.Ready s [d, a, b] →
     let w := 8 * 2 ^ z.toNat
     let ma := Safety.vm s a ||| Safety.km s k ||| s.base
     let from_ (i : Instr) (m : Mark) (op : Nat → Nat) : Prop :=
       Safety.LaneResult s i d k w m false (fun j => (op j, 0))
     (∃ v, (∀ j, j < 256 / w → lane v w j = if (Safety.mask s k).getLsbD j then lane (s.v a) w j else lane (s.v b) w j) ∧
       Safety.Answers (.vsel z d a b k) s fun t =>
         Safety.WroteV s t d v (ma ||| Safety.vm s b) ∧ Safety.FlagsKept s t) ∧
     (ln.toNat < 256 / w → from_ (.vbcast z ln d a k) ma (fun _ => lane (s.v a) w ln.toNat)) ∧
     from_ (.vperm z false d a b k) (ma ||| Safety.vm s b)
       (fun j => lane (s.v a) w (lane (s.v b) w j % (256 / w))) ∧
     from_ (.vperm z true d a b k) (ma ||| Safety.vm s b)
       (fun j => if 2 ^ (w - 1) ≤ lane (s.v b) w j then 0 else lane (s.v a) w (lane (s.v b) w j % (256 / w))) ∧
     from_ (.vmxv z d a k) (s.xm a ||| Safety.km s k ||| s.base) (fun _ => (s.x a).toNat) ∧
     (ln.toNat < 256 / w → Safety.Answers (.vmvx z ln d a) s fun t =>
       Safety.WroteXE s t d (signExt (lane (s.v a) w ln.toNat) w) (Safety.vm s a ||| s.base) ∧ Safety.FlagsKept s t) ∧
     (∃ v, (∀ j, j < 8 → lane v 32 j = imm.toNat) ∧
       Safety.Answers (.vldi d imm) s fun t => Safety.WroteV s t d v s.base ∧ Safety.FlagsKept s t)) ∧
  (∀ (s : State) (f : FpTy) (p : BitVec 3) (op : BitVec 2) (d e g : KReg) (x a b : Reg) (k : KReg),
     Safety.Ready s [a, b] →
     let w := (fmtOf f).width
     let m := Safety.vm s a ||| Safety.vm s b ||| Safety.km s k ||| s.base
     let u (j : Nat) : FVal := (fmtOf f).unpack (lane (s.v a) w j)
     let v (j : Nat) : FVal := (fmtOf f).unpack (lane (s.v b) w j)
     let un (j : Nat) : Prop := (u j).isNan = true ∨ (v j).isNan = true
     let lt (j : Nat) : Prop := ¬un j ∧ (u j).lt (v j) = true
     let gt (j : Nat) : Prop := ¬un j ∧ (v j).lt (u j) = true
     let eq (j : Nat) : Prop := ¬un j ∧ ¬lt j ∧ ¬gt j
     let holds (j : Nat) : Prop :=
       (p = 0 ∧ eq j) ∨ (p = 1 ∧ ¬eq j) ∨ (p = 2 ∧ lt j) ∨ (p = 3 ∧ (lt j ∨ eq j)) ∨ (p = 4 ∧ gt j) ∨
       (p = 5 ∧ (gt j ∨ eq j)) ∨ (p = 6 ∧ un j) ∨ (p = 7 ∧ ¬un j)
     let loud : Prop := p = 2 ∨ p = 3 ∨ p = 4 ∨ p = 5
     (∃ r : BitVec 32,
       (∀ j, r.getLsbD j = true ↔ j < 256 / w ∧ (Safety.mask s k).getLsbD j = true ∧ holds j) ∧
       Safety.Answers (.vcmp f p d a b k) s fun t =>
         Safety.WroteK s t d r m ∧
         Safety.FlagsRaised s t (fun i => i = 4 ∧ ∃ j, j < 256 / w ∧ (Safety.mask s k).getLsbD j = true ∧
           (u j = .nan true ∨ v j = .nan true ∨ (loud ∧ un j))) m) ∧
     (let y := Safety.mask s e
      let z := Safety.mask s g
      Safety.Answers (.kop op d e g) s fun t =>
       Safety.WroteK s t d (if op = 0 then y &&& z else if op = 1 then y ||| z else if op = 2 then y ^^^ z
         else y &&& ~~~z)
         (Safety.km s e ||| Safety.km s g ||| s.base) ∧ Safety.FlagsKept s t) ∧
     Safety.Answers (.kpop x e) s fun t =>
       Safety.WroteXE s t x (word ((List.range 32).countP fun j => (Safety.mask s e).getLsbD j))
         (Safety.km s e ||| s.base) ∧ Safety.FlagsKept s t)

/-! ## Page 1: conversion, memory, outcomes, the long accumulator -/

/-- VCVT (R157 to R159, Table 2.5). Between types that are not coded, lanes and mask bits are numbered at the
destination's width and PART names the part of the wider side; a coded block decodes into the selected elements, with
NV where it is malformed, and no lane selected changes nothing; 32 elements encode into a block over D and D + 1, and
an exponent without a codeword raises ARITH with the element's index. Conversions between integers raise no flag. That an
encode from the block's own format rounds as any other does is the model's reading (log entry 88). -/
def Obligations.Conversions : Prop :=
  ∀ (s : State) (src dst : ETy) (sat : Bool) (part : BitVec 3) (ctid : BitVec 2) (d a : Reg) (k : KReg),
    Safety.Ready s [d, d + 1, a, a + 1] → d.toNat < 31 → a.toNat < 31 →
    let i : Instr := .vcvt src dst sat part ctid d a k
    let mask := Safety.mask s k
    let old := s.readV d.toNat
    (src.coded = false → dst.coded = false →
      part.toNat < max src.width dst.width / min src.width dst.width →
      let ws := src.width
      let wd := dst.width
      let n := 256 / max ws wd
      let m := Safety.vm s a ||| Safety.km s k ||| s.base
      let sel (j : Nat) : Bool := mask.getLsbD j &&
        (if wd ≤ ws then decide (part.toNat * n ≤ j) && decide (j < part.toNat * n + n) else decide (j < n))
      let c (j : Nat) : Nat × FFlags :=
        convElem src dst s.frm sat (lane (s.v a) ws (if wd ≤ ws then j - part.toNat * n else part.toNat * n + j))
      ∃ v : Tagged 256,
        (∀ j, j < 256 / wd → lane v.val wd j = if sel j then (c j).1 % 2 ^ wd else lane old.val wd j) ∧
        ((∀ j, j < 256 / wd → sel j = true) → v.mark = m) ∧
        ((∃ j, j < 256 / wd ∧ sel j = false) → v.mark = m ||| old.mark) ∧
        Safety.Answers i s fun t => Safety.WroteV s t d v.val v.mark ∧
          (if src.isInt && dst.isInt then Safety.FlagsKept s t
           else Safety.FlagsRaised s t
            (fun b => ∃ j, j < 256 / wd ∧ sel j = true ∧ (c j).2.getLsbD b = true) m)) ∧
    (∀ e5 : Bool, src = (if e5 then .e5m2c else .e4m3c) → dst.coded = false → dst.width = 8 → a.toNat % 2 = 0 →
      let b := (s.v a).toNat + 2 ^ 256 * (s.v (a + 1)).toNat
      let r := decodeBlock e5 (s.codeTab e5) b
      let m := Safety.vm s a ||| Safety.vm s (a + 1) ||| Safety.km s k ||| s.base ||| (s.codeTab e5 (bits b 10 9)).mark
      let c (j : Nat) : Nat × FFlags := convElem (if e5 then .e5m2 else .e4m3) dst s.frm sat (r.1.getD j 0)
      (mask = 0 → Safety.Answers i s fun t => Safety.KeptRegs s t ∧ Safety.FlagsKept s t ∧ t.mem = s.mem) ∧
      (mask ≠ 0 → ∃ v, Safety.Lanes s d k 8 (fun j => (c j).1) m v ∧
        Safety.Answers i s fun t => Safety.WroteV s t d v.val v.mark ∧
          Safety.FlagsRaised s t (fun f => (r.2.1 = true ∧ f = 4) ∨
            ∃ j, j < 32 ∧ mask.getLsbD j = true ∧ (c j).2.getLsbD f = true) m)) ∧
    (∀ e5 : Bool, dst = (if e5 then .e5m2c else .e4m3c) → src.coded = false → src.width = 8 → k = 0 → d.toNat % 2 = 0 →
      let c (j : Nat) : Nat × FFlags := encodeElem src (if e5 then .e5m2 else .e4m3) sat (lane (s.v a) 8 j)
      let tab := s.codeTab e5 ctid.toNat
      let m := Safety.vm s a ||| s.base ||| tab.mark
      let block := encodeBlock e5 ctid.toNat tab ((List.range 32).map fun j => (c j).1)
      (∀ e, block = .error e → exec i s = .next (s.trapEntry 0x05 0 (word e) false 0 (s.trapMark i))) ∧
      (∀ b, block = .ok b → Safety.Answers i s fun t =>
        t.me.regs.getV d.toNat = ⟨BitVec.ofNat 256 b, m⟩ ∧
        t.me.regs.getV (d.toNat + 1) = ⟨BitVec.ofNat 256 (b / 2 ^ 256), m⟩ ∧
        Safety.XKept s t [] ∧ Safety.VKept s t [d.toNat, d.toNat + 1] ∧ Safety.KKept s t [] ∧
        Safety.Completed s t ∧ Safety.OnlyThread s t ∧
        Safety.FlagsRaised s t (fun f => ∃ j, j < 32 ∧ (c j).2.getLsbD f = true) m))

/-- VLD and VST (R160, R13, R28): the bytes of the access are those of the selected lanes; a load reads them little-endian
into their lanes and joins the marks of their lines, a store writes them with the result mark and changes no other
byte; with no lane selected neither accesses memory nor traps. -/
def Obligations.VectorMemory : Prop :=
  ∀ (s : State) (z : BitVec 2) (d a : Reg) (off : Word) (k : KReg) (l : Nat), Safety.Ready s [d] → s.mem.wf = true →
    let nb := 2 ^ z.toNat
    let w := 8 * nb
    let sel (j : Nat) : Prop := j < 256 / w ∧ (Safety.mask s k).getLsbD j = true
    let m := s.xm a ||| Safety.km s k ||| s.base
    let lines := joins (((List.range (256 / w)).filter fun j => (Safety.mask s k).getLsbD j).map
      fun j => s.mem.markOf (l + nb * j) nb)
    ((∀ j, ¬sel j) →
      (Safety.Answers (.vld z d a off k) s fun t =>
        Safety.WroteV s t d (s.v d) (m ||| Safety.vm s d) ∧ Safety.FlagsKept s t) ∧
      (Safety.Answers (.vst z d a off k) s fun t =>
        Safety.KeptRegs s t ∧ Safety.FlagsKept s t ∧ t.mem = s.mem)) ∧
    (∀ lo hi, sel lo → sel hi → (∀ j, sel j → lo ≤ j ∧ j ≤ hi) →
      field (s.x a + off) 63 62 = 0 →
      Safety.LocalAt s (s.x a + off + word (nb * lo)) (nb * (hi + 1 - lo)) (l + nb * lo) →
      (∀ j, sel j → Safety.Clean s (l + nb * j) nb) →
      (∃ v, Safety.Lanes s d k w (fun j => ofBytes (s.mem.read (l + nb * j) nb)) (m ||| lines) v ∧
        Safety.Answers (.vld z d a off k) s fun t => Safety.WroteV s t d v.val v.mark ∧ Safety.FlagsKept s t) ∧
      ((∀ j, sel j → Safety.UnderCeil s (l + nb * j) nb (m ||| Safety.vm s d)) →
        Safety.Answers (.vst z d a off k) s fun t =>
          Safety.KeptRegs s t ∧ Safety.FlagsKept s t ∧
          (∀ j i, sel j → i < nb → t.mem.get (l + nb * j + i) = BitVec.ofNat 8 (lane (s.v d) w j / 256 ^ i)) ∧
          (∀ q, (∀ j, sel j → q < l + nb * j ∨ l + nb * j + nb ≤ q) → t.mem.get q = s.mem.get q) ∧
          (∀ j g, sel j → g ∈ markLines (l + nb * j) nb →
            markGet t.mem.marks g = markGet s.mem.marks g ||| (m ||| Safety.vm s d))))

/-- BQB (R162, R163, R20, R37): the oldest outcome is removed and BQM joins CMARK, the CMARK that pending instructions
keep from before a MKCTX included (that they keep it is DEDUCED, log entry 38); the outcome governs the next n E-side
instructions, and none when BQB is the last entry of a wheel body; with no outcome it waits; in a handler it raises
ILL. A suppressed instruction has no effect (R162): every E-side form in the range of an outcome of 0 reads, pops,
pushes and writes nothing, raises no flag and no trap, and consumes no outcome; it takes its place and counts in the
range. BQB and REPBRK in a handler are illegal at decode instead (R41, R189). -/
def Obligations.BranchOutcomes : Prop :=
  (∀ (s : State) (n : BitVec 6), Safety.Live s →
     let i : Instr := .bqb n
     (∀ o rest, s.me.csr.intrap = false → s.me.bq.outs = o :: rest →
       Safety.Answers i s fun t =>
         t.me.bq.outs = rest ∧ t.me.bq.bqm = (if rest = [] then 0 else s.me.bq.bqm) ∧
         t.me.csr.cmark = s.me.csr.cmark ||| s.me.bq.bqm ∧ t.me.rout = o ∧
         t.me.rcnt = (if s.latch.src = .wheel ∧ s.me.wheel.act = true ∧ s.me.wheel.repix = s.me.wheel.len then 0
           else n.toNat) ∧
         t.me.regs = s.me.regs ∧ Safety.WindowsSame s t ∧ Safety.FlagsKept s t ∧
         Safety.Retired (s.joinCmark s.me.bq.bqm) t ∧
         Safety.OnlyThread s t) ∧
     (s.me.csr.intrap = false → s.latch.src ≠ .access → s.me.bq.outs = [] → Safety.Patient s 8 →
       Safety.Answers i s fun t =>
         (∃ w, t.me.eWait = some w ∧ w.kind = 8) ∧ t.me.regs = s.me.regs ∧ t.me.csr = s.me.csr ∧ t.me.bq = s.me.bq ∧
         t.me.rcnt = s.me.rcnt ∧ Safety.OnlyThread s t) ∧
     (s.me.csr.intrap = true →
       let u : State := { s with latch := { s.latch with src := .access } }
       exec i s = .next (u.trapEntry 0x01 0 s.latch.finfo false 0 u.base))) ∧
  (∀ (i : Instr) (s : State), (usesOf i).eSide = true → s.me.rcnt ≠ 0 → s.me.rout = false →
     (∀ n, i = .bqb n → s.me.csr.intrap = false) → (i = .repbrk → s.me.csr.intrap = false) →
     Safety.Answers i s fun t =>
       t.me.regs = s.me.regs ∧ t.me.windows = s.me.windows ∧ t.me.bq = s.me.bq ∧ t.me.rout = s.me.rout ∧
       t.me.rcnt = (if s.latch.src = .wheel ∧ s.me.wheel.act = true ∧ s.me.wheel.repix = s.me.wheel.len then 0
         else s.me.rcnt - 1) ∧
       Safety.FlagsKept s t ∧ Safety.Completed s t ∧ Safety.OnlyThread s t)

/-- The forms of the long accumulator (R164 to R167): ACCZ writes zeros to the window's 128 bytes; ACCW accumulates the
selected lanes, or their products with B's, in lane order and joins its mark into the window's lines; ACCRD delivers
the rounded sum in lane 0 of D; a window that is not aligned to 128 bytes raises BOUNDS with reason 3. -/
def Obligations.LongAccumulator : Prop :=
  ∀ (s : State) (bf prod : Bool) (d a b : Reg) (k : KReg) (w : Win) (l : Nat), Safety.Ready s [d, b] → s.mem.wf = true →
    let f := if bf then fmtBf else fmt32
    let here := (s.x a).toNat % 128 = 0 ∧ (s.x a).toNat < 0x10000 ∧ Safety.LocalAt s (s.x a) 128 l
    let old := s.mem.read l 128
    let lm := s.mem.markOf l 128
    (here → Safety.Answers (.accz a) s fun t =>
      Safety.WroteMemE s t l 128 0 (s.xm a ||| s.base) ∧ Safety.FlagsKept s t) ∧
    (here → Safety.Clean s l 128 →
      let sel := (List.range (256 / f.width)).filter fun j => (Safety.mask s k).getLsbD j
      let addend (j : Nat) : Option FVal :=
        let x := f.unpack (lane (s.v d) f.width j)
        if prod then productAddend x (f.unpack (lane (s.v b) f.width j)) else some x
      let r := sel.foldl (fun acc j => let q := acc.1.add (addend j); (q.1, acc.2 ||| q.2)) (Accu.ofBytes old, 0)
      let m := s.xm a ||| Safety.km s k ||| Safety.vm s d ||| (if prod then Safety.vm s b else 0) ||| s.base
      (sel = [] → Safety.Answers (.accw bf prod d a b k) s fun t =>
        Safety.KeptRegs s t ∧ t.mem = s.mem ∧ Safety.FlagsRaised s t (fun _ => False) m) ∧
      (sel ≠ [] → Safety.Answers (.accw bf prod d a b k) s fun t =>
        Safety.WroteMemE s t l 128 (ofBytes (r.1.toBytes old)) (m ||| lm) ∧
        Safety.FlagsRaised s t (fun i => r.2.getLsbD i = true) (m ||| lm))) ∧
    (s.windowsFull w .v d.toNat = true → s.latch.src = .queue ∨ s.latch.src = .wheel →
      Safety.Answers (.accrd bf d a w) s fun t =>
        t.me.eWait.isSome = true ∧ t = s.setMe { s.me with eWait := t.me.eWait }) ∧
    (here → Safety.Clean s l 128 → s.windowsFull w .v d.toNat = false →
      let r := (Accu.ofBytes old).read f s.frm
      let m := s.xm a ||| s.base ||| lm
      Safety.Answers (.accrd bf d a w) s fun t =>
        Safety.WroteV s t d (BitVec.ofNat 256 r.1) m (winLen w) ∧
        Safety.FlagsRaised s t (fun i => r.2.getLsbD i = true) m ∧ Safety.Windowed s t w d) ∧
    ((s.x a).toNat % 128 ≠ 0 → s.windowsFull w .v d.toNat = false →
      exec (.accz a) s = .next (s.trapEntry 0x06 (s.x a) 7 false 0 (s.trapMark (.accz a))) ∧
      exec (.accw bf prod d a b k) s =
        .next (s.trapEntry 0x06 (s.x a) 7 false 0 (s.trapMark (.accw bf prod d a b k))) ∧
      exec (.accrd bf d a w) s =
        .next (s.trapEntry 0x06 (s.x a) 6 false 0 (s.trapMark (.accrd bf d a w))))

/-- What a window holds as one number (R66): the words, the top one signed, plus the carry extensions at their places.
A finite addend of FP32 or BF16, or a product of two, adds its exact value times 2^320 to it, with no flag, as long as
the sum stays in the 640-bit range (R67). Round, in every format and mode, takes the exact value to the one that R52
names, with the flags of R53 and R54, and with Table 2.3 past the maximum; sums, products, fused forms (R144) and
conversions (R157) round the exact result once. -/
def Obligations.AccumulatorSum : Prop :=
  (∀ (f : Fmt) (mode : Nat), f ∈ [fmt32, fmt16, fmtBf, fmtE4, fmtE5] → mode < 5 →
     (∀ (sat neg : Bool) (m : Nat) (e : Int), m ≠ 0 → let lo := min e f.low
       Safety.Rounds f mode sat lo (Safety.units lo neg m e) (f.round mode sat neg m e)) ∧
     (∀ (a b : Nat) (n1 n2 : Bool) (m1 m2 : Nat) (e1 e2 : Int), f.unpack a = .fin n1 m1 e1 → f.unpack b = .fin n2 m2 e2 →
       let lo := min f.low (e1 + e2)
       let x := Safety.units lo n1 m1 e1
       let y := Safety.units lo n2 m2 e2
       let xy := Safety.units lo (n1 != n2) (m1 * m2) (e1 + e2)
       (x + y ≠ 0 → Safety.Rounds f mode false lo (x + y) (f.add mode a b)) ∧
       (x - y ≠ 0 → Safety.Rounds f mode false lo (x - y) (f.sub mode a b)) ∧
       (xy ≠ 0 → Safety.Rounds f mode false lo xy (f.mul mode a b)) ∧
       (∀ (np nd : Bool) (d : Nat) (n3 : Bool) (m3 : Nat) (e3 : Int), f.unpack d = .fin n3 m3 e3 →
         let t := (if np then -xy else xy) + (if nd then -1 else 1) * Safety.units lo n3 m3 e3
         t ≠ 0 → Safety.Rounds f mode false lo t (f.fma mode np nd a b d))) ∧
     (∀ (g : Fmt) (sat : Bool) (v : Nat) (n : Bool) (m : Nat) (e : Int), f ≠ g → m ≠ 0 → f.unpack v = .fin n m e →
       g ∈ [fmt32, fmt16, fmtBf, fmtE4, fmtE5] → let lo := min e g.low
       Safety.Rounds g mode sat lo (Safety.units lo n m e) (convFloat f g mode sat v))) ∧
  (fmt32.canon = 0x7FC00000 ∧ fmt16.canon = 0x7E00 ∧ fmtBf.canon = 0x7FC0 ∧ fmtE5.canon = 0x7E ∧ fmtE4.canon = 0x7F ∧
   fmt32.maxBits false = 0x7F7FFFFF ∧ fmt16.maxBits false = 0x7BFF ∧ fmtBf.maxBits false = 0x7F7F ∧
   fmtE5.maxBits true = 0xFB ∧ fmtE4.maxBits true = 0xFE ∧ fmt32.infBits true = 0xFF800000 ∧ fmtE5.infBits false = 0x7C) ∧
  ∀ (a : Accu) (neg : Bool) (m : Nat) (e : Int),
    a.w.length = 10 → a.c.length = 10 → (∀ x, x ∈ a.w → x < 2 ^ 64) → (∀ x, x ∈ a.c → -128 ≤ x ∧ x ≤ 127) →
    -(2 : Int) ^ 639 ≤ a.n → a.n < (2 : Int) ^ 639 → -320 ≤ e → m < 2 ^ 48 → m * 2 ^ (e + 320).toNat < 2 ^ 576 →
    let v : Int := (if neg then -1 else 1) * (m : Int) * (2 : Int) ^ (e + 320).toNat
    a.n + v < (2 : Int) ^ 639 → -(2 : Int) ^ 639 ≤ a.n + v →
    (a.add (some (.fin neg m e))).1.n = a.n + v ∧ (a.add (some (.fin neg m e))).1.hdr = a.hdr ∧
    (a.add (some (.fin neg m e))).2 = 0

/-! ## Page 2: streams -/

/-- The slot forms (R171, R180 to R184): SOPEN and SOPENX take a valid descriptor from an aligned block of the local
window and open the slot at element 0, with the join of the address mark, the block's marks and CMARK; an invalid one
raises ARITH 0x10 and leaves the slot; SADV moves on by X(A) elements, at most to the end; STEND gives the elements
left; SCLOSE closes; SSAVE stores the 128-byte image and SREST opens the slot that a valid image describes. Pops and
pushes (R16, R17, R174, R175): an instruction that reads the register bound to a read slot receives the next element
in lane 0, or the next vector's elements from lane 0 on, with the join of their lines' marks and SM, and the slot
moves past them; one that writes the register bound to a write slot stores them, little-endian, at the elements'
addresses and leaves the value in the register with that mark. VMVX and VLDI stand for the readers and writers; the
streams are affine and their elements lie in the local window. -/
def Obligations.StreamSlots : Prop :=
  (∀ (s : State) (n : BitVec 2) (d a : Reg) (wr vec : Bool) (l : Nat),
     let k := n.toNat
     let x := s.slot k
     let desc := BitVec.ofNat 512 (ofBytes (s.mem.read l 64))
     let opens (i : Instr) (indirect : Bool) : Prop :=
       ((if indirect then indirectOk desc else affineOk desc) = true →
         Safety.Answers i s fun t =>
           t.slot k = ⟨true, wr, vec, indirect, desc, s.x a, 0, s.xm a ||| s.mem.markOf l 64 ||| s.base, []⟩ ∧
           Safety.SlotsKept s t k ∧ Safety.FibresKept s t [] ∧ Safety.SlotForm s t) ∧
       ((if indirect then indirectOk desc else affineOk desc) = false →
         exec i s = .next (s.trapEntry 0x05 (s.x a) (word (0x10 * 2 ^ 56 + k)) false 0 (s.trapMark i)))
     (Safety.Block s (s.x a) 64 l → opens (.sopen n a wr vec) false ∧ opens (.sopenx n a wr vec) true) ∧
     (x.opened = true → x.pos ≤ x.len → Safety.Answers (.sadv n a) s fun t =>
       (t.slot k).pos = min (x.pos + (s.x a).toNat) x.len ∧ (t.slot k).sm = x.sm ||| s.xm a ∧
       (t.slot k).opened = true ∧ (t.slot k).desc = x.desc ∧
       Safety.SlotsKept s t k ∧ Safety.FibresKept s t [] ∧ Safety.SlotForm s t) ∧
     (x.opened = false → Safety.Answers (.sadv n a) s (Safety.NoEffect s)) ∧
     (Safety.Live s → Safety.Answers (.stend d n) s fun t =>
       Safety.WroteXE s t d (if x.opened then word (x.len - x.pos) else 0) ((if x.opened then x.sm else 0) ||| s.base) ∧
       Safety.FlagsKept s t) ∧
     (Safety.Answers (.sclose n) s fun t =>
       (t.slot k).opened = false ∧ Safety.SlotsKept s t k ∧ Safety.FibresKept s t [] ∧ Safety.SlotForm s t) ∧
     (let m := (if x.opened then x.sm else 0) ||| s.xm a ||| s.base
      s.mem.wf = true → Safety.Block s (s.x a) 128 l → Safety.UnderCeil s l 128 m →
       Safety.Answers (.ssave n a) s fun t =>
         Safety.WroteMem s t l 128
           (if x.opened then x.desc.toNat + 2 ^ 512 * (x.sm.toNat * 2 ^ 48 + b2n x.indirect * 8 + b2n x.vec * 4
             + b2n x.wr * 2 + 1) + 2 ^ 576 * (x.pos % 2 ^ 64) else 0) m) ∧
     (∀ y : Slot, y.opened = true → (if y.indirect then indirectOk y.desc else affineOk y.desc) = true →
       y.pos ≤ y.len → Safety.Block s (s.x a) 128 l → s.mem.read l 128 = slotImage y →
       Safety.Answers (.srest n a) s fun t =>
         t.slot k = { y with daddr := s.x a, fetched := [], sm := y.sm ||| s.mem.markOf l 128 ||| s.xm a ||| s.base } ∧
         Safety.SlotsKept s t k ∧ Safety.FibresKept s t [] ∧ Safety.SlotForm s t)) ∧
  (∀ (s : State) (n : BitVec 2) (d : Reg) (z : BitVec 2) (ln : BitVec 5) (imm : BitVec 32) (loc : Nat → Nat),
     let k := n.toNat
     let x := s.slot k
     let r : Reg := BitVec.ofNat 5 (28 + k)
     let w := x.width
     let c := min x.lanes (x.len - x.pos)
     let here (j : Nat) : Prop :=
       Safety.LocalAt s (affineAt x.desc (x.pos + j)) (w / 8) (loc j) ∧ Safety.Clean s (loc j) (w / 8)
     let lines := joins ((List.range c).map fun j => s.mem.markOf (loc j) (w / 8))
     let moved (t : State) : Prop :=
       (t.slot k).pos = x.pos + c ∧ (t.slot k).desc = x.desc ∧ (t.slot k).opened = true ∧ Safety.SlotsKept s t k
     Safety.Live s → x.opened = true → x.indirect = false → affineOk x.desc = true → x.pos < x.len →
     (∀ j, j < c → here j) →
     (x.wr = false → x.fetched = [] → ∃ v : BitVec 256,
       (∀ j, j < c → lane v w j = ofBytes (s.mem.read (loc j) (w / 8))) ∧
       (∀ j, c ≤ j → j < 256 / w → lane v w j = 0) ∧
       Safety.Answers (.vmvx z ln d r) s fun t =>
         Safety.XHolds t d.toNat (signExt (lane v (8 * 2 ^ z.toNat) ln.toNat) (8 * 2 ^ z.toNat)) (lines ||| x.sm |||
           s.base) ∧
         t.me.regs.getV r.toNat = ⟨v, lines ||| x.sm⟩ ∧ moved t ∧
         Safety.XKept s t [d.toNat] ∧ Safety.VKept s t [r.toNat] ∧ t.mem = s.mem) ∧
     (let m := s.base ||| x.sm
      let v (j : Nat) : Nat := lane (ofLanes 256 32 (List.replicate 8 imm.toNat)) w j
      x.wr = true → s.mem.wf = true → (∀ j, j < c → Safety.UnderCeil s (loc j) (w / 8) m) →
       (∀ i j, i < j → j < c → loc i + w / 8 ≤ loc j ∨ loc j + w / 8 ≤ loc i) →
       Safety.Answers (.vldi r imm) s fun t =>
         t.me.regs.getV r.toNat = ⟨ofLanes 256 32 (List.replicate 8 imm.toNat), m⟩ ∧ moved t ∧
         (∀ j i, j < c → i < w / 8 → t.mem.get (loc j + i) = BitVec.ofNat 8 (v j / 256 ^ i)) ∧
         (∀ q, (∀ j, j < c → q < loc j ∨ loc j + w / 8 ≤ q) → t.mem.get q = s.mem.get q) ∧
         Safety.XKept s t [] ∧ Safety.VKept s t [r.toNat]))

/-! ## Page 2: fibres -/

/-- The forms of one fibre (R191, R194, R195), for a fibre in list form whose coordinates can be read: FOPEN stands at the
first entry whose coordinate is START or more; FADV at the next entry, or at the first from there on whose coordinate
is X(A)[31:0] or more, never backwards; both set PRES := NOT END and clear PEND; FTEND tells whether an entry is left;
FCLOSE closes. No register but FTEND's mask changes. The forms of both fibres (R196), for fibres in list form that
stand at an entry or past the last, with PEND = 0: FISECT moves on to the first common coordinate, passing none, and
K(D) tells whether there is one; FUNION moves neither, and the entries that have the smaller coordinate are present; both
fibre marks become the join of the two, FISECT's with the marks of the coordinate lines that it read. A closed slot
raises ARITH 0x13 with its number; that slot 0 is named where both are closed, and that FADDR is 0, is the model's
reading (DEDUCED, log entry 89). -/
def Obligations.FibreForms : Prop :=
  (∀ (s : State) (n : Bool) (a : Reg) (kd : KReg) (start : BitVec 32) (l : Nat) (loc c : Nat → Nat),
     let k := b2n n
     let f := s.fibre k
     let desc := BitVec.ofNat 512 (ofBytes (s.mem.read l 64))
     let entries := dget desc 0x14 4
     (Safety.Block s (s.x a) 64 l → fibreOk desc = true → Safety.Coords s desc loc c →
       ∃ e, e ≤ entries ∧ (∀ j, j < e → c j < start.toNat) ∧ (e < entries → start.toNat ≤ c e) ∧
         Safety.Answers (.fopen n a start) s fun t =>
           Safety.StandsAt (t.fibre k) c e ∧ (t.fibre k).desc = desc ∧
           (t.fibre k).pres = !(t.fibre k).ended ∧ t.me.pend = false ∧
           Safety.SlotsKept s t 4 ∧ Safety.FibresKept s t [k] ∧ Safety.SlotForm s t) ∧
     (Safety.Answers (.fclose n) s fun t =>
       (t.fibre k).opened = false ∧ Safety.SlotsKept s t 4 ∧ Safety.FibresKept s t [k] ∧ Safety.SlotForm s t) ∧
     (∀ e, Safety.Live s → Safety.Coords s f.desc loc c → e < f.nnz → Safety.StandsAt f c e →
       (a = 0 → Safety.Answers (.fadv n a) s fun t =>
         Safety.StandsAt (t.fibre k) c (e + 1) ∧ (t.fibre k).pres = !(t.fibre k).ended ∧ t.me.pend = false ∧
         t.me.regs = s.me.regs ∧ t.me.csr.fflags = s.me.csr.fflags ∧ Safety.FibresKept s t [k] ∧ t.mem = s.mem) ∧
       (a ≠ 0 → ∃ g, e ≤ g ∧ g ≤ f.nnz ∧ (∀ j, e ≤ j → j < g → c j < (s.x a).toNat % 2 ^ 32) ∧
         (g < f.nnz → (s.x a).toNat % 2 ^ 32 ≤ c g) ∧
         Safety.Answers (.fadv n a) s fun t =>
           Safety.StandsAt (t.fibre k) c g ∧ (t.fibre k).pres = !(t.fibre k).ended ∧ t.me.pend = false ∧
           t.me.regs = s.me.regs ∧ Safety.FibresKept s t [k] ∧ t.mem = s.mem) ∧
       Safety.Answers (.ftend kd n) s fun t =>
         Safety.WroteK s t kd 0xFFFFFFFF (f.fm ||| s.base) ∧ Safety.FlagsKept s t) ∧
     (Safety.Live s → f.opened = false → Safety.Answers (.ftend kd n) s fun t =>
       Safety.WroteK s t kd 0 s.base ∧ Safety.FlagsKept s t) ∧
     (Safety.Live s → f.opened = true → f.ended = true → f.seek = none → Safety.Answers (.ftend kd n) s fun t =>
       Safety.WroteK s t kd 0 (f.fm ||| s.base) ∧ Safety.FlagsKept s t)) ∧
  (∀ (s : State) (kd : KReg) (i j : Nat) (lf lg cf cg : Nat → Nat),
     let f := s.fibre 0
     let g := s.fibre 1
     let fin (t : State) (m : Mark) (some_ : Prop) : Prop :=
       (t.me.pend = true ↔ some_) ∧ (t.fibre 0).fm = m ∧ (t.fibre 1).fm = m ∧
       (some_ → t.me.regs.getK kd.toNat = if kd = 0 then plain 0xFFFFFFFF else ⟨0xFFFFFFFF, m ||| s.base⟩) ∧
       (¬some_ → t.me.regs.getK kd.toNat = if kd = 0 then plain 0xFFFFFFFF else ⟨0, m ||| s.base⟩) ∧
       Safety.XKept s t [] ∧ Safety.VKept s t [] ∧ Safety.KKept s t [kd.toNat] ∧ Safety.FlagsKept s t ∧ t.mem = s.mem
     (Safety.Live s → Safety.Coords s f.desc lf cf → Safety.Coords s g.desc lg cg → s.me.pend = false →
       i ≤ f.nnz → j ≤ g.nnz → Safety.StandsAt f cf i → Safety.StandsAt g cg j →
       (∃ p q, i ≤ p ∧ p ≤ f.nnz ∧ j ≤ q ∧ q ≤ g.nnz ∧ (p < f.nnz → q < g.nnz → cf p = cg q) ∧
         (∀ u v, i ≤ u → u < f.nnz → j ≤ v → v < g.nnz → cf u = cg v → p ≤ u ∧ q ≤ v) ∧
         let read (x : Fibre) (loc : Nat → Nat) (e r : Nat) : Mark :=
           joins (((List.range x.nnz).filter fun u => decide (e < u ∧ u ≤ r)).map fun u =>
             s.mem.markOf (loc u) (if bit (dget x.desc 0x10 4) 5 then 4 else 2))
         Safety.Answers (.fisect kd) s fun t =>
           Safety.StandsAt (t.fibre 0) cf p ∧ Safety.StandsAt (t.fibre 1) cg q ∧
           fin t (f.fm ||| g.fm ||| read f lf i p ||| read g lg j q) (p < f.nnz ∧ q < g.nnz) ∧
           ((t.fibre 0).pres = true ↔ p < f.nnz ∧ q < g.nnz) ∧ ((t.fibre 1).pres = true ↔ p < f.nnz ∧ q < g.nnz)) ∧
       Safety.Answers (.funion kd) s fun t =>
         Safety.StandsAt (t.fibre 0) cf i ∧ Safety.StandsAt (t.fibre 1) cg j ∧
         fin t (f.fm ||| g.fm) (i < f.nnz ∨ j < g.nnz) ∧
         ((t.fibre 0).pres = true ↔ i < f.nnz ∧ (j < g.nnz → cf i ≤ cg j)) ∧
         ((t.fibre 1).pres = true ↔ j < g.nnz ∧ (i < f.nnz → cg j ≤ cf i))) ∧
     (let closed (n : Nat) : Prop :=
        exec (.fisect kd) s = .next (s.trapEntry 0x05 0 (word (0x13 * 2 ^ 56 + n)) false 0 (s.trapMark (.fisect kd))) ∧
        exec (.funion kd) s = .next (s.trapEntry 0x05 0 (word (0x13 * 2 ^ 56 + n)) false 0 (s.trapMark (.funion kd)))
      (Safety.Live s → f.opened = false → closed 0) ∧
      (Safety.Live s → f.opened = true → g.opened = false → closed 1)))

/-! ## Page 2: bitmaps and packed vectors -/

/-- BMAND and BMPFX (R198, R199), SPACK and SUNPK (R200 to R202) on a packed vector in the local window: SPACK appends the
lanes that are selected and not zero to the values, sets their bits and counts them in the header, with every other
byte as before; SUNPK gives each selected lane its value, or 0 where it is absent. -/
def Obligations.BitmapsAndPackedVectors : Prop :=
  ∀ (s : State) (z : BitVec 2) (flag : Bool) (d a b : Reg) (k : KReg) (l : Nat),
    let nb := 2 ^ z.toNat
    let w := 8 * nb
    let n := 256 / w
    let pop (v : Nat) : Nat := (List.range 32).countP fun j => v.testBit j
    let head := ofBytes (s.mem.read l 8)
    let cap := head / 2 ^ 48
    let nnz := head / 2 ^ 32 % 2 ^ 16
    let dcap := head / 2 ^ 16 % 2 ^ 16
    let dlen := head % 2 ^ 16
    let map (c : Nat) : Bool := (s.mem.get (l + 8 + c / 8)).getLsbD (c % 8)
    let vals := l + 8 + dcap / 8
    let valid := (s.x a).toNat % 8 = 0 ∧ dcap % 32 = 0 ∧ dlen ≤ dcap ∧ 8 + dcap / 8 ≤ cap ∧
      Safety.LocalAt s (s.x a) cap l ∧ Safety.Clean s l cap
    (Safety.Ready s [d, a, b] → Safety.Answers (.bmand flag d a b) s fun t =>
      Safety.WroteV s t d (s.v a &&& (if flag then ~~~s.v b else s.v b)) (Safety.vm s a ||| Safety.vm s b ||| s.base) ∧
      Safety.FlagsKept s t) ∧
    (Safety.Ready s [d, a, b] → ∃ v, (∀ i, i < 8 → lane v 32 i =
        (lane (s.v b) 32 0 + ((List.range (if flag then i + 1
          else i)).map fun j => pop (lane (s.v a) 32 j)).sum) % 2 ^ 32) ∧
      Safety.Answers (.bmpfx flag d a b) s fun t =>
        Safety.WroteV s t d v (Safety.vm s a ||| Safety.vm s b ||| s.base) ∧ Safety.FlagsKept s t) ∧
    (let sel := (List.range n).filter fun j => (Safety.mask s k).getLsbD j && lane (s.v d) w j != 0
     Safety.Ready s [d] → valid → s.mem.wf = true → dlen % n = 0 → dlen + n ≤ dcap →
      8 + dcap / 8 + (nnz + sel.length) * nb ≤ cap → (∀ j ln, s.lineCeil j ln = 0xFFFF) →
      Safety.Answers (.spack z d a k) s fun t =>
        ofBytes (t.mem.read l 8) = cap * 2 ^ 48 + (nnz + sel.length) * 2 ^ 32 + dcap * 2 ^ 16 + (dlen + n) ∧
        (∀ c, c < dcap → (t.mem.get (l + 8 + c / 8)).getLsbD (c % 8) =
          if dlen ≤ c ∧ c < dlen + n then sel.contains (c - dlen) else map c) ∧
        (∀ j, j < sel.length → ofBytes (t.mem.read (vals + (nnz + j) * nb) nb) = lane (s.v d) w (sel.getD j 0)) ∧
        (∀ q, (q < l ∨ (vals ≤ q ∧ q < vals + nnz * nb) ∨ vals + (nnz + sel.length) * nb ≤ q) →
          t.mem.get q = s.mem.get q) ∧
        Safety.KeptRegs s t ∧ Safety.FlagsKept s t) ∧
    (let p := (s.x b).toNat
     let ix (c : Nat) : Nat := (List.range c).countP map
     Safety.Ready s [d] → valid → p % n = 0 → 8 + dcap / 8 + nnz * nb ≤ cap →
      (∀ j, j < n → p + j < dlen → map (p + j) = true → ix (p + j) < nnz) →
      ∃ m v, Safety.Lanes s d k w
          (fun j => if p + j < dlen ∧ map (p + j) = true then ofBytes (s.mem.read (vals + ix (p + j) * nb) nb)
            else 0) m v ∧
        m ||| s.xm a ||| s.xm b ||| Safety.km s k ||| s.base = m ∧
        Safety.Answers (.sunpk z d a b k) s fun t => Safety.WroteV s t d v.val v.mark ∧ Safety.FlagsKept s t)

/-! ## Page 2: the wheel -/

/-- REP and REPX (R185 to R187): with no E-side work pending, the instructions after them go into the wheel, the wheel
starts with one pass less than the count left, and the A-side goes on after the body; a count of 0 runs nothing; a
body that holds an A-side form, a REP or an illegal encoding, or a handler, raises ILL; a count above 65,536 raises
ARITH 0x12. REPBRK ends the replay, and outside the wheel has no effect (R189). -/
def Obligations.WheelForms : Prop :=
  ∀ (s : State) (len : BitVec 5) (cnt : BitVec 16) (a : Reg), s.latch.src = .access ∨ s.latch.src = .decode →
    s.me.equeue = [] → s.me.wheel.act = false →
    let at_ := s.latch.addr + word s.latch.len
    let body := s.readBody (len.toNat + 1) at_
    let after := at_ + word (body.map (·.len)).sum
    let good := s.me.csr.intrap = false ∧ ∀ e, e ∈ body → (usesOf e.instr).eSide = true
    let starts (i : Instr) (n : Nat) (m : Mark) : Prop :=
      Safety.Answers i s fun t =>
        t.me.pc = after ∧ t.me.regs = s.me.regs ∧ t.me.csr.fflags = s.me.csr.fflags ∧ t.me.equeue = [] ∧
        (t.me.wheel.act = true ↔ n ≠ 0) ∧ t.me.wheel.wm = m ∧ Safety.WindowsSame s t ∧
        (n ≠ 0 → t.me.wheel.len = len.toNat ∧ t.me.wheel.repcnt = n - 1 ∧ t.me.wheel.repix = 0 ∧ t.me.wheel.waddr = at_ ∧
          t.me.wheel.body.map (fun e => (e.addr, e.instr)) = body.map fun e => (e.addr, e.instr)) ∧
        Safety.OnlyThread s t
    (good → starts (.rep len cnt) (cnt.toNat + 1) 0) ∧
    (good → (s.x a).toNat ≤ 65536 → starts (.repx len a) (s.x a).toNat (s.xm a)) ∧
    (good → s.latch.src = .access → 65536 < (s.x a).toNat →
      exec (.repx len a) s = .next (s.trapEntry 0x05 0 (word (0x12 * 2 ^ 56)) false 0 (s.base ||| s.xm a))) ∧
    (¬good → s.latch.src = .access →
      exec (.rep len cnt) s = .next (s.trapEntry 0x01 0 s.latch.finfo false 0 s.base) ∧
      exec (.repx len a) s = .next (s.trapEntry 0x01 0 s.latch.finfo false 0 (s.base ||| s.xm a))) ∧
    (s.me.csr.intrap = false → Safety.Live s → Safety.Answers .repbrk s fun t =>
      Safety.KeptRegs s t ∧ Safety.FlagsKept s t ∧ t.mem = s.mem) ∧
    (∀ u : State, u.latch.src = .wheel → u.me.csr.intrap = false → u.me.wheel.act = true → Safety.Live u →
      Safety.Answers .repbrk u fun t =>
        t.me.wheel.act = false ∧ t.me.wheel.repcnt = 0 ∧ t.me.rcnt = 0 ∧ t.me.regs = u.me.regs ∧ t.me.pc = u.me.pc ∧
        t.me.equeue = u.me.equeue ∧ t.mem = u.mem)

/-! ## Page 8: hash tables -/

/-- HPROBE and HACC (R203 to R206): HPROBE gives each lane the value of its key where a probe of MAXP meets it, and 0
where none does or the key is null; a fifth window waits (R85). HACC, shown for one key among null keys, combines the
value into the key's slot, or puts key and value into the first empty slot of the probe sequence and counts it, and
raises ARITH 0x18 with the lane's number where neither is met; the mark of FFLAGS gains, for f32, the marks of the
operands and of every line read. -/
def Obligations.HashTables : Prop :=
  ∀ (s : State) (d a b : Reg) (i32 : Bool) (w : Win) (l ns mp : Nat),
    Safety.HashTable s (s.x a) l ns mp →
    (Safety.Unbound s d.toNat → Safety.Unbound s b.toNat → s.advance.windowsFull w .v d.toNat = true →
      s.latch.src = .access → Safety.Answers (.hprobe i32 d a b w) s fun t => Safety.Waits s t 0 0) ∧
    (Safety.Unbound s d.toNat → Safety.Unbound s b.toNat → s.advance.windowsFull w .v d.toNat = false →
      let key (i : Nat) : Nat := lane (s.v b) 32 i
      ∃ (v : BitVec 256) (m : Mark),
        (∀ i, i < 8 →
          (∀ j, key i ≠ Safety.nullKey → j < mp → Safety.keyAt s l ns (key i) j = key i →
            (∀ h, h < j → Safety.keyAt s l ns (key i) h ≠ key i) →
            lane v 32 i = ofBytes (s.mem.read (Safety.slotLoc l (Safety.probeAt ns (key i) j) + 4) 4)) ∧
          ((key i = Safety.nullKey ∨ ∀ j, j < mp → Safety.keyAt s l ns (key i) j ≠ key i) → lane v 32 i = 0)) ∧
        m ||| s.xm a ||| Safety.vm s b ||| s.base = m ∧
        Safety.Answers (.hprobe i32 d a b w) s fun t =>
          t.me.regs.getV d.toNat = ⟨v, m⟩ ∧ Safety.XKept s t [] ∧ Safety.VKept s t [d.toNat] ∧ Safety.KKept s t [] ∧
          Safety.ControlKept s t ∧ Safety.Passed s t ∧ Safety.OnlyThread s t ∧ Safety.Windowed s t w d ∧
          Safety.WindowsAfter s t .v d.toNat (winLen w)) ∧
    (∀ (op : BitVec 2) (start : BitVec 3) (i : Nat), op ≠ 3 → s.mem.wf = true → (∀ j ln, s.lineCeil j ln = 0xFFFF) →
      Safety.Unbound s d.toNat → Safety.Unbound s b.toNat →
      start.toNat ≤ i → i < 8 → lane (s.v d) 32 i ≠ Safety.nullKey →
      (∀ j, start.toNat ≤ j → j < 8 → j ≠ i → lane (s.v d) 32 j = Safety.nullKey) →
      let key := lane (s.v d) 32 i
      let v := lane (s.v b) 32 i
      let ins : Instr := .hacc op i32 start d a b
      let count := ofBytes (s.mem.read (l + 4) 4)
      (∀ j, Safety.Reaches s l ns mp key j →
        let at_ := Safety.slotLoc l (Safety.probeAt ns key j)
        let old := ofBytes (s.mem.read (at_ + 4) 4)
        let fm := s.me.csr.fflags.mark ||| s.xm a ||| Safety.vm s d ||| Safety.vm s b ||| s.base ||| s.mem.markOf l 64 |||
          joins ((List.range (j + 1)).map fun q => s.mem.markOf (Safety.slotLoc l (Safety.probeAt ns key q)) 8)
        let past (t : State) : Prop := t.me.regs = s.me.regs ∧ Safety.WindowsSame s t ∧ Safety.Passed s t ∧
          (i32 = true → Safety.FlagsKept s t) ∧ (i32 = false → t.me.csr.fflags.mark = fm)
        (Safety.keyAt s l ns key j = key → Safety.Answers ins s fun t =>
          let r := hashOp op i32 s.frm old v
          ofBytes (t.mem.read at_ 8) = key + 2 ^ 32 * (r.1 % 2 ^ 32) ∧ Safety.BytesKept s t at_ 8 ∧
          past t ∧
          (i32 = false → t.me.csr.fflags.val = s.me.csr.fflags.val ||| r.2.setWidth 64)) ∧
        (Safety.keyAt s l ns key j = Safety.nullKey → Safety.Answers ins s fun t =>
          ofBytes (t.mem.read at_ 8) = key + 2 ^ 32 * v ∧ ofBytes (t.mem.read (l + 4) 4) = (count + 1) % 2 ^ 32 ∧
          (∀ q, (q < at_ ∨ at_ + 8 ≤ q) → (q < l + 4 ∨ l + 8 ≤ q) → t.mem.get q = s.mem.get q) ∧
          past t ∧ t.me.csr.fflags.val = s.me.csr.fflags.val)) ∧
      ((∀ j, ¬Safety.Reaches s l ns mp key j) →
        exec ins s = .next (s.trapEntry 0x05 (s.x a) (word (0x18 * 2 ^ 56 + i)) false 0 (s.trapMark ins))))

/-! ## Page 3: work identifiers, continuations, launches -/

/-- WIDF and WIDR (R272, R273, R526): WIDF gives field n of WIDB, with WIDB's mark; WIDR replaces field X(A)[2:0] of X(D),
whose other bits stay, and raises ARITH 0x37 for a field above 5. Nothing else changes. WQPUT and WQTAKE (R291, R292):
WQPUT puts [X(A), X(B)) with chunk X(D) and the result mark at the tail of the cluster's queue, does nothing for an
empty range, waits while the queue holds 16 entries and raises ARITH 0x37 for a chunk of 0 or above 2^32 − 1; WQTAKE
gives the next chunk of the oldest entry of the thread's group, and two zeros when there is none. -/
def Obligations.WorkForms : Prop :=
  (∀ (s : State) (d a b : Reg) (n : BitVec 3),
     let w := s.me.csr.widb
     let k := (s.x a).toNat % 8
     let ins : Instr := .widr d a b
     Safety.Answers (.widf d n) s (fun t => Safety.WroteX s t d
       (word (w.val.toNat / 2 ^ s.startOf n.toNat % 2 ^ s.widthOf n.toNat)) (w.mark ||| s.base)) ∧
     (k ≤ 5 → ∃ v : Word, (∀ j, j < 64 → v.getLsbD j =
         if s.startOf k ≤ j ∧ j < s.startOf k + s.widthOf k then (s.x b).getLsbD (j - s.startOf k)
         else (s.x d).getLsbD j) ∧
       Safety.Answers ins s fun t => Safety.WroteX s t d v (s.xm d ||| s.xm a ||| s.xm b ||| s.base)) ∧
     (5 < k → exec ins s = .next (s.trapEntry 0x05 0 (word (0x37 * 2 ^ 56)) false 0 (s.trapMark ins)))) ∧
  (∀ (s : State) (d a b : Reg) (e : Share) (pre post : List Share),
     isDcp s.cur.unit = false → isSec s.cur.unit = false → isChannel s.cur.unit = false → d.toNat % 2 = 0 →
     let j := clusterOf s.cur.unit
     let q := (s.cluster j).shares
     let n := (s.x d).toNat
     let i : Instr := .wqput d a b
     let good := n ≠ 0 ∧ n < 2 ^ 32
     let end_ := min (e.lo.toNat + e.chunk) e.hi.toNat
     (good → s.x a < s.x b → q.length < 16 → Safety.Answers i s fun t =>
       (t.cluster j).shares = q ++ [⟨BitVec.ofNat 16 s.me.gh, s.x a, s.x b, n, s.xm d ||| s.xm a ||| s.xm b ||| s.base⟩] ∧
       (∀ k, k ≠ j → t.cluster k = s.cluster k) ∧ Safety.Past s t ∧ t.mem = s.mem) ∧
     (good → s.x b ≤ s.x a → Safety.Answers i s (Safety.NoEffect s)) ∧
     (good → s.x a < s.x b → 16 ≤ q.length → Safety.PatientA s 0x0C →
       Safety.Answers i s fun t => Safety.Waits s t 0x0C 0) ∧
     (¬good → exec i s = .next (s.trapEntry 0x05 0 (word (0x37 * 2 ^ 56)) false 0 (s.trapMark i))) ∧
     (let two (t : State) (lo hi : Word) (m : Mark) : Prop :=
        Safety.XHolds t d.toNat lo m ∧ Safety.XHolds t (d.toNat + 1) hi m ∧
        Safety.XKept s t [d.toNat, d.toNat + 1] ∧ Safety.VKept s t [] ∧ Safety.KKept s t [] ∧ Safety.Passed s t ∧
        Safety.WindowsEnded s t [d.toNat, d.toNat + 1] ∧ t.me.csr = s.me.csr ∧ t.mem = s.mem
      ((∀ f ∈ q, f.gh.toNat ≠ s.me.gh) → Safety.Answers (.wqtake d) s fun t => two t 0 0 s.base ∧
        (t.cluster j).shares = q) ∧
      (q = pre ++ e :: post → (∀ f ∈ pre, f.gh.toNat ≠ s.me.gh) → e.gh.toNat = s.me.gh →
        Safety.Answers (.wqtake d) s fun t =>
        two t e.lo (word end_) (e.mark ||| s.base) ∧
        (t.cluster j).shares = pre ++ (if e.hi.toNat ≤ end_ then [] else [{ e with lo := word end_ }]) ++ post)))

/-- SPAWN and SPAWND (R274 to R277) with a valid record in the local window: the record at X(A), with the control
immediate applied, STATE READY for JOIN = 0 and else WAIT, TRIGD 0 and MARK joined with the result mark, stands at its
home; a READY one stands also at the tail of its level of the ready queue that R228 gives, and the live count of the
group whose handle the record carries grows (R229). No register changes. -/
def Obligations.Spawns : Prop :=
  ∀ (s : State) (d a : Reg) (gh pri here : Bool) (l : Nat),
    let r0 (h : Bool) := s.spawnApply (recOfBytes (s.mem.read l 64)) gh pri h
    let spawned (i : Instr) (r : ContRec) (home : Word) (m : Mark) : Prop :=
      Safety.UnderCeil s l 64 m →
      ∃ r1 : ContRec, r1.mark = r.mark ||| m ∧ r1.trigd = false ∧ r1.state = (if r.join = 0 then 1 else 0) ∧
        r1.pri = r.pri ∧ { r1 with flags := r.flags } = r ∧
        (r.join ≠ 0 → Safety.Answers i s fun t =>
          Safety.StoredAt s t l 64 (ofBytes r1.bytes) ∧ Safety.Past s t ∧ t.ready = s.ready ∧
          t.groups = (s.live r.gh true).groups) ∧
        (∀ u, r.join = 0 → r.chip = s.chip → s.routeOf r1 = some (u, r1) →
          ((s.readyQ u).levels.getD r1.pri []).length < 32 →
          Safety.Answers i s fun t =>
            Safety.StoredAt s t l 64 (ofBytes r1.bytes) ∧ Safety.Past s t ∧
            (t.readyQ u).levels.getD r1.pri [] =
              (s.readyQ u).levels.getD r1.pri [] ++ [⟨r1, home, s.cur.unit, s.partIx s.cur, s.now⟩] ∧
            t.groups = (s.live r.gh true).groups)
    isDcp s.cur.unit = false → isSec s.cur.unit = false → s.mem.wf = true →
    Safety.Block s (s.x a) 64 l →
    (Safety.ValidRec s (r0 here) → s.spawnHere (r0 here) = true →
      spawned (.spawn a gh pri here) (r0 here) (s.x a) (s.xm a ||| s.mem.markOf l 64 ||| s.base)) ∧
    (∀ k u, s.ownerOf (s.x d) (s.x a) = .ok (k, u, s.chip) → Safety.ValidRec s (r0 false) →
      spawned (.spawnd d a gh pri) { r0 false with aff := affOf (r0 false).gh k u s.chip } (s.farAddr (s.x a))
        (s.xm d ||| s.xm a ||| s.mem.markOf l 64 ||| s.base)) ∧
    (Safety.UnderCeil s l 64 (s.xm a ||| s.mem.markOf l 64 ||| s.base) → (r0 here).join.getLsbD 31 = true →
      exec (.spawn a gh pri here) s =
        .next (s.trapEntry 0x05 (s.x a) (word (0x30 * 2 ^ 56)) false 0 (s.trapMark (.spawn a gh pri here))))

/-- JOIN (R279, Table 8.8) of a record in the local window: a WAIT record whose JOIN is not 1, or a RUN one, has its JOIN
lowered by 1 and X(D) is 0; a WAIT record with JOIN = 1 becomes READY, stands in its ready queue, and X(D) is 1; one
that is READY or DONE is left alone, JOINERR is posted, and X(D) is 2. TRIG (R225, R280) sets TRIGD at the home, joining
CMARK, and sends one decrement with CMARK on its way to each address of the list at SUCC, whose word gives their number in
its low 8 bits; it does nothing with no continuation or one of no group, and sends none when TRIGD was set or SUCC is 0;
it waits for earlier E-side accesses, and for the answers to its own (R456). That the list is read in the space 00 of the
unit that enqueued the continuation is log entry 109 (DEDUCED). -/
def Obligations.Joins : Prop :=
  ∀ (s : State) (d a : Reg) (l : Nat),
    let r := recOfBytes (s.mem.read l 64)
    let m := s.xm a ||| s.mem.markOf l 64 ||| s.base
    let at_ (r : ContRec) : Nat := r.join.toNat + r.flags.toNat * 2 ^ 32
    let low : ContRec := { r with join := r.join - 1 }
    let up : ContRec := { r with join := 0, flags := flagsWith r.flags 1 r.trigd }
    let die := dieOf s.cur.unit
    (s.mem.wf = true → Safety.Block s (s.x a) 64 l → Safety.UnderCeil s (l + 0x10) 8 m →
      ((r.state = 0 ∧ r.join ≠ 1 ∨ r.state = 2) → Safety.Answers (.join d a) s fun t =>
        Safety.GaveX s t d 0 m ∧ Safety.StoredAt s t (l + 0x10) 8 (at_ low) ∧ t.ready = s.ready) ∧
      (∀ u, r.state = 0 → r.join = 1 → r.chip = s.chip → s.routeOf up = some (u, up) →
        ((s.readyQ u).levels.getD r.pri []).length < 32 → Safety.Answers (.join d a) s fun t =>
          Safety.GaveX s t d 1 m ∧ Safety.StoredAt s t (l + 0x10) 8 (at_ up) ∧
          (t.readyQ u).levels.getD r.pri [] =
            (s.readyQ u).levels.getD r.pri [] ++ [⟨up, s.x a, s.cur.unit, s.partIx s.cur, s.now⟩]) ∧
      ((r.state = 1 ∨ r.state = 3) → Safety.Answers (.join d a) s fun t =>
        Safety.GaveX s t d 2 m ∧ t.mem = s.mem ∧ t.ready = s.ready ∧
        (t.die die).waiting = (s.die die).waiting ++
          [⟨dcpRecord 0x05 ⟨s.cur.unit, 0, 0⟩ s.chip 0 (s.x a) 0 0 0 s.tbase m, m, s.cur.unit⟩])) ∧
    (s.me.asking = none → (∀ c, s.me.cont = some c → c.record.gh = 0) → Safety.Answers .trig s (Safety.NoEffect s)) ∧
    (∀ c, s.me.cont = some c → c.record.gh ≠ 0 → s.eMemIdle = true →
      let cm := s.me.csr.cmark
      let done (t : State) : Prop :=
        t.me.regs = s.me.regs ∧ Safety.WindowsSame s t ∧ Safety.Passed s t ∧ t.me.cont = some { c with trigd := true }
      let held (t : State) : Prop := t.me.regs = s.me.regs ∧ t.me.pc = s.me.pc ∧ t.me.cont = s.me.cont ∧ t.decs = s.decs
      ((c.trigd = true ∨ c.record.succ = 0) → Safety.Answers .trig s fun t => done t ∧ t.decs = s.decs ∨ held t) ∧
      (∀ h, Safety.HomeAt s c.unit c.home 64 h → Safety.Clean s h 64 → Safety.UnderCeil s (h + 0x10) 8 cm →
        s.mem.wf = true →
        let r := recOfBytes (s.mem.read h 64)
        let set (t : State) : Prop := done t ∧
          Safety.StoredAt s t (h + 0x10) 8 (r.join.toNat + (flagsWith r.flags r.state true).toNat * 2 ^ 32) ∧
          ∀ g, g ∈ markLines (h + 0x10) 8 → markGet t.mem.marks g = markGet s.mem.marks g ||| cm
        ((c.trigd = true ∨ r.trigd = true ∨ c.record.succ = 0) → Safety.Answers .trig s fun t => set t ∧
          t.decs = s.decs) ∧
        (∀ q n, c.trigd = false → r.trigd = false → c.record.succ ≠ 0 → ofBytes (s.mem.read q 8) % 256 = n →
          Safety.HomeAt s c.unit c.record.succ (8 + 8 * n) q → Safety.Clean s q (8 + 8 * n) →
          q + 8 + 8 * n ≤ h + 0x10 ∨ h + 0x18 ≤ q → Safety.Answers .trig s fun t => set t ∧
            t.decs = s.decs ++ (List.range n).map fun i =>
              ⟨word (ofBytes (s.mem.read (q + 8 + 8 * i) 8)), cm, s.cur.unit, c.part, fullWindow, c.unit, none⟩))) ∧
    (∀ c, s.me.cont = some c → c.record.gh ≠ 0 → s.eMemIdle = false → s.latch.src = .access →
      Safety.Answers .trig s fun t =>
      Safety.Waits s t 0 0)

/-- EXIT and SUSP (R132, R278): once no E-side work, no command of a lease and no copy of the thread is left, the
continuation leaves the thread, which is idle, with its slots closed and, on a unit that runs continuations, CMARK,
arrivals and mailbox cleared. EXIT makes the home DONE with CMARK joined into its MARK; SUSP writes CODE, read once every
window has closed, FRAME, ARG0, ARG1 and MARK to the home and adds X(B) to its JOIN, and the record waits, or stands in
its ready queue when JOIN is then 0 or less. Until then EXIT waits, as it does for the answer to an access that it makes
for its continuation (R456), which none in space 00 needs. -/
def Obligations.LeavingForms : Prop :=
  ∀ (s : State) (a b : Reg) (c : Cont) (l : Nat),
    let h := recOfBytes (s.mem.read l 64)
    let home (m : Mark) : Prop :=
      s.me.cont = some c ∧ Safety.HomeAt s c.unit c.home 64 l ∧ Safety.Clean s l 64 ∧ Safety.UnderCeil s l 64 m ∧
      s.mem.wf = true ∧ isSec s.cur.unit = false
    let free := s.eIdle = true ∧ s.leaseBusy s.cur = false ∧ s.copiesBusy s.cur = false
    let bare := s.setMe { s.me with windows := [] }
    let left (t : State) : Prop :=
      t.me.run = .idle ∧ (∀ j, j < 4 → (t.slot j).opened = false) ∧ (∀ j, j < 2 → (t.fibre j).opened = false) ∧
      (isSec s.cur.unit = false → t.me.cont = none ∧ t.me.csr.cmark = 0 ∧ t.me.arrivals = [] ∧ t.me.mailbox = [])
    let code := if a = 0 then s.latch.addr + word s.latch.len else bare.x a
    let mk := h.mark ||| s.me.csr.cmark ||| bare.xm a ||| s.xm b ||| (s.me.regs.getX 2).mark |||
      (s.me.regs.getX 10).mark |||
      (s.me.regs.getX 11).mark
    let join := h.join + BitVec.ofNat 32 (s.x b).toNat
    let back (r : ContRec) (state : Nat) : Prop :=
      r.code = code ∧ r.frame = (s.me.regs.getX 2).val ∧ r.arg0 = (s.me.regs.getX 10).val ∧
      r.arg1 = (s.me.regs.getX 11).val ∧ r.mark = mk ∧ r.state = state ∧ r.trigd = h.trigd ∧ r.pri = h.pri ∧
      r.wid = h.wid ∧ r.succ = h.succ ∧ r.aff = h.aff
    let held (t : State) : Prop := t.me.pc = s.me.pc ∧ t.me.regs = s.me.regs ∧ t.me.cont = s.me.cont
    (free → Safety.Answers .exit s fun t => left t ∨ held t) ∧
    (free → (∀ k, s.me.cont = some k → field k.home 63 62 = 0 ∧ field k.record.succ 63 62 = 0) →
      Safety.Answers .exit s left) ∧
    (free → home s.me.csr.cmark → (c.record.succ = 0 ∨ c.trigd = true) → Safety.Answers .exit s fun t =>
      left t ∧ Safety.StoredAt s t (l + 0x10) 8 (h.join.toNat +
        (flagsWith (flagsMark h.flags (h.mark ||| s.me.csr.cmark)) 3 h.trigd).toNat * 2 ^ 32)) ∧
    (¬free → Safety.Answers .exit s held) ∧
    ((s.x b).toNat < 2 ^ 31 → free → isDcp s.cur.unit = false → home mk →
      (join ≠ 0 → join.getLsbD 31 = false → ∃ r, back r 0 ∧ r.join = join ∧
        Safety.Answers (.susp a b) s fun t => left t ∧ Safety.StoredAt s t l 64 (ofBytes r.bytes) ∧ t.ready = s.ready) ∧
      (∀ u, (join = 0 ∨ join.getLsbD 31 = true) → h.chip = s.chip →
        ((s.readyQ u).levels.getD h.pri []).length < 32 → (∀ r, back r 1 → s.routeOf r = some (u, r)) →
          ∃ r, back r 1 ∧ r.join = 0 ∧
          Safety.Answers (.susp a b) s fun t => left t ∧ Safety.StoredAt s t l 64 (ofBytes r.bytes) ∧
            (t.readyQ u).levels.getD h.pri [] =
              (s.readyQ u).levels.getD h.pri [] ++ [⟨r, c.home, c.unit, c.part, s.now⟩])) ∧
    (2 ^ 31 ≤ (s.x b).toNat → isDcp s.cur.unit = false → isSec s.cur.unit = false →
      exec (.susp a b) s = .next (s.trapEntry 0x05 0 (word (0x37 * 2 ^ 56)) false 0 (s.trapMark (.susp a b))))

/-- GDONE and GLAUNCH (R281, R282): GDONE sets bit X(A) of the completion bitmap of the thread's launch, and X(D) tells
whether it set it; without GCP it raises ILL. GLAUNCH puts the 128-byte record at X(A), with the result mark joined
into CTL.MARK, at the tail of the partition's launch queue under the next launch number, which X(D) receives; it waits
while the queue is full, and raises BOUNDS for an address not aligned to 128 bytes and ARITH 0x31 for a bit that the
thread lacks. -/
def Obligations.LaunchForms : Prop :=
  ∀ (s : State) (d a : Reg) (l : Nat),
    let q := s.part (s.partIx s.cur)
    let n := (s.x a).toNat
    let old := (s.mem.get l).toNat
    let rec_ : BitVec 1024 := BitVec.ofNat 1024 (ofBytes (s.mem.read l 128))
    let m := s.xm a ||| s.mem.markOf l 128 ||| s.base
    let lacks := (launchCtl rec_).testBit 2 = true ∧ s.me.csr.priv = false ∨
      (launchCtl rec_).testBit 3 = true ∧ s.me.csr.gcp = false
    let placed := n % 128 = 0 ∧ Safety.LocalAt s (s.x a) 128 l ∧ Safety.Clean s l 128
    (∀ g e, s.me.csr.gcp = true → isDcp s.cur.unit = false → isSec s.cur.unit = false → s.myLaunch = some (g, e) →
      (launchCtl e.record).testBit 4 = true → launchDone e.record ≠ 0 → n < launchGroups e.record → s.mem.wf = true →
      Safety.HomeAt s s.cur.unit (launchDone e.record + word (n / 8)) 1 l → Safety.Clean s l 1 →
      Safety.UnderCeil s l 1 (s.xm a ||| s.base) → Safety.Answers (.gdone d a) s fun t =>
        Safety.GaveX s t d (if old.testBit (n % 8) then 0 else 1) (s.xm a ||| s.mem.markOf l 1 ||| s.base) ∧
        t.mem.get l = BitVec.ofNat 8 (old ||| 2 ^ (n % 8)) ∧ Safety.BytesKept s t l 1) ∧
    (s.me.csr.gcp = false → exec (.gdone d a) s =
      .next (s.trapEntry 0x01 0 s.latch.finfo false 0 (s.trapMark (.gdone d a)))) ∧
    (placed → ¬lacks → q.queue.length < 64 → Safety.Answers (.glaunch d a) s fun t =>
      Safety.GaveX s t d (q.nextNum.setWidth 64) m ∧ t.mem = s.mem ∧
      (t.part (s.partIx s.cur)).nextNum = q.nextNum + 1 ∧
      (t.part (s.partIx s.cur)).queue = q.queue ++ [⟨rec_ ||| (m.setWidth 1024 <<< 304), q.nextNum, none,
        (launchCtl rec_) % 4, s.now⟩]) ∧
    (placed → ¬lacks → 64 ≤ q.queue.length → Safety.PatientA s 0x0D → Safety.Answers (.glaunch d a) s fun t =>
      Safety.Waits s t 0x0D 0) ∧
    (placed → lacks → exec (.glaunch d a) s =
      .next (s.trapEntry 0x05 (s.x a) (word (0x31 * 2 ^ 56)) false 0 (s.trapMark (.glaunch d a)))) ∧
    (n % 128 ≠ 0 → exec (.glaunch d a) s =
      .next (s.trapEntry 0x06 (s.x a) 6 false 0 (s.trapMark (.glaunch d a))))

/-! ## Page 3: supersteps -/

/-- The forms on a barrier domain that the thread's launch names and whose EXP is not 0 (R283 to R290): SSTEP gives the
word that X(A)[7:6] selects; VOTE combines (X(A) ≠ 0) under AND or OR and joins the vote mark; BARA counts an arrival
and records it, and the arrival that makes ARR = EXP with PEND = 0 ends the superstep; BARW waits for the milestone
after the thread's arrival, then gives the vote word and clears the record, be the domain still such a one or not after
its wait; a second arrival, or a VOTE after it, raises ARITH 0x34; without such a domain each raises ARITH 0x33. -/
def Obligations.BarrierForms : Prop :=
  ∀ (s : State) (d a : Reg) (e : BitVec 6), isDcp s.cur.unit = false → isSec s.cur.unit = false →
    let p := s.partIx s.cur
    let n := e.toNat
    let x := s.dom p n
    let named := (∃ g l, s.myLaunch = some (g, l) ∧ (launchDom l.record).testBit n = true) ∧ x.exp ≠ 0
    let traps (i : Instr) (code : Nat) : Prop :=
      exec i s = .next (s.trapEntry 0x05 0 (word (code * 2 ^ 56 + n)) false 0 (s.trapMark i))
    let sel := (s.x a).toNat / 64 % 4
    let here := (s.x a).toNat % 64 = n
    let arrived := s.me.arrivals.get? n = some x.epoch
    (named → here → Safety.Answers (.sstep d a) s fun t =>
      Safety.WroteX s t d
        (if sel = 0 then word (x.epoch.toNat * 2 ^ 48 + x.pend % 2 ^ 28 * 2 ^ 16 + x.arr % 2 ^ 16)
         else if sel = 1 then x.mtb else if sel = 2 then x.dcfg else x.lastVote)
        (if sel = 3 then s.xm a ||| x.lastVoteMark ||| s.base else s.xm a ||| s.base)) ∧
    (named → ¬arrived → Safety.Answers (.vote a e) s fun t =>
      t.dom p n = { x with vote := if x.vmode then x.vote || s.x a != 0 else x.vote && s.x a != 0
                           voteMark := x.voteMark ||| s.xm a ||| s.base } ∧
      (∀ k, k ≠ n → t.dom p k = s.dom p k) ∧ Safety.Past s t ∧ t.mem = s.mem) ∧
    (named → ¬arrived → x.arr ≠ x.exp → Safety.Answers (.bara e) s fun t =>
      t.me.arrivals.get? n = some x.epoch ∧ t.me.regs = s.me.regs ∧ Safety.Passed s t ∧ t.mem = s.mem ∧
      (x.arr + 1 ≠ x.exp ∨ x.pend ≠ 0 → t.dom p n = { x with arr := x.arr + 1 }) ∧
      (x.arr + 1 = x.exp → x.pend = 0 →
        (t.dom p n).epoch = x.epoch + 1 ∧ (t.dom p n).arr = 0 ∧ (t.dom p n).mtb = s.tbase ∧
        (t.dom p n).lastVote = word ((x.epoch + 1).toNat * 2 ^ 48 + b2n x.vote) ∧
        (t.dom p n).lastVoteMark = x.voteMark ∧ (t.dom p n).voteMark = 0 ∧
        ((t.dom p n).vote = true ↔ (t.dom p n).vmode = false))) ∧
    (named ∨ s.inWait 0x05 = true → here → s.me.arrivals.sorted = true → ∀ f, s.me.arrivals.get? n = some f →
      f ≠ x.epoch →
      Safety.Answers (.barw d a) s fun t =>
      Safety.GaveX s t d x.lastVote (s.xm a ||| x.lastVoteMark ||| s.base) ∧ t.mem = s.mem ∧
      t.me.arrivals.get? n = none ∧ t.dom p n = x) ∧
    (named → here → arrived → Safety.PatientA s 0x05 → Safety.Answers (.barw d a) s fun t => Safety.Waits s t 0x05 n) ∧
    (named → arrived → traps (.vote a e) 0x34 ∧ traps (.bara e) 0x34) ∧
    (named → here → s.me.arrivals.get? n = none → traps (.barw d a) 0x35) ∧
    (¬named → traps (.vote a e) 0x33 ∧ traps (.bara e) 0x33 ∧
      (here → traps (.sstep d a) 0x33 ∧ (s.inWait 0x05 = false → traps (.barw d a) 0x33)))

/-- XSEND (R286 to R288): with a valid descriptor in the local window, a source in the thread's ranges and a destination
on the own package that R297 lets it write, at a TBASE within the slot, it adds LEN to PEND and sends the source bytes
with the result mark; outside the slot it raises XSLOT and sends nothing; while PEND is full it waits, and then sends,
for the EPOCH of its issue, the bytes that it reads after its wait, with no check made again. -/
def Obligations.TimedSends : Prop :=
  ∀ (s : State) (a : Reg) (e : BitVec 6) (start : BitVec 16) (len : BitVec 8) (ld l : Nat),
    let p := s.partIx s.cur
    let n := e.toNat
    let x := s.dom p n
    let y := sendDesc (ofBytes (s.mem.read ld 32))
    let i : Instr := .xsend a e start len
    let now := s.readTbase.2
    let m := s.xm a ||| s.mem.markOf ld 32 ||| s.base
    let sent (t : State) (id : Nat) (z : Sending) : Prop :=
      t.dom p n = { x with pend := x.pend + z.len } ∧
      t.sends = s.sends ++ [⟨id, s.cur, p, n, z.epoch, z.vsn, z.dst, z.len, s.mem.read z.loc z.len,
        z.mark ||| s.mem.markOf z.loc z.len, none⟩] ∧
      Safety.Past s t ∧ t.mem = s.mem ∧ t.me.sending = none
    let found : Sending := ⟨x.epoch, y.src, l, y.len, y.dst, y.vsn, m⟩
    let inTime := x.mtb.toNat + 16 * start.toNat ≤ now.toNat ∧
      now.toNat < x.mtb.toNat + 16 * (start.toNat + len.toNat)
    (∀ z, s.me.sending = some z → Safety.Clean s z.loc z.len → x.pend + z.len ≤ 2 ^ 28 - 1 →
      Safety.Answers i s fun t => sent t s.free z) ∧
    (∀ z, s.me.sending = some z → 2 ^ 28 - 1 < x.pend + z.len → Safety.PatientA s 0x0A →
      Safety.Answers i s fun t => Safety.Waits s t 0x0A n) ∧
    (isDcp s.cur.unit = false → isSec s.cur.unit = false →
    (∃ g k, s.myLaunch = some (g, k) ∧ (launchDom k.record).testBit n = true) → x.exp ≠ 0 →
    (s.x a).toNat % 32 = 0 → Safety.LocalAt s (s.x a) 32 ld → Safety.Clean s ld 32 → y.ok = true →
    Safety.LocalAt s y.src y.len l → Safety.Clean s l y.len → field y.dst 52 34 = s.chip → s.checkDst y = .ok () →
    s.me.sending = none →
    (inTime → x.pend + y.len ≤ 2 ^ 28 - 1 → Safety.Answers i s fun t => sent t (s.free + 1) found) ∧
    (inTime → 2 ^ 28 - 1 < x.pend + y.len → Safety.PatientA s 0x0A → Safety.Answers i s fun t =>
      Safety.Waits (s.setMe { s.me with sending := some found }) t 0x0A n) ∧
    (¬inTime → exec i s = .next (s.trapEntry 0x22 (s.x a) (word (n * 2 ^ 48 + (now - x.mtb).toNat % 2 ^ 48)) false 0
      (s.trapMark i))))

/-! ## Page 3: work sharing and operand rings -/

/-- The ring forms at a stop of a segment that runs for the thread's group (R261 to R267): RINJ waits while the queue
has no place, then reads for 128 clk, and queues a tile of the 16,384 bytes at X(A) for injection and gives its SEQ;
one that finds nothing of itself at its stop, where EN has fallen meanwhile, raises ARITH 0x25; MTSET makes entry E
valid with the tags in X(D) and the template at X(A), its counters 0; MTCLR makes an entry invalid and gives its
counter word; RSTAT gives the word that X(A)[7:0] selects; RDRAIN completes with FIRED once the segment is quiet, or
with FIRED as EN fell, and waits until then, with FORCE asking for the removals of the next boundary; RTAKE takes the
oldest recovery record, or gives 0. At no such stop each raises ARITH 0x20. That RINJ's 128 clk are ticks is log entry 3
(DESIGN CHOICE), that its source is read at their end log entry 51 (DEDUCED). -/
def Obligations.RingForms : Prop :=
  ∀ (s : State) (d a b : Reg) (e : BitVec 6) (q j c l : Nat),
    let x := s.stop c
    let g := (s.quad q).sg j
    let traps (i : Instr) (code : Nat) (f : Word) : Prop :=
      exec i s = .next (s.trapEntry 0x05 f (word (code * 2 ^ 56)) false 0 (s.trapMark i))
    (s.myStop = some (q, j, c) →
      (let v := s.x b
       let m := s.xm a ||| s.xm b ||| s.mem.markOf l 16384 ||| s.base
       let east := !v.getLsbD 26
       let inj (x : Stop) : List Tile := if v.getLsbD 26 then x.injW else x.injE
       let stays (t : State) (began : Option Nat) : Prop :=
         t.me.pc = s.me.pc ∧ t.me.regs = s.me.regs ∧ t.me.aWait.isSome ∧ t.mem = s.mem ∧
         t.stop c = { x with rinjs := x.rinjs.filter (·.who != s.cur.key) ++ [⟨s.cur.key, east, began⟩] }
       (s.x a).toNat % 512 = 0 → 0x10000 ≤ (s.x a).toNat → Safety.LocalAt s (s.x a) 16384 l → Safety.Clean s l 16384 →
       (∀ t0, tileWordOk v = true → s.myInject c = some ⟨s.cur.key, east, some t0⟩ → t0 + 128 ≤ s.now →
          Safety.Answers (.rinj d a b) s fun t =>
          Safety.GaveX s t d (g.seq.setWidth 64) m ∧ t.mem = s.mem ∧ ((t.quad q).sg j).seq = g.seq + 1 ∧
          (t.stop c).rinjs = x.rinjs.filter (·.who != s.cur.key) ∧
          ∃ k : Tile, inj (t.stop c) = inj x ++ [k] ∧ k.tag.toNat = field v 15 0 ∧ k.need = field v 25 16 ∧ k.lap = 0 ∧
            k.seq = g.seq ∧ k.mark = m ∧ k.removal = none ∧ ∀ o, o < 16384 → cellGet k.payload o = s.mem.get (l + o)) ∧
       (tileWordOk v = true → s.me.aWait = none → s.myInject c = none →
          (x.injFull east = false → Safety.Answers (.rinj d a b) s fun t => stays t (some s.now)) ∧
          (x.injFull east = true → Safety.PatientA s 0x0B → Safety.Answers (.rinj d a b) s fun t => stays t none)) ∧
       (tileWordOk v = false → s.me.aWait = none → traps (.rinj d a b) 0x21 0)) ∧
      (let r := recOfBytes (s.mem.read l 64)
       let et : BitVec 16 := (s.x d).setWidth 16
       let wt : BitVec 16 := (s.x d >>> 16).setWidth 16
       Safety.Block s (s.x a) 64 l → s.x d < 2 ^ 32 →
       (s.templateOk r g.owner.toNat c = true →
          (∀ n, n ∈ x.junctions → n.1 ≠ e.toNat → ¬(n.2.valid = true ∧ n.2.etag = et ∧ n.2.wtag = wt)) →
          Safety.Answers (.mtset d a e) s fun t =>
            (t.stop c).junction e.toNat = ⟨true, et, wt, r, s.xm d ||| s.xm a ||| s.mem.markOf l 64 ||| s.base, 0, 0⟩ ∧
            (∀ n, n ≠ e.toNat → (t.stop c).junction n = x.junction n) ∧ Safety.Past s t ∧ t.mem = s.mem) ∧
       (s.templateOk r g.owner.toNat c = false → traps (.mtset d a e) 0x22 (s.x a))) ∧
      (let n := (s.x a).toNat % 64
       Safety.Answers (.mtclr d a) s fun t =>
         Safety.GaveX s t d (x.junction n).counters ((x.junction n).mark ||| s.xm a ||| s.base) ∧
         (t.stop c).junction n = { x.junction n with valid := false } ∧
         (∀ k, k ≠ n → (t.stop c).junction k = x.junction k) ∧ t.mem = s.mem) ∧
      (let sel := (s.x a).toNat % 256
       (∀ v m, s.rstat q j c sel = some (v, m) → Safety.Answers (.rstat d a) s fun t =>
         Safety.WroteX s t d v (s.xm a ||| g.mark ||| m ||| s.base)) ∧
       (s.rstat q j c sel = none → Safety.Answers (.rstat d a) s fun t => Safety.WroteX s t d 0 (s.xm a ||| s.base)) ∧
       s.rstat q j c 1 = some (word (g.fired.toNat * 2 ^ 32 + g.missed.toNat), 0) ∧
       s.rstat q j c 2 = some (word (g.injected.toNat * 2 ^ 32 + g.retired.toNat), 0) ∧
       s.rstat q j c 3 = some (word (g.recovered.toNat * 2 ^ 32), 0) ∧
       s.rstat q j c (0x40 + e.toNat) = some ((x.junction e.toNat).counters, (x.junction e.toNat).mark) ∧
       s.rstat q j c (0x80 + e.toNat) = some (word ((x.junction e.toNat).wtag.toNat * 2 ^ 16
         + (x.junction e.toNat).etag.toNat), (x.junction e.toNat).mark)) ∧
      (s.quiet q j = true → s.myDrain = none → Safety.Answers (.rdrain d a) s fun t =>
        Safety.GaveX s t d (g.fired.setWidth 64) (s.xm a ||| g.mark ||| s.base) ∧ t.mem = s.mem ∧
          t.clusters = s.clusters) ∧
      (s.quiet q j = false → s.myDrain = none → Safety.PatientA s 0x0B → Safety.Answers (.rdrain d a) s fun t =>
        (∃ w, t.me.aWait = some w ∧ w.kind = 0x0B) ∧ t.me.pc = s.me.pc ∧ t.me.regs = s.me.regs ∧ t.mem = s.mem ∧
        t.clusters = s.clusters ∧ ((t.quad q).sg j).force = (g.force || (s.x a).getLsbD 0)) ∧
      (x.recovery = [] → Safety.Answers (.rtake d) s fun t => Safety.WroteX s t d 0 s.base) ∧
      (∀ r rest, x.recovery = r :: rest → Safety.Answers (.rtake d) s fun t =>
        Safety.GaveX s t d r.val (r.mark ||| s.base) ∧ (t.stop c).recovery = rest ∧ t.mem = s.mem)) ∧
    (s.me.aWait ≠ none → s.myInject (clusterOf s.cur.unit) = none → traps (.rinj d a b) 0x25 0) ∧
    (∀ k i n, s.myDrain = some ⟨k, i, some n⟩ → Safety.Answers (.rdrain d a) s fun t =>
      Safety.GaveX s t d (n.val.setWidth 64) (s.xm a ||| n.mark ||| s.base) ∧ t.mem = s.mem) ∧
    (s.myStop = none → s.me.aWait = none → s.myDrain = none → traps (.rinj d a b) 0x20 0 ∧
      traps (.mtset d a e) 0x20 0 ∧ traps (.mtclr d a) 0x20 0 ∧
      traps (.rstat d a) 0x20 0 ∧ traps (.rdrain d a) 0x20 0 ∧ traps (.rtake d) 0x20 0)

/-! ## Page 4: global memory -/

/-- LDG and STG (R295, R297, R298, R347): in spaces 00 and 10 of the own package LDG sign-extends the bytes at the address
into D with the marks of their lines, and STG stores the low bytes of X(D) with the result mark joined into each line;
in space 01 LDG reads HBM where a translated page lies, and a compute core raises NOVA; in space 11 they read and
write the register that Table 11.3 lists, and a write without PRIV has no effect. FENCE completes once no earlier
E-side access to memory is left (R358). -/
def Obligations.GlobalAccess : Prop :=
  ∀ (s : State) (z ord : BitVec 2) (sc : BitVec 3) (d a : Reg) (off : Word) (w : Win) (l : Nat),
    let at_ := s.x a + off
    let n := 2 ^ z.toNat
    let m := s.xm d ||| s.xm a ||| s.base
    let loads (v : Word) (k : Mark) : Prop :=
      Safety.MayOpen s w d → Safety.Answers (.ldg z d a off w) s fun t =>
        Safety.WroteX s t d v (k ||| s.xm a ||| s.base) (winLen w) ∧ Safety.WindowedX s t w d
    let given (v : Word) (k : Mark) : Prop :=
      Safety.MayOpen s w d → Safety.Answers (.ldg z d a off w) s fun t =>
        Safety.GaveX s t d v (k ||| s.xm a ||| s.base) (winLen w) ∧ t.mem = s.mem
    (Safety.ReachAt s at_ n l → Safety.Clean s l n → loads (signExt (ofBytes (s.mem.read l n)) (8 * n)) (s.mem.markOf l n)) ∧
    (Safety.ReachAt s at_ n l → Safety.Clean s l n → s.mem.wf = true → Safety.UnderCeil s l n m →
      Safety.Answers (.stg z d a off) s fun t => Safety.WroteMem s t l n (s.x d).toNat m) ∧
    (∀ u lf, field at_ 63 62 = 1 → isCompute s.cur.unit = false → lf.tgt = 0 → Safety.Clean s (hbmLoc + lf.pa) n →
      s.advance.pieces (s.partIx s.cur) at_ false (pageFuel n) 0 n = .ok (u, [⟨0, n, lf⟩]) →
      { u with xlats := s.xlats } = s.advance →
      given (signExt (ofBytes (s.mem.read (hbmLoc + lf.pa) n)) (8 * n)) (s.mem.markOf (hbmLoc + lf.pa) n)) ∧
    (field at_ 63 62 = 1 → isCompute s.cur.unit = true →
      (Safety.MayOpen s w d → exec (.ldg z d a off w) s = .next
        (s.trapEntry 0x23 at_ 0 false 0 (s.trapMark (.ldg z d a off w)))) ∧
      exec (.stg z d a off) s = .next (s.trapEntry 0x23 at_ 0 false 0 (s.trapMark (.stg z d a off)))) ∧
    (∀ r, field at_ 63 62 = 3 → field at_ 61 34 = 0 → at_.toNat % 8 = 0 → n = 8 →
      ctlReg (field at_ 33 21) (field at_ 20 0) = some r →
      given (s.ctlRead r).2.val (s.ctlRead r).2.mark ∧
      (s.me.csr.priv = false → Safety.Answers (.stg z d a off) s (Safety.NoEffect s)) ∧
      (∀ j k, s.me.csr.priv = true → r = .ceil j k → Safety.Answers (.stg z d a off) s fun t =>
        (if k then (t.cluster j).ceil1 else (t.cluster j).ceil0) = (s.x d).setWidth 16 ∧ Safety.Past s t ∧
          t.mem = s.mem) ∧
      (s.me.csr.priv = true → r = .troot → Safety.Answers (.stg z d a off) s fun t =>
        (t.part (s.partIx s.cur)).troot = s.x d &&& 0xFFFFFFF001 ∧ Safety.Past s t ∧ t.mem = s.mem)) ∧
    ((sc = 0 ∨ s.eMemIdle = true) → Safety.Answers (.fence ord sc) s (Safety.NoEffect s))

/-- AMO and ACAS (R355, R356): on an aligned word of the own package whose lock bit, where it has one, is free, the old
value goes sign-extended into D with the marks read; AMO stores the value of Table 13.5, and ACAS stores X(B) where
the old value is X(D)'s and else nothing. A word that is not aligned raises BOUNDS. -/
def Obligations.Atomics : Prop :=
  ∀ (s : State) (z ord : BitVec 2) (op : BitVec 4) (sc : BitVec 3) (d a b : Reg) (w : Win) (l : Nat),
    let n := 2 ^ z.toNat
    let amo : Instr := .amo z op ord sc d a b w
    let cas : Instr := .acas z ord sc d a b w
    let old := ofBytes (s.mem.read l n)
    let arg := (s.x b).toNat % 2 ^ (8 * n)
    let new := amoOp op (8 * n) old arg
    let ma := s.xm a ||| s.xm b ||| s.base
    let mc := s.xm d ||| s.xm a ||| s.xm b ||| s.base
    let c := s.cluster (clusterOf s.cur.unit)
    let given (i : Instr) (m : Mark) (p : State → Prop) : Prop :=
      Safety.Answers i s fun t =>
        Safety.GaveX s t d (signExt old (8 * n)) (m ||| s.mem.markOf l n) (winLen w) ∧ Safety.WindowedX s t w d ∧ p t
    Safety.MayOpen s w d →
    ((s.x a).toNat % n = 0 → Safety.ReachAt s (s.x a) n l → Safety.Clean s l n → s.mem.wf = true →
      (field (s.x a) 63 62 = 0 → isSpadLoc l = true → c.lock (lockBitOf (l % 2 ^ 21)) = ⟨none, []⟩) →
      (Safety.UnderCeil s l n ma → given amo ma fun t => Safety.StoredAt s t l n new) ∧
      (old = (s.x d).toNat % 2 ^ (8 * n) → Safety.UnderCeil s l n mc →
        given cas mc fun t => Safety.StoredAt s t l n arg) ∧
      (old ≠ (s.x d).toNat % 2 ^ (8 * n) → given cas mc fun t => t.mem = s.mem)) ∧
    ((s.x a).toNat % n ≠ 0 → n ≤ 8 →
      exec amo s = .next (s.trapEntry 0x06 (s.x a) 7 false 0 (s.trapMark amo)) ∧
      exec cas s = .next (s.trapEntry 0x06 (s.x a) 7 false 0 (s.trapMark cas)))

/-- LLOCK, SUNLK and the grant of a lock bit (R308, R352, R353): LLOCK takes a free bit with count 1 and counts a held one
up, as long as the thread holds fewer than four bits and a count below 4, which else raises ARITH 0x40, and waits for
another holder; a fifth bit raises it whoever holds the bit. SUNLK by the holder counts down, frees the bit at 0, and
X(D) is 1; for any other thread, or once after lock state was lost, X(D) is 0; a free bit goes to its oldest waiter. -/
def Obligations.Locks : Prop :=
  ∀ (s : State) (d a : Reg) (o : Nat), s.lockWord (s.x a) = .ok o →
    let j := clusterOf s.cur.unit
    let b := lockBitOf o
    let c := s.cluster j
    let me := s.cur.key
    let becomes (i : Instr) (x : LockBit) : Prop := Safety.Answers i s fun t =>
      (t.cluster j).lock b = x ∧ (∀ k, k ≠ b → (t.cluster j).lock k = c.lock k) ∧ Safety.Past s t ∧ t.mem = s.mem
    let kept (v : Word) : Prop := Safety.Answers (.sunlk d a) s fun t =>
      Safety.GaveX s t d v (s.xm a ||| s.base) ∧ t.mem = s.mem ∧ ∀ k, (t.cluster j).lock k = c.lock k
    (c.lock b = ⟨none, []⟩ → c.held me < 4 → becomes (.llock a) ⟨some (me, 1), []⟩) ∧
    (∀ n q, c.lock b = ⟨some (me, n), q⟩ → me ∉ q → n < 4 → becomes (.llock a) ⟨some (me, n + 1), q⟩) ∧
    (∀ n q, c.lock b = ⟨some (me, n), q⟩ → me ∉ q → 4 ≤ n → exec (.llock a) s =
      .next (s.trapEntry 0x05 (s.x a) (word (0x40 * 2 ^ 56)) false 0 (s.trapMark (.llock a)))) ∧
    ((∀ n, (c.lock b).holder ≠ some (me, n)) → 4 ≤ c.held me → exec (.llock a) s =
      .next (s.trapEntry 0x05 (s.x a) (word (0x40 * 2 ^ 56)) false 0 (s.trapMark (.llock a)))) ∧
    (∀ k n q, c.lock b = ⟨some (k, n), q⟩ → k ≠ me → c.held me < 4 → s.latch.src = .access → Safety.Patient s 9 →
      Safety.Answers (.llock a) s fun t =>
        t.me.pc = s.me.pc ∧ t.me.regs = s.me.regs ∧ t.mem = s.mem ∧
        (t.cluster j).lock b = ⟨some (k, n), if me ∈ q then q else q ++ [me]⟩) ∧
    (∀ n q, s.me.lockLost = false → s.eMemIdle = true → c.lock b = ⟨some (me, n), q⟩ →
      Safety.Answers (.sunlk d a) s fun t =>
        Safety.GaveX s t d 1 (s.xm a ||| s.base) ∧ t.mem = s.mem ∧
        (t.cluster j).lock b = ⟨if n ≤ 1 then none else some (me, n - 1), q⟩ ∧
        ∀ k, k ≠ b → (t.cluster j).lock k = c.lock k) ∧
    (s.me.lockLost = false → (∀ n, (c.lock b).holder ≠ some (me, n)) → kept 0) ∧
    (s.me.lockLost = true → kept 0 ∧ Safety.Answers (.sunlk d a) s fun t => t.me.lockLost = false) ∧
    (∀ (cl bit : BitVec 9) k q, (s.cluster cl.toNat).lock bit.toNat = ⟨none, k :: q⟩ →
      Safety.Answers (.lockGrant cl bit) s fun t =>
        (t.cluster cl.toNat).lock bit.toNat = ⟨some (k, 1), k :: q⟩ ∧ t.threads = s.threads ∧ t.mem = s.mem ∧
        ∀ n, n ≠ bit.toNat → (t.cluster cl.toNat).lock n = (s.cluster cl.toNat).lock n)

/-- The forms of a circular buffer that runs for the thread's group, and its steps (R310, R311, R359 to R361): CBCLM and
CBWAIT give the next free or filled slot, or wait; CBPUB and CBREL of the oldest slot claimed or taken count it, and
of another mark it; the steps do the same for engines and for waiting threads; a write of CBCFG with EN = 1 that may
take effect starts an empty buffer, and one with EN = 0 stops a running one. -/
def Obligations.CircularBuffers : Prop :=
  ∀ (s : State) (d a : Reg) (buf : BitVec 6) (j n : Nat) (far : Bool) (b : CircBuf),
    let k := buf.toNat
    let ns := b.nslot
    let becomes (t : State) (x : CircBuf) : Prop :=
      (t.cluster j).cb k = x ∧ (∀ e, e ≠ k → (t.cluster j).cb e = (s.cluster j).cb e) ∧
      (∀ e, e ≠ j → t.cluster e = s.cluster e) ∧ t.mem = s.mem
    let oldestP := (b.pclm + ns - b.ppend) % ns
    let oldestC := (b.ctake + ns - b.cheld) % ns
    let claimed : CircBuf := { b with pclm := (b.pclm + 1) % ns, free := b.free - 1, ppend := b.ppend + 1 }
    let taken : CircBuf := { b with ctake := (b.ctake + 1) % ns, filled := b.filled - 1, cheld := b.cheld + 1 }
    (s.cbOf (s.x a) (a == 0) buf = .ok (j, far, b) →
      let slot (i : Nat) : Word := s.slotAddr j far b i
      (s.inWait 1 = false → b.free ≠ 0 → b.claimers = [] → Safety.Answers (.cbclm d a buf) s fun t =>
        Safety.GaveX s t d (slot b.pclm) (s.xm a ||| s.base) ∧ becomes t claimed) ∧
      (s.inWait 2 = false → b.filled ≠ 0 → b.takers = [] → Safety.Answers (.cbwait d a buf) s fun t =>
        Safety.GaveX s t d (slot b.ctake) (s.xm a ||| s.base) ∧ becomes t taken) ∧
      (s.inWait 1 = false → b.free = 0 → b.claimers = [] → Safety.PatientA s 1 →
        Safety.Answers (.cbclm d a buf) s fun t =>
        t.me.pc = s.me.pc ∧ t.me.regs = s.me.regs ∧ becomes t { b with claimers := [(s.cur.key, none)] }) ∧
      (s.inWait 2 = false → b.filled = 0 → b.takers = [] → Safety.PatientA s 2 →
        Safety.Answers (.cbwait d a buf) s fun t =>
        t.me.pc = s.me.pc ∧ t.me.regs = s.me.regs ∧ becomes t { b with takers := [(s.cur.key, none)] })) ∧
    (s.cbOf (s.x a) false buf = .ok (j, far, b) → b.ops = [] → s.eMemIdle = true → b.slotOf (s.x a) far = some n →
      (b.isClaimed n = true → n ∉ b.published → n = oldestP → b.published = [] → Safety.Answers (.cbpub a buf) s fun t =>
        Safety.Past s t ∧ becomes t { b with ppend := b.ppend - 1, filled := b.filled + 1 }) ∧
      (b.isClaimed n = true → n ∉ b.published → n ≠ oldestP → oldestP ∉ b.published →
        Safety.Answers (.cbpub a buf) s fun t =>
        Safety.Past s t ∧ becomes t { b with published := b.published ++ [n] }) ∧
      (b.isTaken n = true → n ∉ b.released → n = oldestC → b.released = [] → Safety.Answers (.cbrel a buf) s fun t =>
        Safety.Past s t ∧ becomes t { b with cheld := b.cheld - 1, free := b.free + 1 }) ∧
      (b.isTaken n = true → n ∉ b.released → n ≠ oldestC → oldestC ∉ b.released → Safety.Answers (.cbrel a buf) s fun t =>
        Safety.Past s t ∧ becomes t { b with released := b.released ++ [n] }) ∧
      (b.isClaimed n = false → exec (.cbpub a buf) s = .next (s.trapEntry 0x05 (s.x a)
        (word (0x42 * 2 ^ 56 + (n * 2 ^ 8 + k) % 2 ^ 56)) false 0 (s.trapMark (.cbpub a buf))))) ∧
    (∀ cl : BitVec 9, cl.toNat = j → (s.cluster j).cb k = b →
      (b.ops = [(true, n)] → b.isClaimed n = true → b.published = [] → n = oldestP →
        Safety.Answers (.cbPublish cl buf) s fun t =>
        becomes t { b with ops := [], ppend := b.ppend - 1, filled := b.filled + 1 } ∧ t.threads = s.threads) ∧
      (b.ops = [(false, n)] → b.isTaken n = true → b.released = [] → n = oldestC →
        Safety.Answers (.cbRelease cl buf) s fun t =>
        becomes t { b with ops := [], cheld := b.cheld - 1, free := b.free + 1 } ∧ t.threads = s.threads) ∧
      (∀ key q, b.en = true → b.free ≠ 0 → b.claimers = (key, none) :: q → Safety.Answers (.cbClaim cl buf) s fun t =>
        becomes t { claimed with claimers := (key, some b.pclm) :: q } ∧ t.threads = s.threads) ∧
      (∀ key q, b.en = true → b.filled ≠ 0 → b.takers = (key, none) :: q → Safety.Answers (.cbTake cl buf) s fun t =>
        becomes t { taken with takers := (key, some b.ctake) :: q } ∧ t.threads = s.threads) ∧
      (∀ v : Word, let w := v &&& 0xFFFF8FFF00FF07FF
        s.me.csr.priv = true →
        (b.en = false → v.getLsbD 47 = true → s.mayEnable j w = true → Safety.Answers (.cbcfgWrite cl buf v) s fun t =>
          becomes t { CircBuf.fresh with cfg := w, free := field v 23 16 } ∧ t.threads = s.threads) ∧
        (b.en = true → v.getLsbD 47 = false → Safety.Answers (.cbcfgWrite cl buf v) s fun t =>
          ((t.cluster j).cb k).en = false ∧ ((t.cluster j).cb k).published = [] ∧ ((t.cluster j).cb k).released = [] ∧
          t.threads = s.threads ∧ t.mem = s.mem)) ∧
      (∀ v : Word, s.me.csr.priv = false → exec (.cbcfgWrite cl buf v) s = .next s))

/-- LDV, STV, RECLAIM and a cluster's service of versioned requests (R313, R314, R349, R350), for words of an enabled
window of the own package: LDV gives the value of the live cell of its version, with the mark of its line, and waits
while there is none; STV makes its version live, if its word has a free cell, and waits at the word's home otherwise, or
while an older STV of the word waits and its version is not live; it completes once its home has stored it; RECLAIM frees
the cells whose version is older than X(B). -/
def Obligations.VersionedWords : Prop :=
  ∀ (s : State) (d a b : Reg) (off : Word) (w : Win) (l : Nat), d.toNat % 2 = 0 →
    let at_ := s.x a + off
    let ver : BitVec 16 := (s.readX (d.toNat + 1)).val.setWidth 16
    let j := (l - spadLoc 0) / 2 ^ 21
    let cells := s.vcellsAt l
    let ldv : Instr := .ldv d a off w
    let stv : Instr := .stv d a off
    let md := (s.readX (d.toNat + 1)).mark
    (Safety.MayOpen s w d → s.vword at_ 8 false = .ok (.inl l) → s.myVreq j = none →
      (∀ c, cells.find? (·.ver == ver) = some c → Safety.Answers ldv s fun t =>
        Safety.GaveX s t d (if c.shadow then c.val else word (ofBytes (s.mem.read l 8)))
          (s.mem.markOf l 8 ||| s.xm a ||| md ||| s.base) (winLen w) ∧
        Safety.WindowedX s t w d ∧ t.mem = s.mem ∧ t.vcellsAt l = cells) ∧
      ((∀ c ∈ cells, c.ver ≠ ver) → Safety.PatientA s 3 → Safety.Answers ldv s fun t =>
        t.me.pc = s.me.pc ∧ t.me.regs = s.me.regs ∧ t.mem = s.mem ∧
        (t.cluster j).vreqs = (s.cluster j).vreqs ++
          [⟨some s.cur.key, field at_ 63 62 == 2, false, l, ver, plain 0, s.partIx s.cur, none, none⟩])) ∧
    (s.vword at_ 8 true = .ok (.inl l) → (s.cluster j).vreqs = [] → s.mem.wf = true →
      cells.Pairwise (fun c e => c.ver ≠ e.ver) →
      let m := s.xm d ||| s.xm a ||| md ||| s.base
      ((∃ c ∈ cells, c.ver = ver) ∨ (∀ c ∈ cells, c.shadow = false) ∨ ∀ c ∈ cells, c.shadow = true) →
      Safety.UnderCeil s l 8 m → Safety.Answers stv s fun t =>
        t.ldvAt l ver = some ⟨s.x d, s.mem.markOf l 8 ||| m⟩ ∧ Safety.BytesKept s t l 8 ∧ Safety.Past s t ∧
        ∀ k, isSpadLoc k = true → k ≠ l → t.vcellsAt k = s.vcellsAt k) ∧
    (s.vword at_ 8 true = .ok (.inl l) →
      let m := s.xm d ||| s.xm a ||| md ||| s.base
      let both := (∃ c ∈ cells, c.shadow = true) ∧ ∃ c ∈ cells, c.shadow = false
      let older := ∃ q ∈ (s.cluster j).vreqs, q.store = true ∧ q.loc = l ∧ q.result = none ∧ q.failed = none
      (s.myVreq j = none → (∀ c ∈ cells, c.ver ≠ ver) → both ∨ older → Safety.PatientA s 4 → Safety.Answers stv s fun t =>
        t.me.pc = s.me.pc ∧ t.me.regs = s.me.regs ∧ t.mem = s.mem ∧ t.vcellsAt l = cells ∧
        (t.cluster j).vreqs = (s.cluster j).vreqs ++
          [⟨some s.cur.key, field at_ 63 62 == 2, true, l, ver, ⟨s.x d, m⟩, s.partIx s.cur, none, none⟩]) ∧
      (∀ r, s.myVreq j = some r → r.failed = none →
        (r.result ≠ none → Safety.Answers stv s fun t => Safety.Past s t ∧ t.mem = s.mem ∧
          (t.cluster j).vreqs = (s.cluster j).vreqs.filter (·.who != some s.cur.key)) ∧
        (r.result = none → Safety.PatientA s 4 → Safety.Answers stv s fun t =>
          t.me.pc = s.me.pc ∧ t.me.regs = s.me.regs ∧ t.mem = s.mem ∧ (t.cluster j).vreqs = (s.cluster j).vreqs)) ∧
      (∀ r x, s.myVreq j = some r → r.failed = some x →
        exec stv s = .next (s.trapEntry 0x21 at_ (word x.toNat) false 0 (s.trapMark stv)))) ∧
    (let n := (s.x d).toNat
     let ins : Instr := .reclaim d a b
     let r : BitVec 16 := (s.x b).setWidth 16
     (0 < n → n ≤ 16384 → s.vword (s.x a) (8 * n) true = .ok (.inl l) → (s.cluster j).vreqs = [] →
       Safety.Answers ins s fun t =>
         (∀ k, k < n → t.vcellsAt (l + 8 * k) = (s.vcellsAt (l + 8 * k)).filter fun c =>
           decide ((r - c.ver).toNat = 0 ∨ 2 ^ 15 ≤ (r - c.ver).toNat)) ∧
         Safety.Past s t ∧ t.mem = s.mem) ∧
     (n = 0 → Safety.Answers ins s (Safety.NoEffect s)) ∧
     (16384 < n → exec ins s =
       .next (s.trapEntry 0x05 (s.x a) (word (0x44 * 2 ^ 56)) false 0 (s.trapMark ins)))) ∧
    (∀ (cl : BitVec 9) (p u : Nat) (far : Bool), (l - spadLoc 0) / 2 ^ 21 = cl.toNat →
      ∀ c, cells.find? (·.ver == ver) = some c →
      (s.cluster cl.toNat).vreqs = [⟨some u, far, false, l, ver, plain 0, p, none, none⟩] →
      Safety.Answers (.versionedRequest cl) s fun t =>
        (t.cluster cl.toNat).vreqs =
          [⟨some u, far, false, l, ver, plain 0, p, some ⟨s.vval l c, s.mem.markOf l 8⟩, none⟩] ∧
        t.threads = s.threads ∧ t.mem = s.mem)

/-! ## Page 5: engines -/

/-- The copy engine (R366 to R370, R394 to R396): CPSET loads the shadows that its mask names from the image at X(A); a
read of CPLAUNCH, and CPGO after loading all seven, queues a copy with the shadows as latched and gives its number;
CPSTAT gives STATE, ST, BYTES and ID; the step of a copy of one run in the local window moves its bytes with the join
of M_L and the source's marks; its completion leaves the message and the event line; a DCP's message enters a mailbox.
Shadows outside R367 raise ARITH 0x50. -/
def Obligations.Copies : Prop :=
  ∀ (s : State) (d a : Reg) (sel : BitVec 7) (l : Nat),
    let u := engKey s.cur.unit
    let e := s.eng u
    let able := isCompute s.cur.unit = true ∨ isChannel s.cur.unit = true
    let word_ (i : Nat) : Word := word (ofBytes (s.mem.read (l + 8 * i) 8)) &&& csrMask (0x18 + i)
    let image (i : Nat) : Tagged 64 := ⟨word_ i, s.mem.markOf (l + 8 * i) 8 ||| s.xm a ||| s.base⟩
    let old := s.me.csr.shadows
    let vals : Vector Word 7 := old.map (·.val)
    let read := (s.x a).toNat % 8 = 0 ∧ Safety.LocalAt s (s.x a) 56 l ∧ Safety.Clean s l 56
    let launchable (v : Vector Word 7) : Prop :=
      s.cpBad v = false ∧
      (isCompute s.cur.unit = true →
        field (shadow v 0) 63 62 ≠ 1 ∧ (cpCben v = true ∨ field (shadow v 1) 63 62 ≠ 1)) ∧
      (cpCben v = true → ∃ j far, s.cpCluster s.cur.unit (shadow v 1) = some (j, far) ∧
        ((s.cluster j).cb (cpCb v)).en = true ∧ field ((s.cluster j).cb (cpCb v)).cfg 63 48 = s.me.gh) ∧
      e.copies.length + e.marks 0 < copyCap s.cur.unit
    let queued (t : State) (v : Vector Word 7) (m : Mark) : Prop :=
      (t.eng u).copyNext = e.copyNext + 1 ∧ (t.eng u).copies = e.copies ++
        [⟨e.copyNext.toNat, s.cur, v, m, s.me.csr.lwin.val, s.partIx s.cur, .queued, 0, 0, 0, none, false, none⟩]
    (able → read → Safety.Answers (.cpset a sel) s fun t =>
      (∀ i, i < 7 → t.me.csr.shadows.getD i (plain 0) =
        if sel = 0 ∨ sel.getLsbD i = true then image i else old.getD i (plain 0)) ∧
      { t.me.csr with shadows := old } = s.me.csr ∧ t.me.regs = s.me.regs ∧ Safety.Passed s t ∧ Safety.OnlyThread s t) ∧
    (able → launchable vals → Safety.Answers (.cplaunchRead d) s fun t =>
      Safety.GaveX s t d (e.copyNext.setWidth 64) s.base ∧ t.mem = s.mem ∧
      queued t vals (joins (s.me.csr.cmark :: (old.toList.map (·.mark))))) ∧
    (able → s.cpBad vals = true → (isCompute s.cur.unit = true →
        field (shadow vals 0) 63 62 ≠ 1 ∧ (cpCben vals = true ∨ field (shadow vals 1) 63 62 ≠ 1)) →
      exec (.cplaunchRead d) s = .next (s.trapEntry 0x05 0 (word (0x50 * 2 ^ 56)) false 0
        (s.trapMark (.cplaunchRead d)))) ∧
    (∀ v : Vector Word 7, able → read → (∀ i, i < 7 → v.getD i 0 = word_ i) → launchable v →
      Safety.Answers (.cpgo d a) s fun t =>
        (∀ i, i < 7 → t.me.csr.shadows.getD i (plain 0) = image i) ∧
        Safety.XHolds t d.toNat (e.copyNext.setWidth 64) (s.xm a ||| s.mem.markOf l 56 ||| s.base) ∧
        Safety.XKept s t [d.toNat] ∧
        Safety.Passed s t ∧ t.mem = s.mem ∧
        queued t v (joins (s.me.csr.cmark :: (List.range 7).map fun i => (image i).mark))) ∧
    (let id := (s.x a).toNat % 2 ^ 16
     let found (o : Option Copy) : Prop :=
       ((e.copies ++ e.copyHist).find? fun c => c.id == id && c.thread == s.cur
          && decide ((e.copyNext - 1 - BitVec.ofNat 16 id).toNat < 64) && !c.hidden) = o
     let stat (v : Word) (m : Mark) : Prop := Safety.Answers (.cpstat d a) s fun t => Safety.WroteX s t d v (m ||| s.base)
     able →
     (found none → stat (word id) (s.xm a)) ∧
     (∀ c, found (some c) →
       (c.phase = .queued ∨ c.phase = .waiting → stat (word (2 ^ 62 + id)) (s.xm a)) ∧
       (c.phase = .moving → stat (word (2 ^ 63 + id)) (s.xm a)) ∧
       (c.phase = .moved → stat (word (2 ^ 63 + c.bytes * 2 ^ 16 + id)) (s.xm a)) ∧
       (c.phase = .done → stat (word (3 * 2 ^ 62 + c.st * 2 ^ 56 + c.bytes * 2 ^ 16 + id)) (c.mark ||| s.xm a)))) ∧
    (∀ (unit : BitVec 13) (tid : BitVec 16) (c : Copy) (l1 l2 : Nat),
      let f := s.eng unit.toNat
      let v := c.shadows
      let n := cpRun v
      let m := c.ml ||| s.mem.markOf l1 n
      f.copies.find? (·.id == tid.toNat) = some c →
      (f.mayRun unit.toNat c = true → c.slot = none → cpCben v = false → cpDist v = false →
        cpCount v 1 = 1 → cpCount v 2 = 1 → cpCount v 3 = 1 →
        Safety.LocalIn s c.thread.unit c.lwin (shadow v 0) n l1 →
          Safety.LocalIn s c.thread.unit c.lwin (shadow v 1) n l2 →
        Safety.Clean s l1 n → Safety.UnderCeil s l2 n m → s.mem.wf = true → Safety.Answers (.copyRun unit tid) s fun t =>
          Safety.StoredAt s t l2 n (ofBytes (s.mem.read l1 n)) ∧
          (∀ g, g ∈ markLines l2 n → markGet t.mem.marks g = markGet s.mem.marks g ||| m) ∧ t.threads = s.threads ∧
          (t.eng unit.toNat).copies = f.copies.map fun x =>
            if x.id = c.id then { c with phase := .moved, st := 0, bytes := n, mark := m } else x) ∧
      (c.phase = .moved → c.slot = none → engKey c.thread.unit = unit.toNat → (s.thread c.thread).mailbox.length < 8 →
        (∀ x, x ∈ s.mails → x.1 ≠ c.thread) → c.id < 2 ^ 16 → c.bytes < 2 ^ 40 → c.st < 16 →
        Safety.Answers (.copyFinish unit tid) s fun t =>
          (t.thread c.thread).mailbox = (s.thread c.thread).mailbox ++
            [⟨word (2 ^ 60 + c.st * 2 ^ 56 + c.bytes * 2 ^ 16 + c.id), c.mark⟩] ∧
          ((shadow v 6).getLsbD 57 = true → (t.thread c.thread).lines.getLsbD (field (shadow v 6) 63 58) = true) ∧
          ((shadow v 6).getLsbD 57 = false → (t.thread c.thread).lines = (s.thread c.thread).lines) ∧
          (t.thread c.thread).regs = (s.thread c.thread).regs ∧ t.mem = s.mem ∧
          ∀ x, x ∈ (t.eng unit.toNat).copies → x.id ≠ c.id)) ∧
    (∀ (unit : BitVec 13) (ht : BitVec 2) (msg : BitVec 60) (m : Mark),
      let w : ThreadId := ⟨unit.toNat, (s.core unit.toNat).sel, ht.toNat⟩
      (s.thread w).mailbox.length < 8 → Safety.Answers (.mailboxDelivery (.dcp unit ht msg m)) s fun t =>
        (t.thread w).mailbox = (s.thread w).mailbox ++ [⟨word (3 * 2 ^ 60 + msg.toNat), m⟩] ∧
        (t.thread w).regs = (s.thread w).regs ∧ t.mem = s.mem ∧ ∀ k, k ≠ w.key → t.threadAt k = s.threadAt k)

/-- Indirect copies, rows and markers (R372 to R376, R397, R407 to R410): IXPOST queues a valid descriptor and gives its
number, and its step gathers an element by its index; PMASK loads or combines the row mask; LDROWS and STROWS queue a
command on the selected rows, and the row unit moves header and rows, or stores a row; EPUSH places a marker behind
the thread's commands of a queue, which sets its line once none of them is left. That ARITH 0x52 covers ESIZE and COUNTM1
as well is log entry 62 (DEDUCED). -/
def Obligations.IndirectAndRows : Prop :=
  ∀ (s : State) (d a b : Reg) (sleep : Bool) (op : BitVec 2) (line : BitVec 6) (l : Nat),
    let u := engKey s.cur.unit
    let e := s.eng u
    let lm (n : Nat) : Mark := s.mem.markOf l n
    let w (k : Nat) : Word := word (ofBytes (s.mem.read (l + 8 * k) 8))
    ((s.x a).toNat % 32 = 0 → Safety.LocalAt s (s.x a) 32 l → Safety.Clean s l 32 →
      isCompute s.cur.unit = true →
      (s.ixOk (w 0) (w 1) (w 2) (w 3) = true → e.inds.length + e.marks 1 < 8 →
        Safety.Answers (.ixpost d a sleep) s fun t =>
        Safety.GaveX s t d (e.indNext.setWidth 64) (s.xm a ||| lm 32 ||| s.base) ∧ t.mem = s.mem ∧
        (t.eng u).indNext = e.indNext + 1 ∧
        (t.eng u).inds = e.inds ++ [⟨e.indNext.toNat, s.cur, w 0, w 1, w 2, w 3, s.me.csr.lwin.val, s.partIx s.cur,
          s.xm a ||| s.base ||| lm 32, .queued, 0, 0, 0, none⟩] ∧
        (sleep = false → t.me.hold = s.me.hold) ∧
        (sleep = true → t.me.hold = some (.line (field (w 3) 61 56) s.now))) ∧
      (s.ixOk (w 0) (w 1) (w 2) (w 3) = false → exec (.ixpost d a sleep) s = .next (s.trapEntry 0x05 (s.x a)
        (word (0x52 * 2 ^ 56)) false 0 (s.trapMark (.ixpost d a sleep))))) ∧
    (∀ (cl : BitVec 9) (x : Indirect) (li le lp : Nat),
      let v := 0x1000 + cl.toNat
      let f := s.eng v
      let n := x.esize
      let ix := ofBytes (s.mem.read li x.iw)
      let m := x.mp ||| s.mem.markOf li x.iw ||| s.mem.markOf le n
      (∀ y, y ∈ f.inds → y.phase ≠ .moved) → f.inds.find? (·.phase == .queued) = some x → x.total = 1 →
      x.ctl.getLsbD 50 = false → s.mem.wf = true →
      Safety.LocalIn s x.thread.unit x.lwin x.ibase x.iw li → Safety.Clean s li x.iw →
      ix ≠ 2 ^ (8 * x.iw - 1) →
      Safety.LocalIn s x.thread.unit x.lwin (x.base + word ((signExt ix (8 * x.iw)).toNat * n)) n le →
        Safety.Clean s le n →
      Safety.LocalIn s x.thread.unit x.lwin x.pack n lp → Safety.UnderCeil s lp n m →
      Safety.Answers (.indirectRun cl) s fun t =>
        Safety.StoredAt s t lp n (ofBytes (s.mem.read le n)) ∧ t.threads = s.threads ∧
        (t.eng v).inds = f.inds.map fun y =>
          if y.id = x.id then { x with phase := .moved, st := 0, count := 1, mark := m } else y) ∧
    (∀ (cl : BitVec 9) (x : Indirect), (s.eng (0x1000 + cl.toNat)).inds.find? (·.phase == .moved) = some x →
      (x.ctl.getLsbD 63 = false → x.st = 0 → Safety.Answers (.indirectFinish cl) s fun t =>
        (t.thread x.thread).lines.getLsbD (field x.ctl 61 56) = true ∧ t.mails = s.mails ∧ t.mem = s.mem ∧
        (t.thread x.thread).regs = (s.thread x.thread).regs ∧
        ∀ y, y ∈ (t.eng (0x1000 + cl.toNat)).inds → y.id ≠ x.id) ∧
      (x.ctl.getLsbD 63 = true ∨ x.st ≠ 0 → engKey x.thread.unit = 0x1000 + cl.toNat →
        (s.thread x.thread).mailbox.length < 8 → (∀ y, y ∈ s.mails → y.1 ≠ x.thread) →
        x.id < 2 ^ 16 → x.count < 2 ^ 40 → x.st < 16 → Safety.Answers (.indirectFinish cl) s fun t =>
          (t.thread x.thread).lines.getLsbD (field x.ctl 61 56) = true ∧ t.mem = s.mem ∧
          (t.thread x.thread).mailbox = (s.thread x.thread).mailbox ++
            [⟨word (2 * 2 ^ 60 + x.st * 2 ^ 56 + x.count * 2 ^ 16 + x.id), x.mark⟩])) ∧
    (isChannel s.cur.unit = true → (s.x a).toNat % 8 = 0 → Safety.LocalAt s (s.x a) 128 l → Safety.Clean s l 128 →
      let img : BitVec 1024 := BitVec.ofNat 1024 (ofBytes (s.mem.read l 128))
      let old := s.me.rowMask
      Safety.Answers (.pmask a op) s fun t =>
        t.me.rowMask = ⟨if op = 0 then img else if op = 1 then old.val &&& img else if op = 2 then old.val ||| img
            else old.val &&& ~~~img, (if op = 0 then 0 else old.mark) ||| lm 128 ||| s.xm a ||| s.base⟩ ∧
        Safety.Past s t ∧ Safety.OnlyThread s t) ∧
    (let r := rowSet (ofBytes (s.mem.read l 32))
     let sel (h : BitVec 1024) : List Nat := (List.range r.count).filter fun i => h.getLsbD i
     let near (o : Region) : Prop := (∃ k, o.target = .loc k) ∨ o.target = .virt ∧ ∀ p, p ∈ o.pieces → p.leaf.tgt = 0
     let queued (t : State) (st : Bool) (rows : List Region) (packed : Region) (m : Mark) : Prop :=
       ∃ c : RowCmd, (t.eng u).rows = e.rows ++ [c] ∧ c.id = e.rowSeq ∧ c.thread = s.cur ∧ c.store = st ∧ c.rows = rows ∧
         c.packed = packed ∧ c.line = line.toNat ∧ c.mark = m ∧ Safety.Past s t ∧ t.mem = s.mem
     isChannel s.cur.unit = true → (s.x a).toNat % 32 = 0 → Safety.LocalAt s (s.x a) 32 l → Safety.Clean s l 32 →
     (s.x d).toNat % 64 = 0 → r.ok = true → e.rows.length + e.marks 4 < 4 →
     (∀ u1 u2 rows packed, let m := s.rmark (.ldrows d a line) ||| lm 32 ||| s.me.rowMask.mark
       s.advance.rowRegions r false (sel s.me.rowMask.val) = .ok (u1, rows) →
       u1.regionOf s.agent (s.x d) (128 + r.rlen * (sel s.me.rowMask.val).length) true = .ok (u2, packed) →
       (∀ o, o ∈ packed :: rows → near o) → u2.regionOver s.agent packed (m ||| u2.regionMarks rows) = none →
       { u2 with xlats := s.xlats } = s.advance →
       Safety.Answers (.ldrows d a line) s fun t => queued t false rows packed m) ∧
     (∀ u2 u3 u4 bs hm rows packed, let hd : BitVec 1024 := BitVec.ofNat 1024 (ofBytes bs)
       let m := s.rmark (.strows d a line) ||| lm 32 ||| hm
       s.advance.loadAs s.agent (s.x d) 128 = .ok (u2, bs, hm) →
       hd.toNat < 2 ^ r.count → u2.rowRegions r true (sel hd) = .ok (u3, rows) →
       u3.regionOf s.agent (s.x d) (128 + r.rlen * (sel hd).length) false = .ok (u4, packed) →
       (∀ o, o ∈ packed :: rows → near o) →
       (∀ o, o ∈ rows → u4.regionOver s.agent o (m ||| u4.regionMarks [packed]) = none) →
       { u4 with xlats := s.xlats } = s.advance →
       Safety.Answers (.strows d a line) s fun t => queued t true rows packed m)) ∧
    (∀ (unit : BitVec 13) (c : RowCmd) (rest : List RowCmd) (n l1 l2 : Nat) (p q : Word),
      (s.eng unit.toNat).rows = c :: rest → c.rows = [⟨p, n, .loc l1, []⟩] → c.packed = ⟨q, 128 + n, .loc l2, []⟩ →
      s.fullAt q = false → s.mem.wf = true → 0 < n →
      let fin (t : State) : Prop := (t.eng unit.toNat).rows = rest ∧
        (t.thread c.thread).lines = (s.thread c.thread).lines ||| (1#64 <<< c.line) ∧
        (t.thread c.thread).regs = (s.thread c.thread).regs
      (c.store = false → Safety.Clean s l1 n → Safety.Answers (.rowUnitRun unit) s fun t => fin t ∧
        Safety.StoredAt s t l2 (128 + n) (c.header.toNat + 2 ^ 1024 * ofBytes (s.mem.read l1 n))) ∧
      (c.store = true → Safety.Clean s l2 (128 + n) → Safety.Answers (.rowUnitRun unit) s fun t => fin t ∧
        Safety.StoredAt s t l1 n (ofBytes (s.mem.read (l2 + 128) n)))) ∧
    (let k := (s.x a).toNat % 4
     let q := s.markerQueue k
     (isCompute s.cur.unit = true ∧ k ≠ 3 ∨ isChannel s.cur.unit = true ∧ (k = 0 ∨ k = 3)) →
     (s.queueUse u q).2 + e.marks q < (s.queueUse u q).1 → Safety.Answers (.epush a b) s fun t =>
       (t.eng u).markers = e.markers ++ [⟨q, s.cur, (s.x b).toNat % 64, s.outstanding u q s.cur⟩] ∧
       Safety.Past s t ∧ t.mem = s.mem) ∧
    (∀ (unit : BitVec 13) (m : Marker) (pre post : List Marker), (s.eng unit.toNat).markers = pre ++ m :: post →
      (∀ i, i ∈ m.ids → i ∉ s.outstanding unit.toNat m.queue m.thread) →
      Safety.Answers (.markerComplete unit pre.length) s fun t =>
        (t.eng unit.toNat).markers = pre ++ post ∧
        (t.thread m.thread).lines = (s.thread m.thread).lines ||| (1#64 <<< m.line) ∧ t.mem = s.mem)

/-- The matrix forms on a compute core and the steps of the matrix unit (R378 to R389, R398 to R406, R411, R412):
MLEASE takes a free half, or asks for it and waits, and a half that is free goes to a waiting thread; MREL ends the
thread's own lease; MFMT sets the format context; MMA and MCONV with valid operands push a command, and without the
lease raise ARITH 0x56; a chunk step of uncoded operands adds, to each output element, the exact sum of up to 32
products, modulo 2^32 for integers (R72), or rounded once and then added in FP32 (R71, for finite elements), from 0 or
C's elements on, with A from the lines, the staged tile or the image of a convolution (R388); and the output step
stores C in its format, row by row but for the suppressed ones, and appends the result element; MDRAIN waits for the
thread's commands, then merges their flags and gives their number; EPOP gives the oldest element; CTAB installs a
valid table in a new generation, and CTABG gives its number. Elsewhere each raises ARITH 0x58 (R414), where no check
of an earlier class (R45) fails. -/
def Obligations.MatrixForms : Prop :=
  ∀ (s : State) (d a b : Reg) (n : BitVec 7) (c : BitVec 17) (acc fmt : Bool) (ctid : BitVec 2) (w : Win) (l : Nat),
    let j := clusterOf s.cur.unit
    let h := s.halfOf s.cur
    let x := s.myHalf
    let half (t : State) : Half := (t.cluster j).half h
    let trap (i : Instr) (code : Nat) (f : Word) : Prop :=
      exec i s = .next (s.trapEntry 0x05 f (word (code * 2 ^ 56)) false 0 (s.trapMark i))
    (isCompute s.cur.unit = true →
      (x.lease = none → x.requests = [] → Safety.Answers (.mlease n) s fun t =>
        (half t).lease = some (s.cur, n.toNat) ∧ Safety.Past s t ∧ t.mem = s.mem) ∧
      (∀ o k, x.lease = some (o, k) → o ≠ s.cur → (∀ r, r ∈ x.requests → r.1 ≠ s.cur) → Safety.PatientA s 0x0E →
        Safety.Answers (.mlease n) s fun t =>
          (half t).requests = x.requests ++ [(s.cur, n.toNat)] ∧ (half t).lease = x.lease ∧ t.me.pc = s.me.pc ∧
          t.me.regs = s.me.regs ∧ t.mem = s.mem) ∧
      (Safety.Answers .mrel s fun t => Safety.Past s t ∧ t.mem = s.mem ∧ (half t).queue = x.queue ∧
        (half t).lease = if (x.lease.map (·.1)) = some s.cur then none else x.lease) ∧
      (let v := s.x a
       let o := v.toNat - 0x100000
       let r := lwinSpad s.me.csr.lwin.val
       (v = 0 ∨ (0x100000 ≤ v.toNat ∧ v.toNat < 0x200000 ∧ v.toNat % 512 = 0 ∧ 512 * r.1 ≤ o ∧
           o + s.saveBytes ≤ 512 * (r.1 + r.2))) → s.cur.set < 4 → Safety.Answers (.mfmt a c) s fun t =>
         (t.ctxSet s.cur.unit s.cur.set).fmt = ⟨c, v⟩ ∧ (t.ctxSet s.cur.unit s.cur.set).outb = false ∧
         (t.ctxSet s.cur.unit s.cur.set).results = (s.ctxSet s.cur.unit s.cur.set).results ∧ Safety.Past s t ∧
           t.mem = s.mem) ∧
      (let f := s.mySet.fmt.c
       let da := s.pairDesc a
       let db := s.pairDesc b
       let dc := s.pairDesc d
       let good (s1 : List OpDesc) : Prop := mfmtOk f = true ∧ s.holdsLease = true ∧
         x.queue.length + (s.eng (engKey s.cur.unit)).marks (halfQueue h) < 8 ∧
         (∀ o, o ∈ s1 → o.kind = 1 → x.staged s.cur o.off = false ∧ (o.off = 3 → s.tileSlots = false))
       let pushed (t : State) (m' n' k' : Nat) (cv : Option Conv) : Prop :=
         Safety.Past s t ∧ t.mem = s.mem ∧ (half t).seqNext = x.seqNext + 1 ∧
         (half t).lease = (match x.lease with | some (o, k) => if k ≤ 1 then none else some (o, k - 1) | none => none) ∧
         ∃ q : MatCmd, (half t).queue = x.queue ++ [q] ∧ q.seq = x.seqNext ∧ q.thread = s.cur ∧ q.m = m' ∧ q.n = n' ∧
           q.k = k' ∧ q.acc = acc ∧ q.cOff = dc.off ∧ q.cPitch = dc.pitch ∧ q.conv = cv ∧ q.fmt = s.mySet.fmt ∧
           q.step = 0 ∧ q.flags = 0 ∧ q.fault = none
       let whole (lines : Nat) : Prop := s.isSplit j = true → lines ≤ 64
       (good [da, db] → da.ok (fmtType f 0) s.tiles false = true → db.ok (fmtType f 1) s.tiles false = true →
         dc.ok (fmtType f 2) s.tiles true = true → db.len = da.len → dc.lines = da.lines → dc.len = db.lines →
         whole da.lines → Safety.Answers (.mma d a b acc) s fun t => pushed t da.lines db.lines da.len none) ∧
       (∀ v, (s.x a).toNat % 64 = 0 → Safety.LocalAt s (s.x a) 64 l → Safety.Clean s l 64 →
         convOf (ofBytes (s.mem.read l 64)) = some v → good [db] → (fmtType f 0).coded = false →
         v.xbase % opSize (fmtType f 0) = 0 → v.fh * v.fw * v.cin = db.len → db.ok (fmtType f 1) s.tiles false = true →
         dc.ok (fmtType f 2) s.tiles true = true → dc.len = db.lines → whole dc.lines →
         Safety.Answers (.mconv d a b acc) s fun t => pushed t dc.lines db.lines db.len (some v)) ∧
       (s.holdsLease = false → s.tileSlots = false → trap (.mma d a b acc) 0x56 0 ∧
         ((s.x a).toNat % 64 = 0 → Safety.LocalAt s (s.x a) 64 l → Safety.Clean s l 64 →
           trap (.mconv d a b acc) 0x56 0))) ∧
      (let mine := x.drained.filter (·.thread == s.cur.key)
       (∀ q, q ∈ x.pending → q.thread ≠ s.cur) → s.mySet.fault = none → Safety.Answers (.mdrain d) s fun t =>
         Safety.XHolds t d.toNat (word mine.length) s.base ∧ Safety.XKept s t [d.toNat] ∧ Safety.Passed s t ∧
           t.mem = s.mem ∧
         (half t).drained = x.drained.filter (·.thread != s.cur.key) ∧
         t.me.csr.fflags.val = s.me.csr.fflags.val ||| (mine.foldl (fun f r => f ||| r.flags) (0 : FFlags)).setWidth 64) ∧
      ((∃ q, q ∈ x.pending ∧ q.thread = s.cur) → Safety.PatientA s 0x0E →
        Safety.Answers (.mdrain d) s fun t => Safety.Waits s t 0x0E (h + 2)) ∧
      ((∀ o k, x.lease = some (o, k) → k < 128) → ∃ v : Word, Safety.Answers (.mstat d) s (fun t => Safety.WroteX s t d v s.base) ∧
        field v 31 0 = x.doneCnt.toNat ∧ (v.getLsbD 43 = s.mySet.fault.isSome) ∧ field v 47 44 = min x.queue.length 8 ∧
        (v.getLsbD 48 = s.mySet.outb) ∧ (v.getLsbD 57 = s.isSplit j) ∧ field v 56 56 = h ∧
        (x.lease = none → field v 63 58 = 0)) ∧
      (Safety.MayOpen s w d →
        (∀ e rest, s.cur.set < 4 → s.mySet.results = e :: rest → Safety.Answers (.epop d w) s fun t =>
          Safety.GaveX s t d e.word (e.mark ||| s.base) (winLen w) ∧ Safety.WindowedX s t w d ∧
          (t.ctxSet s.cur.unit s.cur.set).results = rest ∧ t.mem = s.mem) ∧
        (s.mySet.results = [] → (∀ q, q ∈ x.pending → ¬(q.thread.unit = s.cur.unit ∧ q.thread.set = s.cur.set)) →
          Safety.Answers (.epop d w) s fun t => Safety.WroteX s t d 0xF000000000000000 s.base (winLen w))) ∧
      (let k := if fmt then 32 else 16
       let cur := s.codeTab fmt ctid.toNat
       let lens := lengthsOf (ofBytes (s.mem.read l (k / 2))) k
       let m := s.mem.markOf l (k / 2) ||| s.xm a ||| s.base
       (s.x a).toNat % 8 = 0 → Safety.LocalAt s (s.x a) (k / 2) l → Safety.Clean s l (k / 2) →
       (tableValid lens = true → (∀ g, (s.cluster j).latched fmt ctid.toNat g = false) →
         Safety.Answers (.ctab d a fmt ctid) s fun t =>
           Safety.GaveX s t d ((cur.gen + 1).setWidth 64) m ∧ t.codeTab fmt ctid.toNat = ⟨lens, cur.gen + 1, m⟩ ∧
           t.mem = s.mem) ∧
       (tableValid lens = false → trap (.ctab d a fmt ctid) 0x59 (s.x a))) ∧
      (Safety.Answers (.ctabg d fmt ctid) s fun t => Safety.WroteX s t d ((s.codeTab fmt ctid.toNat).gen.setWidth 64)
        ((s.codeTab fmt ctid.toNat).mark ||| s.base))) ∧
    (isCompute s.cur.unit = false → trap (.mlease n) 0x58 0 ∧ trap .mrel 0x58 0 ∧ trap (.mma d a b acc) 0x58 0 ∧
      trap (.mdrain d) 0x58 0 ∧ trap (.mstat d) 0x58 0 ∧ trap (.epop d w) 0x58 0 ∧ trap (.ctabg d fmt ctid) 0x58 0 ∧
      (s.x a = 0 ∨ (s.x a).toNat % 512 ≠ 0 ∨ (s.x a).toNat < 0x100000 ∨ 0x200000 ≤ (s.x a).toNat →
        trap (.mfmt a c) 0x58 0) ∧
      (Safety.LocalAt s (s.x a) 64 l → Safety.Clean s l 64 → (s.x a).toNat % 64 = 0 →
        trap (.mconv d a b acc) 0x58 0 ∧ trap (.ctab d a fmt ctid) 0x58 0)) ∧
    (∀ (cl : BitVec 9) (k : Bool),
      let y := (s.cluster cl.toNat).half (b2n k)
      let after (t : State) : Half := (t.cluster cl.toNat).half (b2n k)
      (∀ t' r, y.lease = none → y.requests = [(t', r)] → Safety.Answers (.leaseGrant cl k) s fun t =>
        (after t).lease = some (t', r) ∧ (after t).requests = [] ∧ t.threads = s.threads ∧ t.mem = s.mem) ∧
      (∀ q rest, y.queue = q :: rest → q.fault = none →
        let ta := fmtType q.fmt.c 0
        let tb := fmtType q.fmt.c 1
        let tc := fmtType q.fmt.c 2
        let base := spadLoc (clusterOf q.thread.unit)
        let reads (o n : Nat) : Prop := Safety.LocalIn s q.thread.unit q.lwin (word (0x100000 + o)) n (base + o) ∧
          Safety.Clean s (base + o) n
        let n0 := 32 * q.step
        let cnt := min 32 (q.k - n0)
        -- elements, marks and readability of a line of A or B
        let el (src : MatSrc) (es i k : Nat) : Nat := match src with
          | .spad o p => ofBytes (s.mem.read (base + (o + i * p + k * es)) es)
          | .tile _ v => (v.getD (i / 2) 0).toNat / 2 ^ (128 * (i % 2) + 8 * es * k) % 2 ^ (8 * es)
        let lm (src : MatSrc) (es i : Nat) : Mark := match src with
          | .spad o p => s.mem.markOf (base + (o + i * p + n0 * es)) (cnt * es)
          | .tile _ _ => 0
        let ok (src : MatSrc) (es i : Nat) : Prop := match src with
          | .spad o p => reads (o + i * p + n0 * es) (cnt * es)
          | .tile _ _ => True
        let int (f : ETy) (x : Nat) : Int := if f = .ui8 then (x : Int) else (BitVec.ofNat 8 x).toInt
        let ea := opSize ta
        let eb := opSize tb
        let ec := opSize tc
        -- the place of A[i][k] of a convolution in its image (R388)
        let place (v : Conv) (i k : Nat) : Option Nat :=
          let g := v.m0 + i
          let h : Int := (g % (v.p * v.q) / v.q * v.sh + k / (v.fw * v.cin) * v.dh : Nat) - (v.ph : Int)
          let x : Int := (g % v.q * v.sw + k % (v.fw * v.cin) / v.cin * v.dw : Nat) - (v.pw : Int)
          if 0 ≤ h ∧ h < v.h ∧ 0 ≤ x ∧ x < v.w then
            some (v.xbase + (((g / (v.p * v.q) * v.h + h.toNat) * v.w + x.toNat) * v.cin + k % v.cin) * ea)
          else none
        let elA (i k : Nat) : Nat := match q.conv with
          | none => el q.a ea i k
          | some v => match place v i k with
            | some o => ofBytes (s.mem.read (base + o) ea)
            | none => 0
        let lmA (i : Nat) : Mark := match q.conv with
          | none => lm q.a ea i
          | some v => joins ((List.range cnt).map fun k => match place v i (n0 + k) with
            | some o => s.mem.markOf (base + o) ea
            | none => 0)
        let okA (i : Nat) : Prop := match q.conv with
          | none => ok q.a ea i
          | some v => ∀ k o, k < cnt → place v i (n0 + k) = some o → reads o ea
        -- the rows that are computed and stored (R388), and C as it stands
        let kept (i : Nat) : Bool := q.conv.all fun v => decide ((v.m0 + i) / (v.p * v.q) < v.nb)
        let cAt (i : Nat) : Nat := q.cOff + i * q.cPitch
        let old (i j : Nat) : BitVec 32 := if q.step ≠ 0 then q.sums.getD (i * q.n + j) 0 else
          if q.acc = false then 0 else
            let e := ofBytes (s.mem.read (base + (cAt i + j * ec)) ec)
            BitVec.ofNat 32 (if tc = .i32 then e else (convFloat (matFmt tc) fmt32 0 false e).1)
        (q.step < (q.k + 31) / 32 → mfmtOk q.fmt.c = true → ta.coded = false → tb.coded = false →
          (s.ctxSet q.thread.unit q.thread.set).fault = none → (∀ i, i < q.m → kept i = true → okA i) →
          (∀ j, j < q.n → ok q.b eb j) → (q.step = 0 → q.acc = true → ∀ i, i < q.m → kept i = true →
            reads (cAt i) (q.n * ec)) →
          Safety.Answers (.chunkStep cl k) s fun t => t.threads = s.threads ∧ t.mem = s.mem ∧
            ∃ z, (after t).queue = z :: rest ∧ z.step = q.step + 1 ∧
              { z with step := q.step, sums := q.sums, flags := q.flags, mark := q.mark } = q ∧
              z.mark = q.mark ||| joins ((List.range q.n).map (lm q.b eb)) |||
                joins (((List.range q.m).filter kept).map fun i =>
                  lmA i ||| if q.step = 0 ∧ q.acc = true then s.mem.markOf (base + cAt i) (q.n * ec) else 0) ∧
              ∀ i j, i < q.m → j < q.n → kept i = true →
                let sum := z.sums.getD (i * q.n + j) 0
                (ta.isInt = true → z.flags = q.flags ∧ sum = old i j + BitVec.ofInt 32 (((List.range cnt).map fun k =>
                  int ta (elA i (n0 + k)) * int tb (el q.b eb j (n0 + k))).sum)) ∧
                (∀ (na nb : Nat → Bool) (ma mb : Nat → Nat) (xa xb : Nat → Int), ta.isInt = false →
                  (∀ k, k < cnt → (matFmt ta).unpack (elA i (n0 + k)) = .fin (na k) (ma k) (xa k) ∧
                    (matFmt tb).unpack (el q.b eb j (n0 + k)) = .fin (nb k) (mb k) (xb k)) →
                  let e := ((List.range cnt).map fun k =>
                    Safety.units (-320) (na k != nb k) (ma k * mb k) (xa k + xb k)).sum
                  ∃ r : Nat × FFlags, (e = 0 → r = (0, 0)) ∧ (e ≠ 0 → Safety.Rounds fmt32 0 false (-320) e r) ∧
                    sum = BitVec.ofNat 32 (fmt32.add 0 (old i j).toNat r.1).1)) ∧
        ((q.k + 31) / 32 ≤ q.step → q.badA = [] → q.badB = [] → q.thread.set < 4 → s.mem.wf = true →
          (s.thread q.thread).csr.mstep.val.getLsbD 63 = false →
          (s.ctxSet q.thread.unit q.thread.set).results.length < 8 → q.n * ec ≤ q.cPitch → 0 < q.n →
          (∀ i, i < q.m → kept i = true →
            Safety.LocalIn s q.thread.unit q.lwin (word (0x100000 + cAt i)) (q.n * ec) (base + cAt i) ∧
            Safety.UnderCeil s (base + cAt i) (q.n * ec) q.mark) →
          let out (i j : Nat) : Nat × FFlags :=
            let v := (q.sums.getD (i * q.n + j) 0).toNat
            if tc = .i32 ∨ tc = .f32 then (v, 0) else convFloat fmt32 (matFmt tc) 0 (q.fmt.c.getLsbD 12) v
          ∃ fl : FFlags,
            (∀ b, fl.getLsbD b = true ↔ q.flags.getLsbD b = true ∨
              ∃ i j, i < q.m ∧ j < q.n ∧ kept i = true ∧ (out i j).2.getLsbD b = true) ∧
            Safety.Answers (.outputStep cl k) s fun t =>
              (∀ i j, i < q.m → j < q.n → kept i = true →
                ofBytes (t.mem.read (base + (cAt i + j * ec)) ec) = (out i j).1 % 2 ^ (8 * ec)) ∧
              (∀ a, (∀ i, i < q.m → kept i = true → a < base + cAt i ∨ base + cAt i + q.n * ec ≤ a) →
                t.mem.get a = s.mem.get a) ∧
              (after t).queue = rest ∧ (after t).doneCnt = y.doneCnt + 1 ∧
              (after t).drained = y.drained ++ [⟨q.thread.key, fl, q.mark⟩] ∧ t.threads = s.threads ∧
              ∃ o : Nat, (o = 0 ↔ ∀ i, i < q.m → kept i = true) ∧ o ≤ 1 ∧
                (t.ctxSet q.thread.unit q.thread.set).results = (s.ctxSet q.thread.unit q.thread.set).results ++
                  [⟨word (o * 2 ^ 56 + fl.toNat * 2 ^ 48 + q.step % 2 ^ 16 * 2 ^ 32 + q.seq.toNat), q.mark⟩] ∧
                ((t.ctxSet q.thread.unit q.thread.set).outb = true ↔
                  (s.ctxSet q.thread.unit q.thread.set).outb = true ∨ o = 1))))

/-! ## Page 6: contexts and partitions -/

/-- Context sets and threads (R429 to R436, Tables 17.6, 17.8): on a DCP with PRIV, CTXSEL selects or drops a set of a
core of its die; HTRES RESUME lets a parked thread run, PREEMPT asks a group's threads to park, PARK parks a running
thread and posts PREEMPT, END ends a thread whose continuation has its home in space 00, and X(D) tells whether it did
anything; a write of CTXP selects a loaded set. Each raises ILL without PRIV, and the DCP forms ARITH 0x60 elsewhere and
0x61 or 0x62 for what they do not name. That a thread is named in the selected set of its core, and that PARK of an idle
thread gives 0, are log entry 69; that CTXP's set and clear forms join the old value's mark is log entry 48. -/
def Obligations.ContextForms : Prop :=
  ∀ (s : State) (set : BitVec 2) (d a b : Reg) (op : CsOp) (th : ThreadId) (gh : Nat) (g : Group) (l : Nat),
    let dcp := isDcp s.cur.unit = true ∧ s.me.csr.priv = true
    let u := field (s.x a) 31 19
    let i := set.toNat
    let names := field (s.x a) 63 32 = 0 ∧ field (s.x a) 18 0 = s.chip ∧ s.coreHere u = true
    let sel := (s.core u).sel
    let sel_ (o : BitVec 2) : Instr := .ctxsel o set d a
    let m := s.xm a ||| s.xm b ||| s.base
    let traps (i : Instr) (code : Nat) : Prop :=
      exec i s = .next (s.trapEntry 0x05 0 (word (code * 2 ^ 56)) false 0 (s.trapMark i))
    let illegal (i : Instr) : Prop := exec i s = .next (s.trapEntry 0x01 0 s.latch.finfo false 0 (s.trapMark i))
    let gives (i : Instr) (v : Word) (p : State → Prop) : Prop := Safety.Answers i s fun t =>
      Safety.XHolds t d.toNat v m ∧ Safety.XKept s t [d.toNat] ∧ Safety.Passed s t ∧ p t
    let rows : List Instr := [.htresResume d a b, .htresPreemptMilestone d a b, .htresPreemptSafepoint d a b,
      .htresPark d a b, .htresEnd d a b]
    (dcp → names →
      ((s.ctxSet u i).loaded = true → sel < 4 → s.saving u = false → (∀ h, h < 4 → s.served ⟨u, sel, h⟩ = false) →
        Safety.Answers (sel_ 0) s fun t => (t.core u).sel = i ∧ (u ≠ s.cur.unit → t.me.regs = s.me.regs) ∧
          Safety.Passed s t ∧ t.mem = s.mem) ∧
      (sel ≠ i → Safety.Answers (sel_ 3) s fun t =>
        (t.ctxSet u i).loaded = false ∧ (t.core u).sel = sel ∧ Safety.Past s t ∧ t.mem = s.mem) ∧
      ((s.ctxSet u i).loaded = false → traps (sel_ 0) 0x61) ∧ (sel = i → traps (sel_ 3) 0x61)) ∧
    (dcp → ¬names → traps (sel_ 0) 0x61 ∧ traps (sel_ 3) 0x61 ∧
      ((s.x d).toNat % 64 = 0 → Safety.LocalAt s (s.x d) 16448 l → Safety.Clean s l 16448 → traps (sel_ 2) 0x61)) ∧
    (dcp → (s.x b).toNat % 8 ≤ 4 → s.namedThread (s.x a) = some th → th.set < 4 →
      let x := s.thread th
      (x.run = .parkedFault → x.hold ≠ some .ending → gives (.htresResume d a b) 1 fun t =>
        (t.thread th).run = .running ∧ (t.thread th).pc = x.csr.aepc.val ∧ (t.thread th).csr.intrap = false ∧
        t.mem = s.mem) ∧
      (x.run = .parkedPre → x.hold ≠ some .ending → gives (.htresResume d a b) 1 fun t =>
        (t.thread th).run = .running ∧ (t.thread th).resumeFrame.valid = false ∧ t.mem = s.mem) ∧
      (x.run = .idle ∨ x.run = .running → gives (.htresResume d a b) 0 fun t => Safety.OnlyThread s t) ∧
      (x.run = .running → s.served th = false → gives (.htresPark d a b) 1 fun t =>
        (t.thread th).run = .parkedPre ∧ (t.thread th).resumeFrame.valid = true ∧ (t.thread th).equeue = [] ∧
        (t.die (dieOf th.unit)).waiting.length = (s.die (dieOf th.unit)).waiting.length + 1 ∧ t.mem = s.mem) ∧
      (x.run ≠ .running → gives (.htresPark d a b) 0 fun t => Safety.OnlyThread s t) ∧
      (x.run ≠ .idle → s.me.target = none → s.leaseBusy th = false → s.copiesBusy th = false →
        (∀ k, x.cont = some k → field k.home 63 62 = 0 ∧ field k.record.succ 63 62 = 0) →
          gives (.htresEnd d a b) 1 fun t =>
          (t.thread th).run = .idle) ∧
      (x.run = .idle → s.me.target = none → gives (.htresEnd d a b) 0 fun t => Safety.OnlyThread s t)) ∧
    (dcp → (s.x b).toNat % 8 ≤ 4 → s.namedGroup (s.x a) = some (gh, g) →
      (gives (.htresPreemptMilestone d a b) 1 fun t =>
        t.group? gh = some { g with milestoneReq := true } ∧ t.mem = s.mem ∧
        ∀ p, p ∈ g.places → (t.thread ⟨p.unit, p.set, p.ht⟩).reqs.pending = true) ∧
      (gives (.htresPreemptSafepoint d a b) 1 fun t => t.mem = s.mem ∧
        ∀ p, p ∈ g.places → (t.thread ⟨p.unit, p.set, p.ht⟩).reqs.safe = true)) ∧
    (dcp → 4 < (s.x b).toNat % 8 → ∀ r, r ∈ rows → traps r 0x62) ∧
    (dcp → s.namedThread (s.x a) = none → traps (.htresResume d a b) 0x62 ∧ traps (.htresPark d a b) 0x62 ∧
      traps (.htresEnd d a b) 0x62) ∧
    (s.me.csr.priv = true → isDcp s.cur.unit = false → (∀ r, r ∈ rows → traps r 0x60) ∧ ∀ o, traps (sel_ o) 0x60) ∧
    (s.me.csr.priv = false → (∀ r, r ∈ rows → illegal r) ∧ (∀ o, illegal (sel_ o)) ∧ illegal (.ctxpWrite op d)) ∧
    (s.me.csr.priv = true →
      let c := s.core s.cur.unit
      let x := (s.x d).toNat % 4
      let v := match op with
        | .w => x
        | .s => c.sel ||| x
        | .c => c.sel &&& (3 - x)
      (∀ h, h < 4 → s.served ⟨s.cur.unit, c.sel, h⟩ = false) → Safety.Answers (.ctxpWrite op d) s fun t =>
        (t.core s.cur.unit).sel = (if (s.ctxSet s.cur.unit v).loaded then v else c.sel) ∧
        (t.core s.cur.unit).ctxpMark = s.xm d ||| s.base ||| (if op = .w then 0 else c.ctxpMark) ∧ t.mem = s.mem)

/-- Partitions, queue placement, invalidation and revocation on a DCP (R440 to R443, R447, R383): PSET gives a
partition an interval when the configuration is valid and nothing runs that it would move; QSET places a spill area,
the event queue, a bandwidth share, or takes a safe-point table away; SLINV drops the cached translations that it
covers; MLREV ends the lease of a half, and saves the work of a running command that has a save area. That QSET 1
takes X(D) as an offset and starts the queue anew, and that a revoked lease ends at once, are log entry 70; that MLREV
gives 0 where a lease is held without a command is the model's own reading of R437 (log entry 114); what a PSET resets
is log entry 70 too. -/
def Obligations.PartitionForms : Prop :=
  ∀ (s : State) (d a b : Reg) (ty : BitVec 2) (p : BitVec 6),
    let dcp := isDcp s.cur.unit = true ∧ s.me.csr.priv = true
    let traps (i : Instr) (code : Nat) : Prop :=
      exec i s = .next (s.trapEntry 0x05 0 (word (code * 2 ^ 56)) false 0 (s.trapMark i))
    let illegal (i : Instr) : Prop := exec i s = .next (s.trapEntry 0x01 0 s.latch.finfo false 0 (s.trapMark i))
    (let n := (s.x d).toNat
     let base := (s.x a).toNat
     let len := (s.x b).toNat
     let q := s.part n
     let others := (s.parts.filter fun e => e.1 != n && e.2.len != 0).map fun e => (e.2.base, e.2.len)
     let inRange := n ≤ 63 ∧ base ≤ 4095 ∧ len ≤ 4096
     let quiet := s.groups = [] ∧ (∀ c, c ∈ s.cores → ∀ i, i < 4 → i ≠ 0 → (s.ctxSet c.1 i).loaded = false) ∧
       ∀ t, t ∈ s.threads → isCompute (t.1 / 16) = true → t.2.run = .idle
     (dcp → inRange → quiet → len ≠ 0 → validParts ((base, len) :: others) = true → (q.base ≠ base ∨ q.len ≠ len) →
       Safety.Answers (.pset d a b) s fun t =>
         (t.part n).base = base ∧ (t.part n).len = len ∧ (t.part n).queue = [] ∧ (t.part n).domains = [] ∧
         (t.part n).slots = [] ∧ (t.part n).porig = 0 ∧ (t.part n).uses = [] ∧
         t.xlats = s.xlats.filter (fun x => x.part != n) ∧
         (∀ k, k ≠ n → t.part k = s.part k) ∧ t.me.regs = s.me.regs ∧ Safety.Passed s t ∧ t.mem = s.mem) ∧
     (dcp → inRange → quiet → len = 0 → validParts others = true → Safety.Answers (.pset d a b) s fun t =>
       (t.part n).len = 0 ∧ (∀ k, k ≠ n → t.part k = s.part k) ∧ t.me.regs = s.me.regs ∧ Safety.Passed s t ∧
       t.mem = s.mem ∧
       (q.len ≠ 0 → (t.part n).queue = [] ∧ (t.part n).domains = [] ∧ (t.part n).slots = [] ∧ (t.part n).porig = 0 ∧
         (t.part n).uses = [])) ∧
     (dcp → ¬inRange → traps (.pset d a b) 0x63) ∧
     (dcp → inRange → len ≠ 0 → validParts ((base, len) :: others) = false → traps (.pset d a b) 0x63)) ∧
    (let t_ := s.x a
     let v := s.x d
     let lv := field t_ 17 16
     (dcp → field t_ 63 18 = 0 → field t_ 15 13 = 0 → s.spadHere (field t_ 12 0) = true → field v 63 62 = 1 →
       field v 11 0 ≠ 0 → Safety.Answers (.qset 0 d a) s fun t =>
         (t.readyQ (field t_ 12 0)).spill.getD lv 0 = v ∧ (t.readyQ (field t_ 12 0)).levels = (s.readyQ (field t_ 12 0)).levels ∧
         Safety.Past s t ∧ t.mem = s.mem) ∧
     (dcp → 1 ≤ t_.toNat → t_.toNat ≤ 512 → v.toNat % 64 = 0 → v.toNat + 64 * t_.toNat ≤ 0x10000 →
       Safety.Answers (.qset 1 d a) s fun t =>
         (t.die s.myDie).evPlaced = true ∧ (t.die s.myDie).evBase = v ∧ (t.die s.myDie).evLen = t_.toNat ∧
         (t.die s.myDie).evNext = 0 ∧ (t.die s.myDie).waiting = (s.die s.myDie).waiting ∧ Safety.Past s t ∧
           t.mem = s.mem) ∧
     (dcp → t_.toNat ≤ 63 → field v 63 18 = 0 →
       2 * (((s.parts.filter fun e => e.1 != t_.toNat && e.2.len != 0).map fun e => e.2.minbw.toNat).sum + field v 15 0)
         ≤ 175 * s.channelsUp →
       Safety.Answers (.qset 2 d a) s fun t =>
         (t.part t_.toNat).minbw = v.setWidth 16 ∧ ((t.part t_.toNat).bwclass).toNat = field v 17 16 ∧ Safety.Past s t ∧
         t.mem = s.mem) ∧
     (∀ gh g, dcp → s.namedGroup t_ = some (gh, g) → v = 0 → Safety.Answers (.qset 3 d a) s fun t =>
       t.group? gh = some { g with safeTable := [], hasTable := false } ∧ Safety.Past s t ∧ t.mem = s.mem) ∧
     (dcp → 512 < t_.toNat → traps (.qset 1 d a) 0x64 ∧ traps (.qset 2 d a) 0x64)) ∧
    (let k := if isDcp s.cur.unit then p.toNat else s.partIx s.cur
     (s.me.csr.priv = true → isSec s.cur.unit = false → (isDcp s.cur.unit = true ∨ p = 0) → s.eMemIdle = true →
       Safety.Answers (.slinv a b ty p) s fun t =>
         t.xlats = s.xlats.filter (fun x => !(x.part == k && covers ty (s.x a) (s.x b) x)) ∧
         (ty = 0 → ∀ x, x ∈ t.xlats → x.part ≠ k) ∧
         (∀ j, t.part j = s.part j) ∧ Safety.Past s t ∧ t.mem = s.mem) ∧
     (s.me.csr.priv = false → illegal (.slinv a b ty p))) ∧
    (let v := s.x a
     let u := field v 12 0
     let j := u - 0x1000
     let h := b2n (v.getLsbD 13)
     let x := (s.cluster j).half h
     let half (t : State) : Half := (t.cluster j).half h
     dcp → field v 63 14 = 0 → s.spadHere u = true → s.me.target = none →
     (x.lease = none → x.queue = [] → Safety.Answers (.mlrev d a) s fun t => Safety.WroteX s t d 0 (s.xm a ||| s.base)) ∧
     (∀ w n, x.lease = some (w, n) → (∀ c, c ∈ x.queue → c.thread ≠ w) → Safety.Answers (.mlrev d a) s fun t =>
       Safety.GaveX s t d 0 (s.xm a ||| s.base) ∧ (half t).lease = none ∧ (half t).queue = x.queue ∧ t.mem = s.mem) ∧
     (∀ w n c rest, x.lease = some (w, n) → isCompute w.unit = true → w.set < 4 → w.ht < 4 →
      rest.length < 16 → c.steps ≤ 2 ^ 16 → x.queue.filter (fun c => c.thread == w) = c :: rest →
       c.fmt.area ≠ 0 → c.fault = none → c.step < c.steps → Safety.Answers (.mlrev d a) s fun t =>
         Safety.XHolds t d.toNat 1 (s.xm a ||| s.base) ∧ Safety.XKept s t [d.toNat] ∧ Safety.Passed s t ∧
         (half t).lease = none ∧ (half t).queue = x.queue.filter (fun c => c.thread != w) ∧
         (half t).saved = x.saved ++ [(w, c :: rest)] ∧ (t.thread w).csr.mstep.val.getLsbD 63 = true)) ∧
    (s.me.csr.priv = false → illegal (.pset d a b) ∧ illegal (.mlrev d a) ∧ ∀ o, illegal (.qset o d a)) ∧
    (s.me.csr.priv = true → isDcp s.cur.unit = false →
      traps (.pset d a b) 0x60 ∧ traps (.mlrev d a) 0x60 ∧ ∀ o, traps (.qset o d a) 0x60)

/-! ## Page 7: marks, the release gate, the security core -/

/-- The mark forms and the gate's forms (R481 to R483, R486 to R490): MKRD gives the mark of a register or of a byte's
line; MKCTX joins X(A)[15:0] and its mark into CMARK; MKJOIN copies a register with X(B)[15:0] joined into its mark;
GATESUB queues a valid request and gives its number, and raises ARITH 0x70 for another; GATEST tells how a request
stands. The gate serves its oldest request: where every test of GateRun passes, it writes the bytes at DST with the mark
DORIG alone in every line that they fill, counts the use, ends the request with ST 0 and sets its line; one whose policy
is not aligned ends with ST 1. A use entry is freed at its EXPIRY. The status of a policy that is not aligned, that EXPIRY
has passed when it equals the package reference, and that one step serves a request, are log entry 76. -/
def Obligations.MarkForms : Prop :=
  ∀ (s : State) (d a b : Reg) (wait evt : Bool) (line : BitVec 6) (l : Nat),
    let mark (m : Mark) : Word := m.setWidth 64
    let g := s.gate
    let v := ofBytes (s.mem.read l 32)
    let len := v / 2 ^ 128 % 2 ^ 32
    let sub : Instr := .gatesub d a wait evt line
    let mb := (s.x b).setWidth 16 ||| s.xm b
    let id := (s.x a).toNat % 2 ^ 16
    let recent := (g.next - 1 - BitVec.ofNat 16 id).toNat < 256
    let p := s.partIx s.cur
    (Safety.Answers (.mkrd 0 d a) s fun t => Safety.WroteX s t d (mark (s.xm a)) (s.xm a ||| s.base)) ∧
    (s.bound a.toNat = false → Safety.Answers (.mkrd 1 d a) s fun t =>
      Safety.WroteX s t d (mark (Safety.vm s a)) (Safety.vm s a ||| s.base)) ∧
    (s.bound a.toNat = true → exec (.mkrd 1 d a) s =
      .next (s.trapEntry 0x01 0 s.latch.finfo false 0 (s.trapMark (.mkrd 1 d a)))) ∧
    (Safety.ReachAt s (s.x a) 1 l → Safety.Clean s l 1 → Safety.Answers (.mkrd 2 d a) s fun t =>
      Safety.WroteX s t d (mark (s.mem.markOf l 1)) (s.mem.markOf l 1 ||| s.xm a ||| s.base)) ∧
    (a.toNat < 8 → Safety.Answers (.mkrd 3 d a) s fun t =>
      Safety.WroteX s t d (mark (s.readK a.toNat).mark) ((s.readK a.toNat).mark ||| s.base)) ∧
    (Safety.Answers (.mkctx a) s fun t =>
      t.me.csr.cmark = s.me.csr.cmark ||| (s.x a).setWidth 16 ||| s.xm a ∧
        { t.me.csr with cmark := s.me.csr.cmark } = s.me.csr ∧
      t.me.regs = s.me.regs ∧ Safety.Passed s t ∧ Safety.OnlyThread s t) ∧
    (Safety.Answers (.mkjoin false d a b) s fun t => Safety.WroteX s t d (s.x a) (s.xm a ||| mb ||| s.base)) ∧
    (s.bound a.toNat = false → s.bound d.toNat = false → Safety.Answers (.mkjoin true d a b) s fun t =>
      t.me.regs.getV d.toNat = ⟨s.v a, Safety.vm s a ||| mb ||| s.base⟩ ∧ Safety.XKept s t [] ∧
      Safety.VKept s t [d.toNat] ∧ Safety.KKept s t [] ∧ Safety.ControlKept s t ∧ Safety.Passed s t ∧
        Safety.OnlyThread s t) ∧
    (s.bound a.toNat = true ∨ s.bound d.toNat = true → exec (.mkjoin true d a b) s =
      .next (s.trapEntry 0x01 0 s.latch.finfo false 0 (s.trapMark (.mkjoin true d a b)))) ∧
    (Safety.LocalAt s (s.x a) 32 l → Safety.Clean s l 32 →
      let good := (s.x a).toNat % 32 = 0 ∧ v / 2 ^ 160 % 2 ^ 32 = 0 ∧ 1 ≤ len ∧ len ≤ 65536
      (good → g.queue.length < 16 → Safety.Answers sub s fun t =>
        Safety.GaveX s t d (g.next.setWidth 64) (s.xm a ||| s.base) ∧ t.mem = s.mem ∧ t.gate.next = g.next + 1 ∧
        t.gate.queue = g.queue ++ [⟨g.next.toNat, s.cur, p, BitVec.ofNat 256 v, s.me.csr.lwin.val,
          s.mem.markOf l 32 ||| s.xm a ||| s.base, if evt then some line.toNat else none, none⟩] ∧
        (wait = true → t.me.hold = some (.gate g.next.toNat s.now)) ∧ (wait = false → t.me.hold = s.me.hold)) ∧
      (¬good → exec sub s = .next (s.trapEntry 0x05 (s.x a) (word (0x70 * 2 ^ 56)) false 0 (s.trapMark sub)))) ∧
    (let stat (w : Word) (m : Mark) : Prop :=
       Safety.Answers (.gatest d a) s fun t => Safety.WroteX s t d w (s.xm a ||| m ||| s.base)
     let none_ := word (0xFF * 2 ^ 48 + id)
     let mine := g.queue.find? fun q => q.id == id && q.part == p
     (¬recent → stat none_ 0) ∧
     (∀ q, recent → mine = some q →
       stat (word ((if q.since = none then 1 else 2) * 2 ^ 62 + 0xFF * 2 ^ 48 + id)) 0) ∧
     (∀ x, recent → mine = none → g.hist.find? (fun h => h.id == id && h.part == p) = some x →
       stat (word (3 * 2 ^ 62 + x.st * 2 ^ 56 + (if x.st = 8 then x.slot
         else 0xFF) * 2 ^ 48 + x.bytes * 2 ^ 16 + id)) x.mark) ∧
     (recent → mine = none → (∀ x, x ∈ g.hist → ¬(x.id = id ∧ x.part = p)) → stat none_ 0)) ∧
    (∀ q rest lp ls ld, g.queue = q :: rest →
      let n := q.len
      let v := ofBytes (s.mem.read lp 1120)
      let dorig : Mark := BitVec.ofNat 16 (chop v 6 2)
      let far := (q.far s.chip q.dst).toNat
      let live := s.liveUses q.part
      s.sec.halted = false → s.mem.wf = true → q.policy.toNat % 64 = 0 →
      Safety.LocalIn s q.thread.unit q.lwin q.policy 1120 lp → Safety.Clean s lp 1120 →
      Safety.LocalIn s q.thread.unit q.lwin q.src n ls → Safety.Clean s ls n →
      Safety.LocalIn s q.thread.unit q.lwin q.dst n ld → Safety.UnderCeil s ld n dorig →
      policyOk v = true → chop v 8 4 = s.chip → chop v 0x0C 2 = (s.part q.part).sgid.toNat →
      s.tbase.toNat < chop v 0x28 8 →
      (q.mg ||| s.mem.markOf ls n) &&& ~~~ (BitVec.ofNat 16 (chop v 4 2)) = 0 →
      n ≤ chop v 0x20 4 → chop v 0x10 8 ≤ far → far + n ≤ chop v 0x10 8 + chop v 0x18 8 →
      (∀ k, k < 16 → bit (chop v 4 2) k = true → s.slotSigned q.part v k = true) →
      (∀ u, u ∈ live → u.hash ≠ policyHash v) → live.length < 64 → 0 < chop v 0x24 4 →
      Safety.Answers .gateRun s fun t =>
        t.gate.queue = rest ∧ t.gate.next = g.next ∧ Safety.StoredAt s t ld n (ofBytes (s.mem.read ls n)) ∧
        (∀ h, h ∈ markLines ld n → ld ≤ h → h + markSize ld ≤ ld + n → markGet t.mem.marks h = dorig) ∧
        (t.part q.part).uses = live ++ [⟨policyHash v, 1, word (chop v 0x28 8)⟩] ∧
        ((g.next - 1 - BitVec.ofNat 16 q.id).toNat < 256 →
          ∃ pre, t.gate.hist = pre ++ [⟨q.id, q.part, 0, 0xFF, n, dorig⟩]) ∧
        (∀ k, q.line = some k → (t.thread q.thread).lines = (s.thread q.thread).lines ||| (1#64 <<< k)) ∧
        (t.thread q.thread).regs = (s.thread q.thread).regs) ∧
    (∀ q rest, g.queue = q :: rest → (s.fullAt q.src || s.fullAt q.dst || s.fullAt q.policy) = true →
      exec .gateRun s = .next s) ∧
    (∀ q rest, g.queue = q :: rest → q.policy.toNat % 64 ≠ 0 → s.sec.halted = false → q.id < 2 ^ 16 →
      (s.fullAt q.src || s.fullAt q.dst || s.fullAt q.policy) = false → Safety.Answers .gateRun s fun t =>
        t.gate.queue = rest ∧ t.mem = s.mem ∧ t.gate.next = g.next ∧
        ((g.next - 1 - BitVec.ofNat 16 q.id).toNat < 256 →
          ∃ pre, t.gate.hist = pre ++ [⟨q.id, q.part, 1, 0xFF, 0, q.mg⟩]) ∧
        (∀ n, q.line = some n → (t.thread q.thread).lines = (s.thread q.thread).lines ||| (1#64 <<< n))) ∧
    (∀ (k : BitVec 6) pre (u : UseEntry) post, (s.part k.toNat).uses = pre ++ u :: post →
      (u.expiry.toNat ≤ s.tbase.toNat → Safety.Answers (.policyUseExpiry k pre.length) s fun t =>
        (t.part k.toNat).uses = pre ++ post ∧ t.threads = s.threads ∧ t.mem = s.mem) ∧
      (s.tbase.toNat < u.expiry.toNat → exec (.policyUseExpiry k pre.length) s = .next s))

/-- The forms and registers of the security core (R476, R496 to R507, R511): FUSERD gives a fuse word; KWIPE clears
the key store, the upper half of local memory and every FED, in the writes that a PORIG holds back as well; MEASX
extends a measurement register by 32 unmarked bytes; ATTEST stores a report of 448 bytes; DBGOPEN of a token that
passes every test opens the debug port, extends MEAS7 and gives 0, and it gives 1 when debug is open and 3 for a token
whose version is not 1; each raises ILL elsewhere. A write of SECDB rings, a read takes the oldest doorbell; a slot
that is cleared takes effect at once; a written key word makes its entry invalid; while debug is open, the debugger
reads and writes. That KWIPE clears FED in a write that waits is log entry 75; that FADDR of MEASX's MARK trap is X(A)
is log entry 77. -/
def Obligations.SecurityForms : Prop :=
  ∀ (s : State) (d a : Reg) (n : BitVec 3) (k : BitVec 6) (p : BitVec 6) (l : Nat),
    let here := isSec s.cur.unit = true
    let forms : List Instr := [.fuserd d k, .kwipe, .measx a n, .attest d a p, .dbgopen d a]
    (¬here → ∀ i, i ∈ forms → exec i s = .next (s.trapEntry 0x01 0 s.latch.finfo false 0 (s.trapMark i))) ∧
    (here →
      (Safety.Answers (.fuserd d k) s fun t => Safety.WroteX s t d (s.fuse k.toNat) s.base) ∧
      (s.eMemIdle = true → Safety.Answers .kwipe s fun t =>
        t.sec.keys = [] ∧ t.sec.wiped = true ∧ t.sec.meas = s.sec.meas ∧ Safety.Past s t ∧
        (∀ q, (t.mem.get q) = if unitLoc 0x1440 + 0x8000 ≤ q ∧ q < unitLoc 0x1440 + 0x10000 then 0 else s.mem.get q) ∧
        ∀ q, q ∈ t.parts → q.2.porig.getLsbD 17 = false ∧
          ∀ h, h ∈ q.2.heldSlots → h.1 = 16 → h.2.getLsbD 17 = false) ∧
      (Safety.LocalAt s (s.x a) 32 l → Safety.Clean s l 32 → (s.x a).toNat % 8 = 0 →
        let m := s.mem.markOf l 32 ||| s.xm a ||| s.base
        (m = 0 → Safety.Answers (.measx a n) s fun t =>
          t.sec.meas.getD n.toNat 0 = extend (s.sec.meas.getD n.toNat 0) (BitVec.ofNat 256 (ofBe (s.mem.read l 32))) ∧
          (∀ j, j ≠ n.toNat → t.sec.meas.getD j 0 = s.sec.meas.getD j 0) ∧ Safety.Past s t ∧ t.mem = s.mem) ∧
        (m ≠ 0 → exec (.measx a n) s = .next (s.trapEntry 0x21 (s.x a) (word (2 ^ 16 + m.toNat)) false 0
          (s.trapMark (.measx a n))))) ∧
      (Safety.LocalAt s (s.x a) 448 l → Safety.Clean s l 448 → (s.x a).toNat % 64 = 0 → s.mem.wf = true →
        (s.report p.toNat (s.mem.read (l + 0x10) 32)).length = 448 →
        Safety.Answers (.attest d a p) s fun t =>
          Safety.GaveX s t d 0 (s.xm a ||| s.base) ∧
          t.mem.read l 448 = s.report p.toNat (s.mem.read (l + 0x10) 32) ∧ Safety.BytesKept s t l 448) ∧
      (Safety.LocalAt s (s.x a) 192 l → Safety.Clean s l 192 → (s.x a).toNat % 64 = 0 →
        s.mem.markOf l 192 ||| s.xm a ||| s.base = 0 →
        (s.sec.dbg = true → Safety.Answers (.dbgopen d a) s fun t => Safety.WroteX s t d 1 0) ∧
        (s.sec.dbg = false → ofBytes (s.mem.read l 4) ≠ 1 → Safety.Answers (.dbgopen d a) s fun t => Safety.WroteX s t d 3 0) ∧
        (let tok := s.mem.read l 192
         let le (o n : Nat) : Nat := ofBytes ((tok.drop o).take n)
         let be (o : Nat) : Nat := ofBe ((tok.drop o).take 32)
         let digest := sha256 (tok.take 128)
         s.sec.dbg = false → le 0 4 = 1 → le 0x18 8 = 0 → le 0x60 32 = 0 → s.sec.wiped = true → s.sec.nkey = 0 →
         sha256 ((tok.drop 0x20).take 64) = s.fuseString 6 → le 4 4 = s.lcs →
         (le 8 8 = (s.fuse 1).toNat ∨ (le 8 8 = 0 ∧ s.lcs = 0x03)) → le 0x10 8 = s.sec.nonce.toNat →
         ecdsaVerify (be 0x20) (be 0x40) digest (be 0x80) (be 0xA0) = true →
         Safety.Answers (.dbgopen d a) s fun t =>
           Safety.GaveX s t d 0 0 ∧ t.sec.dbg = true ∧
           t.sec.meas.getD 7 0 = extend (s.sec.meas.getD 7 0) (BitVec.ofNat 256 digest) ∧
           (∀ j, j ≠ 7 → t.sec.meas.getD j 0 = s.sec.meas.getD j 0) ∧ t.sec.keys = s.sec.keys ∧ t.mem = s.mem)) ∧
      (∀ x rest, s.sec.doorbells = x :: rest → Safety.Answers .secdbRead s fun t =>
        t.sec.doorbells = rest ∧ { t with sec := s.sec } = s) ∧
      (s.me.csr.priv = true →
        (∀ v : Word, (s.slotWord p.toNat 0).getLsbD 63 = true → v.getLsbD 63 = false →
          Safety.Answers (.slotTableWrite p 0 v) s fun t =>
            t.slotWord p.toNat 0 = v &&& 0xFFFF ∧ t.threads = s.threads ∧ t.mem = s.mem) ∧
        (∀ v : Word, Safety.Answers (.kctlWrite 0x1000 v) s fun t =>
          (t.keyAt 0).v = false ∧ strWord (t.keyAt 0).x 0 = v ∧ (t.keyAt 0).y = (s.keyAt 0).y ∧ t.threads = s.threads ∧
          t.mem = s.mem) ∧
        (∀ v : Word, v.getLsbD 63 = false → Safety.Answers (.kctlWrite 0x1040 v) s fun t =>
          (t.keyAt 0).v = false ∧ (t.keyAt 0).x = (s.keyAt 0).x ∧ t.threads = s.threads ∧ t.mem = s.mem))) ∧
    (∀ v : Tagged 64, s.me.csr.priv = true → s.sec.doorbells.length < 16 → s.sec.halted = false →
      Safety.Answers (.secdbWrite v) s fun t =>
        t.sec.doorbells = s.sec.doorbells ++ [v] ∧ t.mem = s.mem ∧
        (t.thread ⟨0x1440, (s.core 0x1440).sel, 0⟩).lines.getLsbD 1 = true) ∧
    (∀ v : Tagged 64, s.me.csr.priv = false → exec (.secdbWrite v) s = .next s ∧
      ∀ o w, exec (.slotTableWrite p o w) s = .next s ∧ exec (.kctlWrite o w) s = .next s) ∧
    (∀ (q : Nat) (b : Byte), s.sec.dbg = true → s.mem.wf = true →
      (Safety.Answers (.externalDebuggerAccess (.readByte q)) s fun t =>
        t.sec.debugOut = (s.mem.get q).setWidth 256 ∧ { t with sec := s.sec } = s) ∧
      (Safety.Answers (.externalDebuggerAccess (.writeByte q b)) s fun t =>
        t.mem.get q = b ∧ (∀ r, r ≠ q → t.mem.get r = s.mem.get r) ∧ t.threads = s.threads)) ∧
    (∀ x, s.sec.dbg = false → exec (.externalDebuggerAccess x) s = .next s)

/-! ## The scheduler -/

/-- The launches of a partition (R214 to R220, R230): a reservation check places the next group of the launch in service,
or else takes the first launch of the queue, in priority and then in age, out of it, which it refuses when the record
breaks R212 or R213 and else places at the lowest interval that fits; a launch that has waited 2^16 ticks is promoted;
a gang incomplete after 2^20 ticks is refused; a group of one continuation gets its record written and enqueued, while no
launch placed before it still enqueues; and a group that ends has its memory zeroed, with the marks of its lines
cleared, and its threads' requests ended, and with the last group the launch's completion is posted. That a gang's timeout
refuses every member that has arrived is log entry 52; that a step whose condition does not hold changes nothing is log
entry 7; the order of what one step does is log entry 26. -/
def Obligations.LaunchSteps : Prop :=
  ∀ (s : State) (part : BitVec 6) (l : QLaunch) (pre post : List QLaunch),
    let p := part.toNat
    let q := s.part p
    let queueIs (t : State) (x : List QLaunch) : Prop :=
      (t.part p).queue = x ∧ { t.part p with queue := q.queue } = q ∧ ∀ k, k ≠ p → t.part k = s.part k
    let first (l : QLaunch) (ms : List QLaunch) : Prop := ∀ m, m ∈ ms →
      m.pri < l.pri ∨ (m.pri = l.pri ∧ l.since < m.since) ∨
        (m.pri = l.pri ∧ l.since = m.since ∧ m.num ≠ l.num ∧ (m.num - l.num).toNat < 2 ^ 31)
    let served := ∀ e, e ∈ s.launches → e.2.part = p → launchGroups e.2.record ≤ e.2.placed
    let lone := q.gangs = [] ∧ ∀ m, m ∈ q.queue → launchGang m.record = false
    (∀ key e c s1,
      s.launches.find? (fun x => x.2.part == p && decide (x.2.placed < launchGroups x.2.record)) = some (key, e) →
      q.base ≤ c → c < q.base + q.len → s.placeAt p key e.record e.placed c = some s1 →
      (∀ b, q.base ≤ b → b < c → s.placeAt p key e.record e.placed b = none) →
      Safety.Answers (.reservationCheck part) s fun t =>
        Safety.Placed s t p key e.placed c e.record ∧ t.launches.get? key = some { e with placed := e.placed + 1 } ∧
        queueIs t q.queue ∧ t.threads = s.threads ∧ t.mem = s.mem) ∧
    (served → lone → q.queue = [] → exec (.reservationCheck part) s = .next s) ∧
    (served → lone → q.queue = pre ++ l :: post → first l (pre ++ post) → s.recordOk p l.record = false →
      Safety.Answers (.reservationCheck part) s fun t =>
        queueIs t (pre ++ post) ∧ Safety.Posted s t (l.channel.getD (s.homeChannel p)) 3 1 l.num.toNat 0 ∧
        { t with parts := s.parts, channels := s.channels } = s) ∧
    (served → lone → q.queue = pre ++ l :: post → first l (pre ++ post) → s.recordOk p l.record = true →
      let s0 := s.setPart p { q with queue := pre ++ post }
      let key := s.pkg.nextLaunch
      let e := (s0.enrol p l 1).1
      ∀ c s1, (s0.vacant.enrol p l 1).1.placeLowest p [(key, l.record, 0)] ≠ none →
        q.base ≤ c → c < q.base + q.len → e.placeAt p key l.record 0 c = some s1 →
        (∀ b, q.base ≤ b → b < c → e.placeAt p key l.record 0 b = none) →
        Safety.Answers (.reservationCheck part) s fun t =>
          Safety.Placed s t p key 0 c l.record ∧ queueIs t (pre ++ post) ∧ t.mem = s.mem ∧
          t.launches.get? key = some ⟨l.record, l.num, p, l.channel, 1, 0, [], false, none⟩) ∧
    (q.queue = pre ++ l :: post → (∀ m, m ∈ pre → ¬(m.pri < 3 ∧ 2 ^ 16 ≤ s.now - m.since)) →
      l.pri < 3 → 2 ^ 16 ≤ s.now - l.since → Safety.Answers (.launchPromotion part) s fun t =>
        queueIs t (pre ++ post ++ [{ l with pri := l.pri + 1, since := s.now }]) ∧ { t with parts := s.parts } = s) ∧
    (∀ (x : Gang) (gs hs : List Gang), q.gangs = gs ++ x :: hs → (∀ y, y ∈ gs → y.id ≠ x.id) → x.complete = false →
      2 ^ 20 ≤ s.now - x.since → Safety.Answers (.gangTimeout part x.id) s fun t =>
        (t.part p).gangs = gs ++ hs ∧ { t with parts := s.parts, channels := s.channels } = s ∧
        ∀ ch, (t.channel ch).events = (s.channel ch).events ++
          (x.members.filter fun m => m.channel.getD (s.homeChannel p) == ch).map fun m =>
            ⟨word (3 * 2 ^ 56 + 3 * 2 ^ 48 + m.num.toNat), 0, s.tbase, 0⟩) ∧
    (∀ (gh : BitVec 16) (g : Group) (e : Launch) (u lo : Nat), s.group? gh.toNat = some g → s.launchOf g = some e →
      let c := initialRec s.chip gh.toNat e.record g 0
      let home := homeOf e.record g 0
      (g.enqueued = true → exec (.initialEnqueue gh) s = .next s) ∧
      (g.enqueued = false → s.stageTaken g = true → exec (.initialEnqueue gh) s = .next s) ∧
      (g.enqueued = false → s.stageTaken g = false → g.sent = [] → launchTpg e.record = 1 → s.mem.wf = true →
        Safety.HomeAt s g.first home 64 lo →
        Safety.Clean s lo 64 → Safety.UnderCeil s lo 64 c.mark → c.chip = s.chip → s.routeOf c = some (u, c) →
        ((s.readyQ u).levels.getD c.pri []).length < 32 → Safety.Answers (.initialEnqueue gh) s fun t =>
          Safety.StoredAt s t lo 64 (ofBytes c.bytes) ∧ t.group? gh.toNat = some { g with enqueued := true, asking := none } ∧
          (t.readyQ u).levels.getD c.pri [] = (s.readyQ u).levels.getD c.pri [] ++ [⟨c, home, g.first, g.part, s.now⟩] ∧
          c.state = 1 ∧ c.join = 0 ∧ c.frame = home ∧ c.succ = 0 ∧ c.code.toNat = lget e.record 0 8 ∧
          c.arg0.toNat = lget e.record 0x10 8 ∧ c.arg1.toNat = lget e.record 0x18 8 ∧
          c.wid = word (g.index * 2 ^ launchW e.record 0) ∧ t.threads = s.threads) ∧
      (g.enqueued = true → g.live ≠ 0 → exec (.groupEnd gh) s = .next s) ∧
      (g.enqueued = true → g.live = 0 → launchDone e.record = 0 → e.completed = false → s.groups.sorted = true →
        s.launches.sorted = true → Safety.Answers (.groupEnd gh) s fun t =>
          t.group? gh.toNat = none ∧
          (∀ x o, x ∈ g.places → o < 64 * x.llen → t.mem.get (unitLoc x.unit + 64 * x.lbase + o) = 0 ∧
            t.mem.markOf (unitLoc x.unit + 64 * x.lbase + o) 1 = 0) ∧
          (∀ x o, x ∈ g.ranges → o < 512 * x.len → t.mem.get (spadLoc x.cluster + 512 * x.base + o) = 0 ∧
            t.mem.markOf (spadLoc x.cluster + 512 * x.base + o) 1 = 0) ∧
          (∀ x, x ∈ g.places → (t.thread ⟨x.unit, x.set, x.ht⟩).reqs = Requests.none) ∧
          (launchGroups e.record ≤ e.ended + 1 → t.launches.get? g.launch = none ∧
            Safety.Posted s t (e.channel.getD (s.homeChannel e.part)) 2 0 e.num.toNat 0) ∧
          (e.ended + 1 < launchGroups e.record → t.channels = s.channels ∧
            t.launches.get? g.launch = some { e with ended := e.ended + 1 })))

/-- Continuations and what moves them (R224 to R228, R233, R288, R428, R430 to R432, R436): an idle thread in its turn
starts the oldest eligible record of the highest level, with the registers of R38, and its home becomes RUN; a record
that has waited is promoted; a successor decrement acts on its home by Table 8.8; a send delivers its bytes and takes
LEN off PEND; a deadline asks the group's threads to stop or parks them; a thread at a safe point, or overdue, is
parked with a PREEMPT record; a set whose time is used up posts QEXP; and an event record enters its DCP's queue in
order. A deadline counts from the latest milestone of a domain of DOM, or from the launch's first instruction. That WIDB
takes the record's mark is log entry 53; where a thread parked by pre-emption goes on, and what its record reports, is log
entry 50; a send waits while its agent holds 16 requests, by log entry 57. -/
def Obligations.ContinuationSteps : Prop :=
  ∀ (s : State) (unit : BitVec 13) (ht : BitVec 2) (level : BitVec 2) (lo : Nat), s.mem.wf = true →
    let u := unit.toNat
    let w : ThreadId := ⟨u, (s.core u).sel, ht.toNat⟩
    let x := s.thread w
    let qk := engKey u
    let lv (t : State) (k n : Nat) : List Ready := (t.readyQ k).levels.getD n []
    let preempt (r : Nat) (t : State) : Prop :=
      (t.thread w).run = .parkedPre ∧ (t.thread w).resumeFrame.valid = true ∧ (t.thread w).equeue = [] ∧
      ∃ c, (t.die (dieOf u)).waiting = (s.die (dieOf u)).waiting ++ [c] ∧ field (c.word.setWidth 64) 63 56 = 2 ∧
        c.word.toNat / 2 ^ 64 % 2 ^ 64 = r
    (∀ (n : Nat) (r : Ready) (pre post : List Ready), n < 4 → s.nextStart qk = some w →
      (∀ m y, n < m → m < 4 → y ∈ lv s qk m → s.eligible w y = false) → lv s qk n = pre ++ r :: post →
      (∀ y, y ∈ pre → s.eligible w y = false) → s.eligible w r = true →
      Safety.HomeAt s r.unit r.home 64 lo → Safety.Clean s lo 64 → Safety.UnderCeil s (lo + 0x10) 8 0 →
      let c := r.record
      let h := recOfBytes (s.mem.read lo 64)
      Safety.Answers (.continuationStart unit ht) s fun t =>
        let y := t.thread w
        y.run = .running ∧ y.pc = c.code ∧
        y.regs.getX 2 = ⟨c.frame, c.mark⟩ ∧ y.regs.getX 3 = ⟨r.home, c.mark⟩ ∧ y.regs.getX 10 = ⟨c.arg0, c.mark⟩ ∧
        y.regs.getX 11 = ⟨c.arg1, c.mark⟩ ∧
        (∀ k, k ≠ 2 → k ≠ 3 → k ≠ 10 → k ≠ 11 → y.regs.getX k = plain 0) ∧ (∀ k, y.regs.getV k = plain 0) ∧
        y.csr.cmark = c.mark ∧ y.csr.widb = ⟨if c.gh = 0 then 0 else c.wid, c.mark⟩ ∧ y.csr.gcp = c.flags.getLsbD 3 ∧
        (isCompute u = true → y.csr.priv = c.flags.getLsbD 2) ∧ y.csr.intrap = false ∧ y.csr.tvec = plain 0 ∧
        y.cont.map (·.home) = some r.home ∧ lv t qk n = pre ++ post ∧
        Safety.StoredAt s t (lo + 0x10) 8 (h.join.toNat + (flagsWith h.flags 2 h.trigd).toNat * 2 ^ 32) ∧
        ∀ k, k ≠ w.key → t.threadAt k = s.threadAt k) ∧
    (∀ r rest, lv s u level.toNat = r :: rest →
      (level.toNat < 3 → 2 ^ 16 ≤ s.now - r.since → (lv s u (level.toNat + 1)).length < 32 →
        Safety.Answers (.readyPromotion unit level) s fun t =>
          lv t u level.toNat = rest ∧ lv t u (level.toNat + 1) = lv s u (level.toNat + 1) ++ [{ r with since := s.now }] ∧
          { t with ready := s.ready } = s) ∧
      (level = 3 ∨ s.now - r.since < 2 ^ 16 → exec (.readyPromotion unit level) s = .next s)) ∧
    (∀ (d : Decrement) (rest : List Decrement), s.decs = d :: rest → Safety.HomeAt s d.unit d.addr 64 lo →
      Safety.Clean s lo 64 → Safety.UnderCeil s (lo + 0x10) 8 d.mark →
      let r := recOfBytes (s.mem.read lo 64)
      let up : ContRec := { r with join := 0, flags := flagsWith r.flags 1 r.trigd }
      ((r.state = 0 ∧ r.join ≠ 1 ∨ r.state = 2) → Safety.Answers .joinDecrement s fun t =>
        t.decs = rest ∧ Safety.StoredAt s t (lo + 0x10) 8 ((r.join - 1).toNat + r.flags.toNat * 2 ^ 32) ∧
        t.threads = s.threads ∧ t.ready = s.ready) ∧
      (∀ k, r.state = 0 → r.join = 1 → r.chip = s.chip → s.routeOf up = some (k, up) → (lv s k r.pri).length < 32 →
        Safety.Answers .joinDecrement s fun t => t.decs = rest ∧ t.threads = s.threads ∧
          Safety.StoredAt s t (lo + 0x10) 8 (up.flags.toNat * 2 ^ 32) ∧
          lv t k r.pri = lv s k r.pri ++ [⟨up, d.addr, d.unit, d.part, s.now⟩]) ∧
      (r.state = 1 ∨ r.state = 3 → Safety.Answers .joinDecrement s fun t => t.decs = rest ∧ t.mem = s.mem ∧
        t.threads = s.threads ∧ (t.die (dieOf d.source)).waiting = (s.die (dieOf d.source)).waiting ++
          [⟨dcpRecord 0x05 ⟨d.source, 0, 0⟩ s.chip 0 d.addr 0 0 0 s.tbase d.mark, d.mark, d.source⟩])) ∧
    (∀ (ix : Nat) (y : Send), s.sends[ix]? = some y → field y.dst 52 34 = s.chip →
      (∀ k z, k < ix → s.sends[k]? = some z → ¬(z.thread = y.thread ∧ field z.dst 52 21 = field y.dst 52 21)) →
      y.vsn = false → Safety.FarAt s (fun _ => True) y.dst y.data.length lo →
      let d := s.dom y.part y.dom
      (Safety.UnderCeil s lo y.data.length y.mark → s.agentHolds16 (field y.dst 33 21) = false →
        (d.arr ≠ d.exp ∨ y.count < d.pend) → Safety.Answers (.xsendDelivery ix) s fun t =>
          Safety.StoredAt s t lo y.data.length (ofBytes y.data) ∧
            t.dom y.part y.dom = { d with pend := d.pend - y.count } ∧
          t.sends = s.sends.take ix ++ s.sends.drop (ix + 1) ∧ t.threads = s.threads) ∧
      (¬Safety.UnderCeil s lo y.data.length y.mark → (d.arr ≠ d.exp ∨ y.count < d.pend) →
        Safety.Answers (.xsendDelivery ix) s fun t => t.mem = s.mem ∧
          t.dom y.part y.dom = { d with pend := d.pend - y.count } ∧
          t.sends = s.sends.take ix ++ s.sends.drop (ix + 1))) ∧
    (∀ (gh : BitVec 16) (g : Group) (e : Launch) (f start : Nat), s.group? gh.toNat = some g → s.launchOf g = some e →
      e.firstAt = some f → launchDeadline e.record ≠ 0 →
      let at_ (m : Nat) : Prop := ∃ k, k < 64 ∧ bit (launchDom e.record) k = true ∧ (s.dom g.part k).mtbNow = some m
      start = f ∨ at_ start → f ≤ start → (∀ m, at_ m → m ≤ start) →
      let due := start + launchDeadline e.record
      let rec_ : DcpRec := ⟨dcpRecord 3 ⟨g.first, 0, 0⟩ s.chip (word (g.part * 2 ^ 16 + gh.toNat)) 0 0 0 0 s.tbase 0, 0, g.first⟩
      (s.now < due ∨ g.deadlinePosted = true → exec (.deadline gh) s = .next s) ∧
      (due ≤ s.now → g.deadlinePosted = false → (∀ v, s.served v = false) → Safety.Answers (.deadline gh) s fun t =>
        (∃ m, (m = true → g.milestoneReq = true) ∧
          t.group? gh.toNat = some { g with deadlinePosted := true, milestoneReq := m }) ∧ t.mem = s.mem ∧
        (∃ more, (t.die (dieOf g.first)).waiting = (s.die (dieOf g.first)).waiting ++ rec_ :: more) ∧
        (∀ p, p ∈ g.places → (s.thread ⟨p.unit, p.set, p.ht⟩).run = .running →
          (g.hasTable = false → (t.thread ⟨p.unit, p.set, p.ht⟩).run = .parkedPre) ∧
          (g.hasTable = true → (t.thread ⟨p.unit, p.set, p.ht⟩).reqs.safe = true ∧
            (t.thread ⟨p.unit, p.set, p.ht⟩).reqs.force = some (s.now + launchDeadline e.record) ∧
            (t.thread ⟨p.unit, p.set, p.ht⟩).run = .running)))) ∧
    (∀ f, x.reqs.force = some f → w.set < 4 →
      (∀ k, k < 4 → k ≠ w.set → (s.thread ⟨u, k, ht.toNat⟩).reqs.force = none) →
      (f ≤ s.now → x.run = .running → s.served w = false → Safety.Answers (.deadlineForce unit ht) s fun t =>
        preempt (if x.reqs.safe then 3 else 4) t ∧ t.mem = s.mem) ∧
      (s.now < f → exec (.deadlineForce unit ht) s = .next s)) ∧
    (∀ xl vl, s.cur = w → s.atSafePoint w = some (xl, vl) →
      (x.still = true → s.served w = false → Safety.Answers .safePointPark s fun t => preempt 2 t ∧ t.mem = s.mem ∧
        (∀ k, k < 32 → k ≠ 0 → (t.thread w).regs.getX k = if xl.getLsbD k then x.regs.getX k else plain 0) ∧
        ∀ k, k < 32 → (t.thread w).regs.getV k = if vl.getLsbD k then x.regs.getV k else plain 0) ∧
      (x.still = false → exec .safePointPark s = .next s)) ∧
    (let i := (s.core u).sel
     let c := s.ctxSet u i
     (c.qrem ≠ 0 → c.qrem.toNat ≤ s.now - c.qremAt → i < 4 → Safety.Answers (.qremExpiry unit) s fun t =>
       t.ctxSet u i = { c with qrem := 0, qremAt := s.now } ∧ t.threads = s.threads ∧ t.mem = s.mem ∧
       (t.die (dieOf u)).waiting = (s.die (dieOf u)).waiting ++
         [⟨dcpRecord 4 ⟨u, i, 0⟩ s.chip 0 0 0 0 0 s.tbase c.mark, c.mark, u⟩]) ∧
     (c.qrem = 0 ∨ s.now - c.qremAt < c.qrem.toNat → exec (.qremExpiry unit) s = .next s)) ∧
    (∀ (die : BitVec 3) (r : DcpRec) (rest : List DcpRec),
      let k := die.toNat
      let d := s.die k
      let l := unitLoc (0x1380 + k) + d.evBase.toNat + 64 * d.evNext
      d.waiting = r :: rest →
      (d.evPlaced = true → s.mem.get (l + 7) = 0 → Safety.Answers (.dcpEventAppend die) s fun t =>
        Safety.StoredAt s t l 64 r.word.toNat ∧ (∀ g, g ∈ markLines l 64 →
          markGet t.mem.marks g = markGet s.mem.marks g ||| r.mark) ∧
        t.die k = { d with waiting := rest, evNext := (d.evNext + 1) % d.evLen } ∧
        (t.thread ⟨0x1380 + k, (s.core (0x1380 + k)).sel, 0⟩).lines.getLsbD 0 = true) ∧
      (d.evPlaced = false ∨ s.mem.get (l + 7) ≠ 0 → exec (.dcpEventAppend die) s = .next s))

/-- Waits and accesses that end on their own (R176, R318 to R321, R454, R456): a wait at its limit raises WAITTO with
KIND, INDEX and the partner, and one whose condition holds completes, even at its limit; a request without an answer
for 2^24 ticks is refused and SUSPECT posted; a request of another package acts in the partition that accepts it and
is refused by any other; a walk of four levels finds its page, which the slice of the address keeps; a read slot
fetches its next element and leaves its position. Which partition accepts a request, and that one which fails a
ceiling changes nothing, is log entry 83; which translations a slice keeps is log entry 22; when the silence of
another package or of the host ends is log entry 16; the partner of a WAITTO where R321 names none is log entry 49. -/
def Obligations.WaitSteps : Prop :=
  ∀ (s : State),
    (∀ (side : Bool) (i : Instr) (s1 : State) (w : Wait), s.waiting side = some (i, s1, w) → s.me.run = .running →
      let info := word (w.kind * 2 ^ 56 + w.index % 256 * 2 ^ 48 + w.unit % 2 ^ 13 * 2 ^ 19 + w.chip % 2 ^ 19)
      let m := s1.trapMark i
      let vec := s.me.csr.tvec.val &&& 0xFFFFFFFFFFFFFFFC
      (s1.waitOver w.kind w.since = true → s.completes i s1 w = none →
        exec (.waitto side) s = .next (s1.trapEntry 0x07 0 info false 0 m) ∧
        (side = false → s.me.csr.intrap = false → vec ≠ 0 → Safety.Answers (.waitto side) s fun t =>
          Safety.Trapped s t 0x07 s.me.pc 0 info m vec)) ∧
      (∀ o, s1.waitOver w.kind w.since = true → s.completes i s1 w = some o → exec (.waitto side) s = o) ∧
      (s1.waitOver w.kind w.since = false → exec (.waitto side) s = .next s) ∧
      (∀ n, side = false → i = .wfe n → w.kind = 6 →
        (s.me.lines.getLsbD n.toNat = true → Safety.Answers (.waitSatisfied side) s fun t =>
          t.me.lines.getLsbD n.toNat = false ∧ t.me.pc = s.me.pc + word s1.latch.len ∧ t.me.aWait = none ∧
          t.me.regs = s.me.regs ∧ t.me.csr = s.me.csr ∧ t.mem = s.mem) ∧
        (s.me.lines.getLsbD n.toNat = false → exec (.waitSatisfied side) s = .next s))) ∧
    (s.me.aWait = none → exec (.waitto false) s = .next s ∧ exec (.waitSatisfied false) s = .next s) ∧
    (∀ (unit : BitVec 13) (ht : BitVec 2) (r : RemoteWait),
      let w : ThreadId := ⟨unit.toNat, (s.core unit.toNat).sel, ht.toNat⟩
      (s.thread w).remote = some r →
      (r.answer = none → 2 ^ 24 ≤ s.now - r.since → Safety.Answers (.requestTimeout unit ht) s fun t =>
        t.thread w = { s.thread w with remote := some { r with answer := some .refused } } ∧
        (r.chip ≠ hostChip → Safety.Posted s t 0 7 0 0 (word r.chip)) ∧ (r.chip = hostChip → t.channels = s.channels) ∧
        t.mem = s.mem ∧ ∀ k, k ≠ w.key → t.threadAt k = s.threadAt k) ∧
      (r.answer ≠ none ∨ s.now - r.since < 2 ^ 24 → exec (.requestTimeout unit ht) s = .next s)) ∧
    (∀ r : RemoteReq,
      (s.pkg.portsUp = 0 ∨ s.acceptor r = none → exec (.remoteRequest r) s = .next s) ∧
      (∀ p, s.pkg.portsUp ≠ 0 → s.acceptor r = some p →
        ((s.part p).recMode = 2 ∨ s.agentTakes r = false → exec (.remoteRequest r) s = .next s) ∧
        ((s.part p).recMode = 0 → r.kind = .load ∨ r.kind = .ldv → exec (.remoteRequest r) s = .next s) ∧
        ((s.part p).recMode = 0 → s.mem.wf = true →
          r.kind = .store ∨ (r.kind = .deliver ∧ r.aux.getLsbD 16 = false) → s.agentTakes r = true →
          (s.remoteFits r r.len r.mark = true → Safety.Answers (.remoteRequest r) s fun t =>
            Safety.StoredAt s t (reqLoc r) r.len r.data ∧ t.threads = s.threads ∧
            ∀ g, g ∈ markLines (reqLoc r) r.len → markGet t.mem.marks g = markGet s.mem.marks g ||| r.mark) ∧
          (s.remoteFits r r.len r.mark = false → Safety.Answers (.remoteRequest r) s fun t =>
            t.mem = s.mem ∧ t.threads = s.threads)))) ∧
    (∀ (part : BitVec 6) (va : Word),
      let p := part.toNat
      let q := s.part p
      let root := q.troot
      let v := va.toNat
      let next (e : Word) : Nat := field e 28 5 * 2 ^ 16 + field e 44 37 * 2 ^ 8
      let e0 := s.entryAt (field root 39 12 * 2 ^ 12 + 8 * (v / 2 ^ 39))
      let e1 := s.entryAt (next e0 + 8 * (v / 2 ^ 30 % 512))
      let e2 := s.entryAt (next e1 + 8 * (v / 2 ^ 21 % 512))
      let e3 := s.entryAt (next e2 + 8 * (v / 2 ^ 16 % 32))
      let table (e : Word) (level : Nat) : Prop := field e 1 0 = 1 ∧ badPointer e level = false
      let missing := ∀ x, x ∈ s.xlats → x.part = p → x.slice = sliceOf va → ¬(x.vbase ≤ v ∧ v < x.vbase + x.size)
      let clean := s.entryBad (field root 39 12 * 2 ^ 12 + 8 * (v / 2 ^ 39)) = false ∧
        s.entryBad (next e0 + 8 * (v / 2 ^ 30 % 512)) = false ∧ s.entryBad (next e1 + 8 * (v / 2 ^ 21 % 512)) = false ∧
        s.entryBad (next e2 + 8 * (v / 2 ^ 16 % 32)) = false
      (v < 2 ^ 48 → missing → clean → (s.xlats.filter fun x => x.slice == sliceOf va).length < 2048 →
        root.getLsbD 0 = true → table e0 0 → table e1 1 → table e2 2 → field e3 1 0 = 2 →
        Safety.Answers (.translationWalk part va) s fun t =>
          t.xlats = s.xlats ++ [⟨p, sliceOf va, v / 2 ^ 16 * 2 ^ 16, 2 ^ 16, e3⟩] ∧ { t with xlats := s.xlats } = s) ∧
      (v < 2 ^ 48 → (root.getLsbD 0 = false ∨ missing ∧ field e0 1 0 = 0) → exec (.translationWalk part va) s = .next s) ∧
      (v < 2 ^ 48 → ¬missing → exec (.translationWalk part va) s = .next s)) ∧
    (∀ (n : BitVec 2) (loc : Nat → Nat),
      let k := n.toNat
      let x := s.slot k
      let w := x.width
      let at_ := x.pos + x.lanes * x.fetched.length
      let c := min x.lanes (x.len - at_)
      (s.me.run ≠ .running ∨ x.opened = false ∨ x.wr = true ∨ x.len ≤ at_ → exec (.streamFetch n) s = .next s) ∧
      (s.me.run = .running → x.opened = true → x.wr = false → x.indirect = false → at_ < x.len →
        x.fetched.length < (if x.vec then 4 else 16) → (∀ f, f ∈ x.fetched → f.fault = none) →
        (∀ j, j < c → Safety.LocalAt s (affineAt x.desc (at_ + j)) (w / 8) (loc j) ∧ Safety.Clean s (loc j) (w / 8)) →
        affineOk x.desc = true → ∃ v,
          (∀ j, j < c → v / 2 ^ (w * j) % 2 ^ w = ofBytes (s.mem.read (loc j) (w / 8))) ∧
          Safety.Answers (.streamFetch n) s fun t =>
            t.slot k = { x with fetched := x.fetched ++
              [⟨v, joins ((List.range c).map fun j => s.mem.markOf (loc j) (w / 8)), none⟩] } ∧
            Safety.SlotsKept s t k ∧ t.me.regs = s.me.regs ∧ t.me.pc = s.me.pc ∧ Safety.OnlyThread s t))

/-! ## Control space and operand rings -/

/-- The steps of an operand ring and the writes that configure it (R242 to R258, Tables 9.1, 9.3): a boundary moves
the tiles of one direction one stop on, places a queued tile where the position is empty, counts the laps of tiles
that arrive home, and a meeting whose tags match an entry takes a pair slot, or is missed; a captured pair is copied
to its slot with its task record, once its 256 clk are over; a segment parks with its tiles and resumes with them; a
write of RSEG starts a segment that may run and stops a running one, a write of RCFG is held while a segment runs, and
a write of any other register takes its fields; none has an effect without PRIV. Boundaries stand 64 clk apart, and a
pair's copy takes 256, a tick being a clk (log entry 3); that a tile placed at a boundary does not arrive at it is log
entry 51; when a segment resumes whose owner had several threads parked is log entry 110. -/
def Obligations.RingSteps : Prop :=
  ∀ (s : State) (q : BitVec 5) (seg : BitVec 2) (val : Word),
    let a := q.toNat
    let j := seg.toNat
    let g := (s.quad a).sg j
    let rn := (s.segStops a j).length
    let old (k : Nat) : Stop := Safety.stopAt s a j k
    let placed (k : Nat) (east : Bool) : Option Tile :=
      match Safety.crossed s a j k east with
      | some x => some x
      | none => (if east then (old k).injE else (old k).injW).head?
    let settled (k : Nat) (east : Bool) : Option Tile :=
      match Safety.crossed s a j k east with
      | some x => some (Safety.lapped s a j k east x)
      | none => (if east then (old k).injE else (old k).injW).head?
    (g.en = false ∨ g.parked = true ∨ g.parkReq = true ∨ (∀ d, g.beatAt = some d → s.now < d) →
      exec (.beatBoundary q seg) s = .next s) ∧
    (∀ d, g.en = true → g.parked = false → g.parkReq = false → g.beatAt = some d → d ≤ s.now → Safety.Smooth s a j →
      ((∀ k, k < rn → (old k).junctions = []) → Safety.Answers (.beatBoundary q seg) s fun t =>
        ((t.quad a).sg j).beat = g.beat + 1 ∧ ((t.quad a).sg j).beatAt = some (d + 64) ∧ t.threads = s.threads ∧
        t.mem = s.mem ∧
        ∀ k, k < rn → (Safety.stopAt t a j k).e = settled k true ∧ (Safety.stopAt t a j k).w = settled k false ∧
          (Safety.stopAt t a j k).captures = (old k).captures) ∧
      (∀ k e w ix n, k < rn → placed k true = some e → placed k false = some w → e.need ≠ 0 → w.need ≠ 0 →
        (old k).bypass = false →
        (old k).junctions.find? (fun x => x.2.valid && x.2.etag == e.tag && x.2.wtag == w.tag) = some (ix, n) →
        (∀ i, (old k).captures.length < 4 → i < (old k).nslot → (old k).slotHeld i = false →
          (∀ h, h < i → (old k).slotHeld h = true) → Safety.Answers (.beatBoundary q seg) s fun t =>
            (Safety.stopAt t a j k).captures = (old k).captures ++ [⟨i, s.now, ix, e, w, n.template, n.mark⟩] ∧
            (Safety.stopAt t a j k).slots = (old k).slots ++ [(i, (old k).slotLine i + 64)] ∧
            (Safety.stopAt t a j k).e.map (·.need) = some (e.need - 1) ∧
            (Safety.stopAt t a j k).w.map (·.need) = some (w.need - 1) ∧
            ((Safety.stopAt t a j k).junction ix).fires = min (n.fires + 1) 0xFFFF) ∧
        (4 ≤ (old k).captures.length ∨ (∀ i, i < (old k).nslot → (old k).slotHeld i = true) →
          Safety.Answers (.beatBoundary q seg) s fun t =>
            (Safety.stopAt t a j k).captures = (old k).captures ∧
            (Safety.stopAt t a j k).e.map (·.need) = some e.need ∧
            ((Safety.stopAt t a j k).junction ix).misses = min (n.misses + 1) 0xFFFF))) ∧
    (∀ (stop : BitVec 4) (k : Capture) (rest : List Capture),
      let c := 16 * a + stop.toNat
      let x := s.stop c
      let line := x.slotLine k.slot
      let l := spadLoc c + 512 * line
      let r := captureRec x k stop.toNat
      let home := word (0x100000 + 512 * (line + 64))
      let laid (t : State) : Prop := (t.stop c).captures = rest ∧ t.threads = s.threads ∧
        (∀ o, o < 16384 → t.mem.get (l + o) = cellGet k.e.payload o ∧ t.mem.get (l + 16384 + o) = cellGet k.w.payload o) ∧
        (∀ o, o < 64 → t.mem.get (l + 32768 + o) = BitVec.ofNat 8 (ofBytes r.bytes / 256 ^ o)) ∧
        ∀ b, b < l ∨ l + 32768 + 64 ≤ b → t.mem.get b = s.mem.get b
      (x.captures = k :: rest → s.now < x.copyDue k → exec (.pairCopy q stop) s = .next s) ∧
      (x.captures = k :: rest → x.copyDue k ≤ s.now → s.mem.wf = true → cellsWf k.e.payload = true →
      cellsWf k.w.payload = true → (∀ b, b ∈ k.e.payload ∨ b ∈ k.w.payload → b.1 < 16384) →
      (k.template.join ≠ 0 → Safety.Answers (.pairCopy q stop) s fun t => laid t ∧ r.state = 0 ∧ t.ready = s.ready) ∧
      (∀ u, k.template.join = 0 → r.chip = s.chip → s.routeOf r = some (u, r) →
        ((s.readyQ u).levels.getD r.pri []).length < 32 →
        Safety.Answers (.pairCopy q stop) s fun t => laid t ∧ r.state = 1 ∧
          ∃ p, (t.readyQ u).levels.getD r.pri [] = (s.readyQ u).levels.getD r.pri [] ++ [⟨r, home, 8 * c, p, s.now⟩]))) ∧
    (∀ d, g.en = true → g.parked = false → g.parkReq = true → g.beatAt = some d →
      (s.now < d → exec (.segmentPark q seg) s = .next s) ∧
      (∀ k, d ≤ s.now → k < rn → (old k).captures ≠ [] → Safety.Answers (.segmentPark q seg) s fun t =>
        (t.quad a).sg j = { g with beatAt := none } ∧ t.threads = s.threads ∧ t.mem = s.mem ∧ t.clusters = s.clusters)) ∧
    (g.en = true → g.parked = false → g.parkReq = true → (∀ d, g.beatAt = some d → d ≤ s.now) → Safety.Smooth s a j →
      s.mem.wf = true → (∀ k, k < rn → (old k).captures = [] ∧ (old k).injE = [] ∧ (old k).injW = []) →
      Safety.Answers (.segmentPark q seg) s fun t =>
        ((t.quad a).sg j).parked = true ∧ ((t.quad a).sg j).parkReq = false ∧ ((t.quad a).sg j).beat = g.beat + 1 ∧
        t.threads = s.threads ∧ ∀ k, k < rn → (Safety.stopAt t a j k).e = none ∧ (Safety.stopAt t a j k).w = none ∧
          (Safety.stopAt t a j k).parkE = settled k true ∧ (Safety.stopAt t a j k).parkW = settled k false) ∧
    (g.en = true → g.parked = true → s.groupParked g.owner.toNat = false →
      (∀ k, k < rn → (old k).injE = [] ∧ (old k).injW = []) → Safety.Answers (.segmentResume q seg) s fun t =>
        ((t.quad a).sg j).parked = false ∧ ((t.quad a).sg j).beatAt = some (s.now + 64) ∧ t.threads = s.threads ∧
        t.mem = s.mem ∧ ∀ k, k < rn → (Safety.stopAt t a j k).parkE = none ∧ (Safety.stopAt t a j k).parkW = none ∧
          (Safety.stopAt t a j k).e.map (fun x => { x with payload := [], bad := [] }) =
            (old k).parkE.map (fun x => { x with payload := [], bad := [] }) ∧
          (Safety.stopAt t a j k).w.map (fun x => { x with payload := [], bad := [] }) =
            (old k).parkW.map fun x => { x with payload := [], bad := [] }) ∧
    (s.groupParked g.owner.toNat = true → exec (.segmentResume q seg) s = .next s) ∧
    (s.me.csr.priv = true →
      (let owner := BitVec.ofNat 16 (field val 63 48)
       g.en = false → val.getLsbD 47 = true → s.mayRun a j owner = true → Safety.Answers (.rsegWrite q seg val) s fun t =>
         let h := (t.quad a).sg j
         h.en = true ∧ h.owner = owner ∧ h.beat = 0 ∧ h.beatAt = some (s.now + 64) ∧ h.injected = 0 ∧ h.retired = 0 ∧
           h.fired = 0 ∧ h.missed = 0 ∧
         h.recovered = 0 ∧ h.laplim.toNat = (if field val 35 32 = 0 then g.laplim.toNat else field val 35 32) ∧
         (∀ k, k < rn → (Safety.stopAt t a j k).junctions = [] ∧ (Safety.stopAt t a j k).recovery = []) ∧
         t.threads = s.threads ∧ t.mem = s.mem) ∧
      (g.en = false → val.getLsbD 47 = false → Safety.Answers (.rsegWrite q seg val) s fun t =>
         ((t.quad a).sg j).en = false ∧ ((t.quad a).sg j).owner.toNat = field val 63 48 ∧ t.clusters = s.clusters) ∧
      (g.en = true → val.getLsbD 47 = false → Safety.Answers (.rsegWrite q seg val) s fun t =>
         ((t.quad a).sg j).en = false ∧ t.threads = s.threads ∧ t.mem = s.mem ∧
         ∀ c, c ∈ s.segStops a j → (t.stop c).e = none ∧ (t.stop c).w = none ∧ (t.stop c).injE = [] ∧
           (t.stop c).injW = [] ∧ (t.stop c).junctions = [] ∧ (t.stop c).captures = [] ∧ (t.stop c).recovery = []) ∧
      (field val 1 0 ≠ 3 → (∀ k, k < 4 → ((s.quad a).sg k).en = false) → Safety.Answers (.rcfgWrite q val) s fun t =>
         (t.quad a).seg = val.setWidth 2 ∧ t.threads = s.threads ∧ t.mem = s.mem) ∧
      (∀ k, k < 4 → field val 1 0 ≠ 3 → ((s.quad a).sg k).en = true → Safety.Answers (.rcfgWrite q val) s fun t =>
         (t.quad a).seg = (s.quad a).seg ∧ (t.quad a).held = some (val.setWidth 2) ∧ t.threads = s.threads ∧
         t.mem = s.mem) ∧
      (field val 1 0 = 3 → exec (.rcfgWrite q val) s = .next s) ∧
      (let p := s.partIx s.cur
       let w (b : BitVec 13) (o : BitVec 21) : Instr := .controlRegisterWrite b o val
       (∀ d : BitVec 6, (s.dom p d.toNat).arr = 0 → (s.dom p d.toNat).pend = 0 →
         Safety.Answers (w 0 (BitVec.ofNat 21 (32 * d.toNat))) s fun t =>
           (t.dom p d.toNat).dcfg = val &&& 0x1FFFF ∧ t.threads = s.threads ∧ t.mem = s.mem) ∧
       (Safety.Answers (w 0 0x800) s fun t =>
         t.part p = { s.part p with troot := val &&& 0xFFFFFFF001 } ∧ { t with parts := s.parts } = s) ∧
       (Safety.Answers (w 0 0x808) s fun t =>
         (t.part p).wdexp.toNat = (if field val 5 0 = 0 ∨ (16 ≤ field val 5 0 ∧ field val 5 0 ≤ 40) then field val 5 0
           else (s.part p).wdexp.toNat) ∧ { t with parts := s.parts } = s) ∧
       (∀ cl : BitVec 9,
         let b : BitVec 13 := BitVec.ofNat 13 (0x1000 + cl.toNat)
         let c := s.cluster cl.toNat
         (Safety.Answers (w b 0x400) s fun t => t.cluster cl.toNat = { c with ceil0 := val.setWidth 16 } ∧
           { t with clusters := s.clusters } = s) ∧
         (Safety.Answers (w b 0x408) s fun t => t.cluster cl.toNat = { c with ceil1 := val.setWidth 16 } ∧
           { t with clusters := s.clusters } = s)))) ∧
    (s.me.csr.priv = false → exec (.rsegWrite q seg val) s = .next s ∧ exec (.rcfgWrite q val) s = .next s ∧
      ∀ b o, exec (.controlRegisterWrite b o val) s = .next s)

/-! ## The host -/

/-- The mailbox (R459 to R464, R473, R474): a write of a channel's register page takes effect, and a command joins the
channel's queue or, on a disabled or full one, is discarded; a WRITE moves the host's bytes to the device with CHMARK
joined into their lines; a READ moves the device's bytes to the host where their marks are the channel's; a LAUNCH
joins the launch queue under the next number, or waits with one QFULL event; each ends with its DONE event, which
bears the marks of the data read and names the first failing address, and in replay with STATUS 6; a command without
an answer waits, and so does one to a unit whose agent is full; an event enters the ring of a channel unless the ring
is full; and an entry in replay is performed when its time has come. Where the host's bytes of a command come from is
log entry 82; which mark an event bears, and which rings the engine can write, is log entry 84; that a launch in
replay has no channel is log entry 85. -/
def Obligations.HostCommands : Prop :=
  ∀ (s : State) (ch : BitVec 4) (c : HostCmd) (l : Nat), s.mem.wf = true →
    let n := ch.toNat
    let x := s.channel n
    let p := x.part
    let q := s.part p
    let host := hostLoc + c.haddr.toNat
    let ended (i : Instr) (st : Nat) (a : Word) (m : Mark) : Prop := Safety.Answers i s fun t =>
      Safety.Ended s t ch st c.tag a m ∧ { t with channels := s.channels } = s
    let refused (i : Instr) (st : Nat) (a : Word) : Prop := ended i st a 0
    let waits (i : Instr) : Prop := Safety.Answers i s fun t =>
      t.channel n = { x with since := some (x.since.getD s.now) } ∧ { t with channels := s.channels } = s
    let launched (t : State) (r : BitVec 1024) (m : Mark) (o : Option Nat) (k : Nat) : Prop :=
      (t.part k).queue = (s.part k).queue ++ [⟨r ||| (m.setWidth 1024 <<< 304), (s.part k).nextNum, o,
        (launchCtl r) % 4, s.now⟩] ∧ (t.part k).nextNum = (s.part k).nextNum + 1 ∧ t.mem = s.mem ∧ t.threads = s.threads
    (Safety.CmdAt s ch 1 c →
      (q.recMode = 2 → refused (.mailboxWrite ch) 6 0) ∧
      (q.recMode ≠ 2 → s.fullAt c.daddr = true → exec (.mailboxWrite ch) s = .next s) ∧
      (q.recMode ≠ 2 → s.fullAt c.daddr = false →
        let moved := s.hostWrite (s.channelAgent n) c.daddr (s.mem.read host c.len) x.mark
        (moved = .error .silent → waits (.mailboxWrite ch)) ∧
        (∀ st a d, moved = .error (.failed st a d) → Safety.Answers (.mailboxWrite ch) s fun t =>
          t.threads = s.threads ∧ (t.channel n).cmds = x.cmds.tail ∧
          (d = none → t.mem = s.mem ∧ Safety.Ended s t ch st c.tag a 0)) ∧
        (∀ s1, moved = .ok s1 → (s1.part p).recMode ≠ 1 → Safety.Answers (.mailboxWrite ch) s fun t => t.mem = s1.mem ∧
          (t.channel n).cmds = (s1.channel n).cmds.tail ∧ t.threads = s1.threads)) ∧
      (q.recMode = 0 → s.fullAt c.daddr = false → Safety.HostAt s p c.daddr c.len l → Safety.UnderCeil s l c.len x.mark →
        Safety.Answers (.mailboxWrite ch) s fun t =>
          Safety.Ended s t ch 0 c.tag 0 0 ∧ Safety.StoredAt s t l c.len (ofBytes (s.mem.read host c.len)) ∧
          (∀ g, g ∈ markLines l c.len → markGet t.mem.marks g = markGet s.mem.marks g ||| x.mark) ∧
          t.threads = s.threads) ∧
      (q.recMode ≠ 2 → s.fullAt c.daddr = false → Safety.HostAt s p c.daddr c.len l →
        ¬Safety.UnderCeil s l c.len x.mark → ∃ a, refused (.mailboxWrite ch) 2 a)) ∧
    (Safety.CmdAt s ch 2 c → s.fullAt c.daddr = true → exec (.mailboxRead ch) s = .next s) ∧
    (Safety.CmdAt s ch 2 c → s.fullAt c.daddr = false →
      let e := s.channelAgent n
      (∀ st a, s.hostRange e c.daddr c.len false = .error (st, a) → refused (.mailboxRead ch) st a) ∧
      (∀ s1 r, s.hostRange e c.daddr c.len false = .ok (s1, r) → s1.regionLoad e r = .error .silent →
        waits (.mailboxRead ch)) ∧
      (Safety.HostAt s p c.daddr c.len l → Safety.Clean s l c.len → s.mem.markOf l c.len &&& ~~~x.mark = 0 →
        Safety.Answers (.mailboxRead ch) s fun t =>
          Safety.Ended s t ch 0 c.tag 0 (s.mem.markOf l c.len) ∧
          Safety.StoredAt s t host c.len (ofBytes (s.mem.read l c.len)) ∧
          t.mem.marks = s.mem.marks ∧ t.threads = s.threads) ∧
      (Safety.HostAt s p c.daddr c.len l → Safety.Clean s l c.len → s.mem.markOf l c.len &&& ~~~x.mark ≠ 0 →
        ∃ k, k < c.len ∧ s.mem.markOf (l + k) 1 &&& ~~~x.mark ≠ 0 ∧
          (∀ j, j < k → s.mem.markOf (l + j) 1 &&& ~~~x.mark = 0) ∧
          ended (.mailboxRead ch) 2 (c.daddr + word k) (s.mem.markOf l c.len)) ∧
      (Safety.HostAt s p c.daddr c.len l → ¬Safety.Clean s l c.len → ∃ a, refused (.mailboxRead ch) 4 a)) ∧
    (Safety.CmdAt s ch 3 c →
      let r : BitVec 1024 := BitVec.ofNat 1024 (ofBytes (s.mem.read host 128))
      let denied := (launchCtl r).testBit 2 = true ∧ x.chcfg.getLsbD 2 = false ∨
        (launchCtl r).testBit 3 = true ∧ x.chcfg.getLsbD 3 = false
      (q.recMode = 2 → refused (.mailboxLaunch ch) 6 0) ∧
      (q.recMode ≠ 2 → denied → refused (.mailboxLaunch ch) 5 0) ∧
      (q.recMode = 0 → ¬denied → q.queue.length < 64 → Safety.Answers (.mailboxLaunch ch) s fun t =>
        Safety.Ended s t ch 0 q.nextNum.toNat 0 0 ∧ launched t r x.mark (some n) p) ∧
      (q.recMode ≠ 2 → ¬denied → 64 ≤ q.queue.length → x.qfull = false → Safety.Answers (.mailboxLaunch ch) s fun t =>
        t.channel n = { x with qfull := true, events := x.events ++ [⟨word (4 * 2 ^ 56), word p, s.tbase, 0⟩] } ∧
        { t with channels := s.channels } = s) ∧
      (q.recMode ≠ 2 → ¬denied → 64 ≤ q.queue.length → x.qfull = true → exec (.mailboxLaunch ch) s = .next s)) ∧
    (∀ (val : BitVec 512) (data : Nat),
      let w (o : BitVec 12) : Instr := .mailboxCommandWrite ch o val data
      let becomes (o : BitVec 12) (y : Channel) : Prop := Safety.Answers (w o) s fun t =>
        t.channel n = y ∧ (∀ k, k ≠ n → t.channel k = s.channel k) ∧ { t with channels := s.channels } = s
      let cm := hostCmdOf val
      let bytes := if cm.op = 1 then min cm.len 4096 else if cm.op = 3 then 128 else 0
      becomes 0x008 { x with evbase := val.setWidth 64 &&& ~~~0xFFF#64 } ∧
      becomes 0x010 { x with evlen := val.setWidth 64 } ∧ becomes 0x020 { x with evtail := val.setWidth 32 } ∧
      (x.chcfg.getLsbD 0 = true → x.cmds.length < 64 → Safety.Answers (w 0x040) s fun t =>
        t.channel n = { x with cmds := x.cmds ++ [val] } ∧ Safety.StoredAt s t (hostLoc + cm.haddr.toNat) bytes data ∧
        t.threads = s.threads) ∧
      (x.chcfg.getLsbD 0 = false ∨ 64 ≤ x.cmds.length → Safety.Answers (w 0x040) s fun t =>
        Safety.Posted s t n 1 7 cm.tag 0 ∧ t.threads = s.threads) ∧
      (∀ o, o ≠ 0x008 → o ≠ 0x010 → o ≠ 0x020 → o ≠ 0x040 → exec (w o) s = .next s)) ∧
    (let ring := x.evbase ≠ 0 ∧ ∃ k, 4 ≤ k ∧ k ≤ 16 ∧ x.evlen = word (2 ^ k)
     let full := (x.evhead - x.evtail).toNat = x.evlen.toNat
     (∀ e rest, x.events = e :: rest → ring → ¬full → Safety.Answers (.hostEventWrite ch) s fun t =>
       Safety.StoredAt s t (hostLoc + x.evbase.toNat + 32 * (x.evhead.toNat % x.evlen.toNat)) 32
         (e.head.toNat + 2 ^ 64 * e.detail.toNat + 2 ^ 128 * e.tbase.toNat + 2 ^ 192 * e.mark.toNat) ∧
       t.channel n = { x with evhead := x.evhead + 1, events := rest } ∧ t.threads = s.threads) ∧
     (x.events = [] ∨ ¬ring ∨ full → exec (.hostEventWrite ch) s = .next s)) ∧
    (∀ (k : BitVec 6) (t0 : Nat) (first : Word) (e : RecEntry),
      let y := s.part k.toNat
      let passed (t : State) : Prop := (t.part k.toNat).recPos = y.recPos + 32 + (e.payload.length + 31) / 32 * 32
      y.recMode = 2 → y.replayStart = some (t0, first) → s.recAt k.toNat y.recPos = .ok (some e) →
      (s.now < t0 + (e.stamp - first).toNat → exec (.replayEntry k) s = .next s) ∧
      (t0 + (e.stamp - first).toNat ≤ s.now →
        (e.kind = 1 → s.fullAt e.daddr = true → exec (.replayEntry k) s = .next s) ∧
        (e.kind = 1 → s.fullAt e.daddr = false → ∀ s1,
          s.hostWrite (engineAgent k.toNat y.recSince s.now) e.daddr e.payload e.mark = .ok s1 →
            Safety.Answers (.replayEntry k) s fun t => passed t ∧ t.mem = s1.mem) ∧
        (e.kind = 2 → y.queue.length < 64 → Safety.Answers (.replayEntry k) s fun t =>
          passed t ∧ launched t (BitVec.ofNat 1024 (ofBytes e.payload)) e.mark none k.toNat) ∧
        (e.kind = 2 → 64 ≤ y.queue.length → exec (.replayEntry k) s = .next s) ∧
        (e.kind = 4 → Safety.Answers (.replayEntry k) s fun t => passed t ∧ t.mem = s.mem ∧ t.threads = s.threads)))

/-- CONFIG (R459, R463, Table 19.4): on a channel with CONF each item takes a value of its range and leaves the rest of
the package as it was, CHCFG on channel 0 alone; a value outside it ends the command with STATUS 5 and no effect; on a
channel without CONF every item does. -/
def Obligations.ConfigItems : Prop :=
  ∀ (s : State) (ch : BitVec 4) (ix : Nat) (v : Word) (c : HostCmd),
    let n := ch.toNat
    let others (t : State) : Prop := ∀ k, k ≠ n → t.channel k = s.channel k
    let refused (i : Instr) : Prop := Safety.Answers i s fun t =>
      Safety.Ended s t ch 5 c.tag 0 0 ∧ others t ∧ { t with channels := s.channels } = s
    let package (i : Instr) (item : Nat) (ok : Prop) (f : Package → Prop) : Prop := Safety.ConfigAt s ch item ix v c →
      (ok → Safety.Answers i s fun t => f t.pkg ∧ Safety.Ended s t ch 0 c.tag 0 0 ∧ others t ∧
        { t with pkg := s.pkg, channels := s.channels } = s) ∧ (¬ok → refused i)
    let partition (i : Instr) (item : Nat) (ok : Prop) (f : Partition → Prop) : Prop := Safety.ConfigAt s ch item ix v c →
      (ok → Safety.Answers i s fun t => f (t.part ix) ∧ (∀ k, k ≠ ix → t.part k = s.part k) ∧
        Safety.Ended s t ch 0 c.tag 0 0 ∧ others t ∧ { t with parts := s.parts, channels := s.channels } = s) ∧
      (¬ok → refused i)
    package (.configPchip ch) 1 (v.toNat < 2 ^ 19 ∧ s.groups = []) (· = { s.pkg with pchip := v.setWidth 19 }) ∧
    package (.configSysn ch) 2 (1 ≤ v.toNat ∧ v.toNat ≤ 524288) (· = { s.pkg with sysn := v.toNat }) ∧
    partition (.configSgid ch) 3 (v.toNat < 2 ^ 16) (· = { s.part ix with sgid := v.setWidth 16 }) ∧
    package (.configChipst ch) 4 (v.toNat % 2 ^ 63 < 2 ^ 19) (fun p => { p with failed := s.pkg.failed } = s.pkg ∧
      ∀ k, k ∈ p.failed ↔ if k = v.toNat % 2 ^ 19 then v.getLsbD 63 = true else k ∈ s.pkg.failed) ∧
    (Safety.ConfigAt s ch 5 ix v c →
      let ok := ch = 0 ∧ 1 ≤ ix ∧ ix ≤ 15 ∧ v &&& ~~~0xFFFFFC000000001D#64 = 0 ∧ popcount 16 (field v 63 48) ≤ 1
      (ok → Safety.Answers (.configChcfg ch) s fun t =>
        (t.channel ix).chcfg = v ∧ (∀ k, k ≠ ix → (t.channel k).chcfg = (s.channel k).chcfg) ∧
        Safety.Ended s t ch 0 c.tag 0 0 ∧ (∀ k, k ≠ n → { t.channel k with chcfg := (s.channel k).chcfg } = s.channel k) ∧
        { t with channels := s.channels } = s) ∧ (¬ok → refused (.configChcfg ch))) ∧
    package (.configTmaster ch) 6 (v.toNat < 2 ^ 19) (· = { s.pkg with tmaster := v.setWidth 19 }) ∧
    package (.configTset ch) 7 (s.groups = []) (fun p => { p with tbaseOff := s.pkg.tbaseOff } = s.pkg ∧
      word s.now + p.tbaseOff = v) ∧
    partition (.configRecbase ch) 8 (field v 63 62 = 1 ∧ v.toNat % 4096 = 0) (· = { s.part ix with recBase := v }) ∧
    partition (.configReclen ch) 9 (v.toNat % 4096 = 0) (· = { s.part ix with recLen := v }) ∧
    partition (.configRecmode ch) 10 (v.toNat ≤ 2) (fun y =>
      let fresh (r : Option (Nat × Word)) : Partition :=
        { s.part ix with recMode := v.setWidth 2, recPos := 0, recFull := false, recUsed := [], recHeld := [],
                         recSince := none, replayStart := r }
      let first := (s.setPart ix (fresh none)).recAt ix 0
      (v ≠ 2 → y = fresh none) ∧
      (v = 2 → (first = .ok none → y = fresh none) ∧ (∀ e, first = .ok (some e) → y = fresh (some (s.now, e.stamp))) ∧
        ∀ h, first = .error h → y = { fresh none with recSince := some s.now })) ∧
    package (.configPcap ch) 11 (800 ≤ v.toNat ∧ v.toNat ≤ 2000) (· = { s.pkg with pcap := v.setWidth 16 }) ∧
    (Safety.CmdAt s ch 4 c → (s.channel n).chcfg.getLsbD 4 = false →
      ∀ i, i ∈ ([.configPchip ch, .configSysn ch, .configSgid ch, .configChipst ch, .configChcfg ch, .configTmaster ch,
        .configTset ch, .configRecbase ch, .configReclen ch, .configRecmode ch, .configPcap ch] : List Instr) → refused i)

/-! ## Power, clocks and bring-up -/

/-- Power, thermal limits, links, the time lock and the management port (R457, R465, R466, R514 to R517, R521, Tables
22.1, 22.3): a die's clock goes to the lowest of its limits, in steps of 50 MHz, at most once in 2^16 ticks unless a
thermal or current limit lowers it; at 95 degrees the thermal limit falls one step each 2^10 ticks and below 90 it is
removed; at 110 every arithmetic clock stops; a port comes up or is lost; the time lock is lost by a package that is
no master once no synchronisation flit has come for 2^20 ticks, and regained, and its reference is corrected by one
tick at most once in 4,096; and the management port returns a register. The limits of utilisation, power and current
are inputs of the step (log entry 15), that of utilisation while utilisation exceeds 80%. The rounding of FCLK, WHY
where limits tie and the first step of the thermal limit are log entry 78; a tick stands for a clk (log entry 3);
whether the bound between packages holds again is a free value (log entry 118). -/
def Obligations.PowerSteps : Prop :=
  ∀ (s : State) (die : BitVec 3) (util power current : BitVec 11) (tj : BitVec 8),
    let d := die.toNat
    let x := s.die d
    let limit (k : Nat) : Nat :=
      if k = 1 then (if s.util d ≤ 80 then 1100 else util.toNat) else if k = 2 then power.toNat
        else if k = 3 then (x.thermal.getD 1100).toNat else current.toNat
    let dieIs (t : State) (y : Die) : Prop := t.die d = y ∧ ∀ k, k ≠ d → t.die k = s.die k
    let step_ (mhz : Nat) : Nat := max 700 (min 1100 (mhz / 50 * 50))
    (∀ low why, low = min 1100 (min (min (limit 1) (limit 2)) (min (limit 3) (limit 4))) →
      (low = 1100 → why = 0) → (low < 1100 → 1 ≤ why ∧ why ≤ 4 ∧ limit why = low ∧ ∀ k, 1 ≤ k → k < why → limit k ≠ low) →
      let f := step_ low
      let rested := ∀ t, x.freqAt = some t → 2 ^ 16 ≤ s.now - t
      let lowers := step_ (min (limit 3) (limit 4)) < x.fclk.toNat
      (f = x.fclk.toNat → Safety.Answers (.frequencyChange die util power current) s fun t =>
        dieIs t { x with why := BitVec.ofNat 3 why } ∧ { t with dies := s.dies } = s) ∧
      (f ≠ x.fclk.toNat → rested ∨ lowers → Safety.Answers (.frequencyChange die util power current) s fun t =>
        dieIs t { x with fclk := BitVec.ofNat 11 f, why := BitVec.ofNat 3 why, freqAt := some s.now } ∧
        { t with dies := s.dies } = s) ∧
      (f ≠ x.fclk.toNat → ¬rested → ¬lowers → exec (.frequencyChange die util power current) s = .next s)) ∧
    (let lower (y : Nat) (t : State) : Prop :=
       (t.die d).thermal = some (BitVec.ofNat 11 (step_ y)) ∧ (t.die d).thermAt = some s.now ∧
       (step_ y < x.fclk.toNat → (t.die d).fclk.toNat = step_ y ∧ (t.die d).why = 3) ∧
       (x.fclk.toNat ≤ step_ y → (t.die d).fclk = x.fclk) ∧ (∀ k, k ≠ d → t.die k = s.die k)
     (95 ≤ tj.toNat → x.thermal = none → Safety.Answers (.thermalThrottle die tj) s fun t =>
       lower (x.fclk.toNat - 50) t ∧ Safety.Posted s t 0 0x0C 0 0 (word d) ∧
       { t with dies := s.dies, channels := s.channels } = s) ∧
     (∀ l at_, 95 ≤ tj.toNat → x.thermal = some l → x.thermAt = some at_ →
       (2 ^ 10 ≤ s.now - at_ → Safety.Answers (.thermalThrottle die tj) s fun t =>
         lower (l.toNat - 50) t ∧ { t with dies := s.dies } = s) ∧
       (s.now - at_ < 2 ^ 10 → exec (.thermalThrottle die tj) s = .next s)) ∧
     (tj.toNat < 95 → exec (.thermalThrottle die tj) s = .next s)) ∧
    (tj.toNat < 90 → x.thermal ≠ none → Safety.Answers (.thermalRelease die tj) s fun t =>
      dieIs t { x with thermal := none, thermAt := none } ∧ Safety.Posted s t 0 0x0C 1 0 (word d) ∧
      { t with dies := s.dies, channels := s.channels } = s) ∧
    (90 ≤ tj.toNat ∨ x.thermal = none → exec (.thermalRelease die tj) s = .next s) ∧
    (110 ≤ tj.toNat → Safety.Answers (.thermalTrip die tj) s fun t =>
      t.pkg = { s.pkg with stopped := true, devst := 0xFF } ∧ Safety.Posted s t 0 0x0C 2 0 (word d) ∧
      { t with pkg := s.pkg, channels := s.channels } = s) ∧
    (tj.toNat < 110 → exec (.thermalTrip die tj) s = .next s) ∧
    (∀ (port : BitVec 4) (up : Bool), Safety.Answers (.linkTraining port up) s fun t =>
      (∀ k, k < 16 → t.pkg.portsUp.getLsbD k = if k = port.toNat then up else s.pkg.portsUp.getLsbD k) ∧
      { t with pkg := { t.pkg with portsUp := s.pkg.portsUp } } = s) ∧
    (let silent := s.pkg.tmaster ≠ s.pkg.pchip ∧ s.pkg.syncAt + 2 ^ 20 ≤ s.now
     let loses := s.pkg.locked = true ∧ silent
     (loses → Safety.Answers .timeLockLoss s fun t => t.pkg = { s.pkg with locked := false } ∧
       Safety.Posted s t 0 8 0 0 0 ∧ { t with pkg := s.pkg, channels := s.channels } = s) ∧
     (¬loses → exec .timeLockLoss s = .next s) ∧
     let regained (t : State) : Prop := t.pkg = { s.pkg with locked := true } ∧ Safety.Posted s t 0 8 1 0 0
     let not_ (t : State) : Prop := t.pkg = s.pkg ∧ t.channels = s.channels
     (s.pkg.locked = false → Safety.Answers .timeLockRegain s fun t =>
       { t with pkg := s.pkg, channels := s.channels, free := s.free } = s ∧ (regained t ∨ not_ t) ∧
       (s.pkg.tmaster = s.pkg.pchip → regained t) ∧ (silent → not_ t)) ∧
     (s.pkg.locked = true → exec .timeLockRegain s = .next s)) ∧
    (∀ n df rest, s.agenda = ⟨.sync, n, df⟩ :: rest → s.runners.filter s.served = [] → s.dueStep (s.now + n) = none →
      step s = .next { s with agenda := rest, now := s.now + n, pkg := { s.pkg with syncAt := s.now + n } }) ∧
    (∀ add n df rest, s.agenda = ⟨.correct add, n, df⟩ :: rest → s.runners.filter s.served = [] →
      s.dueStep (s.now + n) = none →
      let at_ : State := { s with agenda := rest, now := s.now + n }
      let corrects := s.pkg.tmaster ≠ s.pkg.pchip ∧ ∀ t, s.pkg.corrAt = some t → 2 ^ 12 ≤ s.now + n - t
      (corrects → ∃ t, step s = .next t ∧ t.tbase = at_.tbase + (if add then 1 else -1) ∧
        t.pkg.corrAt = some (s.now + n) ∧ { t with pkg := s.pkg } = at_) ∧
      (¬corrects → step s = .next at_)) ∧
    (let reads (r : SmbusReg) (p : Word → Prop) : Prop := Safety.Answers (.smbusBlockRead r) s fun t =>
       p t.pkg.smbus ∧ { t with free := s.free, pkg := { t.pkg with smbus := s.pkg.smbus } } = s
     reads .devst (· = s.pkg.devst.setWidth 64) ∧ reads .fuse0 (· = s.fuse 0) ∧ reads .fuse1 (· = s.fuse 1) ∧
     reads (.pwrst die) (fun v => field v 15 0 = x.fclk.toNat ∧ field v 18 16 = x.why.toNat) ∧
     reads .pkgpwr (fun v => field v 31 16 = s.pkg.pcap.toNat))

/-- Reset, bring-up, and errors of the hardware (R442, R444 to R446, R455, R497, R518, R519): a reset leaves every
unit as reset leaves it and of memory only the host's; the stages run in order, the package reference is 0 when stage
2 begins, the SEC and the DCPs start when the firmware verifies and the package fails when it does not, and stage 4
clears memory and marks; a corrected error posts SOFTERR, not more often than once in 2^16 ticks a unit; an
uncorrectable one poisons its granule or its block of HBM, parks a thread or drops a set, and posts SOFTERR; a retired
unit's threads end, and a spare or the bypass takes its place. What a reset keeps is log entry 79, the zero-fill of
stage 4 log entry 80; which thread or set a corrected error hit, and the place that SOFTERR reports, are log entry 72;
what an error of a register file or a context store does is log entry 81; which spares are free, and what becomes of a
retired unit's waiting records, is log entry 100; the firmware image is log entry 14. -/
def Obligations.BringUpSteps : Prop :=
  ∀ (s : State),
    let ix := s.sec.nonceIx
    let key := Config.firmwareKey ix
    let verifies := sha256 (beBytes 32 key.1 ++ beBytes 32 key.2) = s.fuseString 2 ∧
      ecdsaVerify key.1 key.2 (Config.firmwareDigest ix).toNat (Config.firmwareSignature ix).1 (Config.firmwareSignature ix).2 = true ∧
      popcount 64 (s.fuse 10).toNat ≤ Config.firmwareVersion ix
    (∀ i, i ∈ ([.reset, .smbusResetRequest] : List Instr) → Safety.Answers i s fun t =>
      { t with agenda := State.reset.agenda, now := State.reset.now, free := State.reset.free, clusters := State.reset.clusters
               mem := State.reset.mem, sec := State.reset.sec, pkg := State.reset.pkg } = State.reset ∧
      (∀ k, t.cluster k = if k < 512 ∧ 0x1000 + k ∈ s.pkg.retired
        then { Cluster.fresh with stop := { Stop.fresh with bypass := true } } else State.reset.cluster k) ∧
      t.now = s.now ∧ t.tbase = 0 ∧ t.sec.lcs = s.sec.lcs ∧ t.sec.keys = [] ∧ t.sec.doorbells = [] ∧
      t.sec.halted = false ∧ t.pkg.devst = 1 ∧ t.pkg.sysn = 1 ∧ t.pkg.pchip = 0 ∧ t.pkg.retired = s.pkg.retired ∧
      t.mem.marks = [] ∧ t.mem.poison = [] ∧
      (s.mem.wf = true → ∀ a, t.mem.get a = if hostLoc ≤ a then s.mem.get a else 0)) ∧
    (s.pkg.devst = 1 → Safety.Answers .bringupStage s fun t => t.pkg.devst = 2 ∧ t.tbase = 0 ∧
      { t with pkg := s.pkg } = s) ∧
    (s.pkg.devst = 2 → ¬verifies → Safety.Answers .bringupStage s fun t =>
      t.sec = { s.sec with halted := true } ∧ t.pkg = { s.pkg with devst := 0xFF } ∧ t.threads = s.threads) ∧
    (s.pkg.devst = 2 → verifies → Safety.Answers .bringupStage s fun t =>
      t.pkg = { s.pkg with devst := 3 } ∧ t.mem = s.mem ∧
      t.sec.meas.getD 0 0 = extend (s.sec.meas.getD 0 0) (Config.firmwareDigest s.sec.nonceIx) ∧
      (s.lcs = 1 → t.sec.dbg = true ∧ t.sec.meas.getD 7 0 = extend (s.sec.meas.getD 7 0) (BitVec.allOnes 256)) ∧
      (s.lcs ≠ 1 → t.sec.dbg = s.sec.dbg ∧ t.sec.meas.getD 7 0 = s.sec.meas.getD 7 0) ∧
      (t.thread ⟨0x1440, 0, 0⟩).run = .running ∧ (t.thread ⟨0x1440, 0, 0⟩).pc = Config.secEntry ∧
      ∀ d, d < 8 → (t.thread ⟨0x1380 + d, 0, 0⟩).run = .running ∧ (t.thread ⟨0x1380 + d, 0, 0⟩).pc = Config.dcpEntry d) ∧
    (s.pkg.devst = 3 → Safety.Answers .bringupStage s fun t => t.pkg = { s.pkg with devst := 4 } ∧
      { t with pkg := s.pkg } = s) ∧
    (s.pkg.devst = 4 → Safety.Answers .bringupStage s fun t => t.pkg = { s.pkg with devst := 0x10 } ∧
      t.threads = s.threads ∧ t.mem.marks = [] ∧ t.mem.poison = [] ∧
      (s.mem.wf = true → ∀ a, t.mem.get a = if hostLoc ≤ a then s.mem.get a else 0)) ∧
    (s.pkg.devst = 0x10 ∨ s.pkg.devst = 0xFF → exec .bringupStage s = .next s) ∧
    (∀ (unit : BitVec 13) (str : BitVec 3) (addr : Word),
      let u := unit.toNat
      let die := dieOf u
      let waits := ∃ r, r ∈ (s.die die).waiting ∧ r.source = u ∧ r.word.toNat / 2 ^ 56 % 256 = 8 ∧
        r.word.getLsbD 64 = true
      (¬waits → (∀ t, s.pkg.softAt.get? u = some t → 2 ^ 16 ≤ s.now - t) →
        ∃ set ht, set < 4 ∧ ht < 4 ∧ (str ≠ 0 → ht = 0) ∧ (str ≠ 0 → str ≠ 3 → set = 0) ∧
        Safety.Answers (.softerr unit str addr) s fun t => (t.die die).waiting = (s.die die).waiting ++
          [⟨dcpRecord 8 ⟨u, set, ht⟩ s.chip (word (2 * str.toNat + 1)) addr 0 0 0 s.tbase 0, 0, u⟩] ∧
        t.pkg.softAt.get? u = some s.now ∧ t.mem = s.mem ∧ t.threads = s.threads) ∧
      (∀ t, s.pkg.softAt.get? u = some t → s.now - t < 2 ^ 16 → exec (.softerr unit str addr) s = .next s) ∧
      (waits → exec (.softerr unit str addr) s = .next s)) ∧
    (let soft (t : State) (u set ht : Nat) : Prop := ∃ r, (t.die (dieOf u)).waiting = (s.die (dieOf u)).waiting ++ [r] ∧
       r.source = u ∧ r.word.toNat / 2 ^ 56 % 256 = 8 ∧ r.word.toNat / 2 ^ 54 % 4 = ht ∧
       r.word.toNat / 2 ^ 52 % 4 = set ∧ r.word.getLsbD 64 = false
     (∀ l, l < hbmLoc → Safety.Answers (.poison (.mem l)) s fun t => l / 64 * 64 ∈ t.mem.poison ∧
       (∀ g, g ∈ t.mem.poison → g = l / 64 * 64 ∨ g ∈ s.mem.poison) ∧ t.mem.cells = s.mem.cells ∧
       t.mem.marks = s.mem.marks ∧ t.threads = s.threads ∧ soft t (l / 2 ^ 21) 0 0) ∧
     (∀ l, hbmLoc ≤ l → l < hostLoc → ∃ c, c < 384 ∧ Safety.Answers (.poison (.mem l)) s fun t =>
       l / 512 * 512 ∈ t.mem.poison ∧ (∀ g, g ∈ t.mem.poison → g = l / 512 * 512 ∨ g ∈ s.mem.poison) ∧
       t.mem.cells = s.mem.cells ∧ t.mem.marks = s.mem.marks ∧ t.threads = s.threads ∧ soft t (0x1200 + c) 0 0) ∧
     (∀ l, hostLoc ≤ l → exec (.poison (.mem l)) s = .next s) ∧
     (∀ (unit : BitVec 13) (ht : BitVec 2),
       let w : ThreadId := ⟨unit.toNat, (s.core unit.toNat).sel, ht.toNat⟩
       ((s.thread w).run = .running → Safety.Answers (.poison (.regFile unit ht)) s fun t =>
         (t.thread w).run = .parkedFault ∧
         ((s.thread w).csr.intrap = false → field (t.thread w).csr.cause.val 5 0 = 0x24) ∧ t.mem = s.mem) ∧
       ((s.thread w).run ≠ .running → Safety.Answers (.poison (.regFile unit ht)) s fun t =>
         t.threads = s.threads ∧ soft t unit.toNat (w.set % 4) ht.toNat)) ∧
     (∀ (unit : BitVec 13) (set : BitVec 2), Safety.Answers (.poison (.ctxStore unit set)) s fun t =>
       (t.ctxSet unit.toNat set.toNat).loaded = false ∧
       (∀ i, i ≠ set.toNat → t.ctxSet unit.toNat i = s.ctxSet unit.toNat i) ∧ t.threads = s.threads ∧
       soft t unit.toNat set.toNat 0)) ∧
    (∀ unit : BitVec 13,
      let u := unit.toNat
      let cluster := 0x1000 ≤ u ∧ u < 0x1200
      (u ∉ s.pkg.retired → cluster ∨ isChannel u = true → Safety.Answers (.retirement unit) s fun t =>
        (u ∈ t.pkg.retired ∨ u ∈ t.pkg.spared) ∧
        (∀ k, (cluster ∧ k / 16 < 0x1000 ∧ k / 16 / 8 = u - 0x1000) ∨ (¬cluster ∧ k / 16 = u) →
          (t.threadAt k).run = .idle ∨ (t.threadAt k).hold = some .ending) ∧
        (u ∈ t.pkg.retired → ∀ l, l < 4 → (t.readyQ u).levels.getD l [] = []) ∧
        (cluster → u ∈ t.pkg.retired → (t.stop (u - 0x1000)).bypass = true) ∧
        ∃ pre more, (t.channel 0).events = (s.channel 0).events ++ pre ++ ⟨word (5 * 2 ^ 56), word u, s.tbase, 0⟩ :: more) ∧
      (u ∈ s.pkg.retired ∨ (¬cluster ∧ isChannel u = false) → exec (.retirement unit) s = .next s))

/-- What reset leaves (R11, R38, R434, R453, R455, R497, R518, R519; Tables 1.2 to 1.10, 9.3, 11.12, 11.13, 17.8, 17.10,
19.2, 22.1): the mode, masks, windows, identifiers, limits and tables that the spec gives; the values that it does not
give are the model's (log entries 1 and 6), and memory, which lists nothing, has its canonical form. -/
def Obligations.ResetState : Prop :=
  let s := State.reset
  (∀ k, (s.threadAt k).run = .idle) ∧
  (let t := Thread.fresh
   t.csr.priv = true ∧ t.csr.gcp = false ∧ t.csr.intrap = false ∧ t.csr.lwin.val = 0x8000000080000000 ∧
   t.csr.fflags.val = 0 ∧ t.csr.frm.val = 0 ∧ t.csr.cmark = 0 ∧ t.regs.getX 0 = plain 0 ∧
   t.regs.getK 0 = plain 0xFFFFFFFF ∧ t.wheel.act = false ∧ t.bq.outs = [] ∧ t.trapFrame.valid = false ∧
   (∀ n, n < 4 → (t.slots.getD n Slot.closed).opened = false) ∧ ∀ n, n < 2 →
     (t.fibres.getD n Fibre.closed).opened = false) ∧
  (∀ u, (s.core u).sel = 0 ∧ (s.ctxSet u 0).loaded = true ∧ ∀ i, i ≠ 0 → i < 4 → (s.ctxSet u i).loaded = false) ∧
  (s.part 0).base = 0 ∧ (s.part 0).len = 4096 ∧ (∀ p, p ≠ 0 → (s.part p).len = 0) ∧
  (∀ p, (s.part p).wdexp = 30 ∧ (s.part p).troot = 0 ∧ (s.part p).sgid = 0 ∧ (s.part p).recMode = 0) ∧
  (s.channel 0).chcfg = 0x1D ∧ (∀ c, c ≠ 0 → (s.channel c).chcfg = 0) ∧
  (∀ q j, ((s.quad q).sg j).en = false ∧ ((s.quad q).sg j).laplim = 2 ∧ (s.quad q).seg = 0) ∧
  (∀ d, (s.die d).fclk = 1100 ∧ (s.die d).why = 0) ∧
  s.pkg.pchip = 0 ∧ s.pkg.sysn = 1 ∧ s.pkg.pcap = 2000 ∧ s.pkg.devst = 1 ∧ s.tbase = 0 ∧
  s.sec.doorbells = [] ∧ s.sec.keys = [] ∧ s.sec.halted = false ∧ (∀ n, n < 8 → s.sec.meas.getD n 0 = 0) ∧
  s.groups = [] ∧ s.launches = [] ∧
  s.mem.wf = true ∧ s.mem.cells = [] ∧ ∀ a, s.mem.get a = 0
end

