-- ==== Sys2Proof/Laws/Bits.lean ====
section
/-! SUPPORT. Laws of fields, lanes and lists of bytes. -/

namespace Sys2Proof.Machine

open Sys2Proof

/-! ## Fields -/

/-- A number cut at a field: what is below it, the field, what is above it. -/
theorem cut_field (x lo w : Nat) : x = x % 2 ^ lo + x / 2 ^ lo % 2 ^ w * 2 ^ lo + x / 2 ^ (lo + w) * 2 ^ (lo + w) := by
  have h1 := Nat.mod_add_div x (2 ^ lo)
  have h2 := Nat.mod_add_div (x / 2 ^ lo) (2 ^ w)
  rw [Nat.div_div_eq_div_mul, ← Nat.pow_add] at h2
  rw [← h2, Nat.mul_add] at h1
  rw [Nat.pow_add] at h1 ⊢
  rw [Nat.mul_comm (x / 2 ^ lo % 2 ^ w), Nat.mul_comm (x / (2 ^ lo * 2 ^ w)), Nat.mul_assoc]
  omega

theorem setField_toNat (x : Word) (hi lo v : Nat) (h : lo ≤ hi) (h6 : hi < 64) :
    (setField x hi lo v).toNat =
      x.toNat % 2 ^ lo + v % 2 ^ (hi + 1 - lo) * 2 ^ lo + x.toNat / 2 ^ (hi + 1) * 2 ^ (hi + 1) := by
  have hw : lo + (hi + 1 - lo) = hi + 1 := by omega
  have hcut := cut_field x.toNat lo (hi + 1 - lo)
  rw [hw] at hcut
  have hx : x.toNat < 2 ^ 64 := x.isLt
  have hb : v % 2 ^ (hi + 1 - lo) < 2 ^ (hi + 1 - lo) := Nat.mod_lt _ (Nat.two_pow_pos _)
  have ha : x.toNat % 2 ^ lo < 2 ^ lo := Nat.mod_lt _ (Nat.two_pow_pos _)
  have hc : x.toNat / 2 ^ (hi + 1) < 2 ^ (63 - hi) := by
    rw [Nat.div_lt_iff_lt_mul (Nat.two_pow_pos _), ← Nat.pow_add]
    rwa [show 63 - hi + (hi + 1) = 64 by omega]
  have hlt : x.toNat % 2 ^ lo + v % 2 ^ (hi + 1 - lo) * 2 ^ lo + x.toNat / 2 ^ (hi + 1) * 2 ^ (hi + 1) < 2 ^ 64 := by
    have e1 : x.toNat % 2 ^ lo + v % 2 ^ (hi + 1 - lo) * 2 ^ lo < 2 ^ (hi + 1) := by
      calc x.toNat % 2 ^ lo + v % 2 ^ (hi + 1 - lo) * 2 ^ lo < 2 ^ lo + v % 2 ^ (hi + 1 - lo) * 2 ^ lo := by omega
        _ = (v % 2 ^ (hi + 1 - lo) + 1) * 2 ^ lo := by rw [Nat.add_mul]; omega
        _ ≤ 2 ^ (hi + 1 - lo) * 2 ^ lo := Nat.mul_le_mul_right _ hb
        _ = 2 ^ (hi + 1) := by rw [← Nat.pow_add]; congr 1; omega
    calc _ < 2 ^ (hi + 1) + x.toNat / 2 ^ (hi + 1) * 2 ^ (hi + 1) := by omega
      _ = (x.toNat / 2 ^ (hi + 1) + 1) * 2 ^ (hi + 1) := by rw [Nat.add_mul]; omega
      _ ≤ 2 ^ (63 - hi) * 2 ^ (hi + 1) := Nat.mul_le_mul_right _ hc
      _ = 2 ^ 64 := by rw [← Nat.pow_add]; congr 1; omega
  unfold setField word field bits
  rw [BitVec.toNat_ofNat, Nat.mod_eq_of_lt] <;> omega

/-- Bits outside a field stay. -/
theorem setField_bit_below (x : Word) (hi lo v i : Nat) (h : lo ≤ hi) (h6 : hi < 64) (hi' : i < lo) :
    (setField x hi lo v).getLsbD i = x.getLsbD i := by
  have hd : ∀ y : Nat, (x.toNat % 2 ^ lo + y * 2 ^ lo).testBit i = x.toNat.testBit i := by
    intro y
    rw [Nat.add_comm, Nat.mul_comm, Nat.testBit_two_pow_mul_add _ (Nat.mod_lt _ (Nat.two_pow_pos _)), if_pos hi',
      Nat.testBit_mod_two_pow]
    simp [hi']
  simp only [BitVec.getLsbD, setField_toNat x hi lo v h h6]
  rw [show hi + 1 = (hi + 1 - lo) + lo by omega, Nat.pow_add, ← Nat.mul_assoc, Nat.add_assoc, ← Nat.add_mul]
  exact hd _

theorem setField_bit_above (x : Word) (hi lo v i : Nat) (h : lo ≤ hi) (h6 : hi < 64) (hi' : hi < i) :
    (setField x hi lo v).getLsbD i = x.getLsbD i := by
  have hb : v % 2 ^ (hi + 1 - lo) < 2 ^ (hi + 1 - lo) := Nat.mod_lt _ (Nat.two_pow_pos _)
  have ha : x.toNat % 2 ^ lo < 2 ^ lo := Nat.mod_lt _ (Nat.two_pow_pos _)
  have e1 : x.toNat % 2 ^ lo + v % 2 ^ (hi + 1 - lo) * 2 ^ lo < 2 ^ (hi + 1) := by
    calc x.toNat % 2 ^ lo + v % 2 ^ (hi + 1 - lo) * 2 ^ lo < 2 ^ lo + v % 2 ^ (hi + 1 - lo) * 2 ^ lo := by omega
      _ = (v % 2 ^ (hi + 1 - lo) + 1) * 2 ^ lo := by rw [Nat.add_mul]; omega
      _ ≤ 2 ^ (hi + 1 - lo) * 2 ^ lo := Nat.mul_le_mul_right _ hb
      _ = 2 ^ (hi + 1) := by rw [← Nat.pow_add]; congr 1; omega
  simp only [BitVec.getLsbD, setField_toNat x hi lo v h h6]
  rw [Nat.add_comm, Nat.mul_comm (x.toNat / 2 ^ (hi + 1)), Nat.testBit_two_pow_mul_add _ e1, if_neg (by omega),
    Nat.testBit_div_two_pow]
  congr 1; omega

/-- A field reads back. -/
theorem field_setField (x : Word) (hi lo v : Nat) (h : lo ≤ hi) (h6 : hi < 64) :
    field (setField x hi lo v) hi lo = v % 2 ^ (hi + 1 - lo) := by
  have ha : x.toNat % 2 ^ lo < 2 ^ lo := Nat.mod_lt _ (Nat.two_pow_pos _)
  unfold field bits
  rw [setField_toNat x hi lo v h h6, Nat.add_assoc]
  have e : v % 2 ^ (hi + 1 - lo) * 2 ^ lo + x.toNat / 2 ^ (hi + 1) * 2 ^ (hi + 1) =
      2 ^ lo * (v % 2 ^ (hi + 1 - lo) + 2 ^ (hi + 1 - lo) * (x.toNat / 2 ^ (hi + 1))) := by
    have : 2 ^ (hi + 1) = 2 ^ lo * 2 ^ (hi + 1 - lo) := by rw [← Nat.pow_add]; congr 1; omega
    rw [Nat.mul_add, ← Nat.mul_assoc, ← this, Nat.mul_comm (2 ^ lo), Nat.mul_comm (2 ^ (hi + 1))]
  rw [e, Nat.add_mul_div_left _ _ (Nat.two_pow_pos _), Nat.div_eq_of_lt ha, Nat.zero_add, Nat.add_mul_mod_self_left,
    Nat.mod_mod]

/-- A field is the bits it covers. -/
theorem field_eq_of_bits (x y : Word) (hi lo : Nat) (h : ∀ i, lo ≤ i → i ≤ hi → x.getLsbD i = y.getLsbD i) :
    field x hi lo = field y hi lo := by
  unfold field bits
  apply Nat.eq_of_testBit_eq
  intro i
  simp only [Nat.testBit_mod_two_pow, Nat.testBit_div_two_pow]
  by_cases hi' : i < hi + 1 - lo
  · simp only [hi', decide_true, Bool.true_and]
    have := h (i + lo) (by omega) (by omega)
    simpa [BitVec.getLsbD, Nat.add_comm] using this
  · simp [hi']

theorem getLsbD_word (n i : Nat) (h : i < 64) : (word n).getLsbD i = n.testBit i := by
  rw [word, BitVec.getLsbD_ofNat]; simp [h]

theorem setField_bit (x : Word) (i v : Nat) (h : i < 64) : (setField x i i v).getLsbD i = decide (v % 2 = 1) := by
  have hf := field_setField x i i v (Nat.le_refl _) h
  simp only [field, bits, show i + 1 - i = 1 by omega, Nat.pow_one] at hf
  simp only [BitVec.getLsbD, Nat.testBit_eq_decide_div_mod_eq, hf]

/-- The bits of a sum of parts that do not overlap. -/
theorem testBit_add_mul (a b k i : Nat) (h : a < 2 ^ k) :
    (a + b * 2 ^ k).testBit i = if i < k then a.testBit i else b.testBit (i - k) := by
  rw [Nat.add_comm, Nat.mul_comm, Nat.testBit_two_pow_mul_add _ h]

end Sys2Proof.Machine
end

