-- ==== Sys2Proof/Laws/Exec.lean ====
section
/-! SUPPORT. The meaning that each constructor's arm calls, one equation a constructor, so that no proof unfolds the
dispatch. -/

namespace Sys2Proof.Machine

open Sys2Proof

theorem exec_add (d a b : Reg) (s : State) : exec (.add d a b) s = execAdd d a b s := rfl
theorem exec_sub (d a b : Reg) (s : State) : exec (.sub d a b) s = execSub d a b s := rfl
theorem exec_and (d a b : Reg) (s : State) : exec (.and d a b) s = execAnd d a b s := rfl
theorem exec_or (d a b : Reg) (s : State) : exec (.or d a b) s = execOr d a b s := rfl
theorem exec_xor (d a b : Reg) (s : State) : exec (.xor d a b) s = execXor d a b s := rfl
theorem exec_sll (d a b : Reg) (s : State) : exec (.sll d a b) s = execSll d a b s := rfl
theorem exec_srl (d a b : Reg) (s : State) : exec (.srl d a b) s = execSrl d a b s := rfl
theorem exec_sra (d a b : Reg) (s : State) : exec (.sra d a b) s = execSra d a b s := rfl
theorem exec_slt (d a b : Reg) (s : State) : exec (.slt d a b) s = execSlt d a b s := rfl
theorem exec_sltu (d a b : Reg) (s : State) : exec (.sltu d a b) s = execSltu d a b s := rfl
theorem exec_min (d a b : Reg) (s : State) : exec (.min d a b) s = execMin d a b s := rfl
theorem exec_max (d a b : Reg) (s : State) : exec (.max d a b) s = execMax d a b s := rfl
theorem exec_minu (d a b : Reg) (s : State) : exec (.minu d a b) s = execMinu d a b s := rfl
theorem exec_maxu (d a b : Reg) (s : State) : exec (.maxu d a b) s = execMaxu d a b s := rfl
theorem exec_mul (d a b : Reg) (w : Win) (s : State) : exec (.mul d a b w) s = execMul d a b w s := rfl
theorem exec_mulh (d a b : Reg) (w : Win) (s : State) : exec (.mulh d a b w) s = execMulh d a b w s := rfl
theorem exec_mulhu (d a b : Reg) (w : Win) (s : State) : exec (.mulhu d a b w) s = execMulhu d a b w s := rfl
theorem exec_div (d a b : Reg) (w : Win) (s : State) : exec (.div d a b w) s = execDiv d a b w s := rfl
theorem exec_divu (d a b : Reg) (w : Win) (s : State) : exec (.divu d a b w) s = execDivu d a b w s := rfl
theorem exec_rem (d a b : Reg) (w : Win) (s : State) : exec (.rem d a b w) s = execRem d a b w s := rfl
theorem exec_remu (d a b : Reg) (w : Win) (s : State) : exec (.remu d a b w) s = execRemu d a b w s := rfl
theorem exec_addi (d b : Reg) (imm : Word) (s : State) : exec (.addi d b imm) s = execAddi d b imm s := rfl
theorem exec_andi (d b : Reg) (imm : Word) (s : State) : exec (.andi d b imm) s = execAndi d b imm s := rfl
theorem exec_ori (d b : Reg) (imm : Word) (s : State) : exec (.ori d b imm) s = execOri d b imm s := rfl
theorem exec_xori (d b : Reg) (imm : Word) (s : State) : exec (.xori d b imm) s = execXori d b imm s := rfl
theorem exec_slli (d b : Reg) (sh : BitVec 6) (s : State) : exec (.slli d b sh) s = execSlli d b sh s := rfl
theorem exec_srli (d b : Reg) (sh : BitVec 6) (s : State) : exec (.srli d b sh) s = execSrli d b sh s := rfl
theorem exec_srai (d b : Reg) (sh : BitVec 6) (s : State) : exec (.srai d b sh) s = execSrai d b sh s := rfl
theorem exec_slti (d b : Reg) (imm : Word) (s : State) : exec (.slti d b imm) s = execSlti d b imm s := rfl
theorem exec_sltiu (d b : Reg) (imm : Word) (s : State) : exec (.sltiu d b imm) s = execSltiu d b imm s := rfl
theorem exec_li (d : Reg) (imm : Word) (s : State) : exec (.li d imm) s = execLi d imm s := rfl
theorem exec_clz (d a : Reg) (s : State) : exec (.clz d a) s = execClz d a s := rfl
theorem exec_ctz (d a : Reg) (s : State) : exec (.ctz d a) s = execCtz d a s := rfl
theorem exec_popc (d a : Reg) (s : State) : exec (.popc d a) s = execPopc d a s := rfl
theorem exec_brev (d a : Reg) (s : State) : exec (.brev d a) s = execBrev d a s := rfl
theorem exec_bext (d a b : Reg) (s : State) : exec (.bext d a b) s = execBext d a b s := rfl
theorem exec_bins (d a b : Reg) (s : State) : exec (.bins d a b) s = execBins d a b s := rfl
theorem exec_mv (d a : Reg) (s : State) : exec (.mv d a) s = execMv d a s := rfl
theorem exec_cmov (d a b : Reg) (s : State) : exec (.cmov d a b) s = execCmov d a b s := rfl
theorem exec_ld (z : BitVec 2) (d a : Reg) (off : Word) (s : State) : exec (.ld z d a off) s = execLd z d a off s := rfl
theorem exec_st (z : BitVec 2) (d a : Reg) (off : Word) (s : State) : exec (.st z d a off) s = execSt z d a off s := rfl
theorem exec_ldp (z : BitVec 2) (d a : Reg) (off : Word) (s : State) : exec (.ldp z d a off) s = execLdp z d a off s := rfl
theorem exec_stp (z : BitVec 2) (d a : Reg) (off : Word) (s : State) : exec (.stp z d a off) s = execStp z d a off s := rfl
theorem exec_beq (a b : Reg) (off : Word) (s : State) : exec (.beq a b off) s = execBeq a b off s := rfl
theorem exec_bne (a b : Reg) (off : Word) (s : State) : exec (.bne a b off) s = execBne a b off s := rfl
theorem exec_blt (a b : Reg) (off : Word) (s : State) : exec (.blt a b off) s = execBlt a b off s := rfl
theorem exec_bge (a b : Reg) (off : Word) (s : State) : exec (.bge a b off) s = execBge a b off s := rfl
theorem exec_bltu (a b : Reg) (off : Word) (s : State) : exec (.bltu a b off) s = execBltu a b off s := rfl
theorem exec_bgeu (a b : Reg) (off : Word) (s : State) : exec (.bgeu a b off) s = execBgeu a b off s := rfl
theorem exec_j (off : Word) (s : State) : exec (.j off) s = execJ off s := rfl
theorem exec_jal (off : Word) (s : State) : exec (.jal off) s = execJal off s := rfl
theorem exec_jr (a : Reg) (s : State) : exec (.jr a) s = execJr a s := rfl
theorem exec_jalr (d a : Reg) (s : State) : exec (.jalr d a) s = execJalr d a s := rfl
theorem exec_bqpush (a : Reg) (s : State) : exec (.bqpush a) s = execBqpush a s := rfl
theorem exec_csrr (d : Reg) (c : BitVec 6) (s : State) : exec (.csrr d c) s = execCsrr d c s := rfl
theorem exec_csrw (d : Reg) (c : BitVec 6) (s : State) : exec (.csrw d c) s = execCsrw d c s := rfl
theorem exec_csrs (d : Reg) (c : BitVec 6) (s : State) : exec (.csrs d c) s = execCsrs d c s := rfl
theorem exec_csrc (d : Reg) (c : BitVec 6) (s : State) : exec (.csrc d c) s = execCsrc d c s := rfl
theorem exec_cplaunchRead (d : Reg) (s : State) : exec (.cplaunchRead d) s = execCplaunchRead d s := rfl
theorem exec_ctxpWrite (op : CsOp) (d : Reg) (s : State) : exec (.ctxpWrite op d) s = execCtxpWrite op d s := rfl
theorem exec_trap (imm : BitVec 6) (s : State) : exec (.trap imm) s = execTrap imm s := rfl
theorem exec_brk (imm : BitVec 6) (s : State) : exec (.brk imm) s = execBrk imm s := rfl
theorem exec_wfe (line : BitVec 6) (s : State) : exec (.wfe line) s = execWfe line s := rfl
theorem exec_evsig (a : Reg) (s : State) : exec (.evsig a) s = execEvsig a s := rfl
theorem exec_mbrd (d : Reg) (s : State) : exec (.mbrd d) s = execMbrd d s := rfl
theorem exec_vadd (f : FpTy) (d a b : Reg) (k : KReg) (s : State) : exec (.vadd f d a b k) s = execVadd f d a b k s := rfl
theorem exec_vsub (f : FpTy) (d a b : Reg) (k : KReg) (s : State) : exec (.vsub f d a b k) s = execVsub f d a b k s := rfl
theorem exec_vmul (f : FpTy) (d a b : Reg) (k : KReg) (s : State) : exec (.vmul f d a b k) s = execVmul f d a b k s := rfl
theorem exec_vfma (f : FpTy) (d a b : Reg) (k : KReg) (s : State) : exec (.vfma f d a b k) s = execVfma f d a b k s := rfl
theorem exec_vfms (f : FpTy) (d a b : Reg) (k : KReg) (s : State) : exec (.vfms f d a b k) s = execVfms f d a b k s := rfl
theorem exec_vfnma (f : FpTy) (d a b : Reg) (k : KReg) (s : State) : exec (.vfnma f d a b k) s = execVfnma f d a b k s := rfl
theorem exec_vfnms (f : FpTy) (d a b : Reg) (k : KReg) (s : State) : exec (.vfnms f d a b k) s = execVfnms f d a b k s := rfl
theorem exec_vmin (f : FpTy) (d a b : Reg) (k : KReg) (s : State) : exec (.vmin f d a b k) s = execVmin f d a b k s := rfl
theorem exec_vmax (f : FpTy) (d a b : Reg) (k : KReg) (s : State) : exec (.vmax f d a b k) s = execVmax f d a b k s := rfl
theorem exec_vabs (f : FpTy) (d a : Reg) (k : KReg) (s : State) : exec (.vabs f d a k) s = execVabs f d a k s := rfl
theorem exec_vneg (f : FpTy) (d a : Reg) (k : KReg) (s : State) : exec (.vneg f d a k) s = execVneg f d a k s := rfl
theorem exec_vrcp (f : FpTy) (d a : Reg) (k : KReg) (w : Win) (s : State) : exec (.vrcp f d a k w) s = execVrcp f d a k w s := rfl
theorem exec_vrsq (f : FpTy) (d a : Reg) (k : KReg) (w : Win) (s : State) : exec (.vrsq f d a k w) s = execVrsq f d a k w s := rfl
theorem exec_vsqrt (f : FpTy) (d a : Reg) (k : KReg) (w : Win) (s : State) : exec (.vsqrt f d a k w) s = execVsqrt f d a k w s := rfl
theorem exec_vdiv (f : FpTy) (d a b : Reg) (k : KReg) (w : Win) (s : State) : exec (.vdiv f d a b k w) s = execVdiv f d a b k w s := rfl
theorem exec_vexp2 (f : FpTy) (d a : Reg) (k : KReg) (w : Win) (s : State) : exec (.vexp2 f d a k w) s = execVexp2 f d a k w s := rfl
theorem exec_vcmp (f : FpTy) (p : BitVec 3) (d : KReg) (a b : Reg) (k : KReg) (s : State) : exec (.vcmp f p d a b k) s = execVcmp f p d a b k s := rfl
theorem exec_vsel (z : BitVec 2) (d a b : Reg) (k : KReg) (s : State) : exec (.vsel z d a b k) s = execVsel z d a b k s := rfl
theorem exec_vcvt (src dst : ETy) (sat : Bool) (part : BitVec 3) (ctid : BitVec 2) (d a : Reg) (k : KReg) (s : State) : exec (.vcvt src dst sat part ctid d a k) s = execVcvt src dst sat part ctid d a k s := rfl
theorem exec_vclass (f : FpTy) (d a : Reg) (k : KReg) (s : State) : exec (.vclass f d a k) s = execVclass f d a k s := rfl
theorem exec_viadd (z m : BitVec 2) (d a b : Reg) (k : KReg) (s : State) : exec (.viadd z m d a b k) s = execViadd z m d a b k s := rfl
theorem exec_visub (z m : BitVec 2) (d a b : Reg) (k : KReg) (s : State) : exec (.visub z m d a b k) s = execVisub z m d a b k s := rfl
theorem exec_vimul (z m : BitVec 2) (d a b : Reg) (k : KReg) (s : State) : exec (.vimul z m d a b k) s = execVimul z m d a b k s := rfl
theorem exec_vsh (z m : BitVec 2) (d a b : Reg) (k : KReg) (s : State) : exec (.vsh z m d a b k) s = execVsh z m d a b k s := rfl
theorem exec_vand (z : BitVec 2) (d a b : Reg) (k : KReg) (s : State) : exec (.vand z d a b k) s = execVand z d a b k s := rfl
theorem exec_vor (z : BitVec 2) (d a b : Reg) (k : KReg) (s : State) : exec (.vor z d a b k) s = execVor z d a b k s := rfl
theorem exec_vxor (z : BitVec 2) (d a b : Reg) (k : KReg) (s : State) : exec (.vxor z d a b k) s = execVxor z d a b k s := rfl
theorem exec_vdot4 (t : DotTy) (d a b : Reg) (k : KReg) (w : Win) (s : State) : exec (.vdot4 t d a b k w) s = execVdot4 t d a b k w s := rfl
theorem exec_vred (f : FpTy) (op : BitVec 2) (d a : Reg) (k : KReg) (w : Win) (s : State) : exec (.vred f op d a k w) s = execVred f op d a k w s := rfl
theorem exec_vbcast (z : BitVec 2) (lane : BitVec 5) (d a : Reg) (k : KReg) (s : State) : exec (.vbcast z lane d a k) s = execVbcast z lane d a k s := rfl
theorem exec_vperm (z : BitVec 2) (zhi : Bool) (d a b : Reg) (k : KReg) (s : State) : exec (.vperm z zhi d a b k) s = execVperm z zhi d a b k s := rfl
theorem exec_vmvx (z : BitVec 2) (lane : BitVec 5) (d a : Reg) (s : State) : exec (.vmvx z lane d a) s = execVmvx z lane d a s := rfl
theorem exec_vmxv (z : BitVec 2) (d a : Reg) (k : KReg) (s : State) : exec (.vmxv z d a k) s = execVmxv z d a k s := rfl
theorem exec_vld (z : BitVec 2) (d a : Reg) (off : Word) (k : KReg) (s : State) : exec (.vld z d a off k) s = execVld z d a off k s := rfl
theorem exec_vst (z : BitVec 2) (d a : Reg) (off : Word) (k : KReg) (s : State) : exec (.vst z d a off k) s = execVst z d a off k s := rfl
theorem exec_vldi (d : Reg) (imm : BitVec 32) (s : State) : exec (.vldi d imm) s = execVldi d imm s := rfl
theorem exec_kop (op : BitVec 2) (d a b : KReg) (s : State) : exec (.kop op d a b) s = execKop op d a b s := rfl
theorem exec_kpop (d : Reg) (a : KReg) (s : State) : exec (.kpop d a) s = execKpop d a s := rfl
theorem exec_bqb (n : BitVec 6) (s : State) : exec (.bqb n) s = execBqb n s := rfl
theorem exec_accz (a : Reg) (s : State) : exec (.accz a) s = execAccz a s := rfl
theorem exec_accw (bf prod : Bool) (d a b : Reg) (k : KReg) (s : State) : exec (.accw bf prod d a b k) s = execAccw bf prod d a b k s := rfl
theorem exec_accrd (bf : Bool) (d a : Reg) (w : Win) (s : State) : exec (.accrd bf d a w) s = execAccrd bf d a w s := rfl
theorem exec_sopen (n : BitVec 2) (a : Reg) (wr vec : Bool) (s : State) : exec (.sopen n a wr vec) s = execSopen n a wr vec s := rfl
theorem exec_sopenx (n : BitVec 2) (a : Reg) (wr vec : Bool) (s : State) : exec (.sopenx n a wr vec) s = execSopenx n a wr vec s := rfl
theorem exec_sadv (n : BitVec 2) (a : Reg) (s : State) : exec (.sadv n a) s = execSadv n a s := rfl
theorem exec_stend (d : Reg) (n : BitVec 2) (s : State) : exec (.stend d n) s = execStend d n s := rfl
theorem exec_sclose (n : BitVec 2) (s : State) : exec (.sclose n) s = execSclose n s := rfl
theorem exec_ssave (n : BitVec 2) (a : Reg) (s : State) : exec (.ssave n a) s = execSsave n a s := rfl
theorem exec_srest (n : BitVec 2) (a : Reg) (s : State) : exec (.srest n a) s = execSrest n a s := rfl
theorem exec_fopen (n : Bool) (a : Reg) (start : BitVec 32) (s : State) : exec (.fopen n a start) s = execFopen n a start s := rfl
theorem exec_fadv (n : Bool) (a : Reg) (s : State) : exec (.fadv n a) s = execFadv n a s := rfl
theorem exec_ftend (d : KReg) (n : Bool) (s : State) : exec (.ftend d n) s = execFtend d n s := rfl
theorem exec_fclose (n : Bool) (s : State) : exec (.fclose n) s = execFclose n s := rfl
theorem exec_fisect (d : KReg) (s : State) : exec (.fisect d) s = execFisect d s := rfl
theorem exec_funion (d : KReg) (s : State) : exec (.funion d) s = execFunion d s := rfl
theorem exec_bmand (andn : Bool) (d a b : Reg) (s : State) : exec (.bmand andn d a b) s = execBmand andn d a b s := rfl
theorem exec_bmpfx (inc : Bool) (d a b : Reg) (s : State) : exec (.bmpfx inc d a b) s = execBmpfx inc d a b s := rfl
theorem exec_spack (z : BitVec 2) (d a : Reg) (k : KReg) (s : State) : exec (.spack z d a k) s = execSpack z d a k s := rfl
theorem exec_sunpk (z : BitVec 2) (d a b : Reg) (k : KReg) (s : State) : exec (.sunpk z d a b k) s = execSunpk z d a b k s := rfl
theorem exec_rep (len : BitVec 5) (cnt : BitVec 16) (s : State) : exec (.rep len cnt) s = execRep len cnt s := rfl
theorem exec_repx (len : BitVec 5) (a : Reg) (s : State) : exec (.repx len a) s = execRepx len a s := rfl
theorem exec_hacc (op : BitVec 2) (i32 : Bool) (start : BitVec 3) (d a b : Reg) (s : State) : exec (.hacc op i32 start d a b) s = execHacc op i32 start d a b s := rfl
theorem exec_hprobe (i32 : Bool) (d a b : Reg) (w : Win) (s : State) : exec (.hprobe i32 d a b w) s = execHprobe i32 d a b w s := rfl
theorem exec_widf (d : Reg) (n : BitVec 3) (s : State) : exec (.widf d n) s = execWidf d n s := rfl
theorem exec_widr (d a b : Reg) (s : State) : exec (.widr d a b) s = execWidr d a b s := rfl
theorem exec_spawn (a : Reg) (gh pri here : Bool) (s : State) : exec (.spawn a gh pri here) s = execSpawn a gh pri here s := rfl
theorem exec_spawnd (d a : Reg) (gh pri : Bool) (s : State) : exec (.spawnd d a gh pri) s = execSpawnd d a gh pri s := rfl
theorem exec_susp (a b : Reg) (s : State) : exec (.susp a b) s = execSusp a b s := rfl
theorem exec_join (d a : Reg) (s : State) : exec (.join d a) s = execJoin d a s := rfl
theorem exec_gdone (d a : Reg) (s : State) : exec (.gdone d a) s = execGdone d a s := rfl
theorem exec_glaunch (d a : Reg) (s : State) : exec (.glaunch d a) s = execGlaunch d a s := rfl
theorem exec_sstep (d a : Reg) (s : State) : exec (.sstep d a) s = execSstep d a s := rfl
theorem exec_vote (a : Reg) (dom : BitVec 6) (s : State) : exec (.vote a dom) s = execVote a dom s := rfl
theorem exec_xsend (a : Reg) (dom : BitVec 6) (start : BitVec 16) (len : BitVec 8) (s : State) : exec (.xsend a dom start len) s = execXsend a dom start len s := rfl
theorem exec_bara (dom : BitVec 6) (s : State) : exec (.bara dom) s = execBara dom s := rfl
theorem exec_barw (d a : Reg) (s : State) : exec (.barw d a) s = execBarw d a s := rfl
theorem exec_wqput (d a b : Reg) (s : State) : exec (.wqput d a b) s = execWqput d a b s := rfl
theorem exec_wqtake (d : Reg) (s : State) : exec (.wqtake d) s = execWqtake d s := rfl
theorem exec_rinj (d a b : Reg) (s : State) : exec (.rinj d a b) s = execRinj d a b s := rfl
theorem exec_mtset (d a : Reg) (e : BitVec 6) (s : State) : exec (.mtset d a e) s = execMtset d a e s := rfl
theorem exec_mtclr (d a : Reg) (s : State) : exec (.mtclr d a) s = execMtclr d a s := rfl
theorem exec_rstat (d a : Reg) (s : State) : exec (.rstat d a) s = execRstat d a s := rfl
theorem exec_rdrain (d a : Reg) (s : State) : exec (.rdrain d a) s = execRdrain d a s := rfl
theorem exec_rtake (d : Reg) (s : State) : exec (.rtake d) s = execRtake d s := rfl
theorem exec_ldg (z : BitVec 2) (d a : Reg) (off : Word) (w : Win) (s : State) : exec (.ldg z d a off w) s = execLdg z d a off w s := rfl
theorem exec_stg (z : BitVec 2) (d a : Reg) (off : Word) (s : State) : exec (.stg z d a off) s = execStg z d a off s := rfl
theorem exec_ldv (d a : Reg) (off : Word) (w : Win) (s : State) : exec (.ldv d a off w) s = execLdv d a off w s := rfl
theorem exec_stv (d a : Reg) (off : Word) (s : State) : exec (.stv d a off) s = execStv d a off s := rfl
theorem exec_reclaim (d a b : Reg) (s : State) : exec (.reclaim d a b) s = execReclaim d a b s := rfl
theorem exec_llock (a : Reg) (s : State) : exec (.llock a) s = execLlock a s := rfl
theorem exec_sunlk (d a : Reg) (s : State) : exec (.sunlk d a) s = execSunlk d a s := rfl
theorem exec_amo (z : BitVec 2) (op : BitVec 4) (ord : BitVec 2) (sc : BitVec 3) (d a b : Reg) (w : Win) (s : State) : exec (.amo z op ord sc d a b w) s = execAmo z op ord sc d a b w s := rfl
theorem exec_acas (z : BitVec 2) (ord : BitVec 2) (sc : BitVec 3) (d a b : Reg) (w : Win) (s : State) : exec (.acas z ord sc d a b w) s = execAcas z ord sc d a b w s := rfl
theorem exec_fence (kind : BitVec 2) (sc : BitVec 3) (s : State) : exec (.fence kind sc) s = execFence kind sc s := rfl
theorem exec_cbwait (d a : Reg) (buf : BitVec 6) (s : State) : exec (.cbwait d a buf) s = execCbwait d a buf s := rfl
theorem exec_cbrel (a : Reg) (buf : BitVec 6) (s : State) : exec (.cbrel a buf) s = execCbrel a buf s := rfl
theorem exec_cbclm (d a : Reg) (buf : BitVec 6) (s : State) : exec (.cbclm d a buf) s = execCbclm d a buf s := rfl
theorem exec_cbpub (a : Reg) (buf : BitVec 6) (s : State) : exec (.cbpub a buf) s = execCbpub a buf s := rfl
theorem exec_cbPublish (cl : BitVec 9) (buf : BitVec 6) (s : State) : exec (.cbPublish cl buf) s = execCbPublish cl buf s := rfl
theorem exec_cbRelease (cl : BitVec 9) (buf : BitVec 6) (s : State) : exec (.cbRelease cl buf) s = execCbRelease cl buf s := rfl
theorem exec_versionedRequest (cl : BitVec 9) (s : State) : exec (.versionedRequest cl) s = execVersionedRequest cl s := rfl
theorem exec_lockGrant (cl : BitVec 9) (bit : BitVec 9) (s : State) : exec (.lockGrant cl bit) s = execLockGrant cl bit s := rfl
theorem exec_cpset (a : Reg) (sel : BitVec 7) (s : State) : exec (.cpset a sel) s = execCpset a sel s := rfl
theorem exec_cpgo (d a : Reg) (s : State) : exec (.cpgo d a) s = execCpgo d a s := rfl
theorem exec_cpstat (d a : Reg) (s : State) : exec (.cpstat d a) s = execCpstat d a s := rfl
theorem exec_ixpost (d a : Reg) (sleep : Bool) (s : State) : exec (.ixpost d a sleep) s = execIxpost d a sleep s := rfl
theorem exec_mlease (n : BitVec 7) (s : State) : exec (.mlease n) s = execMlease n s := rfl
theorem exec_mfmt (a : Reg) (c : BitVec 17) (s : State) : exec (.mfmt a c) s = execMfmt a c s := rfl
theorem exec_mma (d a b : Reg) (acc : Bool) (s : State) : exec (.mma d a b acc) s = execMma d a b acc s := rfl
theorem exec_mconv (d a b : Reg) (acc : Bool) (s : State) : exec (.mconv d a b acc) s = execMconv d a b acc s := rfl
theorem exec_mdrain (d : Reg) (s : State) : exec (.mdrain d) s = execMdrain d s := rfl
theorem exec_mstat (d : Reg) (s : State) : exec (.mstat d) s = execMstat d s := rfl
theorem exec_pmask (a : Reg) (op : BitVec 2) (s : State) : exec (.pmask a op) s = execPmask a op s := rfl
theorem exec_ldrows (d a : Reg) (line : BitVec 6) (s : State) : exec (.ldrows d a line) s = execLdrows d a line s := rfl
theorem exec_strows (d a : Reg) (line : BitVec 6) (s : State) : exec (.strows d a line) s = execStrows d a line s := rfl
theorem exec_epush (a b : Reg) (s : State) : exec (.epush a b) s = execEpush a b s := rfl
theorem exec_epop (d : Reg) (w : Win) (s : State) : exec (.epop d w) s = execEpop d w s := rfl
theorem exec_ctab (d a : Reg) (fmt : Bool) (ctid : BitVec 2) (s : State) : exec (.ctab d a fmt ctid) s = execCtab d a fmt ctid s := rfl
theorem exec_ctabg (d : Reg) (fmt : Bool) (ctid : BitVec 2) (s : State) : exec (.ctabg d fmt ctid) s = execCtabg d fmt ctid s := rfl
theorem exec_copyRun (unit : BitVec 13) (tid : BitVec 16) (s : State) : exec (.copyRun unit tid) s = execCopyRun unit tid s := rfl
theorem exec_copyFinish (unit : BitVec 13) (tid : BitVec 16) (s : State) : exec (.copyFinish unit tid) s = execCopyFinish unit tid s := rfl
theorem exec_indirectRun (cl : BitVec 9) (s : State) : exec (.indirectRun cl) s = execIndirectRun cl s := rfl
theorem exec_indirectFinish (cl : BitVec 9) (s : State) : exec (.indirectFinish cl) s = execIndirectFinish cl s := rfl
theorem exec_mailboxDelivery (src : MailSrc) (s : State) : exec (.mailboxDelivery src) s = execMailboxDelivery src s := rfl
theorem exec_rowUnitRun (unit : BitVec 13) (s : State) : exec (.rowUnitRun unit) s = execRowUnitRun unit s := rfl
theorem exec_leaseGrant (cl : BitVec 9) (half : Bool) (s : State) : exec (.leaseGrant cl half) s = execLeaseGrant cl half s := rfl
theorem exec_chunkStep (cl : BitVec 9) (half : Bool) (s : State) : exec (.chunkStep cl half) s = execChunkStep cl half s := rfl
theorem exec_outputStep (cl : BitVec 9) (half : Bool) (s : State) : exec (.outputStep cl half) s = execOutputStep cl half s := rfl
theorem exec_markerComplete (unit : BitVec 13) (ix : Nat) (s : State) : exec (.markerComplete unit ix) s = execMarkerComplete unit ix s := rfl
theorem exec_ctxsel (op set : BitVec 2) (d a : Reg) (s : State) : exec (.ctxsel op set d a) s = execCtxsel op set d a s := rfl
theorem exec_htresResume (d a b : Reg) (s : State) : exec (.htresResume d a b) s = execHtresResume d a b s := rfl
theorem exec_htresPreemptMilestone (d a b : Reg) (s : State) : exec (.htresPreemptMilestone d a b) s = execHtresPreemptMilestone d a b s := rfl
theorem exec_htresPreemptSafepoint (d a b : Reg) (s : State) : exec (.htresPreemptSafepoint d a b) s = execHtresPreemptSafepoint d a b s := rfl
theorem exec_htresPark (d a b : Reg) (s : State) : exec (.htresPark d a b) s = execHtresPark d a b s := rfl
theorem exec_htresEnd (d a b : Reg) (s : State) : exec (.htresEnd d a b) s = execHtresEnd d a b s := rfl
theorem exec_pset (d a b : Reg) (s : State) : exec (.pset d a b) s = execPset d a b s := rfl
theorem exec_qset (sel : BitVec 3) (d a : Reg) (s : State) : exec (.qset sel d a) s = execQset sel d a s := rfl
theorem exec_slinv (a b : Reg) (ty : BitVec 2) (part : BitVec 6) (s : State) : exec (.slinv a b ty part) s = execSlinv a b ty part s := rfl
theorem exec_mlrev (d a : Reg) (s : State) : exec (.mlrev d a) s = execMlrev d a s := rfl
theorem exec_mkrd (kd : BitVec 2) (d a : Reg) (s : State) : exec (.mkrd kd d a) s = execMkrd kd d a s := rfl
theorem exec_mkctx (a : Reg) (s : State) : exec (.mkctx a) s = execMkctx a s := rfl
theorem exec_mkjoin (v : Bool) (d a b : Reg) (s : State) : exec (.mkjoin v d a b) s = execMkjoin v d a b s := rfl
theorem exec_gatesub (d a : Reg) (wait evt : Bool) (line : BitVec 6) (s : State) : exec (.gatesub d a wait evt line) s = execGatesub d a wait evt line s := rfl
theorem exec_gatest (d a : Reg) (s : State) : exec (.gatest d a) s = execGatest d a s := rfl
theorem exec_fuserd (d : Reg) (word : BitVec 6) (s : State) : exec (.fuserd d word) s = execFuserd d word s := rfl
theorem exec_measx (a : Reg) (n : BitVec 3) (s : State) : exec (.measx a n) s = execMeasx a n s := rfl
theorem exec_attest (d a : Reg) (part : BitVec 6) (s : State) : exec (.attest d a part) s = execAttest d a part s := rfl
theorem exec_dbgopen (d a : Reg) (s : State) : exec (.dbgopen d a) s = execDbgopen d a s := rfl
theorem exec_dcpEventAppend (die : BitVec 3) (s : State) : exec (.dcpEventAppend die) s = execDcpEventAppend die s := rfl
theorem exec_reservationCheck (part : BitVec 6) (s : State) : exec (.reservationCheck part) s = execReservationCheck part s := rfl
theorem exec_gangTimeout (part : BitVec 6) (gang : BitVec 32) (s : State) : exec (.gangTimeout part gang) s = execGangTimeout part gang s := rfl
theorem exec_initialEnqueue (gh : BitVec 16) (s : State) : exec (.initialEnqueue gh) s = execInitialEnqueue gh s := rfl
theorem exec_continuationStart (unit : BitVec 13) (ht : BitVec 2) (s : State) : exec (.continuationStart unit ht) s = execContinuationStart unit ht s := rfl
theorem exec_groupEnd (gh : BitVec 16) (s : State) : exec (.groupEnd gh) s = execGroupEnd gh s := rfl
theorem exec_xsendDelivery (ix : Nat) (s : State) : exec (.xsendDelivery ix) s = execXsendDelivery ix s := rfl
theorem exec_deadline (gh : BitVec 16) (s : State) : exec (.deadline gh) s = execDeadline gh s := rfl
theorem exec_deadlineForce (unit : BitVec 13) (ht : BitVec 2) (s : State) : exec (.deadlineForce unit ht) s = execDeadlineForce unit ht s := rfl
theorem exec_beatBoundary (q : BitVec 5) (seg : BitVec 2) (s : State) : exec (.beatBoundary q seg) s = execBeatBoundary q seg s := rfl
theorem exec_pairCopy (q : BitVec 5) (stop : BitVec 4) (s : State) : exec (.pairCopy q stop) s = execPairCopy q stop s := rfl
theorem exec_segmentPark (q : BitVec 5) (seg : BitVec 2) (s : State) : exec (.segmentPark q seg) s = execSegmentPark q seg s := rfl
theorem exec_segmentResume (q : BitVec 5) (seg : BitVec 2) (s : State) : exec (.segmentResume q seg) s = execSegmentResume q seg s := rfl
theorem exec_mailboxWrite (ch : BitVec 4) (s : State) : exec (.mailboxWrite ch) s = execMailboxWrite ch s := rfl
theorem exec_mailboxRead (ch : BitVec 4) (s : State) : exec (.mailboxRead ch) s = execMailboxRead ch s := rfl
theorem exec_mailboxLaunch (ch : BitVec 4) (s : State) : exec (.mailboxLaunch ch) s = execMailboxLaunch ch s := rfl
theorem exec_configPchip (ch : BitVec 4) (s : State) : exec (.configPchip ch) s = execConfigPchip ch s := rfl
theorem exec_configSysn (ch : BitVec 4) (s : State) : exec (.configSysn ch) s = execConfigSysn ch s := rfl
theorem exec_configSgid (ch : BitVec 4) (s : State) : exec (.configSgid ch) s = execConfigSgid ch s := rfl
theorem exec_configChipst (ch : BitVec 4) (s : State) : exec (.configChipst ch) s = execConfigChipst ch s := rfl
theorem exec_configChcfg (ch : BitVec 4) (s : State) : exec (.configChcfg ch) s = execConfigChcfg ch s := rfl
theorem exec_configTmaster (ch : BitVec 4) (s : State) : exec (.configTmaster ch) s = execConfigTmaster ch s := rfl
theorem exec_configTset (ch : BitVec 4) (s : State) : exec (.configTset ch) s = execConfigTset ch s := rfl
theorem exec_configRecbase (ch : BitVec 4) (s : State) : exec (.configRecbase ch) s = execConfigRecbase ch s := rfl
theorem exec_configReclen (ch : BitVec 4) (s : State) : exec (.configReclen ch) s = execConfigReclen ch s := rfl
theorem exec_configRecmode (ch : BitVec 4) (s : State) : exec (.configRecmode ch) s = execConfigRecmode ch s := rfl
theorem exec_configPcap (ch : BitVec 4) (s : State) : exec (.configPcap ch) s = execConfigPcap ch s := rfl
theorem exec_hostEventWrite (ch : BitVec 4) (s : State) : exec (.hostEventWrite ch) s = execHostEventWrite ch s := rfl
theorem exec_requestTimeout (unit : BitVec 13) (ht : BitVec 2) (s : State) : exec (.requestTimeout unit ht) s = execRequestTimeout unit ht s := rfl
theorem exec_illegalInstruction (finfo : Word) (s : State) : exec (.illegalInstruction finfo) s = execIllegalInstruction finfo s := rfl
theorem exec_emulationTrap (finfo : Word) (s : State) : exec (.emulationTrap finfo) s = execEmulationTrap finfo s := rfl
theorem exec_streamFetch (n : BitVec 2) (s : State) : exec (.streamFetch n) s = execStreamFetch n s := rfl
theorem exec_cbClaim (cl : BitVec 9) (buf : BitVec 6) (s : State) : exec (.cbClaim cl buf) s = execCbClaim cl buf s := rfl
theorem exec_cbTake (cl : BitVec 9) (buf : BitVec 6) (s : State) : exec (.cbTake cl buf) s = execCbTake cl buf s := rfl
theorem exec_remoteRequest (r : RemoteReq) (s : State) : exec (.remoteRequest r) s = execRemoteRequest r s := rfl
theorem exec_translationWalk (part : BitVec 6) (va : Word) (s : State) : exec (.translationWalk part va) s = execTranslationWalk part va s := rfl
theorem exec_policyUseExpiry (part : BitVec 6) (ix : Nat) (s : State) : exec (.policyUseExpiry part ix) s = execPolicyUseExpiry part ix s := rfl
theorem exec_waitto (eSide : Bool) (s : State) : exec (.waitto eSide) s = execWaitto eSide s := rfl
theorem exec_waitSatisfied (eSide : Bool) (s : State) : exec (.waitSatisfied eSide) s = execWaitSatisfied eSide s := rfl
theorem exec_launchPromotion (part : BitVec 6) (s : State) : exec (.launchPromotion part) s = execLaunchPromotion part s := rfl
theorem exec_readyPromotion (unit : BitVec 13) (level : BitVec 2) (s : State) : exec (.readyPromotion unit level) s = execReadyPromotion unit level s := rfl
theorem exec_rsegWrite (q : BitVec 5) (seg : BitVec 2) (val : Word) (s : State) : exec (.rsegWrite q seg val) s = execRsegWrite q seg val s := rfl
theorem exec_rcfgWrite (q : BitVec 5) (val : Word) (s : State) : exec (.rcfgWrite q val) s = execRcfgWrite q val s := rfl
theorem exec_cbcfgWrite (cl : BitVec 9) (buf : BitVec 6) (val : Word) (s : State) : exec (.cbcfgWrite cl buf val) s = execCbcfgWrite cl buf val s := rfl
theorem exec_slotTableWrite (part : BitVec 6) (off : BitVec 21) (val : Word) (s : State) : exec (.slotTableWrite part off val) s = execSlotTableWrite part off val s := rfl
theorem exec_kctlWrite (off : BitVec 21) (val : Word) (s : State) : exec (.kctlWrite off val) s = execKctlWrite off val s := rfl
theorem exec_secdbWrite (val : Tagged 64) (s : State) : exec (.secdbWrite val) s = execSecdbWrite val s := rfl
theorem exec_controlRegisterWrite (block : BitVec 13) (off : BitVec 21) (val : Word) (s : State) : exec (.controlRegisterWrite block off val) s = execControlRegisterWrite block off val s := rfl
theorem exec_qremExpiry (unit : BitVec 13) (s : State) : exec (.qremExpiry unit) s = execQremExpiry unit s := rfl
theorem exec_softerr (unit : BitVec 13) (str : BitVec 3) (addr : Word) (s : State) : exec (.softerr unit str addr) s = execSofterr unit str addr s := rfl
theorem exec_poison (site : PoisonSite) (s : State) : exec (.poison site) s = execPoison site s := rfl
theorem exec_retirement (unit : BitVec 13) (s : State) : exec (.retirement unit) s = execRetirement unit s := rfl
theorem exec_mailboxCommandWrite (ch : BitVec 4) (off : BitVec 12) (val : BitVec 512) (data : Nat) (s : State) : exec (.mailboxCommandWrite ch off val data) s = execMailboxCommandWrite ch off val data s := rfl
theorem exec_replayEntry (part : BitVec 6) (s : State) : exec (.replayEntry part) s = execReplayEntry part s := rfl
theorem exec_frequencyChange (die : BitVec 3) (util power current : BitVec 11) (s : State) : exec (.frequencyChange die util power current) s = execFrequencyChange die util power current s := rfl
theorem exec_thermalThrottle (die : BitVec 3) (tj : BitVec 8) (s : State) : exec (.thermalThrottle die tj) s = execThermalThrottle die tj s := rfl
theorem exec_thermalRelease (die : BitVec 3) (tj : BitVec 8) (s : State) : exec (.thermalRelease die tj) s = execThermalRelease die tj s := rfl
theorem exec_thermalTrip (die : BitVec 3) (tj : BitVec 8) (s : State) : exec (.thermalTrip die tj) s = execThermalTrip die tj s := rfl
theorem exec_smbusBlockRead (reg : SmbusReg) (s : State) : exec (.smbusBlockRead reg) s = execSmbusBlockRead reg s := rfl
theorem exec_externalDebuggerAccess (a : DebugAccess) (s : State) : exec (.externalDebuggerAccess a) s = execExternalDebuggerAccess a s := rfl
theorem exec_linkTraining (port : BitVec 4) (up : Bool) (s : State) : exec (.linkTraining port up) s = execLinkTraining port up s := rfl
theorem exec_nop (s : State) : exec (.nop) s = execNop s := rfl
theorem exec_exit (s : State) : exec (.exit) s = execExit s := rfl
theorem exec_wfm (s : State) : exec (.wfm) s = execWfm s := rfl
theorem exec_repbrk (s : State) : exec (.repbrk) s = execRepbrk s := rfl
theorem exec_trig (s : State) : exec (.trig) s = execTrig s := rfl
theorem exec_mrel (s : State) : exec (.mrel) s = execMrel s := rfl
theorem exec_tret (s : State) : exec (.tret) s = execTret s := rfl
theorem exec_kwipe (s : State) : exec (.kwipe) s = execKwipe s := rfl
theorem exec_gateRun (s : State) : exec (.gateRun) s = execGateRun s := rfl
theorem exec_joinDecrement (s : State) : exec (.joinDecrement) s = execJoinDecrement s := rfl
theorem exec_safePointPark (s : State) : exec (.safePointPark) s = execSafePointPark s := rfl
theorem exec_secdbRead (s : State) : exec (.secdbRead) s = execSecdbRead s := rfl
theorem exec_timeLockLoss (s : State) : exec (.timeLockLoss) s = execTimeLockLoss s := rfl
theorem exec_timeLockRegain (s : State) : exec (.timeLockRegain) s = execTimeLockRegain s := rfl
theorem exec_reset (s : State) : exec (.reset) s = execReset s := rfl
theorem exec_bringupStage (s : State) : exec (.bringupStage) s = execBringupStage s := rfl
theorem exec_smbusResetRequest (s : State) : exec (.smbusResetRequest) s = execSmbusResetRequest s := rfl

end Sys2Proof.Machine
end

