-- ==== Sys2Proof/Laws/Table.lean ====
section
/-! SUPPORT. Laws of sparse tables: reading after writing, and the order of the keys. -/

namespace Sys2Proof

@[simp] theorem Table.get?_set_self {α : Type} (t : Table α) (i : Nat) (a : α) : (t.set i a).get? i = some a := by
  induction t with
  | nil => simp [Table.set, Table.get?]
  | cons x t ih =>
    obtain ⟨k, v⟩ := x
    simp only [Table.set]
    split
    · simp [Table.get?]
    · split
      · simp [Table.get?]
      · simp [Table.get?, *]

theorem Table.get?_set_ne {α : Type} (t : Table α) {i j : Nat} (a : α) (h : j ≠ i) : (t.set i a).get? j = t.get? j := by
  induction t with
  | nil => simp [Table.set, Table.get?, Ne.symm h]
  | cons x t ih =>
    obtain ⟨k, v⟩ := x
    simp only [Table.set]
    split
    · simp [Table.get?, Ne.symm h]
    · split
      · subst_vars; simp [Table.get?, Ne.symm h]
      · simp [Table.get?, ih]

/-- Writing the same key twice leaves the second entry. -/
@[simp] theorem Table.set_set {α : Type} (t : Table α) (i : Nat) (a b : α) : (t.set i a).set i b = t.set i b := by
  induction t with
  | nil => simp [Table.set]
  | cons x t ih =>
    obtain ⟨k, v⟩ := x
    simp only [Table.set]
    split
    · simp [Table.set]
    · split
      · simp [Table.set]
      · simp [Table.set, *]

/-- Keys above a bound stay above it. -/
theorem Table.sorted_set {α : Type} (t : Table α) (i : Nat) (a : α) (h : t.sorted = true) : (t.set i a).sorted = true := by
  induction t with
  | nil => simp [Table.set, Table.sorted]
  | cons x t ih =>
    obtain ⟨k, v⟩ := x
    simp only [Table.set]
    split
    · simp_all [Table.sorted]
    · split
      · subst_vars
        cases t <;> simp_all [Table.sorted]
      · cases t with
        | nil => simp [Table.set, Table.sorted]; omega
        | cons y t =>
          obtain ⟨l, w⟩ := y
          simp only [Table.sorted, Bool.and_eq_true, decide_eq_true_eq] at h
          have := ih h.2
          simp only [Table.set] at this ⊢
          split at this <;> split <;> simp_all [Table.sorted] <;> try omega
          split at this <;> split <;> simp_all [Table.sorted] <;> omega

end Sys2Proof
end

