-- ==== Sys2Proof/Laws/State.lean ====
section
/-! SUPPORT. What each update of the state leaves alone, one lemma a field; what an accessor gives after its own update;
and what the reads of the running thread give after the updates of it. -/

namespace Sys2Proof.Machine

/-! ### setThread -/

@[simp] theorem State.setThread_cur (s : State) (t : ThreadId) (x : Thread) : (s.setThread t x).cur = s.cur := rfl
@[simp] theorem State.setThread_latch (s : State) (t : ThreadId) (x : Thread) : (s.setThread t x).latch = s.latch := rfl
@[simp] theorem State.setThread_agenda (s : State) (t : ThreadId) (x : Thread) : (s.setThread t x).agenda = s.agenda := rfl
@[simp] theorem State.setThread_now (s : State) (t : ThreadId) (x : Thread) : (s.setThread t x).now = s.now := rfl
@[simp] theorem State.setThread_rota (s : State) (t : ThreadId) (x : Thread) : (s.setThread t x).rota = s.rota := rfl
@[simp] theorem State.setThread_free (s : State) (t : ThreadId) (x : Thread) : (s.setThread t x).free = s.free := rfl
@[simp] theorem State.setThread_code (s : State) (t : ThreadId) (x : Thread) : (s.setThread t x).code = s.code := rfl
@[simp] theorem State.setThread_mem (s : State) (t : ThreadId) (x : Thread) : (s.setThread t x).mem = s.mem := rfl
@[simp] theorem State.setThread_cores (s : State) (t : ThreadId) (x : Thread) : (s.setThread t x).cores = s.cores := rfl
@[simp] theorem State.setThread_clusters (s : State) (t : ThreadId) (x : Thread) : (s.setThread t x).clusters = s.clusters := rfl
@[simp] theorem State.setThread_engines (s : State) (t : ThreadId) (x : Thread) : (s.setThread t x).engines = s.engines := rfl
@[simp] theorem State.setThread_quads (s : State) (t : ThreadId) (x : Thread) : (s.setThread t x).quads = s.quads := rfl
@[simp] theorem State.setThread_ready (s : State) (t : ThreadId) (x : Thread) : (s.setThread t x).ready = s.ready := rfl
@[simp] theorem State.setThread_parts (s : State) (t : ThreadId) (x : Thread) : (s.setThread t x).parts = s.parts := rfl
@[simp] theorem State.setThread_launches (s : State) (t : ThreadId) (x : Thread) : (s.setThread t x).launches = s.launches := rfl
@[simp] theorem State.setThread_groups (s : State) (t : ThreadId) (x : Thread) : (s.setThread t x).groups = s.groups := rfl
@[simp] theorem State.setThread_decs (s : State) (t : ThreadId) (x : Thread) : (s.setThread t x).decs = s.decs := rfl
@[simp] theorem State.setThread_sends (s : State) (t : ThreadId) (x : Thread) : (s.setThread t x).sends = s.sends := rfl
@[simp] theorem State.setThread_mails (s : State) (t : ThreadId) (x : Thread) : (s.setThread t x).mails = s.mails := rfl
@[simp] theorem State.setThread_xlats (s : State) (t : ThreadId) (x : Thread) : (s.setThread t x).xlats = s.xlats := rfl
@[simp] theorem State.setThread_dies (s : State) (t : ThreadId) (x : Thread) : (s.setThread t x).dies = s.dies := rfl
@[simp] theorem State.setThread_channels (s : State) (t : ThreadId) (x : Thread) : (s.setThread t x).channels = s.channels := rfl
@[simp] theorem State.setThread_gate (s : State) (t : ThreadId) (x : Thread) : (s.setThread t x).gate = s.gate := rfl
@[simp] theorem State.setThread_sec (s : State) (t : ThreadId) (x : Thread) : (s.setThread t x).sec = s.sec := rfl
@[simp] theorem State.setThread_pkg (s : State) (t : ThreadId) (x : Thread) : (s.setThread t x).pkg = s.pkg := rfl

/-! ### setMe -/

@[simp] theorem State.setMe_cur (s : State) (x : Thread) : (s.setMe x).cur = s.cur := rfl
@[simp] theorem State.setMe_latch (s : State) (x : Thread) : (s.setMe x).latch = s.latch := rfl
@[simp] theorem State.setMe_agenda (s : State) (x : Thread) : (s.setMe x).agenda = s.agenda := rfl
@[simp] theorem State.setMe_now (s : State) (x : Thread) : (s.setMe x).now = s.now := rfl
@[simp] theorem State.setMe_rota (s : State) (x : Thread) : (s.setMe x).rota = s.rota := rfl
@[simp] theorem State.setMe_free (s : State) (x : Thread) : (s.setMe x).free = s.free := rfl
@[simp] theorem State.setMe_code (s : State) (x : Thread) : (s.setMe x).code = s.code := rfl
@[simp] theorem State.setMe_mem (s : State) (x : Thread) : (s.setMe x).mem = s.mem := rfl
@[simp] theorem State.setMe_cores (s : State) (x : Thread) : (s.setMe x).cores = s.cores := rfl
@[simp] theorem State.setMe_clusters (s : State) (x : Thread) : (s.setMe x).clusters = s.clusters := rfl
@[simp] theorem State.setMe_engines (s : State) (x : Thread) : (s.setMe x).engines = s.engines := rfl
@[simp] theorem State.setMe_quads (s : State) (x : Thread) : (s.setMe x).quads = s.quads := rfl
@[simp] theorem State.setMe_ready (s : State) (x : Thread) : (s.setMe x).ready = s.ready := rfl
@[simp] theorem State.setMe_parts (s : State) (x : Thread) : (s.setMe x).parts = s.parts := rfl
@[simp] theorem State.setMe_launches (s : State) (x : Thread) : (s.setMe x).launches = s.launches := rfl
@[simp] theorem State.setMe_groups (s : State) (x : Thread) : (s.setMe x).groups = s.groups := rfl
@[simp] theorem State.setMe_decs (s : State) (x : Thread) : (s.setMe x).decs = s.decs := rfl
@[simp] theorem State.setMe_sends (s : State) (x : Thread) : (s.setMe x).sends = s.sends := rfl
@[simp] theorem State.setMe_mails (s : State) (x : Thread) : (s.setMe x).mails = s.mails := rfl
@[simp] theorem State.setMe_xlats (s : State) (x : Thread) : (s.setMe x).xlats = s.xlats := rfl
@[simp] theorem State.setMe_dies (s : State) (x : Thread) : (s.setMe x).dies = s.dies := rfl
@[simp] theorem State.setMe_channels (s : State) (x : Thread) : (s.setMe x).channels = s.channels := rfl
@[simp] theorem State.setMe_gate (s : State) (x : Thread) : (s.setMe x).gate = s.gate := rfl
@[simp] theorem State.setMe_sec (s : State) (x : Thread) : (s.setMe x).sec = s.sec := rfl
@[simp] theorem State.setMe_pkg (s : State) (x : Thread) : (s.setMe x).pkg = s.pkg := rfl

/-! ### setCore -/

@[simp] theorem State.setCore_threads (s : State) (u : Nat) (c : CoreState) : (s.setCore u c).threads = s.threads := rfl
@[simp] theorem State.setCore_cur (s : State) (u : Nat) (c : CoreState) : (s.setCore u c).cur = s.cur := rfl
@[simp] theorem State.setCore_latch (s : State) (u : Nat) (c : CoreState) : (s.setCore u c).latch = s.latch := rfl
@[simp] theorem State.setCore_agenda (s : State) (u : Nat) (c : CoreState) : (s.setCore u c).agenda = s.agenda := rfl
@[simp] theorem State.setCore_now (s : State) (u : Nat) (c : CoreState) : (s.setCore u c).now = s.now := rfl
@[simp] theorem State.setCore_rota (s : State) (u : Nat) (c : CoreState) : (s.setCore u c).rota = s.rota := rfl
@[simp] theorem State.setCore_free (s : State) (u : Nat) (c : CoreState) : (s.setCore u c).free = s.free := rfl
@[simp] theorem State.setCore_code (s : State) (u : Nat) (c : CoreState) : (s.setCore u c).code = s.code := rfl
@[simp] theorem State.setCore_mem (s : State) (u : Nat) (c : CoreState) : (s.setCore u c).mem = s.mem := rfl
@[simp] theorem State.setCore_clusters (s : State) (u : Nat) (c : CoreState) : (s.setCore u c).clusters = s.clusters := rfl
@[simp] theorem State.setCore_engines (s : State) (u : Nat) (c : CoreState) : (s.setCore u c).engines = s.engines := rfl
@[simp] theorem State.setCore_quads (s : State) (u : Nat) (c : CoreState) : (s.setCore u c).quads = s.quads := rfl
@[simp] theorem State.setCore_ready (s : State) (u : Nat) (c : CoreState) : (s.setCore u c).ready = s.ready := rfl
@[simp] theorem State.setCore_parts (s : State) (u : Nat) (c : CoreState) : (s.setCore u c).parts = s.parts := rfl
@[simp] theorem State.setCore_launches (s : State) (u : Nat) (c : CoreState) : (s.setCore u c).launches = s.launches := rfl
@[simp] theorem State.setCore_groups (s : State) (u : Nat) (c : CoreState) : (s.setCore u c).groups = s.groups := rfl
@[simp] theorem State.setCore_decs (s : State) (u : Nat) (c : CoreState) : (s.setCore u c).decs = s.decs := rfl
@[simp] theorem State.setCore_sends (s : State) (u : Nat) (c : CoreState) : (s.setCore u c).sends = s.sends := rfl
@[simp] theorem State.setCore_mails (s : State) (u : Nat) (c : CoreState) : (s.setCore u c).mails = s.mails := rfl
@[simp] theorem State.setCore_xlats (s : State) (u : Nat) (c : CoreState) : (s.setCore u c).xlats = s.xlats := rfl
@[simp] theorem State.setCore_dies (s : State) (u : Nat) (c : CoreState) : (s.setCore u c).dies = s.dies := rfl
@[simp] theorem State.setCore_channels (s : State) (u : Nat) (c : CoreState) : (s.setCore u c).channels = s.channels := rfl
@[simp] theorem State.setCore_gate (s : State) (u : Nat) (c : CoreState) : (s.setCore u c).gate = s.gate := rfl
@[simp] theorem State.setCore_sec (s : State) (u : Nat) (c : CoreState) : (s.setCore u c).sec = s.sec := rfl
@[simp] theorem State.setCore_pkg (s : State) (u : Nat) (c : CoreState) : (s.setCore u c).pkg = s.pkg := rfl

/-! ### setCtxSet -/

@[simp] theorem State.setCtxSet_threads (s : State) (u i : Nat) (x : CtxSet) : (s.setCtxSet u i x).threads = s.threads := rfl
@[simp] theorem State.setCtxSet_cur (s : State) (u i : Nat) (x : CtxSet) : (s.setCtxSet u i x).cur = s.cur := rfl
@[simp] theorem State.setCtxSet_latch (s : State) (u i : Nat) (x : CtxSet) : (s.setCtxSet u i x).latch = s.latch := rfl
@[simp] theorem State.setCtxSet_agenda (s : State) (u i : Nat) (x : CtxSet) : (s.setCtxSet u i x).agenda = s.agenda := rfl
@[simp] theorem State.setCtxSet_now (s : State) (u i : Nat) (x : CtxSet) : (s.setCtxSet u i x).now = s.now := rfl
@[simp] theorem State.setCtxSet_rota (s : State) (u i : Nat) (x : CtxSet) : (s.setCtxSet u i x).rota = s.rota := rfl
@[simp] theorem State.setCtxSet_free (s : State) (u i : Nat) (x : CtxSet) : (s.setCtxSet u i x).free = s.free := rfl
@[simp] theorem State.setCtxSet_code (s : State) (u i : Nat) (x : CtxSet) : (s.setCtxSet u i x).code = s.code := rfl
@[simp] theorem State.setCtxSet_mem (s : State) (u i : Nat) (x : CtxSet) : (s.setCtxSet u i x).mem = s.mem := rfl
@[simp] theorem State.setCtxSet_clusters (s : State) (u i : Nat) (x : CtxSet) : (s.setCtxSet u i x).clusters = s.clusters := rfl
@[simp] theorem State.setCtxSet_engines (s : State) (u i : Nat) (x : CtxSet) : (s.setCtxSet u i x).engines = s.engines := rfl
@[simp] theorem State.setCtxSet_quads (s : State) (u i : Nat) (x : CtxSet) : (s.setCtxSet u i x).quads = s.quads := rfl
@[simp] theorem State.setCtxSet_ready (s : State) (u i : Nat) (x : CtxSet) : (s.setCtxSet u i x).ready = s.ready := rfl
@[simp] theorem State.setCtxSet_parts (s : State) (u i : Nat) (x : CtxSet) : (s.setCtxSet u i x).parts = s.parts := rfl
@[simp] theorem State.setCtxSet_launches (s : State) (u i : Nat) (x : CtxSet) : (s.setCtxSet u i x).launches = s.launches := rfl
@[simp] theorem State.setCtxSet_groups (s : State) (u i : Nat) (x : CtxSet) : (s.setCtxSet u i x).groups = s.groups := rfl
@[simp] theorem State.setCtxSet_decs (s : State) (u i : Nat) (x : CtxSet) : (s.setCtxSet u i x).decs = s.decs := rfl
@[simp] theorem State.setCtxSet_sends (s : State) (u i : Nat) (x : CtxSet) : (s.setCtxSet u i x).sends = s.sends := rfl
@[simp] theorem State.setCtxSet_mails (s : State) (u i : Nat) (x : CtxSet) : (s.setCtxSet u i x).mails = s.mails := rfl
@[simp] theorem State.setCtxSet_xlats (s : State) (u i : Nat) (x : CtxSet) : (s.setCtxSet u i x).xlats = s.xlats := rfl
@[simp] theorem State.setCtxSet_dies (s : State) (u i : Nat) (x : CtxSet) : (s.setCtxSet u i x).dies = s.dies := rfl
@[simp] theorem State.setCtxSet_channels (s : State) (u i : Nat) (x : CtxSet) : (s.setCtxSet u i x).channels = s.channels := rfl
@[simp] theorem State.setCtxSet_gate (s : State) (u i : Nat) (x : CtxSet) : (s.setCtxSet u i x).gate = s.gate := rfl
@[simp] theorem State.setCtxSet_sec (s : State) (u i : Nat) (x : CtxSet) : (s.setCtxSet u i x).sec = s.sec := rfl
@[simp] theorem State.setCtxSet_pkg (s : State) (u i : Nat) (x : CtxSet) : (s.setCtxSet u i x).pkg = s.pkg := rfl

/-! ### setCluster -/

@[simp] theorem State.setCluster_threads (s : State) (j : Nat) (c : Cluster) : (s.setCluster j c).threads = s.threads := rfl
@[simp] theorem State.setCluster_cur (s : State) (j : Nat) (c : Cluster) : (s.setCluster j c).cur = s.cur := rfl
@[simp] theorem State.setCluster_latch (s : State) (j : Nat) (c : Cluster) : (s.setCluster j c).latch = s.latch := rfl
@[simp] theorem State.setCluster_agenda (s : State) (j : Nat) (c : Cluster) : (s.setCluster j c).agenda = s.agenda := rfl
@[simp] theorem State.setCluster_now (s : State) (j : Nat) (c : Cluster) : (s.setCluster j c).now = s.now := rfl
@[simp] theorem State.setCluster_rota (s : State) (j : Nat) (c : Cluster) : (s.setCluster j c).rota = s.rota := rfl
@[simp] theorem State.setCluster_free (s : State) (j : Nat) (c : Cluster) : (s.setCluster j c).free = s.free := rfl
@[simp] theorem State.setCluster_code (s : State) (j : Nat) (c : Cluster) : (s.setCluster j c).code = s.code := rfl
@[simp] theorem State.setCluster_mem (s : State) (j : Nat) (c : Cluster) : (s.setCluster j c).mem = s.mem := rfl
@[simp] theorem State.setCluster_cores (s : State) (j : Nat) (c : Cluster) : (s.setCluster j c).cores = s.cores := rfl
@[simp] theorem State.setCluster_engines (s : State) (j : Nat) (c : Cluster) : (s.setCluster j c).engines = s.engines := rfl
@[simp] theorem State.setCluster_quads (s : State) (j : Nat) (c : Cluster) : (s.setCluster j c).quads = s.quads := rfl
@[simp] theorem State.setCluster_ready (s : State) (j : Nat) (c : Cluster) : (s.setCluster j c).ready = s.ready := rfl
@[simp] theorem State.setCluster_parts (s : State) (j : Nat) (c : Cluster) : (s.setCluster j c).parts = s.parts := rfl
@[simp] theorem State.setCluster_launches (s : State) (j : Nat) (c : Cluster) : (s.setCluster j c).launches = s.launches := rfl
@[simp] theorem State.setCluster_groups (s : State) (j : Nat) (c : Cluster) : (s.setCluster j c).groups = s.groups := rfl
@[simp] theorem State.setCluster_decs (s : State) (j : Nat) (c : Cluster) : (s.setCluster j c).decs = s.decs := rfl
@[simp] theorem State.setCluster_sends (s : State) (j : Nat) (c : Cluster) : (s.setCluster j c).sends = s.sends := rfl
@[simp] theorem State.setCluster_mails (s : State) (j : Nat) (c : Cluster) : (s.setCluster j c).mails = s.mails := rfl
@[simp] theorem State.setCluster_xlats (s : State) (j : Nat) (c : Cluster) : (s.setCluster j c).xlats = s.xlats := rfl
@[simp] theorem State.setCluster_dies (s : State) (j : Nat) (c : Cluster) : (s.setCluster j c).dies = s.dies := rfl
@[simp] theorem State.setCluster_channels (s : State) (j : Nat) (c : Cluster) : (s.setCluster j c).channels = s.channels := rfl
@[simp] theorem State.setCluster_gate (s : State) (j : Nat) (c : Cluster) : (s.setCluster j c).gate = s.gate := rfl
@[simp] theorem State.setCluster_sec (s : State) (j : Nat) (c : Cluster) : (s.setCluster j c).sec = s.sec := rfl
@[simp] theorem State.setCluster_pkg (s : State) (j : Nat) (c : Cluster) : (s.setCluster j c).pkg = s.pkg := rfl

/-! ### setEng -/

@[simp] theorem State.setEng_threads (s : State) (u : Nat) (e : Engines) : (s.setEng u e).threads = s.threads := rfl
@[simp] theorem State.setEng_cur (s : State) (u : Nat) (e : Engines) : (s.setEng u e).cur = s.cur := rfl
@[simp] theorem State.setEng_latch (s : State) (u : Nat) (e : Engines) : (s.setEng u e).latch = s.latch := rfl
@[simp] theorem State.setEng_agenda (s : State) (u : Nat) (e : Engines) : (s.setEng u e).agenda = s.agenda := rfl
@[simp] theorem State.setEng_now (s : State) (u : Nat) (e : Engines) : (s.setEng u e).now = s.now := rfl
@[simp] theorem State.setEng_rota (s : State) (u : Nat) (e : Engines) : (s.setEng u e).rota = s.rota := rfl
@[simp] theorem State.setEng_free (s : State) (u : Nat) (e : Engines) : (s.setEng u e).free = s.free := rfl
@[simp] theorem State.setEng_code (s : State) (u : Nat) (e : Engines) : (s.setEng u e).code = s.code := rfl
@[simp] theorem State.setEng_mem (s : State) (u : Nat) (e : Engines) : (s.setEng u e).mem = s.mem := rfl
@[simp] theorem State.setEng_cores (s : State) (u : Nat) (e : Engines) : (s.setEng u e).cores = s.cores := rfl
@[simp] theorem State.setEng_clusters (s : State) (u : Nat) (e : Engines) : (s.setEng u e).clusters = s.clusters := rfl
@[simp] theorem State.setEng_quads (s : State) (u : Nat) (e : Engines) : (s.setEng u e).quads = s.quads := rfl
@[simp] theorem State.setEng_ready (s : State) (u : Nat) (e : Engines) : (s.setEng u e).ready = s.ready := rfl
@[simp] theorem State.setEng_parts (s : State) (u : Nat) (e : Engines) : (s.setEng u e).parts = s.parts := rfl
@[simp] theorem State.setEng_launches (s : State) (u : Nat) (e : Engines) : (s.setEng u e).launches = s.launches := rfl
@[simp] theorem State.setEng_groups (s : State) (u : Nat) (e : Engines) : (s.setEng u e).groups = s.groups := rfl
@[simp] theorem State.setEng_decs (s : State) (u : Nat) (e : Engines) : (s.setEng u e).decs = s.decs := rfl
@[simp] theorem State.setEng_sends (s : State) (u : Nat) (e : Engines) : (s.setEng u e).sends = s.sends := rfl
@[simp] theorem State.setEng_mails (s : State) (u : Nat) (e : Engines) : (s.setEng u e).mails = s.mails := rfl
@[simp] theorem State.setEng_xlats (s : State) (u : Nat) (e : Engines) : (s.setEng u e).xlats = s.xlats := rfl
@[simp] theorem State.setEng_dies (s : State) (u : Nat) (e : Engines) : (s.setEng u e).dies = s.dies := rfl
@[simp] theorem State.setEng_channels (s : State) (u : Nat) (e : Engines) : (s.setEng u e).channels = s.channels := rfl
@[simp] theorem State.setEng_gate (s : State) (u : Nat) (e : Engines) : (s.setEng u e).gate = s.gate := rfl
@[simp] theorem State.setEng_sec (s : State) (u : Nat) (e : Engines) : (s.setEng u e).sec = s.sec := rfl
@[simp] theorem State.setEng_pkg (s : State) (u : Nat) (e : Engines) : (s.setEng u e).pkg = s.pkg := rfl

/-! ### setQuad -/

@[simp] theorem State.setQuad_threads (s : State) (q : Nat) (x : Quadrant) : (s.setQuad q x).threads = s.threads := rfl
@[simp] theorem State.setQuad_cur (s : State) (q : Nat) (x : Quadrant) : (s.setQuad q x).cur = s.cur := rfl
@[simp] theorem State.setQuad_latch (s : State) (q : Nat) (x : Quadrant) : (s.setQuad q x).latch = s.latch := rfl
@[simp] theorem State.setQuad_agenda (s : State) (q : Nat) (x : Quadrant) : (s.setQuad q x).agenda = s.agenda := rfl
@[simp] theorem State.setQuad_now (s : State) (q : Nat) (x : Quadrant) : (s.setQuad q x).now = s.now := rfl
@[simp] theorem State.setQuad_rota (s : State) (q : Nat) (x : Quadrant) : (s.setQuad q x).rota = s.rota := rfl
@[simp] theorem State.setQuad_free (s : State) (q : Nat) (x : Quadrant) : (s.setQuad q x).free = s.free := rfl
@[simp] theorem State.setQuad_code (s : State) (q : Nat) (x : Quadrant) : (s.setQuad q x).code = s.code := rfl
@[simp] theorem State.setQuad_mem (s : State) (q : Nat) (x : Quadrant) : (s.setQuad q x).mem = s.mem := rfl
@[simp] theorem State.setQuad_cores (s : State) (q : Nat) (x : Quadrant) : (s.setQuad q x).cores = s.cores := rfl
@[simp] theorem State.setQuad_clusters (s : State) (q : Nat) (x : Quadrant) : (s.setQuad q x).clusters = s.clusters := rfl
@[simp] theorem State.setQuad_engines (s : State) (q : Nat) (x : Quadrant) : (s.setQuad q x).engines = s.engines := rfl
@[simp] theorem State.setQuad_ready (s : State) (q : Nat) (x : Quadrant) : (s.setQuad q x).ready = s.ready := rfl
@[simp] theorem State.setQuad_parts (s : State) (q : Nat) (x : Quadrant) : (s.setQuad q x).parts = s.parts := rfl
@[simp] theorem State.setQuad_launches (s : State) (q : Nat) (x : Quadrant) : (s.setQuad q x).launches = s.launches := rfl
@[simp] theorem State.setQuad_groups (s : State) (q : Nat) (x : Quadrant) : (s.setQuad q x).groups = s.groups := rfl
@[simp] theorem State.setQuad_decs (s : State) (q : Nat) (x : Quadrant) : (s.setQuad q x).decs = s.decs := rfl
@[simp] theorem State.setQuad_sends (s : State) (q : Nat) (x : Quadrant) : (s.setQuad q x).sends = s.sends := rfl
@[simp] theorem State.setQuad_mails (s : State) (q : Nat) (x : Quadrant) : (s.setQuad q x).mails = s.mails := rfl
@[simp] theorem State.setQuad_xlats (s : State) (q : Nat) (x : Quadrant) : (s.setQuad q x).xlats = s.xlats := rfl
@[simp] theorem State.setQuad_dies (s : State) (q : Nat) (x : Quadrant) : (s.setQuad q x).dies = s.dies := rfl
@[simp] theorem State.setQuad_channels (s : State) (q : Nat) (x : Quadrant) : (s.setQuad q x).channels = s.channels := rfl
@[simp] theorem State.setQuad_gate (s : State) (q : Nat) (x : Quadrant) : (s.setQuad q x).gate = s.gate := rfl
@[simp] theorem State.setQuad_sec (s : State) (q : Nat) (x : Quadrant) : (s.setQuad q x).sec = s.sec := rfl
@[simp] theorem State.setQuad_pkg (s : State) (q : Nat) (x : Quadrant) : (s.setQuad q x).pkg = s.pkg := rfl

/-! ### setReady -/

@[simp] theorem State.setReady_threads (s : State) (u : Nat) (r : ReadyQueue) : (s.setReady u r).threads = s.threads := rfl
@[simp] theorem State.setReady_cur (s : State) (u : Nat) (r : ReadyQueue) : (s.setReady u r).cur = s.cur := rfl
@[simp] theorem State.setReady_latch (s : State) (u : Nat) (r : ReadyQueue) : (s.setReady u r).latch = s.latch := rfl
@[simp] theorem State.setReady_agenda (s : State) (u : Nat) (r : ReadyQueue) : (s.setReady u r).agenda = s.agenda := rfl
@[simp] theorem State.setReady_now (s : State) (u : Nat) (r : ReadyQueue) : (s.setReady u r).now = s.now := rfl
@[simp] theorem State.setReady_rota (s : State) (u : Nat) (r : ReadyQueue) : (s.setReady u r).rota = s.rota := rfl
@[simp] theorem State.setReady_free (s : State) (u : Nat) (r : ReadyQueue) : (s.setReady u r).free = s.free := rfl
@[simp] theorem State.setReady_code (s : State) (u : Nat) (r : ReadyQueue) : (s.setReady u r).code = s.code := rfl
@[simp] theorem State.setReady_mem (s : State) (u : Nat) (r : ReadyQueue) : (s.setReady u r).mem = s.mem := rfl
@[simp] theorem State.setReady_cores (s : State) (u : Nat) (r : ReadyQueue) : (s.setReady u r).cores = s.cores := rfl
@[simp] theorem State.setReady_clusters (s : State) (u : Nat) (r : ReadyQueue) : (s.setReady u r).clusters = s.clusters := rfl
@[simp] theorem State.setReady_engines (s : State) (u : Nat) (r : ReadyQueue) : (s.setReady u r).engines = s.engines := rfl
@[simp] theorem State.setReady_quads (s : State) (u : Nat) (r : ReadyQueue) : (s.setReady u r).quads = s.quads := rfl
@[simp] theorem State.setReady_parts (s : State) (u : Nat) (r : ReadyQueue) : (s.setReady u r).parts = s.parts := rfl
@[simp] theorem State.setReady_launches (s : State) (u : Nat) (r : ReadyQueue) : (s.setReady u r).launches = s.launches := rfl
@[simp] theorem State.setReady_groups (s : State) (u : Nat) (r : ReadyQueue) : (s.setReady u r).groups = s.groups := rfl
@[simp] theorem State.setReady_decs (s : State) (u : Nat) (r : ReadyQueue) : (s.setReady u r).decs = s.decs := rfl
@[simp] theorem State.setReady_sends (s : State) (u : Nat) (r : ReadyQueue) : (s.setReady u r).sends = s.sends := rfl
@[simp] theorem State.setReady_mails (s : State) (u : Nat) (r : ReadyQueue) : (s.setReady u r).mails = s.mails := rfl
@[simp] theorem State.setReady_xlats (s : State) (u : Nat) (r : ReadyQueue) : (s.setReady u r).xlats = s.xlats := rfl
@[simp] theorem State.setReady_dies (s : State) (u : Nat) (r : ReadyQueue) : (s.setReady u r).dies = s.dies := rfl
@[simp] theorem State.setReady_channels (s : State) (u : Nat) (r : ReadyQueue) : (s.setReady u r).channels = s.channels := rfl
@[simp] theorem State.setReady_gate (s : State) (u : Nat) (r : ReadyQueue) : (s.setReady u r).gate = s.gate := rfl
@[simp] theorem State.setReady_sec (s : State) (u : Nat) (r : ReadyQueue) : (s.setReady u r).sec = s.sec := rfl
@[simp] theorem State.setReady_pkg (s : State) (u : Nat) (r : ReadyQueue) : (s.setReady u r).pkg = s.pkg := rfl

/-! ### setPart -/

@[simp] theorem State.setPart_threads (s : State) (p : Nat) (x : Partition) : (s.setPart p x).threads = s.threads := rfl
@[simp] theorem State.setPart_cur (s : State) (p : Nat) (x : Partition) : (s.setPart p x).cur = s.cur := rfl
@[simp] theorem State.setPart_latch (s : State) (p : Nat) (x : Partition) : (s.setPart p x).latch = s.latch := rfl
@[simp] theorem State.setPart_agenda (s : State) (p : Nat) (x : Partition) : (s.setPart p x).agenda = s.agenda := rfl
@[simp] theorem State.setPart_now (s : State) (p : Nat) (x : Partition) : (s.setPart p x).now = s.now := rfl
@[simp] theorem State.setPart_rota (s : State) (p : Nat) (x : Partition) : (s.setPart p x).rota = s.rota := rfl
@[simp] theorem State.setPart_free (s : State) (p : Nat) (x : Partition) : (s.setPart p x).free = s.free := rfl
@[simp] theorem State.setPart_code (s : State) (p : Nat) (x : Partition) : (s.setPart p x).code = s.code := rfl
@[simp] theorem State.setPart_mem (s : State) (p : Nat) (x : Partition) : (s.setPart p x).mem = s.mem := rfl
@[simp] theorem State.setPart_cores (s : State) (p : Nat) (x : Partition) : (s.setPart p x).cores = s.cores := rfl
@[simp] theorem State.setPart_clusters (s : State) (p : Nat) (x : Partition) : (s.setPart p x).clusters = s.clusters := rfl
@[simp] theorem State.setPart_engines (s : State) (p : Nat) (x : Partition) : (s.setPart p x).engines = s.engines := rfl
@[simp] theorem State.setPart_quads (s : State) (p : Nat) (x : Partition) : (s.setPart p x).quads = s.quads := rfl
@[simp] theorem State.setPart_ready (s : State) (p : Nat) (x : Partition) : (s.setPart p x).ready = s.ready := rfl
@[simp] theorem State.setPart_launches (s : State) (p : Nat) (x : Partition) : (s.setPart p x).launches = s.launches := rfl
@[simp] theorem State.setPart_groups (s : State) (p : Nat) (x : Partition) : (s.setPart p x).groups = s.groups := rfl
@[simp] theorem State.setPart_decs (s : State) (p : Nat) (x : Partition) : (s.setPart p x).decs = s.decs := rfl
@[simp] theorem State.setPart_sends (s : State) (p : Nat) (x : Partition) : (s.setPart p x).sends = s.sends := rfl
@[simp] theorem State.setPart_mails (s : State) (p : Nat) (x : Partition) : (s.setPart p x).mails = s.mails := rfl
@[simp] theorem State.setPart_xlats (s : State) (p : Nat) (x : Partition) : (s.setPart p x).xlats = s.xlats := rfl
@[simp] theorem State.setPart_dies (s : State) (p : Nat) (x : Partition) : (s.setPart p x).dies = s.dies := rfl
@[simp] theorem State.setPart_channels (s : State) (p : Nat) (x : Partition) : (s.setPart p x).channels = s.channels := rfl
@[simp] theorem State.setPart_gate (s : State) (p : Nat) (x : Partition) : (s.setPart p x).gate = s.gate := rfl
@[simp] theorem State.setPart_sec (s : State) (p : Nat) (x : Partition) : (s.setPart p x).sec = s.sec := rfl
@[simp] theorem State.setPart_pkg (s : State) (p : Nat) (x : Partition) : (s.setPart p x).pkg = s.pkg := rfl

/-! ### setDie -/

@[simp] theorem State.setDie_threads (s : State) (d : Nat) (x : Die) : (s.setDie d x).threads = s.threads := rfl
@[simp] theorem State.setDie_cur (s : State) (d : Nat) (x : Die) : (s.setDie d x).cur = s.cur := rfl
@[simp] theorem State.setDie_latch (s : State) (d : Nat) (x : Die) : (s.setDie d x).latch = s.latch := rfl
@[simp] theorem State.setDie_agenda (s : State) (d : Nat) (x : Die) : (s.setDie d x).agenda = s.agenda := rfl
@[simp] theorem State.setDie_now (s : State) (d : Nat) (x : Die) : (s.setDie d x).now = s.now := rfl
@[simp] theorem State.setDie_rota (s : State) (d : Nat) (x : Die) : (s.setDie d x).rota = s.rota := rfl
@[simp] theorem State.setDie_free (s : State) (d : Nat) (x : Die) : (s.setDie d x).free = s.free := rfl
@[simp] theorem State.setDie_code (s : State) (d : Nat) (x : Die) : (s.setDie d x).code = s.code := rfl
@[simp] theorem State.setDie_mem (s : State) (d : Nat) (x : Die) : (s.setDie d x).mem = s.mem := rfl
@[simp] theorem State.setDie_cores (s : State) (d : Nat) (x : Die) : (s.setDie d x).cores = s.cores := rfl
@[simp] theorem State.setDie_clusters (s : State) (d : Nat) (x : Die) : (s.setDie d x).clusters = s.clusters := rfl
@[simp] theorem State.setDie_engines (s : State) (d : Nat) (x : Die) : (s.setDie d x).engines = s.engines := rfl
@[simp] theorem State.setDie_quads (s : State) (d : Nat) (x : Die) : (s.setDie d x).quads = s.quads := rfl
@[simp] theorem State.setDie_ready (s : State) (d : Nat) (x : Die) : (s.setDie d x).ready = s.ready := rfl
@[simp] theorem State.setDie_parts (s : State) (d : Nat) (x : Die) : (s.setDie d x).parts = s.parts := rfl
@[simp] theorem State.setDie_launches (s : State) (d : Nat) (x : Die) : (s.setDie d x).launches = s.launches := rfl
@[simp] theorem State.setDie_groups (s : State) (d : Nat) (x : Die) : (s.setDie d x).groups = s.groups := rfl
@[simp] theorem State.setDie_decs (s : State) (d : Nat) (x : Die) : (s.setDie d x).decs = s.decs := rfl
@[simp] theorem State.setDie_sends (s : State) (d : Nat) (x : Die) : (s.setDie d x).sends = s.sends := rfl
@[simp] theorem State.setDie_mails (s : State) (d : Nat) (x : Die) : (s.setDie d x).mails = s.mails := rfl
@[simp] theorem State.setDie_xlats (s : State) (d : Nat) (x : Die) : (s.setDie d x).xlats = s.xlats := rfl
@[simp] theorem State.setDie_channels (s : State) (d : Nat) (x : Die) : (s.setDie d x).channels = s.channels := rfl
@[simp] theorem State.setDie_gate (s : State) (d : Nat) (x : Die) : (s.setDie d x).gate = s.gate := rfl
@[simp] theorem State.setDie_sec (s : State) (d : Nat) (x : Die) : (s.setDie d x).sec = s.sec := rfl
@[simp] theorem State.setDie_pkg (s : State) (d : Nat) (x : Die) : (s.setDie d x).pkg = s.pkg := rfl

/-! ### setChannel -/

@[simp] theorem State.setChannel_threads (s : State) (c : Nat) (x : Channel) : (s.setChannel c x).threads = s.threads := rfl
@[simp] theorem State.setChannel_cur (s : State) (c : Nat) (x : Channel) : (s.setChannel c x).cur = s.cur := rfl
@[simp] theorem State.setChannel_latch (s : State) (c : Nat) (x : Channel) : (s.setChannel c x).latch = s.latch := rfl
@[simp] theorem State.setChannel_agenda (s : State) (c : Nat) (x : Channel) : (s.setChannel c x).agenda = s.agenda := rfl
@[simp] theorem State.setChannel_now (s : State) (c : Nat) (x : Channel) : (s.setChannel c x).now = s.now := rfl
@[simp] theorem State.setChannel_rota (s : State) (c : Nat) (x : Channel) : (s.setChannel c x).rota = s.rota := rfl
@[simp] theorem State.setChannel_free (s : State) (c : Nat) (x : Channel) : (s.setChannel c x).free = s.free := rfl
@[simp] theorem State.setChannel_code (s : State) (c : Nat) (x : Channel) : (s.setChannel c x).code = s.code := rfl
@[simp] theorem State.setChannel_mem (s : State) (c : Nat) (x : Channel) : (s.setChannel c x).mem = s.mem := rfl
@[simp] theorem State.setChannel_cores (s : State) (c : Nat) (x : Channel) : (s.setChannel c x).cores = s.cores := rfl
@[simp] theorem State.setChannel_clusters (s : State) (c : Nat) (x : Channel) : (s.setChannel c x).clusters = s.clusters := rfl
@[simp] theorem State.setChannel_engines (s : State) (c : Nat) (x : Channel) : (s.setChannel c x).engines = s.engines := rfl
@[simp] theorem State.setChannel_quads (s : State) (c : Nat) (x : Channel) : (s.setChannel c x).quads = s.quads := rfl
@[simp] theorem State.setChannel_ready (s : State) (c : Nat) (x : Channel) : (s.setChannel c x).ready = s.ready := rfl
@[simp] theorem State.setChannel_parts (s : State) (c : Nat) (x : Channel) : (s.setChannel c x).parts = s.parts := rfl
@[simp] theorem State.setChannel_launches (s : State) (c : Nat) (x : Channel) : (s.setChannel c x).launches = s.launches := rfl
@[simp] theorem State.setChannel_groups (s : State) (c : Nat) (x : Channel) : (s.setChannel c x).groups = s.groups := rfl
@[simp] theorem State.setChannel_decs (s : State) (c : Nat) (x : Channel) : (s.setChannel c x).decs = s.decs := rfl
@[simp] theorem State.setChannel_sends (s : State) (c : Nat) (x : Channel) : (s.setChannel c x).sends = s.sends := rfl
@[simp] theorem State.setChannel_mails (s : State) (c : Nat) (x : Channel) : (s.setChannel c x).mails = s.mails := rfl
@[simp] theorem State.setChannel_xlats (s : State) (c : Nat) (x : Channel) : (s.setChannel c x).xlats = s.xlats := rfl
@[simp] theorem State.setChannel_dies (s : State) (c : Nat) (x : Channel) : (s.setChannel c x).dies = s.dies := rfl
@[simp] theorem State.setChannel_gate (s : State) (c : Nat) (x : Channel) : (s.setChannel c x).gate = s.gate := rfl
@[simp] theorem State.setChannel_sec (s : State) (c : Nat) (x : Channel) : (s.setChannel c x).sec = s.sec := rfl
@[simp] theorem State.setChannel_pkg (s : State) (c : Nat) (x : Channel) : (s.setChannel c x).pkg = s.pkg := rfl

/-! ### advance -/

@[simp] theorem State.advance_cur (s : State) : s.advance.cur = s.cur := rfl
@[simp] theorem State.advance_latch (s : State) : s.advance.latch = s.latch := rfl
@[simp] theorem State.advance_agenda (s : State) : s.advance.agenda = s.agenda := rfl
@[simp] theorem State.advance_now (s : State) : s.advance.now = s.now := rfl
@[simp] theorem State.advance_rota (s : State) : s.advance.rota = s.rota := rfl
@[simp] theorem State.advance_free (s : State) : s.advance.free = s.free := rfl
@[simp] theorem State.advance_code (s : State) : s.advance.code = s.code := rfl
@[simp] theorem State.advance_mem (s : State) : s.advance.mem = s.mem := rfl
@[simp] theorem State.advance_cores (s : State) : s.advance.cores = s.cores := rfl
@[simp] theorem State.advance_clusters (s : State) : s.advance.clusters = s.clusters := rfl
@[simp] theorem State.advance_engines (s : State) : s.advance.engines = s.engines := rfl
@[simp] theorem State.advance_quads (s : State) : s.advance.quads = s.quads := rfl
@[simp] theorem State.advance_ready (s : State) : s.advance.ready = s.ready := rfl
@[simp] theorem State.advance_parts (s : State) : s.advance.parts = s.parts := rfl
@[simp] theorem State.advance_launches (s : State) : s.advance.launches = s.launches := rfl
@[simp] theorem State.advance_groups (s : State) : s.advance.groups = s.groups := rfl
@[simp] theorem State.advance_decs (s : State) : s.advance.decs = s.decs := rfl
@[simp] theorem State.advance_sends (s : State) : s.advance.sends = s.sends := rfl
@[simp] theorem State.advance_mails (s : State) : s.advance.mails = s.mails := rfl
@[simp] theorem State.advance_xlats (s : State) : s.advance.xlats = s.xlats := rfl
@[simp] theorem State.advance_dies (s : State) : s.advance.dies = s.dies := rfl
@[simp] theorem State.advance_channels (s : State) : s.advance.channels = s.channels := rfl
@[simp] theorem State.advance_gate (s : State) : s.advance.gate = s.gate := rfl
@[simp] theorem State.advance_sec (s : State) : s.advance.sec = s.sec := rfl
@[simp] theorem State.advance_pkg (s : State) : s.advance.pkg = s.pkg := rfl

/-! ### joinCmark -/

@[simp] theorem State.joinCmark_cur (s : State) (m : Mark) : (s.joinCmark m).cur = s.cur := rfl
@[simp] theorem State.joinCmark_latch (s : State) (m : Mark) : (s.joinCmark m).latch = s.latch := rfl
@[simp] theorem State.joinCmark_agenda (s : State) (m : Mark) : (s.joinCmark m).agenda = s.agenda := rfl
@[simp] theorem State.joinCmark_now (s : State) (m : Mark) : (s.joinCmark m).now = s.now := rfl
@[simp] theorem State.joinCmark_rota (s : State) (m : Mark) : (s.joinCmark m).rota = s.rota := rfl
@[simp] theorem State.joinCmark_free (s : State) (m : Mark) : (s.joinCmark m).free = s.free := rfl
@[simp] theorem State.joinCmark_code (s : State) (m : Mark) : (s.joinCmark m).code = s.code := rfl
@[simp] theorem State.joinCmark_mem (s : State) (m : Mark) : (s.joinCmark m).mem = s.mem := rfl
@[simp] theorem State.joinCmark_cores (s : State) (m : Mark) : (s.joinCmark m).cores = s.cores := rfl
@[simp] theorem State.joinCmark_clusters (s : State) (m : Mark) : (s.joinCmark m).clusters = s.clusters := rfl
@[simp] theorem State.joinCmark_engines (s : State) (m : Mark) : (s.joinCmark m).engines = s.engines := rfl
@[simp] theorem State.joinCmark_quads (s : State) (m : Mark) : (s.joinCmark m).quads = s.quads := rfl
@[simp] theorem State.joinCmark_ready (s : State) (m : Mark) : (s.joinCmark m).ready = s.ready := rfl
@[simp] theorem State.joinCmark_parts (s : State) (m : Mark) : (s.joinCmark m).parts = s.parts := rfl
@[simp] theorem State.joinCmark_launches (s : State) (m : Mark) : (s.joinCmark m).launches = s.launches := rfl
@[simp] theorem State.joinCmark_groups (s : State) (m : Mark) : (s.joinCmark m).groups = s.groups := rfl
@[simp] theorem State.joinCmark_decs (s : State) (m : Mark) : (s.joinCmark m).decs = s.decs := rfl
@[simp] theorem State.joinCmark_sends (s : State) (m : Mark) : (s.joinCmark m).sends = s.sends := rfl
@[simp] theorem State.joinCmark_mails (s : State) (m : Mark) : (s.joinCmark m).mails = s.mails := rfl
@[simp] theorem State.joinCmark_xlats (s : State) (m : Mark) : (s.joinCmark m).xlats = s.xlats := rfl
@[simp] theorem State.joinCmark_dies (s : State) (m : Mark) : (s.joinCmark m).dies = s.dies := rfl
@[simp] theorem State.joinCmark_channels (s : State) (m : Mark) : (s.joinCmark m).channels = s.channels := rfl
@[simp] theorem State.joinCmark_gate (s : State) (m : Mark) : (s.joinCmark m).gate = s.gate := rfl
@[simp] theorem State.joinCmark_sec (s : State) (m : Mark) : (s.joinCmark m).sec = s.sec := rfl
@[simp] theorem State.joinCmark_pkg (s : State) (m : Mark) : (s.joinCmark m).pkg = s.pkg := rfl

/-! ### keep -/

@[simp] theorem State.keep_cur (s : State) (n : Nat) (v : Tagged 64) : (s.keep n v).cur = s.cur := rfl
@[simp] theorem State.keep_latch (s : State) (n : Nat) (v : Tagged 64) : (s.keep n v).latch = s.latch := rfl
@[simp] theorem State.keep_agenda (s : State) (n : Nat) (v : Tagged 64) : (s.keep n v).agenda = s.agenda := rfl
@[simp] theorem State.keep_now (s : State) (n : Nat) (v : Tagged 64) : (s.keep n v).now = s.now := rfl
@[simp] theorem State.keep_rota (s : State) (n : Nat) (v : Tagged 64) : (s.keep n v).rota = s.rota := rfl
@[simp] theorem State.keep_free (s : State) (n : Nat) (v : Tagged 64) : (s.keep n v).free = s.free := rfl
@[simp] theorem State.keep_code (s : State) (n : Nat) (v : Tagged 64) : (s.keep n v).code = s.code := rfl
@[simp] theorem State.keep_mem (s : State) (n : Nat) (v : Tagged 64) : (s.keep n v).mem = s.mem := rfl
@[simp] theorem State.keep_cores (s : State) (n : Nat) (v : Tagged 64) : (s.keep n v).cores = s.cores := rfl
@[simp] theorem State.keep_clusters (s : State) (n : Nat) (v : Tagged 64) : (s.keep n v).clusters = s.clusters := rfl
@[simp] theorem State.keep_engines (s : State) (n : Nat) (v : Tagged 64) : (s.keep n v).engines = s.engines := rfl
@[simp] theorem State.keep_quads (s : State) (n : Nat) (v : Tagged 64) : (s.keep n v).quads = s.quads := rfl
@[simp] theorem State.keep_ready (s : State) (n : Nat) (v : Tagged 64) : (s.keep n v).ready = s.ready := rfl
@[simp] theorem State.keep_parts (s : State) (n : Nat) (v : Tagged 64) : (s.keep n v).parts = s.parts := rfl
@[simp] theorem State.keep_launches (s : State) (n : Nat) (v : Tagged 64) : (s.keep n v).launches = s.launches := rfl
@[simp] theorem State.keep_groups (s : State) (n : Nat) (v : Tagged 64) : (s.keep n v).groups = s.groups := rfl
@[simp] theorem State.keep_decs (s : State) (n : Nat) (v : Tagged 64) : (s.keep n v).decs = s.decs := rfl
@[simp] theorem State.keep_sends (s : State) (n : Nat) (v : Tagged 64) : (s.keep n v).sends = s.sends := rfl
@[simp] theorem State.keep_mails (s : State) (n : Nat) (v : Tagged 64) : (s.keep n v).mails = s.mails := rfl
@[simp] theorem State.keep_xlats (s : State) (n : Nat) (v : Tagged 64) : (s.keep n v).xlats = s.xlats := rfl
@[simp] theorem State.keep_dies (s : State) (n : Nat) (v : Tagged 64) : (s.keep n v).dies = s.dies := rfl
@[simp] theorem State.keep_channels (s : State) (n : Nat) (v : Tagged 64) : (s.keep n v).channels = s.channels := rfl
@[simp] theorem State.keep_gate (s : State) (n : Nat) (v : Tagged 64) : (s.keep n v).gate = s.gate := rfl
@[simp] theorem State.keep_sec (s : State) (n : Nat) (v : Tagged 64) : (s.keep n v).sec = s.sec := rfl
@[simp] theorem State.keep_pkg (s : State) (n : Nat) (v : Tagged 64) : (s.keep n v).pkg = s.pkg := rfl

/-! ### writeX -/

@[simp] theorem State.writeX_cur (s : State) (n : Nat) (v : Word) (m : Mark) : (s.writeX n v m).cur = s.cur := rfl
@[simp] theorem State.writeX_latch (s : State) (n : Nat) (v : Word) (m : Mark) : (s.writeX n v m).latch = s.latch := rfl
@[simp] theorem State.writeX_agenda (s : State) (n : Nat) (v : Word) (m : Mark) : (s.writeX n v m).agenda = s.agenda := rfl
@[simp] theorem State.writeX_now (s : State) (n : Nat) (v : Word) (m : Mark) : (s.writeX n v m).now = s.now := rfl
@[simp] theorem State.writeX_rota (s : State) (n : Nat) (v : Word) (m : Mark) : (s.writeX n v m).rota = s.rota := rfl
@[simp] theorem State.writeX_free (s : State) (n : Nat) (v : Word) (m : Mark) : (s.writeX n v m).free = s.free := rfl
@[simp] theorem State.writeX_code (s : State) (n : Nat) (v : Word) (m : Mark) : (s.writeX n v m).code = s.code := rfl
@[simp] theorem State.writeX_mem (s : State) (n : Nat) (v : Word) (m : Mark) : (s.writeX n v m).mem = s.mem := rfl
@[simp] theorem State.writeX_cores (s : State) (n : Nat) (v : Word) (m : Mark) : (s.writeX n v m).cores = s.cores := rfl
@[simp] theorem State.writeX_clusters (s : State) (n : Nat) (v : Word) (m : Mark) : (s.writeX n v m).clusters = s.clusters := rfl
@[simp] theorem State.writeX_engines (s : State) (n : Nat) (v : Word) (m : Mark) : (s.writeX n v m).engines = s.engines := rfl
@[simp] theorem State.writeX_quads (s : State) (n : Nat) (v : Word) (m : Mark) : (s.writeX n v m).quads = s.quads := rfl
@[simp] theorem State.writeX_ready (s : State) (n : Nat) (v : Word) (m : Mark) : (s.writeX n v m).ready = s.ready := rfl
@[simp] theorem State.writeX_parts (s : State) (n : Nat) (v : Word) (m : Mark) : (s.writeX n v m).parts = s.parts := rfl
@[simp] theorem State.writeX_launches (s : State) (n : Nat) (v : Word) (m : Mark) : (s.writeX n v m).launches = s.launches := rfl
@[simp] theorem State.writeX_groups (s : State) (n : Nat) (v : Word) (m : Mark) : (s.writeX n v m).groups = s.groups := rfl
@[simp] theorem State.writeX_decs (s : State) (n : Nat) (v : Word) (m : Mark) : (s.writeX n v m).decs = s.decs := rfl
@[simp] theorem State.writeX_sends (s : State) (n : Nat) (v : Word) (m : Mark) : (s.writeX n v m).sends = s.sends := rfl
@[simp] theorem State.writeX_mails (s : State) (n : Nat) (v : Word) (m : Mark) : (s.writeX n v m).mails = s.mails := rfl
@[simp] theorem State.writeX_xlats (s : State) (n : Nat) (v : Word) (m : Mark) : (s.writeX n v m).xlats = s.xlats := rfl
@[simp] theorem State.writeX_dies (s : State) (n : Nat) (v : Word) (m : Mark) : (s.writeX n v m).dies = s.dies := rfl
@[simp] theorem State.writeX_channels (s : State) (n : Nat) (v : Word) (m : Mark) : (s.writeX n v m).channels = s.channels := rfl
@[simp] theorem State.writeX_gate (s : State) (n : Nat) (v : Word) (m : Mark) : (s.writeX n v m).gate = s.gate := rfl
@[simp] theorem State.writeX_sec (s : State) (n : Nat) (v : Word) (m : Mark) : (s.writeX n v m).sec = s.sec := rfl
@[simp] theorem State.writeX_pkg (s : State) (n : Nat) (v : Word) (m : Mark) : (s.writeX n v m).pkg = s.pkg := rfl

/-! ### putV -/

@[simp] theorem State.putV_cur (s : State) (n : Nat) (v : BitVec 256) (m : Mark) : (s.putV n v m).cur = s.cur := rfl
@[simp] theorem State.putV_latch (s : State) (n : Nat) (v : BitVec 256) (m : Mark) : (s.putV n v m).latch = s.latch := rfl
@[simp] theorem State.putV_agenda (s : State) (n : Nat) (v : BitVec 256) (m : Mark) : (s.putV n v m).agenda = s.agenda := rfl
@[simp] theorem State.putV_now (s : State) (n : Nat) (v : BitVec 256) (m : Mark) : (s.putV n v m).now = s.now := rfl
@[simp] theorem State.putV_rota (s : State) (n : Nat) (v : BitVec 256) (m : Mark) : (s.putV n v m).rota = s.rota := rfl
@[simp] theorem State.putV_free (s : State) (n : Nat) (v : BitVec 256) (m : Mark) : (s.putV n v m).free = s.free := rfl
@[simp] theorem State.putV_code (s : State) (n : Nat) (v : BitVec 256) (m : Mark) : (s.putV n v m).code = s.code := rfl
@[simp] theorem State.putV_mem (s : State) (n : Nat) (v : BitVec 256) (m : Mark) : (s.putV n v m).mem = s.mem := rfl
@[simp] theorem State.putV_cores (s : State) (n : Nat) (v : BitVec 256) (m : Mark) : (s.putV n v m).cores = s.cores := rfl
@[simp] theorem State.putV_clusters (s : State) (n : Nat) (v : BitVec 256) (m : Mark) : (s.putV n v m).clusters = s.clusters := rfl
@[simp] theorem State.putV_engines (s : State) (n : Nat) (v : BitVec 256) (m : Mark) : (s.putV n v m).engines = s.engines := rfl
@[simp] theorem State.putV_quads (s : State) (n : Nat) (v : BitVec 256) (m : Mark) : (s.putV n v m).quads = s.quads := rfl
@[simp] theorem State.putV_ready (s : State) (n : Nat) (v : BitVec 256) (m : Mark) : (s.putV n v m).ready = s.ready := rfl
@[simp] theorem State.putV_parts (s : State) (n : Nat) (v : BitVec 256) (m : Mark) : (s.putV n v m).parts = s.parts := rfl
@[simp] theorem State.putV_launches (s : State) (n : Nat) (v : BitVec 256) (m : Mark) : (s.putV n v m).launches = s.launches := rfl
@[simp] theorem State.putV_groups (s : State) (n : Nat) (v : BitVec 256) (m : Mark) : (s.putV n v m).groups = s.groups := rfl
@[simp] theorem State.putV_decs (s : State) (n : Nat) (v : BitVec 256) (m : Mark) : (s.putV n v m).decs = s.decs := rfl
@[simp] theorem State.putV_sends (s : State) (n : Nat) (v : BitVec 256) (m : Mark) : (s.putV n v m).sends = s.sends := rfl
@[simp] theorem State.putV_mails (s : State) (n : Nat) (v : BitVec 256) (m : Mark) : (s.putV n v m).mails = s.mails := rfl
@[simp] theorem State.putV_xlats (s : State) (n : Nat) (v : BitVec 256) (m : Mark) : (s.putV n v m).xlats = s.xlats := rfl
@[simp] theorem State.putV_dies (s : State) (n : Nat) (v : BitVec 256) (m : Mark) : (s.putV n v m).dies = s.dies := rfl
@[simp] theorem State.putV_channels (s : State) (n : Nat) (v : BitVec 256) (m : Mark) : (s.putV n v m).channels = s.channels := rfl
@[simp] theorem State.putV_gate (s : State) (n : Nat) (v : BitVec 256) (m : Mark) : (s.putV n v m).gate = s.gate := rfl
@[simp] theorem State.putV_sec (s : State) (n : Nat) (v : BitVec 256) (m : Mark) : (s.putV n v m).sec = s.sec := rfl
@[simp] theorem State.putV_pkg (s : State) (n : Nat) (v : BitVec 256) (m : Mark) : (s.putV n v m).pkg = s.pkg := rfl

/-! ### writeK -/

@[simp] theorem State.writeK_cur (s : State) (n : Nat) (v : BitVec 32) (m : Mark) : (s.writeK n v m).cur = s.cur := rfl
@[simp] theorem State.writeK_latch (s : State) (n : Nat) (v : BitVec 32) (m : Mark) : (s.writeK n v m).latch = s.latch := rfl
@[simp] theorem State.writeK_agenda (s : State) (n : Nat) (v : BitVec 32) (m : Mark) : (s.writeK n v m).agenda = s.agenda := rfl
@[simp] theorem State.writeK_now (s : State) (n : Nat) (v : BitVec 32) (m : Mark) : (s.writeK n v m).now = s.now := rfl
@[simp] theorem State.writeK_rota (s : State) (n : Nat) (v : BitVec 32) (m : Mark) : (s.writeK n v m).rota = s.rota := rfl
@[simp] theorem State.writeK_free (s : State) (n : Nat) (v : BitVec 32) (m : Mark) : (s.writeK n v m).free = s.free := rfl
@[simp] theorem State.writeK_code (s : State) (n : Nat) (v : BitVec 32) (m : Mark) : (s.writeK n v m).code = s.code := rfl
@[simp] theorem State.writeK_mem (s : State) (n : Nat) (v : BitVec 32) (m : Mark) : (s.writeK n v m).mem = s.mem := rfl
@[simp] theorem State.writeK_cores (s : State) (n : Nat) (v : BitVec 32) (m : Mark) : (s.writeK n v m).cores = s.cores := rfl
@[simp] theorem State.writeK_clusters (s : State) (n : Nat) (v : BitVec 32) (m : Mark) : (s.writeK n v m).clusters = s.clusters := rfl
@[simp] theorem State.writeK_engines (s : State) (n : Nat) (v : BitVec 32) (m : Mark) : (s.writeK n v m).engines = s.engines := rfl
@[simp] theorem State.writeK_quads (s : State) (n : Nat) (v : BitVec 32) (m : Mark) : (s.writeK n v m).quads = s.quads := rfl
@[simp] theorem State.writeK_ready (s : State) (n : Nat) (v : BitVec 32) (m : Mark) : (s.writeK n v m).ready = s.ready := rfl
@[simp] theorem State.writeK_parts (s : State) (n : Nat) (v : BitVec 32) (m : Mark) : (s.writeK n v m).parts = s.parts := rfl
@[simp] theorem State.writeK_launches (s : State) (n : Nat) (v : BitVec 32) (m : Mark) : (s.writeK n v m).launches = s.launches := rfl
@[simp] theorem State.writeK_groups (s : State) (n : Nat) (v : BitVec 32) (m : Mark) : (s.writeK n v m).groups = s.groups := rfl
@[simp] theorem State.writeK_decs (s : State) (n : Nat) (v : BitVec 32) (m : Mark) : (s.writeK n v m).decs = s.decs := rfl
@[simp] theorem State.writeK_sends (s : State) (n : Nat) (v : BitVec 32) (m : Mark) : (s.writeK n v m).sends = s.sends := rfl
@[simp] theorem State.writeK_mails (s : State) (n : Nat) (v : BitVec 32) (m : Mark) : (s.writeK n v m).mails = s.mails := rfl
@[simp] theorem State.writeK_xlats (s : State) (n : Nat) (v : BitVec 32) (m : Mark) : (s.writeK n v m).xlats = s.xlats := rfl
@[simp] theorem State.writeK_dies (s : State) (n : Nat) (v : BitVec 32) (m : Mark) : (s.writeK n v m).dies = s.dies := rfl
@[simp] theorem State.writeK_channels (s : State) (n : Nat) (v : BitVec 32) (m : Mark) : (s.writeK n v m).channels = s.channels := rfl
@[simp] theorem State.writeK_gate (s : State) (n : Nat) (v : BitVec 32) (m : Mark) : (s.writeK n v m).gate = s.gate := rfl
@[simp] theorem State.writeK_sec (s : State) (n : Nat) (v : BitVec 32) (m : Mark) : (s.writeK n v m).sec = s.sec := rfl
@[simp] theorem State.writeK_pkg (s : State) (n : Nat) (v : BitVec 32) (m : Mark) : (s.writeK n v m).pkg = s.pkg := rfl

/-! ### result -/

@[simp] theorem State.result_cur (s : State) (d : Reg) (v : Word) (m : Mark) : (s.result d v m).cur = s.cur := rfl
@[simp] theorem State.result_latch (s : State) (d : Reg) (v : Word) (m : Mark) : (s.result d v m).latch = s.latch := rfl
@[simp] theorem State.result_agenda (s : State) (d : Reg) (v : Word) (m : Mark) : (s.result d v m).agenda = s.agenda := rfl
@[simp] theorem State.result_now (s : State) (d : Reg) (v : Word) (m : Mark) : (s.result d v m).now = s.now := rfl
@[simp] theorem State.result_rota (s : State) (d : Reg) (v : Word) (m : Mark) : (s.result d v m).rota = s.rota := rfl
@[simp] theorem State.result_free (s : State) (d : Reg) (v : Word) (m : Mark) : (s.result d v m).free = s.free := rfl
@[simp] theorem State.result_code (s : State) (d : Reg) (v : Word) (m : Mark) : (s.result d v m).code = s.code := rfl
@[simp] theorem State.result_mem (s : State) (d : Reg) (v : Word) (m : Mark) : (s.result d v m).mem = s.mem := rfl
@[simp] theorem State.result_cores (s : State) (d : Reg) (v : Word) (m : Mark) : (s.result d v m).cores = s.cores := rfl
@[simp] theorem State.result_clusters (s : State) (d : Reg) (v : Word) (m : Mark) : (s.result d v m).clusters = s.clusters := rfl
@[simp] theorem State.result_engines (s : State) (d : Reg) (v : Word) (m : Mark) : (s.result d v m).engines = s.engines := rfl
@[simp] theorem State.result_quads (s : State) (d : Reg) (v : Word) (m : Mark) : (s.result d v m).quads = s.quads := rfl
@[simp] theorem State.result_ready (s : State) (d : Reg) (v : Word) (m : Mark) : (s.result d v m).ready = s.ready := rfl
@[simp] theorem State.result_parts (s : State) (d : Reg) (v : Word) (m : Mark) : (s.result d v m).parts = s.parts := rfl
@[simp] theorem State.result_launches (s : State) (d : Reg) (v : Word) (m : Mark) : (s.result d v m).launches = s.launches := rfl
@[simp] theorem State.result_groups (s : State) (d : Reg) (v : Word) (m : Mark) : (s.result d v m).groups = s.groups := rfl
@[simp] theorem State.result_decs (s : State) (d : Reg) (v : Word) (m : Mark) : (s.result d v m).decs = s.decs := rfl
@[simp] theorem State.result_sends (s : State) (d : Reg) (v : Word) (m : Mark) : (s.result d v m).sends = s.sends := rfl
@[simp] theorem State.result_mails (s : State) (d : Reg) (v : Word) (m : Mark) : (s.result d v m).mails = s.mails := rfl
@[simp] theorem State.result_xlats (s : State) (d : Reg) (v : Word) (m : Mark) : (s.result d v m).xlats = s.xlats := rfl
@[simp] theorem State.result_dies (s : State) (d : Reg) (v : Word) (m : Mark) : (s.result d v m).dies = s.dies := rfl
@[simp] theorem State.result_channels (s : State) (d : Reg) (v : Word) (m : Mark) : (s.result d v m).channels = s.channels := rfl
@[simp] theorem State.result_gate (s : State) (d : Reg) (v : Word) (m : Mark) : (s.result d v m).gate = s.gate := rfl
@[simp] theorem State.result_sec (s : State) (d : Reg) (v : Word) (m : Mark) : (s.result d v m).sec = s.sec := rfl
@[simp] theorem State.result_pkg (s : State) (d : Reg) (v : Word) (m : Mark) : (s.result d v m).pkg = s.pkg := rfl

/-! ### jump -/

@[simp] theorem State.jump_cur (s : State) (a : Word) : (s.jump a).cur = s.cur := rfl
@[simp] theorem State.jump_latch (s : State) (a : Word) : (s.jump a).latch = s.latch := rfl
@[simp] theorem State.jump_agenda (s : State) (a : Word) : (s.jump a).agenda = s.agenda := rfl
@[simp] theorem State.jump_now (s : State) (a : Word) : (s.jump a).now = s.now := rfl
@[simp] theorem State.jump_rota (s : State) (a : Word) : (s.jump a).rota = s.rota := rfl
@[simp] theorem State.jump_free (s : State) (a : Word) : (s.jump a).free = s.free := rfl
@[simp] theorem State.jump_code (s : State) (a : Word) : (s.jump a).code = s.code := rfl
@[simp] theorem State.jump_mem (s : State) (a : Word) : (s.jump a).mem = s.mem := rfl
@[simp] theorem State.jump_cores (s : State) (a : Word) : (s.jump a).cores = s.cores := rfl
@[simp] theorem State.jump_clusters (s : State) (a : Word) : (s.jump a).clusters = s.clusters := rfl
@[simp] theorem State.jump_engines (s : State) (a : Word) : (s.jump a).engines = s.engines := rfl
@[simp] theorem State.jump_quads (s : State) (a : Word) : (s.jump a).quads = s.quads := rfl
@[simp] theorem State.jump_ready (s : State) (a : Word) : (s.jump a).ready = s.ready := rfl
@[simp] theorem State.jump_parts (s : State) (a : Word) : (s.jump a).parts = s.parts := rfl
@[simp] theorem State.jump_launches (s : State) (a : Word) : (s.jump a).launches = s.launches := rfl
@[simp] theorem State.jump_groups (s : State) (a : Word) : (s.jump a).groups = s.groups := rfl
@[simp] theorem State.jump_decs (s : State) (a : Word) : (s.jump a).decs = s.decs := rfl
@[simp] theorem State.jump_sends (s : State) (a : Word) : (s.jump a).sends = s.sends := rfl
@[simp] theorem State.jump_mails (s : State) (a : Word) : (s.jump a).mails = s.mails := rfl
@[simp] theorem State.jump_xlats (s : State) (a : Word) : (s.jump a).xlats = s.xlats := rfl
@[simp] theorem State.jump_dies (s : State) (a : Word) : (s.jump a).dies = s.dies := rfl
@[simp] theorem State.jump_channels (s : State) (a : Word) : (s.jump a).channels = s.channels := rfl
@[simp] theorem State.jump_gate (s : State) (a : Word) : (s.jump a).gate = s.gate := rfl
@[simp] theorem State.jump_sec (s : State) (a : Word) : (s.jump a).sec = s.sec := rfl
@[simp] theorem State.jump_pkg (s : State) (a : Word) : (s.jump a).pkg = s.pkg := rfl

/-! ### setLine -/

@[simp] theorem State.setLine_cur (s : State) (t : ThreadId) (n : Nat) : (s.setLine t n).cur = s.cur := rfl
@[simp] theorem State.setLine_latch (s : State) (t : ThreadId) (n : Nat) : (s.setLine t n).latch = s.latch := rfl
@[simp] theorem State.setLine_agenda (s : State) (t : ThreadId) (n : Nat) : (s.setLine t n).agenda = s.agenda := rfl
@[simp] theorem State.setLine_now (s : State) (t : ThreadId) (n : Nat) : (s.setLine t n).now = s.now := rfl
@[simp] theorem State.setLine_rota (s : State) (t : ThreadId) (n : Nat) : (s.setLine t n).rota = s.rota := rfl
@[simp] theorem State.setLine_free (s : State) (t : ThreadId) (n : Nat) : (s.setLine t n).free = s.free := rfl
@[simp] theorem State.setLine_code (s : State) (t : ThreadId) (n : Nat) : (s.setLine t n).code = s.code := rfl
@[simp] theorem State.setLine_mem (s : State) (t : ThreadId) (n : Nat) : (s.setLine t n).mem = s.mem := rfl
@[simp] theorem State.setLine_cores (s : State) (t : ThreadId) (n : Nat) : (s.setLine t n).cores = s.cores := rfl
@[simp] theorem State.setLine_clusters (s : State) (t : ThreadId) (n : Nat) : (s.setLine t n).clusters = s.clusters := rfl
@[simp] theorem State.setLine_engines (s : State) (t : ThreadId) (n : Nat) : (s.setLine t n).engines = s.engines := rfl
@[simp] theorem State.setLine_quads (s : State) (t : ThreadId) (n : Nat) : (s.setLine t n).quads = s.quads := rfl
@[simp] theorem State.setLine_ready (s : State) (t : ThreadId) (n : Nat) : (s.setLine t n).ready = s.ready := rfl
@[simp] theorem State.setLine_parts (s : State) (t : ThreadId) (n : Nat) : (s.setLine t n).parts = s.parts := rfl
@[simp] theorem State.setLine_launches (s : State) (t : ThreadId) (n : Nat) : (s.setLine t n).launches = s.launches := rfl
@[simp] theorem State.setLine_groups (s : State) (t : ThreadId) (n : Nat) : (s.setLine t n).groups = s.groups := rfl
@[simp] theorem State.setLine_decs (s : State) (t : ThreadId) (n : Nat) : (s.setLine t n).decs = s.decs := rfl
@[simp] theorem State.setLine_sends (s : State) (t : ThreadId) (n : Nat) : (s.setLine t n).sends = s.sends := rfl
@[simp] theorem State.setLine_mails (s : State) (t : ThreadId) (n : Nat) : (s.setLine t n).mails = s.mails := rfl
@[simp] theorem State.setLine_xlats (s : State) (t : ThreadId) (n : Nat) : (s.setLine t n).xlats = s.xlats := rfl
@[simp] theorem State.setLine_dies (s : State) (t : ThreadId) (n : Nat) : (s.setLine t n).dies = s.dies := rfl
@[simp] theorem State.setLine_channels (s : State) (t : ThreadId) (n : Nat) : (s.setLine t n).channels = s.channels := rfl
@[simp] theorem State.setLine_gate (s : State) (t : ThreadId) (n : Nat) : (s.setLine t n).gate = s.gate := rfl
@[simp] theorem State.setLine_sec (s : State) (t : ThreadId) (n : Nat) : (s.setLine t n).sec = s.sec := rfl
@[simp] theorem State.setLine_pkg (s : State) (t : ThreadId) (n : Nat) : (s.setLine t n).pkg = s.pkg := rfl

/-! ### put -/

@[simp] theorem State.put_threads (s : State) (l : Nat) (bs : List Byte) (m : Mark) (r : Bool) : (s.put l bs m r).threads = s.threads := rfl
@[simp] theorem State.put_cur (s : State) (l : Nat) (bs : List Byte) (m : Mark) (r : Bool) : (s.put l bs m r).cur = s.cur := rfl
@[simp] theorem State.put_latch (s : State) (l : Nat) (bs : List Byte) (m : Mark) (r : Bool) : (s.put l bs m r).latch = s.latch := rfl
@[simp] theorem State.put_agenda (s : State) (l : Nat) (bs : List Byte) (m : Mark) (r : Bool) : (s.put l bs m r).agenda = s.agenda := rfl
@[simp] theorem State.put_now (s : State) (l : Nat) (bs : List Byte) (m : Mark) (r : Bool) : (s.put l bs m r).now = s.now := rfl
@[simp] theorem State.put_rota (s : State) (l : Nat) (bs : List Byte) (m : Mark) (r : Bool) : (s.put l bs m r).rota = s.rota := rfl
@[simp] theorem State.put_free (s : State) (l : Nat) (bs : List Byte) (m : Mark) (r : Bool) : (s.put l bs m r).free = s.free := rfl
@[simp] theorem State.put_code (s : State) (l : Nat) (bs : List Byte) (m : Mark) (r : Bool) : (s.put l bs m r).code = s.code := rfl
@[simp] theorem State.put_cores (s : State) (l : Nat) (bs : List Byte) (m : Mark) (r : Bool) : (s.put l bs m r).cores = s.cores := rfl
@[simp] theorem State.put_clusters (s : State) (l : Nat) (bs : List Byte) (m : Mark) (r : Bool) : (s.put l bs m r).clusters = s.clusters := rfl
@[simp] theorem State.put_engines (s : State) (l : Nat) (bs : List Byte) (m : Mark) (r : Bool) : (s.put l bs m r).engines = s.engines := rfl
@[simp] theorem State.put_quads (s : State) (l : Nat) (bs : List Byte) (m : Mark) (r : Bool) : (s.put l bs m r).quads = s.quads := rfl
@[simp] theorem State.put_ready (s : State) (l : Nat) (bs : List Byte) (m : Mark) (r : Bool) : (s.put l bs m r).ready = s.ready := rfl
@[simp] theorem State.put_parts (s : State) (l : Nat) (bs : List Byte) (m : Mark) (r : Bool) : (s.put l bs m r).parts = s.parts := rfl
@[simp] theorem State.put_launches (s : State) (l : Nat) (bs : List Byte) (m : Mark) (r : Bool) : (s.put l bs m r).launches = s.launches := rfl
@[simp] theorem State.put_groups (s : State) (l : Nat) (bs : List Byte) (m : Mark) (r : Bool) : (s.put l bs m r).groups = s.groups := rfl
@[simp] theorem State.put_decs (s : State) (l : Nat) (bs : List Byte) (m : Mark) (r : Bool) : (s.put l bs m r).decs = s.decs := rfl
@[simp] theorem State.put_sends (s : State) (l : Nat) (bs : List Byte) (m : Mark) (r : Bool) : (s.put l bs m r).sends = s.sends := rfl
@[simp] theorem State.put_mails (s : State) (l : Nat) (bs : List Byte) (m : Mark) (r : Bool) : (s.put l bs m r).mails = s.mails := rfl
@[simp] theorem State.put_xlats (s : State) (l : Nat) (bs : List Byte) (m : Mark) (r : Bool) : (s.put l bs m r).xlats = s.xlats := rfl
@[simp] theorem State.put_dies (s : State) (l : Nat) (bs : List Byte) (m : Mark) (r : Bool) : (s.put l bs m r).dies = s.dies := rfl
@[simp] theorem State.put_channels (s : State) (l : Nat) (bs : List Byte) (m : Mark) (r : Bool) : (s.put l bs m r).channels = s.channels := rfl
@[simp] theorem State.put_gate (s : State) (l : Nat) (bs : List Byte) (m : Mark) (r : Bool) : (s.put l bs m r).gate = s.gate := rfl
@[simp] theorem State.put_sec (s : State) (l : Nat) (bs : List Byte) (m : Mark) (r : Bool) : (s.put l bs m r).sec = s.sec := rfl
@[simp] theorem State.put_pkg (s : State) (l : Nat) (bs : List Byte) (m : Mark) (r : Bool) : (s.put l bs m r).pkg = s.pkg := rfl

/-! ### The running thread -/

@[simp] theorem State.threadAt_setThread (s : State) (t : ThreadId) (x : Thread) : (s.setThread t x).threadAt t.key = x := by
  simp [State.threadAt, State.setThread]

theorem State.threadAt_setThread_ne (s : State) (t : ThreadId) (x : Thread) (k : Nat) (h : k ≠ t.key) :
    (s.setThread t x).threadAt k = s.threadAt k := by
  simp [State.threadAt, State.setThread, Table.get?_set_ne _ _ h]

@[simp] theorem State.thread_setThread (s : State) (t : ThreadId) (x : Thread) : (s.setThread t x).thread t = x :=
  s.threadAt_setThread t x

@[simp] theorem State.me_setMe (s : State) (x : Thread) : (s.setMe x).me = x := by
  simp [State.me, State.setMe]

@[simp] theorem State.setMe_setMe (s : State) (x y : Thread) : (s.setMe x).setMe y = s.setMe y := by
  simp [State.setMe, State.setThread]

@[simp] theorem State.thread_cur_setMe (s : State) (x : Thread) : (s.setMe x).thread s.cur = x := s.me_setMe x

@[simp] theorem State.thread_cur (s : State) : s.thread s.cur = s.me := rfl

@[simp] theorem State.setThread_of_cur (s : State) (x : Thread) : s.setThread s.cur x = s.setMe x := rfl

theorem State.threadAt_setMe_ne (s : State) (x : Thread) (k : Nat) (h : k ≠ s.cur.key) :
    (s.setMe x).threadAt k = s.threadAt k := s.threadAt_setThread_ne s.cur x k h

@[simp] theorem State.me_put (s : State) (l : Nat) (bs : List Byte) (m : Mark) (r : Bool) : (s.put l bs m r).me = s.me := rfl

/-- The running thread once the program counter is past the instruction. -/
@[simp] theorem State.me_advance (s : State) :
    s.advance.me = { s.me with pc := s.latch.addr + word s.latch.len, seq := s.latch.seq + 1, aWait := none } := by
  simp [State.advance]

@[simp] theorem State.me_writeX (s : State) (n : Nat) (v : Word) (m : Mark) :
    (s.writeX n v m).me = { s.me with regs := s.me.regs.setX n ⟨v, m⟩, windows := closeWindows .x n s.me.windows } := by
  simp [State.writeX]

@[simp] theorem State.me_putV (s : State) (n : Nat) (v : BitVec 256) (m : Mark) :
    (s.putV n v m).me = { s.me with regs := s.me.regs.setV n ⟨v, m⟩, windows := closeWindows .v n s.me.windows } := by
  simp [State.putV]

@[simp] theorem State.me_writeK (s : State) (n : Nat) (v : BitVec 32) (m : Mark) :
    (s.writeK n v m).me = { s.me with regs := s.me.regs.setK n ⟨v, m⟩, windows := closeWindows .k n s.me.windows } := by
  simp [State.writeK]

@[simp] theorem State.me_jump (s : State) (a : Word) : (s.jump a).me = { s.me with pc := a } := by
  simp [State.jump]

/-! ### Reads after the program counter has moved -/

@[simp] theorem State.windowOn_advance (s : State) (f : RegFile) (n : Nat) : s.advance.windowOn f n = s.windowOn f n := by
  unfold State.windowOn; rw [State.me_advance]; rfl

@[simp] theorem State.kept_advance (s : State) (k : Nat) : s.advance.kept k = s.kept k := rfl

@[simp] theorem State.cmarkNow_advance (s : State) : s.advance.cmarkNow = s.cmarkNow := by
  simp [State.cmarkNow]

@[simp] theorem State.base_advance (s : State) : s.advance.base = s.base := by
  simp [State.base]

@[simp] theorem State.readX_advance (s : State) (n : Nat) : s.advance.readX n = s.readX n := by
  unfold State.readX; rw [State.windowOn_advance, State.me_advance]; rfl

@[simp] theorem State.readV_advance (s : State) (n : Nat) : s.advance.readV n = s.readV n := by
  unfold State.readV; rw [State.windowOn_advance, State.me_advance]

@[simp] theorem State.readK_advance (s : State) (n : Nat) : s.advance.readK n = s.readK n := by
  simp only [State.readK, State.me_advance]

@[simp] theorem State.x_advance (s : State) (r : Reg) : s.advance.x r = s.x r := by simp [State.x]

@[simp] theorem State.xm_advance (s : State) (r : Reg) : s.advance.xm r = s.xm r := by simp [State.xm]

@[simp] theorem State.onE_advance (s : State) : s.advance.onE = s.onE := rfl

@[simp] theorem State.ix_advance (s : State) : s.advance.ix = s.ix := rfl

@[simp] theorem State.chip_advance (s : State) : s.advance.chip = s.chip := rfl

/-! ### Register files -/

@[simp] theorem Regs.getX_zero (r : Regs) : r.getX 0 = plain 0 := rfl

@[simp] theorem Regs.getK_zero (r : Regs) : r.getK 0 = plain 0xFFFFFFFF := rfl

@[simp] theorem Regs.setX_zero (r : Regs) (v : Tagged 64) : r.setX 0 v = r := rfl

@[simp] theorem Regs.setK_zero (r : Regs) (v : Tagged 32) : r.setK 0 v = r := rfl

theorem Vector.getD_setIfInBounds_self {α : Type} {n : Nat} (v : Vector α n) (i : Nat) (a d : α) (h : i < n) :
    (v.setIfInBounds i a).getD i d = a := by
  simp [Vector.getD, h]

theorem Vector.getD_setIfInBounds_ne {α : Type} {n : Nat} (v : Vector α n) (i j : Nat) (a d : α) (h : j ≠ i) :
    (v.setIfInBounds i a).getD j d = v.getD j d := by
  by_cases hj : j < n
  · simp [Vector.getD, hj, Array.getD, Array.getElem_setIfInBounds, Ne.symm h]
  · simp [Vector.getD, hj, Array.getD]

theorem Regs.getX_setX (r : Regs) (n : Nat) (v : Tagged 64) (h0 : n ≠ 0) (h : n < 32) : (r.setX n v).getX n = v := by
  simp [Regs.getX, Regs.setX, h0, Vector.getD_setIfInBounds_self _ _ _ _ h]

theorem Regs.getX_setX_ne (r : Regs) (n j : Nat) (v : Tagged 64) (h : j ≠ n) : (r.setX n v).getX j = r.getX j := by
  unfold Regs.getX Regs.setX
  split
  · rfl
  · split
    · rfl
    · exact Vector.getD_setIfInBounds_ne _ _ _ _ _ h

theorem Regs.getV_setV (r : Regs) (n : Nat) (v : Tagged 256) (h : n < 32) : (r.setV n v).getV n = v := by
  simp [Regs.getV, Regs.setV, Vector.getD_setIfInBounds_self _ _ _ _ h]

theorem Regs.getV_setV_ne (r : Regs) (n j : Nat) (v : Tagged 256) (h : j ≠ n) : (r.setV n v).getV j = r.getV j := by
  exact Vector.getD_setIfInBounds_ne _ _ _ _ _ h

theorem Regs.getK_setK (r : Regs) (n : Nat) (v : Tagged 32) (h0 : n ≠ 0) (h : n < 8) : (r.setK n v).getK n = v := by
  simp [Regs.getK, Regs.setK, h0, Vector.getD_setIfInBounds_self _ _ _ _ h]

theorem Regs.getK_setK_ne (r : Regs) (n j : Nat) (v : Tagged 32) (h : j ≠ n) : (r.setK n v).getK j = r.getK j := by
  unfold Regs.getK Regs.setK
  split
  · rfl
  · split
    · rfl
    · exact Vector.getD_setIfInBounds_ne _ _ _ _ _ h

@[simp] theorem Regs.setX_v (r : Regs) (n : Nat) (v : Tagged 64) : (r.setX n v).v = r.v := by
  unfold Regs.setX; split <;> rfl

@[simp] theorem Regs.setX_k (r : Regs) (n : Nat) (v : Tagged 64) : (r.setX n v).k = r.k := by
  unfold Regs.setX; split <;> rfl

@[simp] theorem Regs.setK_x (r : Regs) (n : Nat) (v : Tagged 32) : (r.setK n v).x = r.x := by
  unfold Regs.setK; split <;> rfl

@[simp] theorem Regs.setK_v (r : Regs) (n : Nat) (v : Tagged 32) : (r.setK n v).v = r.v := by
  unfold Regs.setK; split <;> rfl

@[simp] theorem Regs.setV_x (r : Regs) (n : Nat) (v : Tagged 256) : (r.setV n v).x = r.x := rfl

@[simp] theorem Regs.setV_k (r : Regs) (n : Nat) (v : Tagged 256) : (r.setV n v).k = r.k := rfl

@[simp] theorem Regs.getV_setX (r : Regs) (n j : Nat) (v : Tagged 64) : (r.setX n v).getV j = r.getV j := by
  simp [Regs.getV]

@[simp] theorem Regs.getK_setX (r : Regs) (n j : Nat) (v : Tagged 64) : (r.setX n v).getK j = r.getK j := by
  simp [Regs.getK]

@[simp] theorem Regs.getX_setV (r : Regs) (n j : Nat) (v : Tagged 256) : (r.setV n v).getX j = r.getX j := rfl

@[simp] theorem Regs.getK_setV (r : Regs) (n j : Nat) (v : Tagged 256) : (r.setV n v).getK j = r.getK j := rfl

@[simp] theorem Regs.getX_setK (r : Regs) (n j : Nat) (v : Tagged 32) : (r.setK n v).getX j = r.getX j := by
  simp [Regs.getX]

@[simp] theorem Regs.getV_setK (r : Regs) (n j : Nat) (v : Tagged 32) : (r.setK n v).getV j = r.getV j := by
  simp [Regs.getV]

end Sys2Proof.Machine
end

