-- ==== Sys2Proof/Laws/Issue.lean ====
section
/-! SUPPORT. What fetching finds and what a turn of a thread comes to, each said once. -/

namespace Sys2Proof.Machine

open Sys2Proof

/-! ## What is found at an address -/

theorem findInstr_instr (c : List Host.Cell) (a : Word) (i : Instr) (n : Nat) (fi : Word)
    (h : decode (fetch c a) = .instr i n fi) : findInstr c a = ⟨i, n, fi⟩ := by
  unfold findInstr; rw [h]

theorem findInstr_illegal (c : List Host.Cell) (a : Word) (n : Nat) (fi : Word)
    (h : decode (fetch c a) = .illegal fi n) : findInstr c a = ⟨.illegalInstruction fi, n, fi⟩ := by
  unfold findInstr; rw [h]

theorem findInstr_emulate (c : List Host.Cell) (a : Word) (n : Nat) (fi : Word)
    (h : decode (fetch c a) = .emulate fi n) : findInstr c a = ⟨.emulationTrap fi, n, fi⟩ := by
  unfold findInstr; rw [h]

/-! ## Waiting -/

theorem shares_nil_right (a : List Nat) : shares a [] = false := by simp [shares]

/-- An instruction that names no register, no slot and no memory never waits for the E-side. -/
theorem State.issueWaits_of_none (s : State) (i : Instr) (hu : usesOf i = Uses.none) (hb : bodyLen i = 0)
    (hr : isRelease i = false) (ht : s.tileRegs i = []) : s.issueWaits i = false := by
  have h1 : s.registerWaits i = false := by simp [State.registerWaits, hu, ht, Uses.none, shares_nil_right, slotsNamed]
  have h2 : s.memoryWaits i = false := by simp [State.memoryWaits, hu, Uses.none]
  have h3 : s.bodyWaits i = false := by simp [State.bodyWaits, hb, State.readBody, shares_nil_right]
  have h4 : s.breakWaits i = false := by
    simp only [State.breakWaits, hu, ht, Uses.none, List.append_nil, List.contains_nil]
    simp only [Bool.and_eq_false_imp, List.any_eq_false]
    intro _ w _
    cases w.file <;> simp
  simp [State.issueWaits, h1, h2, h3, h4, hr]

/-! ## Turns -/

/-- The turn of an A-side that nothing stops: the instruction found runs, unless it is of the E-side or has to wait. -/
theorem State.accessTurn_free (s : State) (defer : Bool) (hrun : s.me.run = .running) (hhold : s.me.hold = none)
    (hmil : s.me.reqs.milestone = false) (hsafe : s.atSafePoint s.cur = none) :
    s.accessTurn defer =
      (if (s.latchA s.foundA).decodeIll s.foundA.instr then .run s.foundA.instr (s.latchA s.foundA)
      else if (usesOf s.foundA.instr).eSide then
        if (s.latchA s.foundA).decodeWaits s.foundA.instr then .next s
        else if s.eIdle && !defer then
          .run s.foundA.instr (State.dropAhead
            { s.latchA s.foundA with latch := { (s.latchA s.foundA).latch with src := .decode } } s.foundA.instr)
        else .next ((s.latchA s.foundA).enqueue s.foundA.instr)
      else if (s.latchA s.foundA).issueWaits s.foundA.instr then .next s
      else .run s.foundA.instr (((s.latchA s.foundA).wheelMarked s.foundA.instr).dropAhead s.foundA.instr)) := by
  unfold State.accessTurn
  rw [if_neg (by simp [hrun]), if_neg (by simp [hhold])]
  simp only [hmil, hsafe, Bool.false_and, Bool.and_false, Option.isSome_none, Bool.false_eq_true, if_false]

/-- An instruction finds the slots as they are where no REPX waits to begin. -/
theorem State.wheelMarked_of_none (s : State) (i : Instr) (h : s.me.equeue.any (·.passes.isSome) = false) :
    s.wheelMarked i = s := by
  have : s.me.equeue.find? (·.passes.isSome) = none := by
    rw [List.find?_eq_none]; intro x hx; simp [List.any_eq_false] at h; simpa using h x hx
  unfold State.wheelMarked; simp [this]

/-- No thread's wait is over in a state: nothing is left to settle. -/
theorem State.settled_of_none (s : State) (h : s.runners.filter s.served = []) : s.settled = s := by
  unfold State.settled; rw [h]; rfl

/-- A turn drops nothing that its thread has fetched ahead where it has fetched nothing. -/
theorem State.dropAhead_of_none (s : State) (i : Instr) (h : s.me.slots.toList.any (fun x => !x.fetched.isEmpty) = false) :
    s.dropAhead i = s := by
  unfold State.dropAhead; simp [h]

/-- The agenda's turn for the A-side of a thread that may run, where no wait is over and no step of the rings falls due. -/
theorem State.plan_access (s : State) (u : ThreadId) (n : Nat) (defer : Bool) (rest : List Slate)
    (h : s.agenda = ⟨.access u, n, defer⟩ :: rest) (hserved : s.runners.filter s.served = [])
    (hdue : s.dueStep (s.now + n) = none) (hst : s.pkg.stopped = false) (hsel : (s.core u.unit).sel = u.set)
    (hrun : (s.thread u).run = .running) (hpart : isCompute u.unit = false ∨ (s.partOfCore u.unit).isSome) :
    s.plan = ({ s with agenda := rest, now := s.now + n, cur := u } : State).accessTurn defer := by
  have hmay : ({ s with agenda := rest, now := s.now + n } : State).mayTurn u = true := by
    simp only [State.mayTurn, Bool.and_eq_true, beq_iff_eq]
    exact ⟨⟨hrun, hsel⟩, by rcases hpart with h | h <;> simp [h]; right; exact h⟩
  unfold State.plan
  simp only [s.settled_of_none hserved]
  rw [h]
  simp only [hdue, State.slateTurn, hmay, if_true]
  rw [if_neg (by simp [hst])]

theorem step_of_run (s : State) (i : Instr) (t : State) (h : s.plan = .run i t) : step s = exec i t := by
  unfold step; rw [h]

end Sys2Proof.Machine
end

