-- ==== Sys2Proof/Laws/Memory.lean ====
section
/-! SUPPORT. Memory keeps its canonical form under every operation, and what it reads after a write. -/

namespace Sys2Proof.Machine

open Sys2Proof

/-! ## Bytes -/

/-- Whether every listed address is above a bound. -/
def above {α : Type} (a : Nat) (c : List (Nat × α)) : Prop := ∀ x ∈ c, a < x.1

theorem cellsWf_cons (a : Nat) (v : Byte) (c : List Host.Cell) :
    cellsWf ((a, v) :: c) = true ↔ v ≠ 0 ∧ above a c ∧ cellsWf c = true := by
  induction c generalizing a v with
  | nil => simp [cellsWf, above]
  | cons x c ih =>
    obtain ⟨b, w⟩ := x
    simp only [cellsWf, Bool.and_eq_true, bne_iff_ne, decide_eq_true_eq, and_assoc]
    constructor
    · rintro ⟨hv, hab, hc⟩
      refine ⟨hv, ?_, hc⟩
      intro y hy
      rcases List.mem_cons.1 hy with rfl | hy
      · exact hab
      · exact Nat.lt_trans hab (((ih b w).1 hc).2.1 y hy)
    · rintro ⟨hv, hab, hc⟩
      exact ⟨hv, hab _ (List.mem_cons_self ..), hc⟩

theorem above_cellPut (k a : Nat) (b : Byte) (c : List Host.Cell) (h : above k c) (ha : k < a) : above k (cellPut c a b) := by
  induction c with
  | nil => unfold cellPut; split <;> simp [above, ha]
  | cons x c ih =>
    obtain ⟨l, v⟩ := x
    have h1 : k < l := h _ (List.mem_cons_self ..)
    have h2 : above k c := fun y hy => h y (List.mem_cons_of_mem _ hy)
    have h3 := ih h2
    unfold cellPut
    split
    · split
      · exact h
      · intro y hy; rcases List.mem_cons.1 hy with rfl | hy
        · exact ha
        · exact h y hy
    · split
      · split
        · exact h2
        · intro y hy; rcases List.mem_cons.1 hy with rfl | hy
          · exact ha
          · exact h2 y hy
      · intro y hy; rcases List.mem_cons.1 hy with rfl | hy
        · exact h1
        · exact h3 y hy

/-- Writing a byte keeps the canonical form. -/
theorem cellsWf_cellPut (c : List Host.Cell) (a : Nat) (b : Byte) (h : cellsWf c = true) : cellsWf (cellPut c a b) = true := by
  induction c with
  | nil => unfold cellPut; split <;> simp_all [cellsWf]
  | cons x c ih =>
    obtain ⟨k, v⟩ := x
    obtain ⟨hv, hk, hc⟩ := (cellsWf_cons k v c).1 h
    unfold cellPut
    split
    · rename_i hak
      split
      · exact h
      · refine (cellsWf_cons a b _).2 ⟨by assumption, ?_, h⟩
        intro y hy; rcases List.mem_cons.1 hy with rfl | hy
        · exact hak
        · exact Nat.lt_trans hak (hk y hy)
    · split
      · split
        · exact hc
        · subst_vars; exact (cellsWf_cons _ _ _).2 ⟨by assumption, hk, hc⟩
      · exact (cellsWf_cons _ _ _).2 ⟨hv, above_cellPut _ _ _ _ hk (by omega), ih hc⟩

/-- Writing bytes keeps the canonical form. -/
theorem cellsWf_cellsPut (bs : List Byte) (c : List Host.Cell) (a : Nat) (h : cellsWf c = true) :
    cellsWf (cellsPut c a bs) = true := by
  induction bs generalizing c a with
  | nil => exact h
  | cons b bs ih => exact ih _ _ (cellsWf_cellPut c a b h)

theorem cellGet_above (c : List Host.Cell) (a k : Nat) (h : above k c) (hk : a ≤ k) : cellGet c a = 0 := by
  induction c with
  | nil => rfl
  | cons x c ih =>
    obtain ⟨l, v⟩ := x
    have h1 : k < l := h _ (List.mem_cons_self ..)
    simp only [cellGet]
    rw [if_neg (by omega)]
    exact ih fun y hy => h y (List.mem_cons_of_mem _ hy)

/-- A byte written reads back, in memory of the canonical form. -/
theorem cellGet_cellPut_self (c : List Host.Cell) (a : Nat) (b : Byte) (h : cellsWf c = true) : cellGet (cellPut c a b) a = b := by
  induction c with
  | nil => unfold cellPut; split <;> simp_all [cellGet]
  | cons x c ih =>
    obtain ⟨k, v⟩ := x
    obtain ⟨_, hk, hc⟩ := (cellsWf_cons k v c).1 h
    unfold cellPut
    split
    · rename_i hak
      split
      · subst_vars
        simp only [cellGet]
        rw [if_neg (by omega)]
        exact cellGet_above c a k hk (by omega)
      · simp [cellGet]
    · split
      · split
        · subst_vars; exact cellGet_above c _ _ hk (Nat.le_refl _)
        · simp [cellGet]
      · simp only [cellGet]
        rw [if_neg (by assumption)]
        exact ih hc

/-- A byte written leaves every other byte. -/
theorem cellGet_cellPut_ne (c : List Host.Cell) (a j : Nat) (b : Byte) (h : j ≠ a) : cellGet (cellPut c a b) j = cellGet c j := by
  induction c with
  | nil => unfold cellPut; split <;> simp [cellGet, Ne.symm h]
  | cons x c ih =>
    obtain ⟨k, v⟩ := x
    unfold cellPut
    split
    · split
      · rfl
      · simp [cellGet, Ne.symm h]
    · split
      · subst_vars
        split <;> simp [cellGet, Ne.symm h]
      · simp [cellGet, ih]

/-- Bytes written leave every byte outside them. -/
theorem cellGet_cellsPut_ne (bs : List Byte) (c : List Host.Cell) (a j : Nat) (h : j < a ∨ a + bs.length ≤ j) :
    cellGet (cellsPut c a bs) j = cellGet c j := by
  induction bs generalizing c a with
  | nil => rfl
  | cons b bs ih =>
    simp only [cellsPut, List.length_cons] at h ⊢
    rw [ih _ _ (by omega)]
    exact cellGet_cellPut_ne _ _ _ _ (by omega)

/-- Byte i of the bytes written reads back. -/
theorem cellGet_cellsPut (bs : List Byte) (c : List Host.Cell) (a i : Nat) (h : cellsWf c = true) (hi : i < bs.length) :
    cellGet (cellsPut c a bs) (a + i) = bs.getD i 0 := by
  induction bs generalizing c a i with
  | nil => simp at hi
  | cons b bs ih =>
    simp only [cellsPut]
    cases i with
    | zero =>
      rw [cellGet_cellsPut_ne _ _ _ _ (by omega)]
      simpa using cellGet_cellPut_self c a b h
    | succ i =>
      have := ih (cellPut c a b) (a + 1) i (cellsWf_cellPut c a b h) (by simpa using hi)
      simpa [Nat.add_assoc, Nat.add_comm 1 i] using this

theorem cellsWf_filter (c : List Host.Cell) (p : Host.Cell → Bool) (h : cellsWf c = true) : cellsWf (c.filter p) = true := by
  induction c with
  | nil => rfl
  | cons x c ih =>
    obtain ⟨k, v⟩ := x
    obtain ⟨hv, hk, hc⟩ := (cellsWf_cons k v c).1 h
    simp only [List.filter_cons]
    split
    · exact (cellsWf_cons _ _ _).2 ⟨hv, fun y hy => hk y (List.mem_filter.1 hy).1, ih hc⟩
    · exact ih hc

theorem cellsWf_append (c d : List Host.Cell) (hc : cellsWf c = true) (hd : cellsWf d = true)
    (h : ∀ x ∈ c, ∀ y ∈ d, x.1 < y.1) : cellsWf (c ++ d) = true := by
  induction c with
  | nil => exact hd
  | cons x c ih =>
    obtain ⟨k, v⟩ := x
    obtain ⟨hv, hk, hc⟩ := (cellsWf_cons k v c).1 hc
    refine (cellsWf_cons _ _ _).2 ⟨hv, ?_, ih hc fun x hx => h x (List.mem_cons_of_mem _ hx)⟩
    intro y hy
    rcases List.mem_append.1 hy with hy | hy
    · exact hk y hy
    · exact h _ (List.mem_cons_self ..) y hy

theorem cellsWf_shift (c : List Host.Cell) (l : Nat) (h : cellsWf c = true) :
    cellsWf (c.map fun x => (x.1 + l, x.2)) = true := by
  induction c with
  | nil => rfl
  | cons x c ih =>
    obtain ⟨k, v⟩ := x
    obtain ⟨hv, hk, hc⟩ := (cellsWf_cons k v c).1 h
    refine (cellsWf_cons _ _ _).2 ⟨hv, ?_, ih hc⟩
    intro y hy
    obtain ⟨z, hz, rfl⟩ := List.mem_map.1 hy
    have := hk z hz
    simpa using this

/-! ## Marks -/

theorem marksWf_cons (a : Nat) (v : Mark) (c : Table Mark) :
    marksWf ((a, v) :: c) = true ↔ v ≠ 0 ∧ above a c ∧ marksWf c = true := by
  induction c generalizing a v with
  | nil => simp [marksWf, above]
  | cons x c ih =>
    obtain ⟨b, w⟩ := x
    simp only [marksWf, Bool.and_eq_true, bne_iff_ne, decide_eq_true_eq, and_assoc]
    constructor
    · rintro ⟨hv, hab, hc⟩
      refine ⟨hv, ?_, hc⟩
      intro y hy
      rcases List.mem_cons.1 hy with rfl | hy
      · exact hab
      · exact Nat.lt_trans hab (((ih b w).1 hc).2.1 y hy)
    · rintro ⟨hv, hab, hc⟩
      exact ⟨hv, hab _ (List.mem_cons_self ..), hc⟩

theorem above_markPut (k a : Nat) (b : Mark) (c : Table Mark) (h : above k c) (ha : k < a) : above k (markPut c a b) := by
  induction c with
  | nil => unfold markPut; split <;> simp [above, ha]
  | cons x c ih =>
    obtain ⟨l, v⟩ := x
    have h1 : k < l := h _ (List.mem_cons_self ..)
    have h2 : above k c := fun y hy => h y (List.mem_cons_of_mem _ hy)
    have h3 := ih h2
    unfold markPut
    split
    · split
      · exact h
      · intro y hy; rcases List.mem_cons.1 hy with rfl | hy
        · exact ha
        · exact h y hy
    · split
      · split
        · exact h2
        · intro y hy; rcases List.mem_cons.1 hy with rfl | hy
          · exact ha
          · exact h2 y hy
      · intro y hy; rcases List.mem_cons.1 hy with rfl | hy
        · exact h1
        · exact h3 y hy

/-- Writing a mark keeps the canonical form. -/
theorem marksWf_markPut (c : Table Mark) (a : Nat) (b : Mark) (h : marksWf c = true) : marksWf (markPut c a b) = true := by
  induction c with
  | nil => unfold markPut; split <;> simp_all [marksWf]
  | cons x c ih =>
    obtain ⟨k, v⟩ := x
    obtain ⟨hv, hk, hc⟩ := (marksWf_cons k v c).1 h
    unfold markPut
    split
    · rename_i hak
      split
      · exact h
      · refine (marksWf_cons a b _).2 ⟨by assumption, ?_, h⟩
        intro y hy; rcases List.mem_cons.1 hy with rfl | hy
        · exact hak
        · exact Nat.lt_trans hak (hk y hy)
    · split
      · split
        · exact hc
        · subst_vars; exact (marksWf_cons _ _ _).2 ⟨by assumption, hk, hc⟩
      · exact (marksWf_cons _ _ _).2 ⟨hv, above_markPut _ _ _ _ hk (by omega), ih hc⟩

theorem marksWf_fold (f : Table Mark → Nat → Mark) (gs : List Nat) (c : Table Mark) (h : marksWf c = true) :
    marksWf (gs.foldl (fun t g => markPut t g (f t g)) c) = true := by
  induction gs generalizing c with
  | nil => exact h
  | cons g gs ih => exact ih _ (marksWf_markPut _ _ _ h)

theorem marksWf_filter (c : Table Mark) (p : Nat × Mark → Bool) (h : marksWf c = true) : marksWf (c.filter p) = true := by
  induction c with
  | nil => rfl
  | cons x c ih =>
    obtain ⟨k, v⟩ := x
    obtain ⟨hv, hk, hc⟩ := (marksWf_cons k v c).1 h
    simp only [List.filter_cons]
    split
    · exact (marksWf_cons _ _ _).2 ⟨hv, fun y hy => hk y (List.mem_filter.1 hy).1, ih hc⟩
    · exact ih hc

theorem markGet_above (c : Table Mark) (a k : Nat) (h : above k c) (hk : a ≤ k) : markGet c a = 0 := by
  induction c with
  | nil => rfl
  | cons x c ih =>
    obtain ⟨l, v⟩ := x
    have h1 : k < l := h _ (List.mem_cons_self ..)
    simp only [markGet]
    rw [if_neg (by omega)]
    exact ih fun y hy => h y (List.mem_cons_of_mem _ hy)

/-- A mark written reads back. -/
theorem markGet_markPut_self (c : Table Mark) (a : Nat) (b : Mark) (h : marksWf c = true) : markGet (markPut c a b) a = b := by
  induction c with
  | nil => unfold markPut; split <;> simp_all [markGet]
  | cons x c ih =>
    obtain ⟨k, v⟩ := x
    obtain ⟨_, hk, hc⟩ := (marksWf_cons k v c).1 h
    unfold markPut
    split
    · rename_i hak
      split
      · subst_vars
        simp only [markGet]
        rw [if_neg (by omega)]
        exact markGet_above c a k hk (by omega)
      · simp [markGet]
    · split
      · split
        · subst_vars; exact markGet_above c _ _ hk (Nat.le_refl _)
        · simp [markGet]
      · simp only [markGet]
        rw [if_neg (by assumption)]
        exact ih hc

/-- A mark written leaves every other mark. -/
theorem markGet_markPut_ne (c : Table Mark) (a j : Nat) (b : Mark) (h : j ≠ a) : markGet (markPut c a b) j = markGet c j := by
  induction c with
  | nil => unfold markPut; split <;> simp [markGet, Ne.symm h]
  | cons x c ih =>
    obtain ⟨k, v⟩ := x
    unfold markPut
    split
    · split
      · rfl
      · simp [markGet, Ne.symm h]
    · split
      · subst_vars
        split <;> simp [markGet, Ne.symm h]
      · simp [markGet, ih]

/-! ## Poison -/

theorem poisonWf_cons (a : Nat) (c : List Nat) : poisonWf (a :: c) = true ↔ (∀ x ∈ c, a < x) ∧ poisonWf c = true := by
  induction c generalizing a with
  | nil => simp [poisonWf]
  | cons b c ih =>
    simp only [poisonWf, Bool.and_eq_true, decide_eq_true_eq]
    constructor
    · rintro ⟨hab, hc⟩
      refine ⟨?_, hc⟩
      intro y hy
      rcases List.mem_cons.1 hy with rfl | hy
      · exact hab
      · exact Nat.lt_trans hab (((ih b).1 hc).1 y hy)
    · rintro ⟨hab, hc⟩
      exact ⟨hab _ (List.mem_cons_self ..), hc⟩

theorem mem_poisonPut (c : List Nat) (g y : Nat) : y ∈ poisonPut c g ↔ y = g ∨ y ∈ c := by
  induction c with
  | nil => simp [poisonPut]
  | cons k c ih =>
    unfold poisonPut
    split
    · simp
    · split
      · subst_vars; simp
      · simp only [List.mem_cons, ih]; exact or_left_comm

theorem poisonWf_poisonPut (c : List Nat) (g : Nat) (h : poisonWf c = true) : poisonWf (poisonPut c g) = true := by
  induction c with
  | nil => rfl
  | cons k c ih =>
    obtain ⟨hk, hc⟩ := (poisonWf_cons k c).1 h
    unfold poisonPut
    split
    · refine (poisonWf_cons _ _).2 ⟨?_, h⟩
      intro y hy; rcases List.mem_cons.1 hy with rfl | hy
      · assumption
      · have := hk y hy; omega
    · split
      · exact h
      · refine (poisonWf_cons _ _).2 ⟨?_, ih hc⟩
        intro y hy
        rcases (mem_poisonPut c g y).1 hy with rfl | hy
        · omega
        · exact hk y hy

theorem poisonWf_fold (gs : List Nat) (c : List Nat) (h : poisonWf c = true) : poisonWf (gs.foldl poisonPut c) = true := by
  induction gs generalizing c with
  | nil => exact h
  | cons g gs ih => exact ih _ (poisonWf_poisonPut _ _ h)

theorem poisonWf_filter (c : List Nat) (p : Nat → Bool) (h : poisonWf c = true) : poisonWf (c.filter p) = true := by
  induction c with
  | nil => rfl
  | cons k c ih =>
    obtain ⟨hk, hc⟩ := (poisonWf_cons k c).1 h
    simp only [List.filter_cons]
    split
    · exact (poisonWf_cons _ _).2 ⟨fun y hy => hk y (List.mem_filter.1 hy).1, ih hc⟩
    · exact ih hc

/-! ## The operations of memory keep the canonical form -/

theorem Memory.wf_iff (m : Memory) : m.wf = true ↔ cellsWf m.cells = true ∧ marksWf m.marks = true ∧ poisonWf m.poison = true := by
  simp [Memory.wf, and_assoc]

theorem Memory.wf_write (m : Memory) (a : Nat) (bs : List Byte) (h : m.wf = true) : (m.write a bs).wf = true := by
  rw [Memory.wf_iff] at *
  exact ⟨cellsWf_cellsPut _ _ _ h.1, h.2.1, h.2.2⟩

theorem Memory.wf_joinMark (m : Memory) (l n : Nat) (k : Mark) (h : m.wf = true) : (m.joinMark l n k).wf = true := by
  rw [Memory.wf_iff] at *
  exact ⟨h.1, marksWf_fold (fun t g => markGet t g ||| k) _ _ h.2.1, h.2.2⟩

theorem Memory.wf_putMark (m : Memory) (l n : Nat) (k : Mark) (h : m.wf = true) : (m.putMark l n k).wf = true := by
  rw [Memory.wf_iff] at *
  exact ⟨h.1, marksWf_fold (fun _ _ => k) _ _ h.2.1, h.2.2⟩

theorem Memory.wf_cleanse (m : Memory) (l n : Nat) (h : m.wf = true) : (m.cleanse l n).wf = true := by
  rw [Memory.wf_iff] at *
  exact ⟨h.1, h.2.1, poisonWf_filter _ _ h.2.2⟩

theorem Memory.wf_taint (m : Memory) (l n : Nat) (h : m.wf = true) : (m.taint l n).wf = true := by
  rw [Memory.wf_iff] at *
  exact ⟨h.1, h.2.1, poisonWf_fold _ _ h.2.2⟩

theorem Memory.wf_store (m : Memory) (l : Nat) (bs : List Byte) (k : Mark) (h : m.wf = true) : (m.store l bs k).wf = true :=
  Memory.wf_cleanse _ _ _ (Memory.wf_joinMark _ _ _ _ (Memory.wf_write _ _ _ h))

theorem Memory.wf_zero (m : Memory) (l n : Nat) (h : m.wf = true) : (m.zero l n).wf = true := by
  rw [Memory.wf_iff] at *
  exact ⟨cellsWf_filter _ _ h.1, marksWf_filter _ _ h.2.1, poisonWf_filter _ _ h.2.2⟩

/-- What n listed bytes come to is canonical and stays below n. -/
theorem payloadForm_wf (n : Nat) (p : List Host.Cell) :
    cellsWf (payloadForm n p) = true ∧ ∀ x ∈ payloadForm n p, x.1 < n := by
  unfold payloadForm
  split
  · rename_i h
    simp only [Bool.and_eq_true, List.all_eq_true, decide_eq_true_eq] at h
    exact ⟨h.1, fun x hx => h.2 x hx⟩
  · have key : ∀ (q c : List Host.Cell), cellsWf c = true → (∀ x ∈ c, x.1 < n) →
        cellsWf (q.foldl (fun t c => if c.1 < n then cellPut t c.1 c.2 else t) c) = true ∧
          ∀ x ∈ q.foldl (fun t c => if c.1 < n then cellPut t c.1 c.2 else t) c, x.1 < n := by
      intro q
      induction q with
      | nil => intro c h1 h2; exact ⟨h1, h2⟩
      | cons y q ih =>
        intro c h1 h2
        simp only [List.foldl_cons]
        split
        · rename_i hy
          refine ih _ (cellsWf_cellPut _ _ _ h1) ?_
          clear ih h1
          induction c with
          | nil => unfold cellPut; split <;> simp [hy]
          | cons z c ih =>
            obtain ⟨k, v⟩ := z
            have hk : k < n := h2 _ (List.mem_cons_self ..)
            have hc : ∀ x ∈ c, x.1 < n := fun x hx => h2 x (List.mem_cons_of_mem _ hx)
            have := ih hc
            unfold cellPut
            split
            · split
              · exact h2
              · intro x hx; rcases List.mem_cons.1 hx with rfl | hx
                · exact hy
                · exact h2 x hx
            · split
              · split
                · exact hc
                · intro x hx; rcases List.mem_cons.1 hx with rfl | hx
                  · exact hy
                  · exact hc x hx
              · intro x hx; rcases List.mem_cons.1 hx with rfl | hx
                · exact hk
                · exact this x hx
        · exact ih _ h1 h2
    exact key p [] rfl (by simp)

theorem Memory.wf_graft (m : Memory) (l n : Nat) (p : List Host.Cell) (h : m.wf = true) : (m.graft l n p).wf = true := by
  rw [Memory.wf_iff] at *
  obtain ⟨hp, hn⟩ := payloadForm_wf n p
  refine ⟨?_, h.2.1, h.2.2⟩
  refine cellsWf_append _ _ (cellsWf_append _ _ (cellsWf_filter _ _ h.1) (cellsWf_shift _ _ hp) ?_) (cellsWf_filter _ _ h.1) ?_
  · intro x hx y hy
    obtain ⟨z, hz, rfl⟩ := List.mem_map.1 hy
    have := (List.mem_filter.1 hx).2
    simp only [decide_eq_true_eq] at this
    simp only; omega
  · intro x hx y hy
    have hy := (List.mem_filter.1 hy).2
    simp only [decide_eq_true_eq] at hy
    rcases List.mem_append.1 hx with hx | hx
    · have := (List.mem_filter.1 hx).2
      simp only [decide_eq_true_eq] at this
      omega
    · obtain ⟨z, hz, rfl⟩ := List.mem_map.1 hx
      have := hn z hz
      simp only; omega

theorem Memory.wf_spread (m : Memory) (ps : List (Nat × Nat × Nat)) (bad : List (Nat × Nat)) (h : m.wf = true) :
    (m.spread ps bad).wf = true := by
  unfold Memory.spread
  induction bad generalizing m with
  | nil => exact h
  | cons b bad ih =>
    simp only [List.foldl_cons]
    refine ih _ ?_
    clear ih
    induction ps generalizing m with
    | nil => exact h
    | cons p ps ih =>
      simp only [List.foldl_cons]
      refine ih _ ?_
      split
      · exact Memory.wf_taint _ _ _ h
      · exact h

/-- A store of a thread or an engine keeps the canonical form. -/
theorem State.wf_put (s : State) (l : Nat) (bs : List Byte) (m : Mark) (r : Bool) (h : s.mem.wf = true) :
    (s.put l bs m r).mem.wf = true := by
  refine Memory.wf_cleanse _ _ _ ?_
  rw [Memory.wf_iff] at *
  exact ⟨cellsWf_cellsPut _ _ _ h.1, marksWf_fold (fun _ g => newMark s.mem g (markSize l) l bs.length m r) _ _ h.2.1, h.2.2⟩

/-! ## Reading after writing -/

@[simp] theorem Memory.get_joinMark (m : Memory) (l n a : Nat) (k : Mark) : (m.joinMark l n k).get a = m.get a := rfl

@[simp] theorem Memory.get_putMark (m : Memory) (l n a : Nat) (k : Mark) : (m.putMark l n k).get a = m.get a := rfl

@[simp] theorem Memory.get_cleanse (m : Memory) (l n a : Nat) : (m.cleanse l n).get a = m.get a := rfl

@[simp] theorem Memory.get_taint (m : Memory) (l n a : Nat) : (m.taint l n).get a = m.get a := rfl

theorem Memory.get_write_ne (m : Memory) (l : Nat) (bs : List Byte) (a : Nat) (h : a < l ∨ l + bs.length ≤ a) :
    (m.write l bs).get a = m.get a := cellGet_cellsPut_ne _ _ _ _ h

theorem Memory.get_write (m : Memory) (l : Nat) (bs : List Byte) (i : Nat) (h : m.wf = true) (hi : i < bs.length) :
    (m.write l bs).get (l + i) = bs.getD i 0 := cellGet_cellsPut _ _ _ _ ((Memory.wf_iff m).1 h).1 hi

theorem State.get_put_ne (s : State) (l : Nat) (bs : List Byte) (m : Mark) (r : Bool) (a : Nat)
    (h : a < l ∨ l + bs.length ≤ a) : (s.put l bs m r).mem.get a = s.mem.get a := cellGet_cellsPut_ne _ _ _ _ h

theorem State.get_put (s : State) (l : Nat) (bs : List Byte) (m : Mark) (r : Bool) (i : Nat) (h : s.mem.wf = true)
    (hi : i < bs.length) : (s.put l bs m r).mem.get (l + i) = bs.getD i 0 :=
  cellGet_cellsPut _ _ _ _ ((Memory.wf_iff s.mem).1 h).1 hi

theorem read_length (m : Memory) (a n : Nat) : (m.read a n).length = n := by
  induction n generalizing a with
  | zero => rfl
  | succ n ih => simp [Memory.read, ih]

/-- Reading the bytes just written gives them back. -/
theorem State.read_put (s : State) (l : Nat) (bs : List Byte) (m : Mark) (r : Bool) (h : s.mem.wf = true) :
    (s.put l bs m r).mem.read l bs.length = bs := by
  have key : ∀ (n k : Nat), k + n = bs.length → (s.put l bs m r).mem.read (l + k) n = bs.drop k := by
    intro n
    induction n with
    | zero => intro k hk; simp only [Memory.read]; rw [List.drop_of_length_le (by omega)]
    | succ n ih =>
      intro k hk
      simp only [Memory.read]
      rw [State.get_put s l bs m r k h (by omega), Nat.add_assoc, ih (k + 1) (by omega)]
      rw [List.drop_eq_getElem_cons (by omega : k < bs.length)]
      congr 1
      simp [List.getD_eq_getElem?_getD, List.getElem?_eq_getElem (by omega : k < bs.length)]
  simpa using key bs.length 0 (by omega)

theorem toBytes_length (n v : Nat) : (toBytes n v).length = n := by
  induction n generalizing v with
  | zero => rfl
  | succ n ih => simp [toBytes, ih]

/-- The little-endian number of the n low bytes of v. -/
theorem ofBytes_toBytes (n v : Nat) : ofBytes (toBytes n v) = v % 2 ^ (8 * n) := by
  induction n generalizing v with
  | zero => simp [toBytes, ofBytes, Nat.mod_one]
  | succ n ih =>
    simp only [toBytes, ofBytes, ih, BitVec.toNat_ofNat]
    have h : 2 ^ (8 * (n + 1)) = 256 * 2 ^ (8 * n) := by rw [Nat.mul_add, Nat.pow_add]; omega
    rw [h, Nat.mod_mul]

/-! ## Numbers of bytes -/

theorem read_add (m : Memory) (a n k : Nat) : m.read a (n + k) = m.read a n ++ m.read (a + n) k := by
  induction n generalizing a with
  | zero => simp [Memory.read]
  | succ n ih => rw [show n + 1 + k = (n + k) + 1 by omega]; simp [Memory.read, ih, Nat.add_assoc, Nat.add_comm 1 n]

theorem ofBytes_append (a b : List Byte) : ofBytes (a ++ b) = ofBytes a + 256 ^ a.length * ofBytes b := by
  induction a with
  | nil => simp [ofBytes]
  | cons x a ih => simp only [List.cons_append, ofBytes, ih, List.length_cons, Nat.pow_succ]; rw [Nat.mul_add, ← Nat.mul_assoc, Nat.mul_comm 256 (256 ^ a.length)]; omega

theorem ofBytes_lt (a : List Byte) : ofBytes a < 256 ^ a.length := by
  induction a with
  | nil => simp [ofBytes]
  | cons x a ih => simp only [ofBytes, List.length_cons, Nat.pow_succ]; have := x.isLt; omega

theorem signExt_mod (v n : Nat) : signExt (v % 2 ^ n) n = signExt v n := by
  unfold signExt sint; rw [Nat.mod_mod]

theorem pow256 (n : Nat) : (256 : Nat) ^ n = 2 ^ (8 * n) := by rw [show (256:Nat) = 2 ^ 8 from rfl, ← Nat.pow_mul]

theorem markGet_fold_notMem (f : Nat → Mark) (gs : List Nat) (c : Table Mark) (g : Nat) (h : g ∉ gs) :
   markGet (gs.foldl (fun t x => markPut t x (f x)) c) g = markGet c g := by
  induction gs generalizing c with
  | nil => rfl
  | cons k gs ih =>
    simp only [List.mem_cons, not_or] at h
    rw [List.foldl_cons, ih _ h.2, markGet_markPut_ne _ _ _ _ h.1]

theorem markGet_fold_mem (f : Nat → Mark) (gs : List Nat) (c : Table Mark) (g : Nat) (hw : marksWf c = true) (h : g ∈ gs) :
   markGet (gs.foldl (fun t x => markPut t x (f x)) c) g = f g := by
  induction gs generalizing c with
  | nil => cases h
  | cons k gs ih =>
    rw [List.foldl_cons]
    by_cases hg : g ∈ gs
    · exact ih _ (marksWf_markPut _ _ _ hw) hg
    · rw [markGet_fold_notMem _ _ _ _ hg]
      rcases List.mem_cons.1 h with rfl | h
      · exact markGet_markPut_self _ _ _ hw
      · exact absurd h hg

theorem byte_toBytes (n v i : Nat) (h : i < n) : (toBytes n v).getD i 0 = BitVec.ofNat 8 (v / 256 ^ i) := by
  induction n generalizing v i with
  | zero => omega
  | succ n ih =>
    cases i with
    | zero => simp [toBytes]
    | succ i =>
      have := ih (v / 256) i (by omega)
      simp only [toBytes, List.getD_cons_succ, this]
      rw [Nat.div_div_eq_div_mul, Nat.pow_succ, Nat.mul_comm 256]

end Sys2Proof.Machine
end

