-- ==== Sys2Proof/Laws/Scalar.lean ====
section
/-! SUPPORT. What the shared operations of the A-side do, each said once: running, writing a result, loading, storing. -/

namespace Sys2Proof.Machine

open Sys2Proof Safety

/-! ## Running -/

/-- An A-side instruction whose effect completes answers the state after its effect. -/
theorem runA_ok (i : Instr) (body : State → Run?) (s t : State) (h : body s.advance = .ok t) : runA i body s = .next t := by
  unfold runA; rw [h]

/-- An A-side instruction whose effect does not complete answers what becomes of it. -/
theorem runA_error (i : Instr) (body : State → Run?) (s : State) (e : Halt) (h : body s.advance = .error e) :
    runA i body s = .next (s.halt i e) := by
  unfold runA; rw [h]

/-! ## The rest of the state -/

theorem onlyThread_setMe (s : State) (x : Thread) : OnlyThread s (s.setMe x) :=
  ⟨rfl, fun _ => rfl, fun k h => s.threadAt_setMe_ne x k h⟩

theorem onlyThread_trans {s t u : State} (h : OnlyThread s t) (g : OnlyThread t u) : OnlyThread s u := by
  have hc : t.cur = s.cur := by have := congrArg State.cur h.rest; exact this
  refine ⟨?_, fun a => (g.bytes a).trans (h.bytes a), fun k hk => (g.others k (hc ▸ hk)).trans (h.others k hk)⟩
  have e := g.rest
  have e2 : ({ u with threads := s.threads } : State) = { ({ u with threads := t.threads } : State) with threads := s.threads } := rfl
  rw [e2, e]; exact h.rest

theorem onlyThread_advance (s : State) : OnlyThread s s.advance := onlyThread_setMe _ _

/-! ## Value windows -/

/-- Closing the windows of the register written leaves the others. -/
theorem windowsAfter_close (s t : State) (f : RegFile) (d : Nat) (h : t.me.windows = closeWindows f d s.me.windows) :
    WindowsAfter s t f d 0 := by
  refine ⟨?_, ?_, ?_⟩ <;> rw [h]
  · intro w hw _; exact (List.mem_filter.1 hw).1
  · intro w hw hn _; exact List.mem_filter.2 ⟨hw, by simpa [Classical.or_iff_not_imp_left] using hn⟩
  · intro w hw h1 h2
    have := (List.mem_filter.1 hw).2
    simp [h1, h2] at this

/-- Opening a window on the register written, after what else is open was kept as far as it covers an instruction. -/
theorem windowsAfter_open (s t : State) (f : RegFile) (d len : Nat) (p : Window → Bool) (hl : len ≠ 0)
    (hp : ∀ w, s.stillOpen w = true → p w = true)
    (h : t.me.windows = (closeWindows f d s.me.windows).filter p ++
      [⟨f, d, s.me.regs.wide f d, s.latch.seq, s.latch.seq + len⟩]) : WindowsAfter s t f d len := by
  refine ⟨?_, ?_, ?_⟩ <;> rw [h]
  · intro w hw hn
    rcases List.mem_append.1 hw with hw | hw
    · exact (List.mem_filter.1 (List.mem_filter.1 hw).1).1
    · rw [List.mem_singleton.1 hw] at hn; exact absurd ⟨rfl, rfl⟩ hn
  · intro w hw hn ho
    exact List.mem_append_left _ (List.mem_filter.2 ⟨List.mem_filter.2 ⟨hw, by simpa [Classical.or_iff_not_imp_left] using hn⟩, hp w ho⟩)
  · intro w hw h1 h2
    rcases List.mem_append.1 hw with hw | hw
    · have := (List.mem_filter.1 (List.mem_filter.1 hw).1).2
      simp [h1, h2] at this
    · exact ⟨hl, List.mem_singleton.1 hw⟩

/-- A window that covers an instruction to come still does when the running A-side instruction has issued. -/
theorem stillOpen_advance (s : State) (w : Window) (h : s.stillOpen w = true) : s.advance.stillOpen w = true := by
  unfold State.stillOpen at *
  rw [State.me_advance]
  have e : s.advance.latch = s.latch := rfl
  rw [e]
  simp only [windowLeft, bne_iff_ne, ne_eq, Thread.eplaces] at *
  have h1 : Nat.max (s.latch.seq + 1) (s.latch.seq + 1) = s.latch.seq + 1 := Nat.max_self _
  have h2 : s.latch.seq + 1 ≤ Nat.max s.me.seq (s.latch.seq + 1) := Nat.le_max_right _ _
  rw [h1]
  omega

/-! ## Results -/

/-- A result written by an A-side instruction. -/
theorem wroteX_result (s : State) (d : Reg) (v : Word) (m : Mark) :
    WroteX s (s.advance.result d v m) d v (m ||| s.base) := by
  have hd : d.toNat < 32 := d.isLt
  refine ⟨?_, ?_, ?_, ?_, ?_, ?_, ?_, ?_⟩
  · unfold XHolds
    simp only [State.result, State.me_writeX, State.me_advance, State.base_advance]
    split
    · next h => rw [h]; rfl
    · next h => exact Regs.getX_setX _ _ _ h hd
  · intro n hn
    simp only [State.result, State.me_writeX, State.me_advance]
    exact Regs.getX_setX_ne _ _ _ _ (by simpa using hn)
  · intro n _; simp [State.result]
  · intro n _; simp [State.result]
  · exact windowsAfter_close _ _ _ _ (by simp [State.result])
  · unfold ControlKept; simp [State.result]
  · unfold Passed; simp [State.result]
  · exact onlyThread_trans (onlyThread_advance s) (onlyThread_setMe _ _)

/-- What an A-side form that only computes a result answers. -/
theorem answers_result (i : Instr) (s : State) (d : Reg) (v : Word) (m k : Mark) (body : State → Run?)
    (h : exec i s = runA i body s) (hb : body s.advance = .ok (s.advance.result d v m)) (hk : k = m ||| s.base) :
    Answers i s fun t => WroteX s t d v k :=
  ⟨_, h.trans (runA_ok _ _ _ _ hb), hk ▸ wroteX_result s d v m⟩

/-! ## The local window -/

/-- An access in the thread's ranges resolves to its location. -/
theorem resolve00_of_localAt (s : State) (a : Word) (n l : Nat) (write : Bool) (h : LocalAt s a n l) :
    s.resolve00 s.agent a n write false = .ok (.loc l) := by
  obtain ⟨hn, h⟩ := h
  unfold State.resolve00
  rcases h with ⟨h1, h2, h3, hl⟩ | ⟨hc, h1, h2, h3, h4, h5, hl⟩ <;> rw [hl]
  · rw [if_pos (by omega)]
    dsimp only
    have hu : s.agent.unit = s.cur.unit := rfl
    rw [if_neg (by omega), if_neg (by omega), hu]
  · rw [if_neg (by omega), if_pos (by rw [Bool.and_eq_true, Bool.and_eq_true, decide_eq_true_iff, decide_eq_true_iff]; exact ⟨⟨hc, h1⟩, by omega⟩)]
    dsimp only
    rw [if_neg (by omega), if_neg (by omega)]
    rw [if_neg (by
      have : s.inWindow (clusterOf s.agent.unit) (a.toNat - 1048576) n = false := h5
      rw [this]; simp)]
    rfl

theorem field_space_of_localAt (s : State) (a : Word) (n l : Nat) (h : LocalAt s a n l) : field a 63 62 = 0 := by
  obtain ⟨hn, h⟩ := h
  have : a.toNat < 0x200000 := by rcases h with h | h <;> omega
  have hd : a.toNat / 2 ^ 62 = 0 := Nat.div_eq_of_lt (by omega)
  simp only [field, bits, hd, Nat.zero_mod]

theorem localAt_advance (s : State) (a : Word) (n l : Nat) (h : LocalAt s a n l) : LocalAt s.advance a n l := by
  have hag : s.advance.agent = s.agent := by
    unfold State.agent
    rw [State.kept_advance, State.me_advance]
    have : s.advance.partOf s.advance.cur = s.partOf s.cur := by
      unfold State.partOf
      rw [show s.advance.thread s.advance.cur = s.advance.me from rfl, State.me_advance]
      rfl
    rw [this]; rfl
  unfold LocalAt at *
  rw [hag]
  exact h

/-- A load in the thread's ranges reads its bytes with the join of their lines' marks. -/
theorem loadL_of_localAt (s : State) (a : Word) (n l : Nat) (h : LocalAt s a n l) (hc : Clean s l n) :
    s.loadL a n = .ok (ofBytes (s.mem.read l n), s.mem.markOf l n) := by
  unfold State.loadL
  rw [if_pos (field_space_of_localAt s a n l h), resolve00_of_localAt s a n l false h]
  have : s.poisonAt a l n = none := by unfold State.poisonAt; rw [hc]; rfl
  simp [State.loadLoc, this, bind, Except.bind]

/-- A store in the thread's ranges puts its bytes with their mark. -/
theorem storeL_of_localAt (s : State) (a : Word) (bs : List Byte) (m : Mark) (l : Nat) (h : LocalAt s a bs.length l)
    (hc : Clean s l bs.length) (hu : UnderCeil s l bs.length m) : s.storeL a bs m = .ok (s.put l bs m false) := by
  unfold State.storeL
  rw [if_pos (field_space_of_localAt s a _ l h), resolve00_of_localAt s a _ l true h]
  have : s.storePoison a l bs.length = none := by unfold State.storePoison; rw [hc]; rfl
  have hz : s.overCeil l bs.length m = 0 := hu
  simp [State.checkLoc, this, hz, bind, Except.bind]

/-- What an A-side store of bytes at a location leaves. -/
theorem wroteMem_put (s : State) (l n v : Nat) (bs : List Byte) (m : Mark) (hw : s.mem.wf = true) (hn : bs.length = n)
   (hb : ∀ i, i < n → bs.getD i 0 = BitVec.ofNat 8 (v / 256 ^ i)) : WroteMem s (s.advance.put l bs m false) l n v m := by
  have hme : (s.advance.put l bs m false).me = s.advance.me := State.me_put _ _ _ _ _
  refine ⟨⟨?_, ?_⟩, ?_, ?_, ?_, ?_, ?_, ?_, ?_, ?_⟩
  · intro i hi
    exact (State.get_put s.advance l bs m false i hw (by omega)).trans (hb i hi)
  · intro a ha
    exact State.get_put_ne _ _ _ _ _ _ (by rwa [hn])
  · intro g hg
    have : markGet (s.advance.put l bs m false).mem.marks g = newMark s.mem g (markSize l) l bs.length m false :=
      markGet_fold_mem (fun g => newMark s.mem g (markSize l) l bs.length m false) _ _ g ((Memory.wf_iff _).1 hw).2.1 (by rwa [hn])
    rw [this]; rfl
  · intro k _; rw [hme]; simp
  · intro k _; rw [hme]; simp
  · intro k _; rw [hme]; simp
  · unfold WindowsSame; rw [hme]; simp
  · unfold ControlKept; rw [hme]; simp
  · unfold Passed; rw [hme]; simp
  · exact OnlyThreadMem.mk rfl (fun k hk => s.threadAt_setMe_ne _ k hk)

end Sys2Proof.Machine
end

