-- ==== Sys2Proof/Laws/Vector.lean ====
section
/-! SUPPORT. What the shared operations of the E-side do, each said once: running with no open slot bound, writing lanes
of a v register, writing a mask, retiring. -/

namespace Sys2Proof.Machine

open Sys2Proof Safety

/-! ## Running -/

/-- The state in which the effect of an E-side instruction begins: one instruction less in a branch outcome's range. -/
def State.issued (s : State) : State := s.setMe { s.me with rcnt := s.me.rcnt - 1 }

@[simp] theorem State.me_issued (s : State) : s.issued.me = { s.me with rcnt := s.me.rcnt - 1 } := s.me_setMe _

@[simp] theorem State.slot_issued (s : State) (n : Nat) : s.issued.slot n = s.slot n := by simp [State.slot]

@[simp] theorem State.fibre_issued (s : State) (n : Nat) : s.issued.fibre n = s.fibre n := by simp [State.fibre]

@[simp] theorem State.windowOn_issued (s : State) (f : RegFile) (n : Nat) : s.issued.windowOn f n = s.windowOn f n := by
  unfold State.windowOn; rw [State.me_issued]; rfl

@[simp] theorem State.kept_issued (s : State) (k : Nat) : s.issued.kept k = s.kept k := rfl

@[simp] theorem State.latch_issued (s : State) : s.issued.latch = s.latch := rfl

@[simp] theorem State.cur_issued (s : State) : s.issued.cur = s.cur := rfl

@[simp] theorem State.mem_issued (s : State) : s.issued.mem = s.mem := rfl

@[simp] theorem State.base_issued (s : State) : s.issued.base = s.base := by
  simp [State.base, State.cmarkNow]

@[simp] theorem State.readX_issued (s : State) (n : Nat) : s.issued.readX n = s.readX n := by
  unfold State.readX; rw [State.windowOn_issued, State.me_issued]; rfl

@[simp] theorem State.readV_issued (s : State) (n : Nat) : s.issued.readV n = s.readV n := by
  unfold State.readV; rw [State.windowOn_issued, State.me_issued]

@[simp] theorem State.readK_issued (s : State) (n : Nat) : s.issued.readK n = s.readK n := by
  simp only [State.readK, State.me_issued]

@[simp] theorem State.x_issued (s : State) (r : Reg) : s.issued.x r = s.x r := by simp [State.x]

@[simp] theorem State.xm_issued (s : State) (r : Reg) : s.issued.xm r = s.xm r := by simp [State.xm]

@[simp] theorem State.v_issued (s : State) (r : Reg) : s.issued.v r = s.v r := by simp [State.v]

@[simp] theorem State.frm_issued (s : State) : s.issued.frm = s.frm := by simp [State.frm]

@[simp] theorem State.operandMarks_issued (s : State) (i : Instr) : s.issued.operandMarks i = s.operandMarks i := by
  simp only [State.operandMarks, State.readX_issued, State.readV_issued, State.readK_issued]

@[simp] theorem State.rmark_issued (s : State) (i : Instr) : s.issued.rmark i = s.rmark i := by simp [State.rmark]

@[simp] theorem State.pushes_issued (s : State) (n : Nat) : s.issued.pushes n = s.pushes n := by simp [State.pushes]

@[simp] theorem State.stillOpen_issued (s : State) (w : Window) : s.issued.stillOpen w = s.stillOpen w := by
  unfold State.stillOpen; rw [State.me_issued]; rfl

@[simp] theorem State.windowsFull_issued (s : State) (w : Win) (f : RegFile) (d : Nat) :
    s.issued.windowsFull w f d = s.windowsFull w f d := by
  unfold State.windowsFull; simp only [State.stillOpen_issued]; rw [State.me_issued]; rfl

/-- A v register that no open slot is bound to is not pushed. -/
theorem pushes_of_unbound (s : State) (n : Nat) (h : Unbound s n) : s.pushes n = false := by
  unfold State.pushes
  by_cases hn : 28 ≤ n
  · rw [h.1 hn]; simp
  · simp [hn]

/-- Registers that no open slot is bound to are used rightly. -/
theorem slotIllegal_of_unbound (s : State) (u : Uses) (h : ∀ n, n ∈ u.vr ++ u.vw → Unbound s n) : s.slotIllegal u = false := by
  unfold State.slotIllegal
  rw [Bool.or_eq_false_iff, List.any_eq_false, List.any_eq_false]
  refine ⟨fun n hn => ?_, fun n hn => ?_⟩
  · have := (h n (List.mem_append_left _ hn)).1
    by_cases h28 : 28 ≤ n
    · rw [this h28]; simp
    · simp [h28]
  · have h1 := (h n (List.mem_append_right _ hn)).1
    have h2 := (h n (List.mem_append_right _ hn)).2
    by_cases h28 : 28 ≤ n
    · rw [h1 h28]; simp; omega
    · by_cases h26 : 26 ≤ n
      · rw [h2 (by omega)]; simp [h28]
      · simp [h28, h26]

/-- A fold whose every step leaves the accumulator alone. -/
theorem foldl_fixed {α β : Type} (f : α → β → α) (a : α) (l : List β) (h : ∀ x, x ∈ l → f a x = a) : l.foldl f a = a := by
  induction l with
  | nil => rfl
  | cons x t ih =>
    rw [List.foldl_cons, h x (by simp)]
    exact ih (fun y hy => h y (List.mem_cons_of_mem _ hy))

/-- Registers that no open slot is bound to pop nothing. -/
theorem takeOperands_of_unbound (s : State) (u : Uses) (h : ∀ n, n ∈ u.vr → Unbound s n) : s.takeOperands u = (s, none) := by
  have hp : ∀ n, n < 4 → ((s.slot n).opened && !(s.slot n).wr && u.vr.contains (28 + n)) = false := by
    intro n _
    cases hc : u.vr.contains (28 + n)
    · simp
    · have := (h _ (by simpa using hc)).1 (by omega)
      rw [show 28 + n - 28 = n by omega] at this
      rw [this]; simp
  have hf : ∀ n, n < 2 → ((s.fibre n).opened && u.vr.contains (26 + n)) = false := by
    intro n hn
    cases hc : u.vr.contains (26 + n)
    · simp
    · have := (h _ (by simpa using hc)).2 (by omega)
      rw [show 26 + n - 26 = n by omega] at this
      rw [this]; simp
  unfold State.takeOperands
  dsimp only
  rw [foldl_fixed _ (s, none) [0, 1, 2, 3]]
  · apply foldl_fixed
    intro n hn
    rw [if_neg (by rw [hf n (by simp at hn; omega)]; simp)]
  · intro n hn
    rw [if_neg (by rw [hp n (by simp at hn; omega)]; simp)]

theorem giveBack_of_unbound (s t : State) (u : Uses) (h : ∀ n, n ∈ u.vr → Unbound s n) : t.giveBack u s = t := by
  have hf : ∀ n, n < 2 → ((s.fibre n).opened && u.vr.contains (26 + n)) = false := by
    intro n hn
    cases hc : u.vr.contains (26 + n)
    · simp
    · have := (h _ (by simpa using hc)).2 (by omega)
      rw [show 26 + n - 26 = n by omega] at this
      rw [this]; simp
  unfold State.giveBack
  dsimp only
  apply foldl_fixed
  intro n hn
  rw [if_neg (by rw [hf n (by simp at hn; omega)]; simp)]

/-- `bindsOf` names only registers that the instruction uses. -/
theorem mem_bindsOf (i : Instr) (n : Nat) (h : n ∈ (bindsOf i).vr ++ (bindsOf i).vw) : n ∈ (usesOf i).vr ++ (usesOf i).vw := by
  revert h
  unfold bindsOf
  split
  · simp only [usesOf, List.mem_append, List.mem_singleton]
    rintro (h | rfl)
    · exact .inl h
    · left; split <;> simp
  · exact id

/-- With no open slot bound, an instruction's operands are its registers. -/
theorem withOperands_of_unbound (i : Instr) (body : State → Run?) (s : State)
    (h : ∀ n, n ∈ (usesOf i).vr ++ (usesOf i).vw → Unbound s n) : withOperands i body s = body s := by
  unfold withOperands
  dsimp only
  rw [slotIllegal_of_unbound _ _ (fun n hn => h n (mem_bindsOf i n hn)), if_neg (by simp),
    takeOperands_of_unbound _ _ (fun n hn => h n (List.mem_append_left _ hn))]
  dsimp only
  cases hb : body s with
  | ok t =>
    dsimp only
    rw [giveBack_of_unbound _ _ _ (fun n hn => h n (List.mem_append_left _ hn))]
  | error e => rfl

theorem unbound_issued (s : State) (n : Nat) (h : Unbound s n) : Unbound s.issued n := by
  unfold Unbound at *; simpa using h

/-- An E-side instruction that is not suppressed, with no open slot bound, has its effect and retires. -/
theorem runE_ok (i : Instr) (body : State → Run?) (s t : State) (hl : Live s)
    (h : ∀ n, n ∈ (usesOf i).vr ++ (usesOf i).vw → Unbound s n) (hb : body s.issued = .ok t) :
    runE i body s = .next t.retireE := by
  unfold runE
  dsimp only
  rw [if_neg (by rintro ⟨h1, h2⟩; rcases hl with hl | hl <;> simp_all)]
  have := withOperands_of_unbound i body s.issued (fun n hn => unbound_issued s n (h n hn))
  rw [show s.setMe { s.me with rcnt := s.me.rcnt - 1 } = s.issued from rfl, this, hb]

/-- An E-side instruction in a suppressed range retires without an effect (R162). -/
theorem runE_suppressed (i : Instr) (body : State → Run?) (s : State) (h1 : s.me.rcnt ≠ 0) (h2 : s.me.rout = false) :
    runE i body s = .next s.issued.retireE := by
  unfold runE
  dsimp only
  rw [if_pos ⟨h1, h2⟩]; rfl

/-! ## Retiring -/

@[simp] theorem State.retireE_mem (s : State) : s.retireE.mem = s.mem := by
  unfold State.retireE; split
  · rfl
  · dsimp only; split <;> rfl
  · rfl
  · rfl

@[simp] theorem State.retireE_cur (s : State) : s.retireE.cur = s.cur := by
  unfold State.retireE; split
  · rfl
  · dsimp only; split <;> rfl
  · rfl
  · rfl

/-- Retiring changes nothing but the running thread. -/
theorem retireE_setMe (s : State) : ∃ x, s.retireE = s.setMe x := by
  unfold State.retireE; split
  · exact ⟨_, rfl⟩
  · dsimp only; split <;> exact ⟨_, rfl⟩
  · exact ⟨_, rfl⟩
  · exact ⟨_, rfl⟩

@[simp] theorem State.retireE_regs (s : State) : s.retireE.me.regs = s.me.regs := by
  unfold State.retireE; split
  · simp
  · dsimp only; split <;> simp
  · simp
  · simp

@[simp] theorem State.retireE_windows (s : State) : s.retireE.me.windows = s.me.windows := by
  unfold State.retireE; split
  · simp
  · dsimp only; split <;> simp
  · simp
  · simp

@[simp] theorem State.retireE_fflags (s : State) : s.retireE.me.csr.fflags = s.me.csr.fflags := by
  unfold State.retireE; split
  · simp
  · dsimp only; split <;> simp
  · simp
  · simp

/-- What retiring leaves of a running thread that differs from the one before in registers, windows, FFLAGS and the
count of a branch outcome's range only. -/
theorem completed_retireE (s t : State) (hl : t.latch = s.latch)
    (hm : { t.me with regs := s.me.regs, windows := s.me.windows, rcnt := s.me.rcnt, csr := s.me.csr } = s.me)
    (hc : { t.me.csr with fflags := s.me.csr.fflags } = s.me.csr) : Completed s t.retireE := by
  have hq : t.me.equeue = s.me.equeue := by have := congrArg Thread.equeue hm; exact this
  have hw : t.me.wheel = s.me.wheel := by have := congrArg Thread.wheel hm; exact this
  have hp : t.me.pc = s.me.pc := by have := congrArg Thread.pc hm; exact this
  have hs : t.me.csr.statusMark = s.me.csr.statusMark := by have := congrArg Csrs.statusMark hc; exact this
  have hv : t.me.csr.wstatMark = s.me.csr.wstatMark := by have := congrArg Csrs.wstatMark hc; exact this
  refine ⟨?_, ?_, ?_, ?_⟩
  · unfold Retired State.retireE Passed
    rw [hl]
    cases s.latch.src
    · simp [hq, hw]
    · simp [hq, hw]
    · simp [hq, hw, hp]
    · dsimp only
      rw [hw]
      split <;> simp [hq, hp]
  · have e : ∀ x : Thread, { x with regs := s.me.regs, windows := s.me.windows, rcnt := s.me.rcnt, csr := s.me.csr } = s.me →
        { x with regs := s.me.regs, windows := s.me.windows, pc := s.me.pc, seq := s.me.seq, equeue := s.me.equeue
                 wheel := s.me.wheel, eWait := s.me.eWait, rcnt := s.me.rcnt, csr := s.me.csr } = s.me := by
      intro x hx
      rw [← hx]
    unfold State.retireE
    rw [hl]
    cases s.latch.src
    · simpa using e _ hm
    · simpa using e _ hm
    · simpa using e _ hm
    · dsimp only
      split
      · simpa using e _ hm
      · simpa using e _ hm
  · unfold State.retireE
    have e : ∀ x : Csrs, { x with fflags := s.me.csr.fflags } = s.me.csr →
        { x with fflags := s.me.csr.fflags, wstatMark := s.me.csr.wstatMark
                 statusMark := s.me.csr.statusMark } = s.me.csr := by
      intro x hx; rw [← hx]
    rw [hl]
    cases s.latch.src
    · simpa using e _ hc
    · simpa using e _ hc
    · simpa using e _ hc
    · dsimp only
      split
      · simpa using e _ hc
      · simpa using e _ hc
  · intro hw'
    unfold State.retireE
    rw [hl]
    revert hw'
    cases s.latch.src <;> simp [hs, hv]

/-! ## Lanes -/

theorem ofLanes_cons (n w a : Nat) (l : List Nat) :
    (ofLanes n w (a :: l)) = BitVec.ofNat n (a % 2 ^ w + 2 ^ w * l.foldr (fun x acc => x % 2 ^ w + 2 ^ w * acc) 0) := rfl

theorem foldr_lane (w : Nat) (l : List Nat) (j : Nat) :
    l.foldr (fun x acc => x % 2 ^ w + 2 ^ w * acc) 0 / 2 ^ (w * j) % 2 ^ w = l.getD j 0 % 2 ^ w := by
  induction l generalizing j with
  | nil => simp
  | cons a t ih =>
    cases j with
    | zero =>
      simp
    | succ j =>
      have hp : 0 < 2 ^ w := Nat.two_pow_pos w
      rw [List.foldr_cons, Nat.mul_succ, Nat.add_comm (w * j) w, Nat.pow_add, ← Nat.div_div_eq_div_mul,
        Nat.add_mul_div_left _ _ hp, Nat.div_eq_of_lt (Nat.mod_lt _ hp), Nat.zero_add, ih]
      simp

theorem foldr_lane_lt (w : Nat) (l : List Nat) :
    l.foldr (fun x acc => x % 2 ^ w + 2 ^ w * acc) 0 < 2 ^ (w * l.length) := by
  induction l with
  | nil => simp
  | cons a t ih =>
    have hp : 0 < 2 ^ w := Nat.two_pow_pos w
    rw [List.foldr_cons, List.length_cons, Nat.mul_succ, Nat.pow_add]
    have h1 := Nat.mod_lt a hp
    have h2 := Nat.mul_le_mul_left (2 ^ w) ih
    rw [Nat.mul_succ, Nat.mul_comm (2 ^ w) (2 ^ (w * t.length))] at h2
    omega

/-- A lane of the value whose lanes are listed. -/
theorem lane_ofLanes (n w : Nat) (l : List Nat) (j : Nat) (h : w * l.length ≤ n) :
    lane (ofLanes n w l) w j = l.getD j 0 % 2 ^ w := by
  have hlt := foldr_lane_lt w l
  have hle : 2 ^ (w * l.length) ≤ 2 ^ n := Nat.pow_le_pow_right (by omega) h
  unfold lane ofLanes
  rw [BitVec.toNat_ofNat, Nat.mod_eq_of_lt (Nat.lt_of_lt_of_le hlt hle)]
  exact foldr_lane w l j

theorem getD_map_range (n : Nat) (f : Nat → Nat) (j : Nat) (h : j < n) : ((List.range n).map f).getD j 0 = f j := by
  simp [List.getD, h]

/-- A lane of the value that a function of the lane number gives. -/
theorem lane_ofLanes_range (w : Nat) (hw : w * (256 / w) ≤ 256) (f : Nat → Nat) (j : Nat) (h : j < 256 / w) :
    lane (ofLanes 256 w ((List.range (256 / w)).map f)) w j = f j % 2 ^ w := by
  rw [lane_ofLanes _ _ _ _ (by simpa using hw), getD_map_range _ _ _ h]

theorem lane_mod {n : Nat} (v : BitVec n) (w i : Nat) : lane v w i % 2 ^ w = lane v w i := by
  unfold lane; rw [Nat.mod_mod]

/-- What WriteV leaves in a register that no slot is bound to: the value and mark of R13. -/
theorem writeV_unbound (s : State) (n : Nat) (val : BitVec 256) (w : Nat) (mk : BitVec 32) (m : Mark)
    (h : s.pushes n = false) :
    s.writeV n val w mk m =
      .ok (s.putV n
        (if ((List.range (256 / w)).all fun i => mk.getLsbD i) then val
          else ofLanes 256 w ((List.range (256 / w)).map fun i => if mk.getLsbD i then lane val w i else lane (s.readV n).val w i))
        (if ((List.range (256 / w)).all fun i => mk.getLsbD i) then m else m ||| (s.readV n).mark)) := by
  unfold State.writeV
  dsimp only
  rw [h, if_neg (by simp)]

theorem full_iff (s : State) (k : KReg) (w : Nat) :
    ((List.range (256 / w)).all fun i => (mask s k).getLsbD i) = true ↔ Full s k w := by
  simp [Full]

/-- The lanes and the mark that WriteV leaves meet R13. -/
theorem lanes_writeV (s : State) (d : Reg) (k : KReg) (w : Nat) (hw : w * (256 / w) ≤ 256) (val : BitVec 256)
    (f : Nat → Nat) (m : Mark) (hv : ∀ j, j < 256 / w → lane val w j = f j % 2 ^ w) :
    Lanes s d k w f m
      ⟨if ((List.range (256 / w)).all fun i => (mask s k).getLsbD i) then val
          else ofLanes 256 w ((List.range (256 / w)).map fun i =>
            if (mask s k).getLsbD i then lane val w i else lane (s.readV d.toNat).val w i),
       if ((List.range (256 / w)).all fun i => (mask s k).getLsbD i) then m else m ||| (s.readV d.toNat).mark⟩ := by
  by_cases hf : Full s k w
  · rw [if_pos ((full_iff s k w).2 hf), if_pos ((full_iff s k w).2 hf)]
    refine ⟨fun j hj => ?_, fun _ => rfl, fun h => absurd hf h⟩
    rw [hf j hj, if_pos rfl]; exact hv j hj
  · have hn := mt (full_iff s k w).1 hf
    rw [if_neg hn, if_neg hn]
    refine ⟨fun j hj => ?_, fun h => absurd h hf, fun _ => rfl⟩
    dsimp only
    rw [lane_ofLanes_range w hw _ j hj]
    split
    · rw [lane_mod]; exact hv j hj
    · exact lane_mod _ _ _

/-! ## Results -/

/-- What an E-side instruction that writes one v register leaves when it retires. -/
theorem wroteV_retireE (s : State) (d : Reg) (v : BitVec 256) (m : Mark) :
    WroteV s (s.issued.putV d.toNat v m).retireE d v m := by
  have hd : d.toNat < 32 := d.isLt
  refine ⟨?_, ?_, ?_, ?_, ?_, ?_, ?_⟩
  · simp [Regs.getV_setV _ _ _ hd]
  · intro n _; simp
  · intro n hn; simp [Regs.getV_setV_ne _ _ _ _ (by simpa using hn)]
  · intro n _; simp
  · exact windowsAfter_close _ _ _ _ (by simp)
  · exact completed_retireE s _ rfl (by simp) (by simp)
  · obtain ⟨x, hx⟩ := retireE_setMe (s.issued.putV d.toNat v m)
    rw [hx]
    exact onlyThread_trans (onlyThread_trans (onlyThread_setMe s _) (onlyThread_setMe _ _)) (onlyThread_setMe _ _)

@[simp] theorem State.me_setFlags (s : State) (f : FFlags) (m : Mark) :
    (s.setFlags f m).me = { s.me with csr := { s.me.csr with
      fflags := ⟨s.me.csr.fflags.val ||| f.setWidth 64, s.me.csr.fflags.mark ||| m⟩ } } := by
  simp [State.setFlags]

/-- The same with flags raised. -/
theorem wroteV_flags_retireE (s : State) (d : Reg) (v : BitVec 256) (m : Mark) (f : FFlags) (k : Mark) :
    WroteV s ((s.issued.putV d.toNat v m).setFlags f k).retireE d v m := by
  have hd : d.toNat < 32 := d.isLt
  refine ⟨?_, ?_, ?_, ?_, ?_, ?_, ?_⟩
  · simp [Regs.getV_setV _ _ _ hd]
  · intro n _; simp
  · intro n hn; simp [Regs.getV_setV_ne _ _ _ _ (by simpa using hn)]
  · intro n _; simp
  · exact windowsAfter_close _ _ _ _ (by simp)
  · exact completed_retireE s _ rfl (by simp) (by simp)
  · obtain ⟨x, hx⟩ := retireE_setMe ((s.issued.putV d.toNat v m).setFlags f k)
    rw [hx]
    exact onlyThread_trans (onlyThread_trans (onlyThread_trans (onlyThread_setMe s _) (onlyThread_setMe _ _))
      (onlyThread_setMe _ _)) (onlyThread_setMe _ _)

/-- The flags of the selected lanes. -/
theorem getLsbD_laneMap (mk : BitVec 32) (n : Nat) (f : Nat → Nat × FFlags) (b : Nat) :
    (laneMap mk n f).2.getLsbD b = true ↔ ∃ j, j < n ∧ mk.getLsbD j = true ∧ (f j).2.getLsbD b = true := by
  unfold laneMap
  dsimp only
  have hz : ((List.range n).map f).zip (List.range n) = (List.range n).map fun j => (f j, j) := by
    rw [List.zip_map_left]
    apply List.ext_getElem
    · simp
    · intro i h1 h2; simp
  rw [hz]
  have key : ∀ (l : List Nat) (acc : FFlags),
      ((l.map fun j => (f j, j)).foldl (fun acc r => if mk.getLsbD r.2 then acc ||| r.1.2 else acc) acc).getLsbD b = true ↔
        acc.getLsbD b = true ∨ ∃ j, j ∈ l ∧ mk.getLsbD j = true ∧ (f j).2.getLsbD b = true := by
    intro l
    induction l with
    | nil => simp
    | cons a t ih =>
      intro acc
      rw [List.map_cons, List.foldl_cons, ih]
      dsimp only
      by_cases ha : mk.getLsbD a = true
      · rw [if_pos ha, BitVec.getLsbD_or, Bool.or_eq_true]
        constructor
        · rintro ((h | h) | ⟨j, h1, h2, h3⟩)
          · exact .inl h
          · exact .inr ⟨a, by simp, ha, h⟩
          · exact .inr ⟨j, List.mem_cons_of_mem _ h1, h2, h3⟩
        · rintro (h | ⟨j, h1, h2, h3⟩)
          · exact .inl (.inl h)
          · rcases List.mem_cons.1 h1 with rfl | h1
            · exact .inl (.inr h3)
            · exact .inr ⟨j, h1, h2, h3⟩
      · rw [if_neg ha]
        constructor
        · rintro (h | ⟨j, h1, h2, h3⟩)
          · exact .inl h
          · exact .inr ⟨j, List.mem_cons_of_mem _ h1, h2, h3⟩
        · rintro (h | ⟨j, h1, h2, h3⟩)
          · exact .inl h
          · rcases List.mem_cons.1 h1 with rfl | h1
            · exact absurd h2 ha
            · exact .inr ⟨j, h1, h2, h3⟩
  rw [key]
  simp

/-- The lanes of a lane map. -/
theorem laneMap_fst (mk : BitVec 32) (n : Nat) (f : Nat → Nat × FFlags) :
    (laneMap mk n f).1 = (List.range n).map fun j => (f j).1 := by
  unfold laneMap; simp

/-- What lanesTo leaves. -/
theorem lanesTo_unbound (i : Instr) (d : Reg) (k : KReg) (w : Nat) (fl : Bool) (f : Nat → Nat × FFlags) (s : State)
    (h : s.pushes d.toNat = false) :
    ∃ s1, s.writeV d.toNat (ofLanes 256 w ((List.range (256 / w)).map fun j => (f j).1)) w (s.readK k.toNat).val (s.rmark i) =
        .ok s1 ∧
      lanesTo i d k w fl f s =
        .ok (if fl then s1.setFlags (laneMap (s.readK k.toNat).val (256 / w) f).2 (s.rmark i) else s1) := by
  rw [writeV_unbound _ _ _ _ _ _ h]
  refine ⟨_, rfl, ?_⟩
  unfold lanesTo
  rw [← laneMap_fst (s.readK k.toNat).val]
  dsimp only
  rw [writeV_unbound _ _ _ _ _ _ h]
  rfl

/-- What a lane form that runs through lanesTo answers. -/
theorem laneResult_of_lanesTo (i : Instr) (s : State) (d : Reg) (k : KReg) (w : Nat) (hw : w * (256 / w) ≤ 256) (m : Mark)
    (fl : Bool) (f : Nat → Nat × FFlags) (body : State → Run?) (hl : Live s)
    (hu : ∀ n, n ∈ (usesOf i).vr ++ (usesOf i).vw → Unbound s n) (hd : Unbound s d.toNat)
    (he : exec i s = runE i body s) (hb : body s.issued = lanesTo i d k w fl f s.issued) (hm : s.rmark i = m) :
    LaneResult s i d k w m fl f := by
  have hp : s.issued.pushes d.toNat = false := by rw [State.pushes_issued]; exact pushes_of_unbound s _ hd
  obtain ⟨s1, h1, h2⟩ := lanesTo_unbound i d k w fl f s.issued hp
  rw [writeV_unbound _ _ _ _ _ _ hp] at h1
  have h1' := (Except.ok.inj h1)
  clear h1
  simp only [State.readK_issued, State.readV_issued, State.rmark_issued, hm] at h1' h2
  refine ⟨_, lanes_writeV s d k w hw (ofLanes 256 w ((List.range (256 / w)).map fun j => (f j).1)) (fun j => (f j).1) m
    (fun j hj => lane_ofLanes_range w hw _ j hj), _, he.trans (runE_ok i body s _ hl hu (hb.trans h2)), ?_⟩
  subst h1'
  cases fl
  · exact ⟨wroteV_retireE s d _ _, by simp [FlagsKept]⟩
  · refine ⟨wroteV_flags_retireE s d _ _ _ _, ?_⟩
    rw [if_pos rfl]
    unfold FlagsRaised
    simp only [if_true, State.retireE_fflags, State.me_setFlags, State.me_putV, State.me_issued]
    refine ⟨trivial, fun b => ?_⟩
    rw [BitVec.getLsbD_or, Bool.or_eq_true, BitVec.getLsbD_setWidth]
    have := getLsbD_laneMap (s.readK k.toNat).val (256 / w) f b
    constructor
    · rintro (h | h)
      · exact .inl h
      · simp only [Bool.and_eq_true, decide_eq_true_eq] at h
        exact .inr (this.1 h.2)
    · rintro (h | h)
      · exact .inl h
      · have h5 := this.2 h
        have hb5 : b < 5 := Nat.lt_of_not_le fun hge => by
          rw [BitVec.getLsbD_of_ge _ _ hge] at h5; simp at h5
        exact .inr (by rw [Bool.and_eq_true]; exact ⟨decide_eq_true (by omega), h5⟩)

end Sys2Proof.Machine
end

