-- ==== Sys2Proof/Tests/Slice0.lean ====
section
/-! SUPPORT. Tests of the decoder on words written out from the spec, of well-formedness, of single steps, and witnesses
that the premises of the statements can be met. The expected results are from the spec's tables and examples, or worked
out by hand from its rules. -/

set_option maxRecDepth 100000

namespace Sys2Proof.Tests

open Sys2Proof Machine

/-! ## Words of chapter 3 and of the chapters' examples decode -/

theorem test_decode_page0 :
    decode [0x54F8] = .instr (.addi 3 3 (-8)) 2 0x54F8 ∧
    decode [0xF428, 0x04D0] = .instr (.sub 3 4 5) 4 0x1004D0 ∧
    decode [0xF80C, 0xA10A] = .instr (.st 2 4 2 12) 4 0x10A10A ∧
    decode [0xD988] = .instr (.csrr 6 0x08) 2 0xD988 := by decide

theorem test_decode_page1 :
    decode [0xF001, 0xF418, 0x0048] = .instr (.vadd .f32 1 2 3 0) 6 0x210048 ∧
    decode [0xF001, 0xF418, 0xF802, 0x4049] = .instr (.vcmp .bf16 2 1 2 3 0) 8 0x314049 ∧
    decode [0xF001, 0xF803, 0x7E56] = .instr (.vmvx 2 3 9 5) 6 0x217E56 := by decide

theorem test_decode_vector_load :
    decode [0xF001, 0xF403, 0xF840, 0x850A] = .instr (.vld 2 4 2 64 3) 8 0x31850A := by decide

theorem test_decode_page2 :
    decode [0xF002, 0xF802, 0x0011] = .instr (.sopen 1 4 false true) 6 0x220011 ∧
    decode [0xF002, 0xF81F, 0x4467] = .instr (.rep 3 999) 6 0x224467 ∧
    decode [0xF002, 0x494A] = .instr (.repx 5 5) 4 0x12494A := by decide

theorem test_decode_page3 :
    decode [0xF003, 0xF801, 0x0140] = .instr (.widf 5 1) 6 0x230140 ∧
    decode [0xF003, 0x3550] = .instr (.barw 5 4) 4 0x133550 ∧
    decode [0xF003, 0xF802, 0x3000] = .instr (.bara 2) 6 0x233000 ∧
    decode [0xF003, 0x3E00] = .instr (.wqtake 8) 4 0x133E00 := by decide

theorem test_decode_page6 :
    decode [0xF006, 0x0000] = .instr .tret 4 0x160000 ∧
    decode [0xF006, 0xF80A, 0x0514] = .instr (.ctxsel 2 2 4 5) 6 0x260514 ∧
    decode [0xF006, 0xF440, 0x099C] = .instr (.htresResume 6 7 8) 6 0x26099C ∧
    decode [0xF006, 0xF420, 0xF802, 0x140C] = .instr (.slinv 3 4 2 0) 8 0x36140C := by decide

theorem test_decode_page7 :
    decode [0xF007, 0x0424] = .instr (.mkctx 9) 4 0x170424 ∧
    decode [0xF007, 0xF468, 0x0954] = .instr (.mkjoin false 5 5 13) 6 0x270954 ∧
    decode [0xF007, 0x1540] = .instr (.fuserd 5 0) 4 0x171540 ∧
    decode [0xF007, 0xF802, 0x1C0C] = .instr (.measx 3 2) 6 0x271C0C := by decide

theorem test_decode_page4 :
    decode [0xF004, 0xFC40, 0x024F] = .instr (.ldg 3 9 3 0 ⟨false, 4⟩) 6 0x24024F ∧
    decode [0xF004, 0xF500, 0xF808, 0x0D93] = .instr (.stv 6 20 8) 8 0x340D93 ∧
    decode [0xF004, 0xF460, 0xF8B0, 0x1D63] = .instr (.amo 3 0 3 2 5 8 12 Win.none) 8 0x341D63 ∧
    decode [0xF004, 0xF817, 0x2400] = .instr (.fence 3 5) 6 0x242400 ∧
    decode [0xF004, 0xF803, 0x31C0] = .instr (.cbclm 7 0 3) 6 0x2431C0 ∧
    decode [0xF004, 0x1908] = .instr (.sunlk 4 2) 4 0x141908 := by decide

theorem test_decode_page5 :
    decode [0xF005, 0xF802, 0xF977, 0x1800] = .instr (.mfmt 0 0x00977) 8 0x351800 ∧
    decode [0xF005, 0xF801, 0x1000] = .instr (.mlease 1) 6 0x251000 ∧
    decode [0xF005, 0xF460, 0xF801, 0x1E28] = .instr (.mma 8 10 12 true) 8 0x351E28 ∧
    decode [0xF005, 0x2540] = .instr (.mdrain 5) 4 0x152540 ∧
    decode [0xF005, 0x3F80] = .instr (.epop 14 Win.none) 4 0x153F80 := by decide

theorem test_decode_page8 :
    decode [0xF008, 0xF418, 0x0448] = .instr (.hprobe false 1 2 3 Win.none) 6 0x280448 := by decide

/-- Encodings that no form has: a fifth prefix, PSC on ADD, a reserved page 0 opcode (R79, R83, R99). -/
theorem test_decode_illegal :
    decode [0xF001, 0xF418, 0xF801, 0xF801, 0xF801, 0x0048] = .illegal 0x41F801 10 ∧
    (∃ fi n, decode [0xFC40, 0x0000] = .illegal fi n) := by
  refine ⟨by decide, _, _, (by decide : decode [0xFC40, 0x0000] = .illegal 0x100000 4)⟩

/-! ## Ill-formed terms, one for each check, which WellFormed refuses -/

theorem test_refused :
    ([.mul 1 2 3 ⟨true, 0⟩, .addi 1 1 0x200000000000, .andi 1 1 (-1), .li 1 0x200000000000, .ld 3 1 2 0x8000000000,
      .ldp 3 1 2 0, .stp 1 2 4 0, .beq 1 2 0x2000000000, .j 0x2000000000000, .csrr 1 0x1F, .csrw 1 0x14, .csrs 1 0x3F,
      .vcvt .f32 .bf16 true 0 0 1 2 0, .vcvt .e4m3c .f32 false 0 0 1 2 0, .vcvt .e4m3 .e4m3c false 0 0 1 2 0,
      .viadd 0 3 1 2 3 0, .vsh 0 3 1 2 3 0, .vred .f32 3 1 2 0 Win.none, .vbcast 2 8 1 2 0, .vmvx 3 4 1 2,
      .vld 2 1 2 0x20000000 0, .bqb 33, .accw false false 0 1 2 0, .fopen false 20 0x100000, .hacc 3 false 0 1 2 3,
      .widf 1 6, .xsend 16 0 0 1, .xsend 1 0 0 0, .wqtake 1, .ldv 1 2 0 Win.none, .stv 1 2 0, .amo 0 0 0 0 1 2 3 Win.none,
      .amo 2 9 0 0 1 2 3 Win.none, .amo 2 0 0 7 1 2 3 Win.none, .acas 2 0 7 1 2 3 Win.none, .fence 0 7, .mlease 0,
      .mlease 65, .mfmt 1 0x00000, .mma 1 2 4 false, .mconv 2 3 5 false, .ctxsel 0 1 2 3, .slinv 1 2 3 0, .mkrd 3 1 8,
      .measx 1 7] : List Instr).all (fun i => !i.WellFormed && (encode i).isNone) = true := by decide

/-! ## Single steps -/

/-- A state in which x1, x2 and x3 hold values, x1 with a mark. -/
def st (a b c : Word) : State :=
  State.reset.setMe { State.reset.me with regs := ((State.reset.me.regs.setX 1 ⟨a, 0x0001⟩).setX 2 (plain b)).setX 3 (plain c) }

/-- What x register d holds in a state that an instruction answers. -/
def xOf (i : Instr) (s : State) (d : Nat) : Option (Word × Mark) :=
  match exec i s with
  | .next t => some ((t.me.regs.getX d).val, (t.me.regs.getX d).mark)
  | .fault _ => none
  | .refused _ => none

/-- Addition wraps, and the result takes the operands' marks (R112, R36). -/
theorem test_add_wraps : xOf (.add 4 1 2) (st (-1) 2 0) 4 = some (1, 0x0001) := by decide

/-- A write to x0 is discarded with its mark (R11). -/
theorem test_write_x0 : xOf (.add 0 1 2) (st 5 6 0) 0 = some (0, 0) := by decide

/-- Table 4.2. -/
theorem test_division :
    xOf (.div 4 1 2 Win.none) (st (-7) 2 0) 4 = some (-3, 1) ∧ xOf (.rem 4 1 2 Win.none) (st (-7) 2 0) 4 = some (-1, 1) ∧
    xOf (.div 4 1 2 Win.none) (st (-7) 0 0) 4 = some (-1, 1) ∧ xOf (.rem 4 1 2 Win.none) (st 7 (-2) 0) 4 = some (1, 1) ∧
    xOf (.div 4 1 2 Win.none) (st 0x8000000000000000 (-1) 0) 4 = some (0x8000000000000000, 1) := by decide

/-- The example of R118. -/
theorem test_bext : xOf (.bext 4 1 2) (st 0xABCD00 0x13C8 0) 4 = some (0xFFFFFFFFFFFFABCD, 1) ∧
    xOf (.bext 4 1 2) (st 0xABCD00 0x03C8 0) 4 = some (0xABCD, 1) := by decide

/-! ## Premises that can be met

One theorem for each statement with hypotheses: a concrete state and operands that meet them, or, where clauses exclude
each other, one for each. -/

/-- A thread of a unit that runs, with x registers of no mark. -/
def on (u : Nat) (rs : List (Nat × Word)) : State :=
  let s := { State.reset with cur := ⟨u, 0, 0⟩ }
  s.setMe { s.me with run := .running, regs := rs.foldl (fun r e => r.setX e.1 (plain e.2)) s.me.regs }

/-- Bytes of a number put into memory. -/
def put (l n v : Nat) (s : State) : State := { s with mem := s.mem.write l (toBytes n v) }

/-- Another record for the running thread. -/
def thr (f : Thread → Thread) (s : State) : State := s.setMe (f s.me)

/-- Other control registers for the running thread. -/
def csr (f : Csrs → Csrs) (s : State) : State := thr (fun t => { t with csr := f t.csr }) s

/-- Whether an outcome is a next state of which something holds. -/
def goes (o : Host.Outcome State Fault Refusal) (p : State → Bool) : Bool :=
  match o with
  | .next t => p t
  | .fault _ => false
  | .refused _ => false

/-- The two cases of a halt-or-value. -/
def okIs {ε α : Type} (r : Except ε α) (p : α → Bool) : Bool :=
  match r with
  | .ok v => p v
  | .error _ => false

/-- A running wheel. -/
def busy (s : State) : State := thr (fun t => { t with wheel := { t.wheel with act := true } }) s

/-- Four windows that cover the instructions to come, on registers that no test names. -/
def windowed (f : RegFile) (s : State) : State :=
  thr (fun t => { t with windows := (List.range 4).map fun r => ⟨f, 20 + r, plain 0, 0, 100⟩ }) s

theorem witness_DecodeOfEncode : encode (.sub 3 4 5) = some [0xF428, 0x04D0] := by decide

theorem witness_DecodedForms :
    decode [0xF428, 0x04D0] = .instr (.sub 3 4 5) 4 0x1004D0 ∧ 0x3C ≤ (opField 0xF428).toNat ∧
    (opField 0x54F8).toNat < 0x3C ∧ 9 ≤ (9 : BitVec 4).toNat := by decide

/-- The parcels of an instruction at address 0, with HT0 of core 0 about to run it. -/
def placed (ps : List Parcel) : State := { State.reset.placeWord 16 0 with code := codeLoad [] 0 ps }

theorem witness_StepRunsDecoded :
    let s := placed [0x54F8]
    let u : ThreadId := ⟨0, 0, 0⟩
    s.agenda = [⟨.access u, 1, false⟩] ∧ s.runners.filter s.served = [] ∧ s.dueStep (s.now + 1) = none ∧
    s.pkg.stopped = false ∧ (s.core 0).sel = 0 ∧ (s.partOfCore 0).isSome ∧ (s.thread u).run = .running ∧ (s.thread u).hold = none ∧ (s.thread u).reqs.milestone = false ∧
    decode (fetch s.code (s.thread u).pc) = .instr (.addi 3 3 (-8)) 2 0x54F8 ∧
    ({ s with agenda := [], now := 1, cur := u } : State).atSafePoint u = none ∧
    (usesOf (.addi 3 3 (-8))).eSide = false ∧
    (let m : State := { s with agenda := [], now := 1, cur := u, latch := ⟨0, 2, 0x54F8, .access, [], 1⟩ }
     m.decodeIll (.addi 3 3 (-8)) = false ∧ m.issueWaits (.addi 3 3 (-8)) = false ∧ m.decodeIll (.fuserd 5 0) = true) := by
  decide

theorem witness_StepRunsDecoded_eSide :
    let s := placed [0xF001, 0xF418, 0x0048]
    let u : ThreadId := ⟨0, 0, 0⟩
    let i : Instr := .vadd .f32 1 2 3 0
    let m : State := { s with agenda := [], now := 1, cur := u, latch := ⟨0, 6, 0x210048, .access, [], 1⟩ }
    decode (fetch s.code (s.thread u).pc) = .instr i 6 0x210048 ∧ (usesOf i).eSide = true ∧ m.decodeIll i = false ∧
    m.decodeWaits i = false ∧ ({ s with agenda := [], now := 1, cur := u } : State).eIdle = true := by decide

theorem witness_StepRunsDecoded_illegal :
    (∃ fi len, decode (fetch (placed [0xFC40, 0x0000]).code 0) = .illegal fi len) ∧
    (∃ fi len, decode (fetch (placed [0xF009, 0x0000]).code 0) = .emulate fi len) :=
  ⟨⟨0x100000, 4, by decide⟩, ⟨0x190000, 4, by decide⟩⟩

theorem witness_StepKeepsMemoryForm : State.reset.mem.wf = true ∧ goes (step State.reset) (fun _ => true) = true := by decide

theorem witness_StepGoes :
    let s : State := { placed [0x54F8] with pkg := { State.reset.pkg with stopped := true } }
    s.pkg.stopped = true ∧ goes (step s) (fun _ => true) = false := by decide

theorem witness_TrapEntry :
    let queue : State := { on 0 [] with latch := { Latch.empty with src := .queue } }
    (on 0 []).me.csr.intrap = false ∧ (csr ({ · with intrap := true }) (on 0 [])).me.csr.intrap = true ∧
    63 < 64 ∧ 3 < 4 ∧ queue.latch.src ≠ .access ∧ queue.pendingE.length < 32 := by decide

theorem witness_TrapForms :
    (let s := csr ({ · with tvec := plain 0x100, evec := plain 0x200 }) (on 0 [])
     s.latch.src = .access ∧ s.me.csr.intrap = false ∧ s.me.csr.tvec.val &&& 0xFFFFFFFFFFFFFFFC ≠ 0 ∧
     s.me.csr.evec.val &&& 0xFFFFFFFFFFFFFFFC ≠ 0) ∧
    (let s := thr (fun t => { t with trapFrame := { t.trapFrame with valid := true } })
       (csr ({ · with intrap := true }) (on 0 []))
     s.me.csr.intrap = true ∧ s.eIdle = true ∧ s.me.trapFrame.valid = true ∧ s.me.trapFrame.windows = []) ∧
    (let s := csr ({ · with intrap := true }) (busy (on 0 []))
     s.me.csr.intrap = true ∧ s.eIdle = false ∧ s.latch.src = .access) := by decide

theorem witness_LongArithmetic :
    Safety.MayOpen (st 5 3 0) ⟨true, 3⟩ 4 ∧ ¬Safety.MayOpen (windowed .x (st 5 3 0)) ⟨true, 3⟩ 4 ∧
    (windowed .x (st 5 3 0)).latch.src = .access ∧ (3 : Word) ≠ 0 ∧
    ¬((5 : Word) = 0x8000000000000000 ∧ (3 : Word) = -1) := by unfold Safety.MayOpen; decide

theorem witness_LocalMemory :
    let s := st 0x40 7 0
    Safety.LocalAt s (s.x 1 + 8) 8 0x48 ∧ Safety.LocalAt s (s.x 1 + 8) 16 0x48 ∧ Safety.Clean s 0x48 16 ∧
    Safety.UnderCeil s 0x48 8 1 ∧ Safety.UnderCeil s 0x48 16 1 ∧ (2 : Reg).toNat % 2 = 0 ∧ s.mem.wf = true ∧
    s.latch.src = .access ∧
    goes (exec (.st 3 2 1 8) s) (fun t => ({ t with latch := Latch.empty } : State).x 1 + 8 == s.x 1 + 8) = true := by
  unfold Safety.LocalAt Safety.LocalIn Safety.Clean Safety.UnderCeil; decide

/-- A versioned window over line 0 of the own cluster, its first word with the cells given. -/
def versioned (cells : List VCell) (reqs : List VReq) : State :=
  (on 0 [(1, 0x100000), (3, 5), (4, 9), (5, 1), (7, 5), (8, 16385)]).setCluster 0
    { Cluster.fresh with vwcfg := [(0, 2 ^ 47 + 2 ^ 16)], vcells := [(0, cells)], vreqs := reqs }

theorem witness_LocalBounds :
    let v : Word := 16 * 2 ^ 10 + 32 * 2 ^ 21 + 1 * 2 ^ 40 + 2 * 2 ^ 52
    let w (n : Word) : State := csr ({ · with lwin := plain v }) (st n 0 0)
    let x (n : Word) : Word := (w n).x 1 + 0
    let spad (n : Word) : Prop := isCompute (w n).cur.unit = true ∧ 0x100000 ≤ (x n).toNat ∧ (x n).toNat < 0x200000
    field (x 0x4000000000000000) 63 62 ≠ 0 ∧ (w 0).agent.lwin = v ∧
    (64 * field v 19 10 = 1024 ∧ 64 * field v 19 10 + 64 * field v 31 21 = 3072 ∧
      0x100000 + 512 * field v 50 40 = 0x100200 ∧ 0x100200 + 512 * field v 63 52 = 0x100600) ∧
    (0x10000 ≤ (x 0x10000).toNat ∧ ¬spad 0x10000 ∧ ¬spad 0x200000 ∧ isCompute (on 0x1200 []).cur.unit = false) ∧
    (1023 < 1024 ∧ 3072 ≤ 3072 ∧ 3072 < 0x10000) ∧ (1024 ≤ 3068 ∧ 3068 < 3072 ∧ 3072 < 3068 + 8) ∧
    (spad 0x1001FF ∧ spad 0x100600 ∧ spad 0x1005FC) ∧ (0x100200 ≤ 0x1005FC ∧ 0x1005FC < 0x100600 ∧ 0x100600 < 0x1005FC + 8) := by
  decide

/-- The first word of the scratchpad in a versioned window. -/
theorem witness_LocalBounds_versioned :
    let s := versioned [] []
    let o := (s.x 1 + 0).toNat
    let w := s.agent.lwin
    isCompute s.cur.unit = true ∧ 0x100000 ≤ o ∧ o < 0x200000 ∧ 0x100000 + 512 * field w 50 40 ≤ o ∧
    o + 8 ≤ 0x100000 + 512 * field w 50 40 + 512 * field w 63 52 ∧ o + 8 ≤ 0x200000 ∧
    s.inWindow (clusterOf s.cur.unit) (o - 0x100000) 8 = true := by decide

theorem witness_ControlFlow : (st 0 0 0).latch.src = .access := by decide

theorem witness_ControlRegisterReads :
    let s := st 0 0 0
    csNumbers.contains (0x0E : BitVec 6).toNat = true ∧ csNumbers.contains (0x08 : BitVec 6).toNat = true ∧
    csNumbers.contains (0x02 : BitVec 6).toNat = true ∧ s.eIdle = true ∧ (s.fibre 0).opened = false ∧
    (s.fibre 0).seek = none ∧
    okIs ((thr (fun t => { t with fibres := t.fibres.set 0 { Fibre.closed with opened := true } }) (st 0 0 0)).advance.settle 0)
      (fun r => r.2.opened) = true := by decide

/-- What the control registers show, at values of their own ranges. -/
theorem witness_ControlRegisterReads_values :
    let s := busy (st 0 0 0)
    let q := thr ({ · with bq := ⟨[true, false], 4⟩, mailbox := [plain 5] }) (st 0 0 0)
    csNumbers.contains (0x1E : BitVec 6).toNat = true ∧ (0x1E : BitVec 6) ≠ 0x11 ∧ (0x1E : BitVec 6) ≠ 0x1F ∧ s.eIdle = false ∧
    s.latch.src = .access ∧ 2 ≤ ({ st 0 0 0 with now := 100 } : State).tbase.toNat ∧
    (({ st 0 0 0 with now := 100 } : State).me.tread.toNat ≤ 2) ∧
    (s.me.wheel.len < 32 ∧ s.me.wheel.repcnt < 2 ^ 16 ∧ s.me.wheel.repix < 32) ∧ q.me.bq.outs.length ≤ 16 ∧
    q.me.mailbox.length ≤ 8 ∧ (s.fibre 0).coord < 2 ^ 32 ∧ (s.core 0).sel < 4 ∧ isCompute s.cur.unit = true ∧
    (∃ p, s.partOfCore s.cur.unit = some p ∧ p < 64 ∧ (s.part p).base < 2 ^ 12 ∧ (s.part p).len < 2 ^ 13) ∧
    isCompute (on 0x1380 []).cur.unit = false ∧ ({ s with parts := [] } : State).partOfCore s.cur.unit = none := by
  refine ⟨by decide, by decide, by decide, by decide, by decide, by decide, by decide, by decide, by decide, by decide,
    by decide, by decide, by decide, ⟨0, by decide⟩, by decide, by decide⟩

theorem witness_ControlRegisterWrites :
    (st 0 0 0).eIdle = true ∧ (st 0 0 0).me.csr.priv = true ∧ ((st 0 0 0).csrGet 0x09).val.toNat < 5 ∧
    ((st 3 0 0).x 1 &&& 7).toNat < 5 ∧ 5 ≤ ((st 6 0 0).x 1 &&& 7).toNat ∧ (st 6 0 0).me.csr.frm.val.toNat < 5 ∧
    (csr ({ · with priv := false }) (st 0 0 0)).me.csr.priv = false := by decide

theorem witness_SystemForms :
    let s := thr ({ · with lines := 2, mailbox := [plain 5] }) (st 0 0 0)
    let full := thr ({ · with bq := ⟨List.replicate 16 true, 0⟩ }) (st 0 0 0)
    s.latch.src = .access ∧ s.me.lines.getLsbD (1 : BitVec 6).toNat = true ∧ s.me.lines.getLsbD (63 : BitVec 6).toNat = false ∧
    Safety.Patient s 6 ∧ s.me.mailbox = [plain 5] ∧ (st 0 0 0).me.mailbox = [] ∧ Safety.Patient (st 0 0 0) 7 ∧
    s.me.csr.intrap = false ∧ s.me.bq.outs.length < 16 ∧ 16 ≤ full.me.bq.outs.length ∧ Safety.Patient full 8 := by
  unfold Safety.Patient; decide

/-- The E-side forms on v1 to v4 of a thread whose slots are closed. -/
theorem witness_Ready : Safety.Ready (st 0 0 0) [1, 2, 3, 4] ∧ Safety.Ready (st 0 0 0) [0, 25, 30, 31] := by
  refine ⟨⟨.inl (by decide), ?_⟩, ⟨.inl (by decide), ?_⟩⟩ <;> (unfold Safety.Unbound; decide)

theorem witness_FloatArithmetic :
    fmt32.unpack 0x7FC00000 = .nan false ∧ fmt32.unpack 0x7F800001 = .nan true ∧ fmt32.unpack 0xFF800000 = .inf true ∧
    fmt32.unpack 0x7F800000 = .inf false ∧ (∃ e, fmt32.unpack 0x80000000 = .fin true 0 e) ∧
    (∃ e, fmt32.unpack 0 = .fin false 0 e) ∧ ∃ q e, q ≠ 0 ∧ fmt32.unpack 0x3F800000 = .fin false q e :=
  ⟨by decide, by decide, by decide, by decide, ⟨_, rfl⟩, ⟨_, rfl⟩, ⟨_, _, by decide, rfl⟩⟩

theorem witness_LongVectorForms :
    let w : Win := ⟨true, 7⟩
    let s : State := { windowed .v (st 0 0 0) with latch := { Latch.empty with src := .queue } }
    (st 0 0 0).windowsFull w .v (1 : Reg).toNat = false ∧ ¬(s.windowsFull w .v (1 : Reg).toNat = false) ∧
    s.latch.src ≠ .access ∧ s.latch.src ≠ .decode ∧ Safety.Ready s [1, 2, 3] ∧ (2 : BitVec 2) ≠ 3 := by
  refine ⟨by decide, by decide, by decide, by decide, ⟨.inl (by decide), ?_⟩, by decide⟩
  unfold Safety.Unbound; decide

theorem witness_LaneMovesAndMasks : (31 : BitVec 5).toNat < 256 / (8 * 2 ^ (0 : BitVec 2).toNat) ∧
    (3 : BitVec 5).toNat < 256 / (8 * 2 ^ (3 : BitVec 2).toNat) := by decide

/-- BF16 to FP32 in part 1; a block of 32 zeros decodes; 32 zeros encode. -/
theorem witness_Conversions :
    let s := st 0 0 0
    ETy.bf16.coded = false ∧ ETy.f32.coded = false ∧
    (1 : BitVec 3).toNat < max ETy.bf16.width ETy.f32.width / min ETy.bf16.width ETy.f32.width ∧
    ETy.e4m3.coded = false ∧ ETy.e4m3.width = 8 ∧ (2 : Reg).toNat % 2 = 0 ∧ Safety.mask s 0 ≠ 0 ∧ Safety.mask s 1 = 0 ∧
    okIs (encodeBlock false 0 (s.codeTab false 0) (List.replicate 32 0)) (fun _ => true) = true := by
  unfold Safety.mask; decide

theorem witness_VectorMemory :
    let s := st 0x40 0 0
    let sel (k : KReg) (j : Nat) : Prop := j < 8 ∧ (Safety.mask s k).getLsbD j = true
    (∀ j, ¬sel 1 j) ∧ sel 0 0 ∧ sel 0 7 ∧ (∀ j, sel 0 j → 0 ≤ j ∧ j ≤ 7) ∧ field (s.x 1 + 0) 63 62 = 0 ∧
    Safety.LocalAt s (s.x 1 + 0 + word (4 * 0)) (4 * (7 + 1 - 0)) (0x40 + 4 * 0) ∧
    (∀ j, sel 0 j → Safety.Clean s (0x40 + 4 * j) 4) ∧ (∀ j, sel 0 j → Safety.UnderCeil s (0x40 + 4 * j) 4 1) := by
  refine ⟨fun j h => ?_, by decide, by decide, fun j h => ⟨Nat.zero_le j, Nat.le_of_lt_succ h.1⟩, by decide, ?_, ?_, ?_⟩
  · have : ∀ j < 8, (Safety.mask (st 0x40 0 0) 1).getLsbD j = false := by decide
    exact absurd h.2 (by rw [this j h.1]; decide)
  · unfold Safety.LocalAt Safety.LocalIn; decide
  · have : ∀ j < 8, Safety.Clean (st 0x40 0 0) (0x40 + 4 * j) 4 := by unfold Safety.Clean; decide
    exact fun j h => this j h.1
  · have : ∀ j < 8, Safety.UnderCeil (st 0x40 0 0) (0x40 + 4 * j) 4 1 := by unfold Safety.UnderCeil; decide
    exact fun j h => this j h.1

theorem witness_BranchOutcomes :
    let s := thr ({ · with bq := ⟨[true, false], 4⟩ }) (on 0 [])
    let e : State := { on 0 [] with latch := { Latch.empty with src := .queue } }
    let u := thr ({ · with rcnt := 2, rout := false }) e
    Safety.Live s ∧ s.me.csr.intrap = false ∧ s.me.bq.outs = [true, false] ∧ Safety.Live e ∧ e.latch.src ≠ .access ∧
    e.me.bq.outs = [] ∧ Safety.Patient e 8 ∧ (usesOf (.vadd .f32 1 2 3 0)).eSide = true ∧ u.me.rcnt ≠ 0 ∧
    u.me.rout = false ∧ u.me.csr.intrap = false ∧ (csr ({ · with intrap := true }) s).me.csr.intrap = true := by
  unfold Safety.Live Safety.Patient; decide

theorem witness_LongAccumulator :
    let s := st 0x80 0 0
    (s.x 1).toNat % 128 = 0 ∧ (s.x 1).toNat < 0x10000 ∧ Safety.LocalAt s (s.x 1) 128 0x80 ∧ Safety.Clean s 0x80 128 ∧
    s.mem.wf = true ∧ s.windowsFull ⟨false, 1⟩ .v (3 : Reg).toNat = false ∧
    (windowed .v s).windowsFull ⟨false, 1⟩ .v (3 : Reg).toNat = true ∧ ((st 0x81 0 0).x 1).toNat % 128 ≠ 0 ∧
    ((List.range 8).filter fun j => (Safety.mask s 0).getLsbD j) ≠ [] ∧
    ((List.range 8).filter fun j => (Safety.mask s 1).getLsbD j) = [] := by
  unfold Safety.LocalAt Safety.LocalIn Safety.Clean Safety.mask; decide

/-- 1 + 2 ulp, its negation, and one half are finite in every format. -/
theorem witness_AccumulatorSum_rounding :
    fmtE4 ∈ [fmt32, fmt16, fmtBf, fmtE4, fmtE5] ∧ 4 < 5 ∧ fmtE4 ≠ fmtE5 ∧
    (∃ m e, m ≠ 0 ∧ fmtE4.unpack 0x3A = .fin false m e ∧
      Safety.units (min fmtE4.low (e + e)) false m e + Safety.units (min fmtE4.low (e + e)) false m e ≠ 0 ∧
      Safety.units (min fmtE4.low (e + e)) false (m * m) (e + e) ≠ 0) ∧
    (∃ m e, m ≠ 0 ∧ fmt32.unpack 0xBF000000 = .fin true m e) :=
  ⟨by decide, by decide, by decide, ⟨_, _, by decide, rfl, by decide, by decide⟩, ⟨_, _, by decide, rfl⟩⟩

/-- An empty window and the addend 3, and one with every carry word in use and the addend -1. -/
theorem witness_AccumulatorSum :
    (let a : Accu := ⟨List.replicate 10 0, List.replicate 10 0, 0⟩
     a.w.length = 10 ∧ a.c.length = 10 ∧ (∀ x, x ∈ a.w → x < 2 ^ 64) ∧ (∀ x, x ∈ a.c → -128 ≤ x ∧ x ≤ 127) ∧
     -(2 : Int) ^ 639 ≤ a.n ∧ a.n < (2 : Int) ^ 639 ∧ 3 * 2 ^ ((0 : Int) + 320).toNat < 2 ^ 576 ∧
     a.n + 3 * (2 : Int) ^ ((0 : Int) + 320).toNat < (2 : Int) ^ 639) ∧
    (let a : Accu := ⟨List.replicate 10 (2 ^ 63), (List.replicate 9 (-128)) ++ [0], 0⟩
     a.w.length = 10 ∧ a.c.length = 10 ∧ (∀ x, x ∈ a.w → x < 2 ^ 64) ∧ (∀ x, x ∈ a.c → -128 ≤ x ∧ x ≤ 127)) := by
  decide

/-- An FP32 stream of four elements from 0x1000 on, each after the other (Table 6.2). -/
def stream4 : BitVec 512 := BitVec.ofNat 512 (0x1000 + 4 * 2 ^ 128 + 2 ^ 160 + 2 ^ 192 + 2 ^ 224 + 4 * 2 ^ 256)

/-- Slot 0 open on it, to read or to write. -/
def onStream (wr : Bool) (pos : Nat) : State :=
  thr (fun t => { t with slots := t.slots.set 0 { Slot.closed with opened := true, wr := wr, desc := stream4, pos := pos } })
    (put 0x40 64 stream4.toNat (on 0 [(1, 0x40), (2, 2)]))

theorem witness_StreamSlots :
    let s := onStream false 1
    let x := s.slot 0
    Safety.Block s (s.x 1) 64 0x40 ∧ affineOk (BitVec.ofNat 512 (ofBytes (s.mem.read 0x40 64))) = true ∧
    indirectOk (BitVec.ofNat 512 (ofBytes (s.mem.read 0x40 64))) = false ∧ x.opened = true ∧ x.pos ≤ x.len ∧
    (s.slot 1).opened = false ∧ Safety.Block s (s.x 1) 128 0x40 ∧ Safety.UnderCeil s 0x40 128 1 ∧ s.mem.wf = true := by
  unfold Safety.Block Safety.LocalAt Safety.LocalIn Safety.Clean Safety.UnderCeil; decide

theorem witness_StreamSlots_image :
    let y : Slot := { Slot.closed with opened := true, desc := stream4, pos := 4 }
    let s := put 0x80 128 (ofBytes (slotImage y)) (on 0 [(1, 0x80)])
    (if y.indirect then indirectOk y.desc else affineOk y.desc) = true ∧ y.pos ≤ y.len ∧ Safety.Block s (s.x 1) 128 0x80 ∧
    s.mem.read 0x80 128 = slotImage y := by
  unfold Safety.Block Safety.LocalAt Safety.LocalIn Safety.Clean; decide

/-- The last element of the stream, popped and pushed. -/
theorem witness_StreamSlots_pop :
    let s := onStream false 3
    let w := onStream true 3
    let x := s.slot 0
    Safety.Live s ∧ Safety.Live w ∧ x.opened = true ∧ x.indirect = false ∧ affineOk x.desc = true ∧ x.pos < x.len ∧
    x.wr = false ∧ x.fetched = [] ∧ (w.slot 0).wr = true ∧ min x.lanes (x.len - x.pos) = 1 ∧
    Safety.LocalAt s (affineAt x.desc 3) 4 0x100C ∧ Safety.Clean s 0x100C 4 ∧ Safety.LocalAt w (affineAt x.desc 3) 4 0x100C ∧
    Safety.UnderCeil w 0x100C 4 0 := by
  unfold Safety.Live Safety.LocalAt Safety.LocalIn Safety.Clean Safety.UnderCeil; decide

/-- A fibre in list form of three 32-bit coordinates at 0x2000, below 10 (Table 6.6). -/
def fibre3 : BitVec 512 := BitVec.ofNat 512 (0x3000 + 0x2000 * 2 ^ 64 + 0x20 * 2 ^ 128 + 3 * 2 ^ 160 + 10 * 2 ^ 192)

/-- Both fibre slots on it, at an entry. -/
def onFibres (e : Nat) (c : Nat) : State :=
  let f : Fibre := { Fibre.closed with opened := true, desc := fibre3, entry := e, vidx := e, coord := c, pres := true }
  thr (fun t => { t with fibres := Vector.replicate 2 f })
    (put 0x40 64 fibre3.toNat (put 0x2000 12 (2 + 5 * 2 ^ 32 + 7 * 2 ^ 64) (on 0 [(1, 0x40), (2, 5)])))

theorem coords : Safety.Coords (onFibres 1 5) fibre3 (fun e => 0x2000 + 4 * e) (fun e => [2, 5, 7].getD e 0) where
  list := by decide
  at_ := by unfold Safety.LocalAt Safety.LocalIn Safety.Clean; decide
  rise := by
    have : ∀ e < 2, [2, 5, 7].getD e 0 < [2, 5, 7].getD (e + 1) 0 := by decide
    exact fun e h => this e (Nat.lt_of_succ_lt_succ (by simpa [show dget fibre3 0x14 4 = 3 by decide] using h))
  below := by decide

theorem witness_FibreForms :
    let s := onFibres 1 5
    Safety.Block s (s.x 1) 64 0x40 ∧ fibreOk (BitVec.ofNat 512 (ofBytes (s.mem.read 0x40 64))) = true ∧ Safety.Live s ∧
    BitVec.ofNat 512 (ofBytes (s.mem.read 0x40 64)) = fibre3 ∧ 1 < (s.fibre 0).nnz ∧
    Safety.StandsAt (s.fibre 0) (fun e => [2, 5, 7].getD e 0) 1 ∧ Safety.StandsAt (s.fibre 1) (fun e => [2, 5, 7].getD e 0) 1 ∧
    s.me.pend = false ∧ (s.fibre 0).desc = fibre3 ∧ (s.fibre 1).desc = fibre3 ∧ ((on 0 []).fibre 0).opened = false ∧
    (let t := thr (fun t => { t with fibres := t.fibres.set 1 Fibre.closed }) s
     Safety.Live t ∧ (t.fibre 0).opened = true ∧ (t.fibre 1).opened = false) := by
  unfold Safety.Block Safety.Live Safety.LocalAt Safety.LocalIn Safety.Clean Safety.StandsAt; decide

/-- A packed vector of capacity 64 bytes, 32 bits of bitmap, 8 positions in use, bits 0 and 3 set, values 9 and 11
(Table 6.7), and a mask of every lane. -/
def packed : State := put 0x40 20 (64 * 2 ^ 48 + 2 * 2 ^ 32 + 32 * 2 ^ 16 + 8 + 9 * 2 ^ 64 + 9 * 2 ^ 96 + 11 * 2 ^ 128) (on 0 [(1, 0x40)])

theorem witness_BitmapsAndPackedVectors :
    let s := packed
    let head := ofBytes (s.mem.read 0x40 8)
    let map (c : Nat) : Bool := (s.mem.get (0x40 + 8 + c / 8)).getLsbD (c % 8)
    head / 2 ^ 48 = 64 ∧ head / 2 ^ 16 % 2 ^ 16 = 32 ∧ head % 2 ^ 16 = 8 ∧ head / 2 ^ 32 % 2 ^ 16 = 2 ∧
    (s.x 1).toNat % 8 = 0 ∧ 8 + 32 / 8 ≤ 64 ∧ Safety.LocalAt s (s.x 1) 64 0x40 ∧ Safety.Clean s 0x40 64 ∧ s.mem.wf = true ∧
    8 % 8 = 0 ∧ 8 + 8 ≤ 32 ∧ 8 + 32 / 8 + (2 + 8) * 4 ≤ 64 ∧ (s.x 2).toNat % 8 = 0 ∧ 8 + 32 / 8 + 2 * 4 ≤ 64 ∧
    (∀ j, j < 8 → 0 + j < 8 → map (0 + j) = true → (List.range (0 + j)).countP map < 2) := by
  unfold Safety.LocalAt Safety.LocalIn Safety.Clean; decide


/-- REP of two instructions, of which neither or one runs on the A-side. -/
def body (p : Parcel) : State := { on 0 [(1, 65536), (2, 65537)] with code := codeLoad [] 0 [0xF001, 0xF418, 0x0048, p] }

theorem witness_WheelForms :
    let s := body 0xE800
    s.latch.src = .access ∧ s.me.equeue = [] ∧ s.me.wheel.act = false ∧ s.me.csr.intrap = false ∧
    (∀ e, e ∈ s.readBody 1 0 → (usesOf e.instr).eSide = true) ∧ ¬(∀ e, e ∈ s.readBody 2 0 → (usesOf e.instr).eSide = true) ∧
    (s.x 1).toNat ≤ 65536 ∧ 65536 < (s.x 2).toNat ∧ Safety.Live s ∧
    (let u : State := { busy (on 0 []) with latch := { Latch.empty with src := .wheel } }
     u.latch.src = .wheel ∧ u.me.csr.intrap = false ∧ u.me.wheel.act = true ∧ Safety.Live u) := by
  unfold Safety.Live; decide

/-- The ceilings of a package whose clusters stand as at reset. -/
theorem lineCeil_reset (s : State) (h : s.clusters = []) (j ln : Nat) : s.lineCeil j ln = 0xFFFF := by
  have hc : s.cluster j = Cluster.fresh := by unfold State.cluster; rw [h]; rfl
  unfold State.lineCeil
  rw [hc]
  split
  · rfl
  · split <;> rfl

theorem witness_BitmapsAndPackedVectors_ceilings : ∀ j ln, packed.lineCeil j ln = 0xFFFF :=
  lineCeil_reset _ rfl

/-- A hash table of eight slots at offset 0 of the scratchpad with limit 2 (Table 6.9): key 3 with value 7 in its slot, key 8
beside it. -/
def table : State :=
  let l := spadLoc 0
  let s := put (l + 8) 4 2 (put l 8 (8 + 2 * 2 ^ 32) (on 0 [(1, 0x100000)]))
  let s1 := (List.range 8).foldl (fun s n => put (l + 0x40 + 8 * n) 8 (2 ^ 32 - 1) s) s
  let v (n : Nat) : Tagged 256 := plain (BitVec.ofNat 256 n)
  thr (fun t => { t with regs := (t.regs.setV 2 (v (3 + 5 * 2 ^ 32))).setV 3 (v (2 ^ 256 - 2 ^ 32 + 11)) })
    (put (l + 0x40 + 32) 8 8 (put (l + 0x40 + 24) 8 (3 + 7 * 2 ^ 32) s1))

theorem table_valid : Safety.HashTable table (table.x 1) (spadLoc 0) 8 2 where
  aligned := by decide
  spad := by decide
  at_ := by unfold Safety.LocalAt Safety.LocalIn; decide
  clean := by unfold Safety.Clean; decide
  slots := by decide
  limit := by decide
  power := ⟨3, by decide⟩
  range := by decide

/-- Key 3 is met at once; key 5 finds an empty slot; key 11, in lane 0 of v3 among null keys, finds neither. -/
theorem witness_HashTables :
    let s := table
    let l := spadLoc 0
    Safety.keyAt s l 8 3 0 = 3 ∧ Safety.Reaches s l 8 2 3 0 ∧ Safety.keyAt s l 8 5 0 = Safety.nullKey ∧
    Safety.Reaches s l 8 2 5 0 ∧ (∀ j, ¬Safety.Reaches s l 8 2 11 j) ∧ Safety.Unbound s 2 ∧ Safety.Unbound s 3 ∧
    s.advance.windowsFull ⟨false, 0⟩ .v 2 = false ∧ s.mem.wf = true ∧ lane (s.v 3) 32 0 = 11 ∧
    (∀ j, 0 ≤ j → j < 8 → j ≠ 0 → lane (s.v 3) 32 j = Safety.nullKey) := by
  refine ⟨by decide, ?_, by decide, ?_, fun j h => ?_, ?_, ?_, by decide, by decide, by decide, fun j _ h h0 => ?_⟩
  · unfold Safety.Reaches; decide
  · unfold Safety.Reaches; decide
  · have : ∀ j < 2, ¬Safety.Reaches table (spadLoc 0) 8 2 11 j := by unfold Safety.Reaches; decide
    exact this j h.1 h
  · unfold Safety.Unbound; decide
  · unfold Safety.Unbound; decide
  · have : ∀ j < 8, j ≠ 0 → lane (table.v 3) 32 j = Safety.nullKey := by decide
    exact this j h h0

/-- The same table where four windows are open. -/
theorem witness_HashTables_window :
    (windowed .v table).advance.windowsFull ⟨false, 1⟩ .v 2 = true ∧ (windowed .v table).latch.src = .access ∧
    (windowed .v table).me.regs = table.me.regs ∧ (windowed .v table).mem = table.mem := by decide +kernel

/-- A launch record: one group of one thread with one block of local memory, PRI 1, barrier domain 3. -/
def record : BitVec 1024 :=
  BitVec.ofNat 1024 (0x400 + 1 * 2 ^ 256 + 2 ^ (8 * 0x28) + 2 ^ (8 * 0x2C) + 2 ^ (8 * 0x30 + 16) + 2 ^ (8 * 0x40 + 3))

/-- Group 1 of it on core 0, of partition 0, of which the running thread is a member that runs a record at home 0x100. -/
def member (s : State) : State :=
  let c : ContRec := ⟨0, 0, 0, 0x20, 0, 0, affOf 1 0 0x1000 0, 0, 0⟩
  let dom := { Domain.fresh with dcfg := 2 }
  thr ({ · with cont := some ⟨c, 0x100, s.cur.unit, 0, false⟩ })
    (put 0x100 64 (ofBytes c.bytes)
      { s with
        groups := [(1, ⟨7, 0, 0, 0, 1, [⟨0, 0, 0, 0, 1⟩], [⟨0, 0, 64, 0⟩], 1, [], false, [], false, false, false, none⟩)]
        launches := [(7, ⟨record, 0, 0, none, 1, 0, [], false, some 0⟩)]
        parts := [(0, { s.part 0 with domains := [(3, dom)] })] })

theorem witness_WorkForms :
    let s := on 0 [(2, 10), (4, 3), (6, 6)]
    isDcp 0 = false ∧ isSec 0 = false ∧ isChannel 0 = false ∧ (4 : Reg).toNat % 2 = 0 ∧ (s.x 4).toNat ≠ 0 ∧
    (s.x 4).toNat < 2 ^ 32 ∧ s.x 1 < s.x 2 ∧ (s.cluster 0).shares.length < 16 ∧ (s.x 1).toNat % 8 ≤ 5 ∧
    5 < (s.x 6).toNat % 8 ∧ (∀ f ∈ (s.cluster 0).shares, f.gh.toNat ≠ s.me.gh) := by decide

theorem witness_WorkForms_queue :
    let e : Share := ⟨0, 5, 20, 4, 0⟩
    let full := (on 0 []).setCluster 0 { Cluster.fresh with shares := List.replicate 16 e }
    let one := (on 0 []).setCluster 0 { Cluster.fresh with shares := [⟨9, 0, 1, 1, 0⟩, e] }
    16 ≤ (full.cluster 0).shares.length ∧ Safety.PatientA full 0x0C ∧ (one.cluster 0).shares = [⟨9, 0, 1, 1, 0⟩] ++ e :: [] ∧
    (∀ f ∈ ([⟨9, 0, 1, 1, 0⟩] : List Share), f.gh.toNat ≠ one.me.gh) ∧ e.gh.toNat = one.me.gh := by
  unfold Safety.PatientA Safety.Patient; decide

/-- A record of group 1 with JOIN = 0 or 2 at 0x40, and its owner's unit. -/
def spawner (join : Nat) : State :=
  let c : ContRec := ⟨0x800, 0, BitVec.ofNat 32 join, 1, 0, 0, affOf 1 0 0x1000 0, 0, 0⟩
  put 0x40 64 (ofBytes c.bytes) (member (on 0 [(1, 0x40)]))

theorem spawn_valid (join : Nat) (h : join = 0 ∨ join = 2) :
    Safety.ValidRec (spawner join) ((spawner join).spawnApply (recOfBytes ((spawner join).mem.read 0x40 64)) true false true) := by
  rcases h with rfl | rfl <;>
    exact ⟨by decide, by decide, by decide, by decide, by decide, by decide⟩

theorem witness_Spawns :
    let s := spawner 0
    let w := spawner 2
    let r (s : State) := s.spawnApply (recOfBytes (s.mem.read 0x40 64)) true false true
    Safety.UnderCeil s 0x40 64 0 ∧ (r s).join = 0 ∧ (r w).join ≠ 0 ∧ (r s).chip = s.chip ∧
    s.routeOf { r s with flags := 0x11 } = some (0x1000, { r s with flags := 0x11 }) ∧
    ((s.readyQ 0x1000).levels.getD 1 []).length < 32 ∧ s.mem.wf = true ∧ Safety.Block s (s.x 1) 64 0x40 ∧
    s.spawnHere (r s) = true ∧ okIs (s.ownerOf (s.x 0) (s.x 1)) (fun o => o == (1, 0, s.chip)) = true ∧
    (r (put 0x50 4 (2 ^ 31) s)).join.getLsbD 31 = true := by
  unfold Safety.UnderCeil Safety.Block Safety.LocalAt Safety.LocalIn Safety.Clean; decide

/-- A record at 0x40 with a JOIN and a STATE. -/
def joiner (join state : Nat) : State :=
  let c : ContRec := ⟨0x800, 0, BitVec.ofNat 32 join, BitVec.ofNat 32 (16 * state), 0, 0, affOf 1 0 0x1000 0, 0, 0⟩
  put 0x40 64 (ofBytes c.bytes) (member (on 0 [(1, 0x40)]))

theorem witness_Joins :
    let r (s : State) := recOfBytes (s.mem.read 0x40 64)
    let s := joiner 1 0
    let up : ContRec := { r s with join := 0, flags := flagsWith (r s).flags 1 (r s).trigd }
    s.mem.wf = true ∧ Safety.Block s (s.x 1) 64 0x40 ∧ Safety.UnderCeil s 0x50 8 0 ∧ (r s).state = 0 ∧ (r s).join = 1 ∧
    (r s).chip = s.chip ∧ s.routeOf up = some (0x1000, up) ∧ ((s.readyQ 0x1000).levels.getD (r s).pri []).length < 32 ∧
    (r (joiner 2 0)).state = 0 ∧ (r (joiner 2 0)).join ≠ 1 ∧ (r (joiner 1 2)).state = 2 ∧ (r (joiner 0 1)).state = 1 ∧
    (r (joiner 0 3)).state = 3 := by
  unfold Safety.UnderCeil Safety.Block Safety.LocalAt Safety.LocalIn Safety.Clean; decide

theorem witness_Joins_trig :
    let s := member (on 0 [])
    (on 0 []).me.cont = none ∧ (on 0 []).me.asking = none ∧ (s.me.cont.map fun c => c.record.gh) = some 1 ∧ s.eMemIdle = true ∧
    (s.me.cont.map fun c => c.record.succ) = some 0 := by decide

/-- A member whose record has a list of two successors at 0x200; and one with an E-side access pending. -/
theorem witness_Joins_successors :
    let s := put 0x200 24 (2 + 0x400 * 2 ^ 64 + 0x440 * 2 ^ 128)
      (thr (fun t => { t with cont := t.cont.map fun c => { c with record := { c.record with succ := 0x200 } } }) (member (on 0 [])))
    let w := s.enqueue (.vst 2 1 2 0 0)
    (s.me.cont.map fun c => (c.home, c.unit, c.trigd, c.record.succ, c.record.gh)) = some (0x100, 0, false, 0x200, 1) ∧
    Safety.HomeAt s 0 0x100 64 0x100 ∧ Safety.Clean s 0x100 64 ∧ Safety.UnderCeil s (0x100 + 0x10) 8 s.me.csr.cmark ∧
    s.mem.wf = true ∧ (recOfBytes (s.mem.read 0x100 64)).trigd = false ∧ ofBytes (s.mem.read 0x200 8) % 256 = 2 ∧
    Safety.HomeAt s 0 0x200 24 0x200 ∧ Safety.Clean s 0x200 24 ∧ 0x100 + 0x18 ≤ 0x200 ∧ s.eMemIdle = true ∧
    w.eMemIdle = false ∧ w.latch.src = .access := by
  unfold Safety.UnderCeil Safety.HomeAt Safety.LocalIn Safety.Clean; decide

theorem witness_LeavingForms :
    let s := member (on 0 [(2, 0x200), (5, 3), (6, 0x80000000)])
    let h := recOfBytes (s.mem.read 0x100 64)
    (s.me.cont.map fun c => (c.home, c.unit, c.record.succ)) = some (0x100, 0, 0) ∧ Safety.HomeAt s 0 0x100 64 0x100 ∧
    Safety.Clean s 0x100 64 ∧ Safety.UnderCeil s 0x100 64 0 ∧ s.mem.wf = true ∧ isSec s.cur.unit = false ∧
    s.eIdle = true ∧ s.leaseBusy s.cur = false ∧ s.copiesBusy s.cur = false ∧ (s.x 5).toNat < 2 ^ 31 ∧
    isDcp s.cur.unit = false ∧ h.join + BitVec.ofNat 32 (s.x 5).toNat ≠ 0 ∧
    (h.join + BitVec.ofNat 32 (s.x 5).toNat).getLsbD 31 = false ∧ h.join + BitVec.ofNat 32 (s.x 7).toNat = 0 ∧
    h.chip = s.chip ∧ ((s.readyQ 0x1000).levels.getD h.pri []).length < 32 ∧ 2 ^ 31 ≤ (s.x 6).toNat ∧
    (busy s).eIdle = false := by
  unfold Safety.UnderCeil Safety.HomeAt Safety.LocalIn Safety.Clean; decide

/-- A record with CMODE and its bitmap at 0x300, for GDONE. -/
theorem witness_LaunchForms :
    let r : BitVec 1024 := record ||| BitVec.ofNat 1024 (16 * 2 ^ 256 + 0x300 * 2 ^ (8 * 0x48))
    let g := csr ({ · with gcp := true }) { member (on 0 []) with launches := [(7, ⟨r, 0, 0, none, 1, 0, [], false, some 0⟩)] }
    let s := put 0x80 128 record.toNat (on 0 [(1, 0x80)])
    g.me.csr.gcp = true ∧ (g.myLaunch.map fun e => e.2.record) = some r ∧ (launchCtl r).testBit 4 = true ∧
    launchDone r ≠ 0 ∧ (g.x 1).toNat < launchGroups r ∧ g.mem.wf = true ∧
    Safety.HomeAt g 0 (launchDone r + word (0 / 8)) 1 0x300 ∧ Safety.Clean g 0x300 1 ∧ Safety.UnderCeil g 0x300 1 0 ∧
    s.me.csr.gcp = false ∧ (s.x 1).toNat % 128 = 0 ∧ Safety.LocalAt s (s.x 1) 128 0x80 ∧ Safety.Clean s 0x80 128 ∧
    (launchCtl record).testBit 2 = false ∧ (launchCtl record).testBit 3 = false ∧ (s.part 0).queue.length < 64 := by
  unfold Safety.UnderCeil Safety.HomeAt Safety.LocalAt Safety.LocalIn Safety.Clean; decide

theorem witness_BarrierForms :
    let s := member (on 0 [(1, 3)])
    let x := s.dom 0 3
    let a := thr ({ · with arrivals := [(3, x.epoch)] }) s
    isDcp s.cur.unit = false ∧ isSec s.cur.unit = false ∧ (s.myLaunch.map fun e => (launchDom e.2.record).testBit 3) = some true ∧
    x.exp ≠ 0 ∧ (s.x 1).toNat % 64 = 3 ∧ s.me.arrivals.get? 3 ≠ some x.epoch ∧ x.arr ≠ x.exp ∧ x.arr + 1 ≠ x.exp ∧
    a.me.arrivals.get? 3 = some x.epoch ∧ Safety.PatientA a 0x05 ∧ s.me.arrivals.get? 3 = none ∧ (on 0 []).myLaunch = none ∧
    (thr ({ · with arrivals := [(3, 9)] }) s).me.arrivals.get? 3 = some 9 ∧ (9 : BitVec 16) ≠ x.epoch ∧
    (thr ({ · with arrivals := [(3, 9)] }) s).me.arrivals.sorted = true ∧ s.inWait 0x05 = false := by
  unfold Safety.PatientA Safety.Patient; decide

/-- A send descriptor at 0x60 of 16 bytes from 0x80 to the start of the own cluster's scratchpad, at TBASE 100 of a superstep
that began at 0: the time of a read lies between 98 and 102 (R465). -/
def sender : State :=
  let s := put 0x60 32 (0x80 + (2 * 2 ^ 62 + 0x1000 * 2 ^ 21) * 2 ^ 64 + 16 * 2 ^ 128) (member (on 0 [(1, 0x60)]))
  { s with now := 100 }

theorem witness_TimedSends :
    let s := sender
    let y := sendDesc (ofBytes (s.mem.read 0x60 32))
    isDcp s.cur.unit = false ∧ isSec s.cur.unit = false ∧
    (s.myLaunch.map fun e => (launchDom e.2.record).testBit 3) = some true ∧ (s.dom 0 3).exp ≠ 0 ∧ (s.x 1).toNat % 32 = 0 ∧
    Safety.LocalAt s (s.x 1) 32 0x60 ∧ Safety.Clean s 0x60 32 ∧ y.ok = true ∧ Safety.LocalAt s y.src y.len 0x80 ∧
    Safety.Clean s 0x80 y.len ∧ field y.dst 52 34 = s.chip ∧ okIs (s.checkDst y) (fun _ => true) = true ∧
    s.me.sending = none ∧ (s.dom 0 3).pend + y.len ≤ 2 ^ 28 - 1 ∧
    (let z : Sending := ⟨0, 0x80, 0x80, 16, y.dst, false, 0⟩
     let w := thr ({ · with sending := some z }) s
     let full := w.setDom 0 3 { w.dom 0 3 with pend := 2 ^ 28 - 1 }
     w.me.sending = some z ∧ Safety.Clean w z.loc z.len ∧ (w.dom 0 3).pend + z.len ≤ 2 ^ 28 - 1 ∧
     2 ^ 28 - 1 < (full.dom 0 3).pend + z.len ∧ Safety.PatientA full 0x0A) := by
  unfold Safety.PatientA Safety.Patient Safety.LocalAt Safety.LocalIn Safety.Clean; decide

/-- Within the slot of 255 from the superstep's start, and before one that begins at 1,600. -/
theorem witness_TimedSends_slot :
    let now := sender.readTbase.2
    let mtb := (sender.dom 0 3).mtb.toNat
    (mtb + 16 * 0 ≤ now.toNat ∧ now.toNat < mtb + 16 * (0 + 255)) ∧ ¬(mtb + 16 * 100 ≤ now.toNat) := by
  have h : (Config.freeWord sender.ix).toNat % 5 < 5 := Nat.mod_lt _ (by decide)
  have hs : ∀ k < 5, (let v : Word := sender.tbase + word k - 2
      let back := (sender.me.tread - v).toNat
      let now := if 0 < back ∧ back ≤ 4 then sender.me.tread else v
      (0 ≤ now.toNat ∧ now.toNat < 4080) ∧ ¬(1600 ≤ now.toNat)) := by decide
  exact hs _ h

/-- A running segment of group 1 whose stops hold nothing, and a member of the group at its stop. -/
def ring (f : Stop → Stop) (s : State) : State :=
  let q := { Quadrant.fresh with segs := Vector.replicate 4 { Segment.fresh with en := true, owner := 1 } }
  { member s with quads := [(0, q)], clusters := [(0, { Cluster.fresh with stop := f Stop.fresh })] }

theorem witness_RingForms :
    let s := ring id (on 0 [(1, 0x100000), (2, 0x10000), (3, 0x40)])
    let key := s.cur.key
    let began : State := { ring ({ · with rinjs := [⟨key, true, some 0⟩] }) (on 0 [(1, 0x100000), (2, 0x10000)]) with now := 128 }
    let full := ring (fun x => { x with rinjs := [⟨5, true, some 0⟩, ⟨6, true, some 0⟩] }) (on 0 [(1, 0x100000), (2, 0x10000)])
    s.myStop = some (0, 0, 0) ∧ (s.x 1).toNat % 512 = 0 ∧ 0x10000 ≤ (s.x 1).toNat ∧ tileWordOk (s.x 2) = true ∧
    tileWordOk (s.x 4) = false ∧ s.me.aWait = none ∧ s.myInject 0 = none ∧ (s.stop 0).injFull true = false ∧
    (full.stop 0).injFull true = true ∧ Safety.PatientA full 0x0B ∧ began.myInject 0 = some ⟨key, true, some 0⟩ ∧
    0 + 128 ≤ began.now ∧ s.rstat 0 0 0 0xC0 = none ∧ (s.stop 0).recovery = [] ∧ s.myDrain = none ∧ s.quiet 0 0 = true ∧
    (on 0 []).myStop = none ∧ (on 0 []).me.aWait = none ∧ (on 0 []).myDrain = none ∧
    (let fell := { s with quads := s.quads.map fun (e : Nat × Quadrant) => (e.1, { e.2 with drains := [⟨key, 0, some (plain 3)⟩] }) }
     let gone := thr ({ · with aWait := some ⟨0x0B, 0, 0, 0, 0⟩ }) s
     fell.myDrain = some ⟨key, 0, some (plain 3)⟩ ∧ gone.me.aWait ≠ none ∧ gone.myInject (clusterOf s.cur.unit) = none) := by
  unfold Safety.PatientA Safety.Patient; decide

/-- The first and the last of the 16,384 bytes of a tile lie in the thread's ranges, in one range with all between. -/
theorem witness_RingForms_tile :
    let s := ring id (on 0 [(1, 0x100000), (2, 0x10000)])
    Safety.LocalAt s (s.x 1) 16384 (spadLoc 0) ∧ Safety.Clean s (spadLoc 0) 16384 := by
  refine ⟨by unfold Safety.LocalAt Safety.LocalIn; decide, ?_⟩
  show (ring id (on 0 [(1, 0x100000), (2, 0x10000)])).mem.poisoned (spadLoc 0) 16384 = []
  rfl

theorem witness_RingForms_template :
    let s := ring id (put 0x40 64 (ofBytes (⟨0x800, 0, 0, 0, 0, 0, affOf 1 0 0x1000 0, 0, 0⟩ : ContRec).bytes) (on 0 [(3, 0x40)]))
    let r := recOfBytes (s.mem.read 0x40 64)
    Safety.Block s (s.x 3) 64 0x40 ∧ s.x 5 < 2 ^ 32 ∧ s.templateOk r ((s.quad 0).sg 0).owner.toNat 0 = true ∧
    s.templateOk { r with join := 0x80000000 } ((s.quad 0).sg 0).owner.toNat 0 = false ∧ (s.stop 0).junctions = [] := by
  unfold Safety.Block Safety.LocalAt Safety.LocalIn Safety.Clean; decide

/-- Space 10: the own scratchpad; space 01 on a channel core, where partition 0 keeps a translation; space 11. -/
theorem witness_GlobalAccess :
    let s := on 0 [(1, 0x8000000200000000), (2, 0x4000000000000000), (3, 0xC000000000000800)]
    let x : Xlat := ⟨0, sliceOf 0, 0, 2 ^ 16, 2⟩
    let c := { on 0x1200 [(2, 0x4000000000000000)] with parts := [(0, { State.reset.part 0 with troot := 1 })], xlats := [x] }
    Safety.ReachAt s (s.x 1) 8 (spadLoc 0) ∧ Safety.Clean s (spadLoc 0) 8 ∧ Safety.UnderCeil s (spadLoc 0) 8 0 ∧
    s.mem.wf = true ∧ Safety.MayOpen s ⟨false, 0⟩ 4 ∧ field (s.x 2) 63 62 = 1 ∧ isCompute s.cur.unit = true ∧
    isCompute c.cur.unit = false ∧ Safety.Clean c hbmLoc 8 ∧
    okIs (c.advance.pieces (c.partIx c.cur) (c.x 2) false (pageFuel 8) 0 8) (fun r =>
      decide ({ r.1 with xlats := c.xlats } = c.advance) && decide (r.2.map (fun p => (p.leaf.tgt, p.leaf.pa)) = [(0, 0)])) = true ∧
    field (s.x 3) 63 62 = 3 ∧ field (s.x 3) 61 34 = 0 ∧ (s.x 3).toNat % 8 = 0 ∧
    ctlReg (field (s.x 3) 33 21) (field (s.x 3) 20 0) = some .troot ∧ s.me.csr.priv = true ∧
    (csr ({ · with priv := false }) s).me.csr.priv = false ∧ s.eMemIdle = true := by
  unfold Safety.ReachAt Safety.FarAt Safety.LocalAt Safety.LocalIn Safety.Clean Safety.UnderCeil Safety.MayOpen; decide

/-- What lies in the thread's ranges of space 00 is in its reach. -/
theorem witness_Atomics :
    let s := on 0 [(1, 0x40), (2, 7), (3, 0x41), (4, 0x100000), (5, 1)]
    Safety.MayOpen s ⟨false, 0⟩ 6 ∧ (s.x 1).toNat % 4 = 0 ∧ Safety.LocalAt s (s.x 1) 4 0x40 ∧ Safety.Clean s 0x40 4 ∧
    s.mem.wf = true ∧ isSpadLoc 0x40 = false ∧ (s.x 4).toNat % 4 = 0 ∧ Safety.LocalAt s (s.x 4) 4 (spadLoc 0) ∧
    (s.cluster 0).lock (lockBitOf (spadLoc 0 % 2 ^ 21)) = ⟨none, []⟩ ∧ Safety.UnderCeil s (spadLoc 0) 4 0 ∧
    ofBytes (s.mem.read 0x40 4) = (s.x 0).toNat % 2 ^ 32 ∧ ofBytes (s.mem.read 0x40 4) ≠ (s.x 5).toNat % 2 ^ 32 ∧
    (s.x 3).toNat % 4 ≠ 0 ∧ 4 ≤ 8 := by
  unfold Safety.MayOpen Safety.LocalAt Safety.LocalIn Safety.Clean Safety.UnderCeil; decide

/-- A lock bit of the first scratchpad line, and four others that the thread holds. -/
def locks (l : Table LockBit) : State := (on 0 [(1, 0x100000)]).setCluster 0 { Cluster.fresh with locks := l }

theorem witness_Locks :
    let o := 0
    let b := lockBitOf o
    let me := (on 0 []).cur.key
    let four : Table LockBit := ((List.range 5).filter (· != b)).map fun n => (n, ⟨some (me, 1), []⟩)
    okIs ((locks []).lockWord ((locks []).x 1)) (· == o) = true ∧ ((locks []).cluster 0).lock b = ⟨none, []⟩ ∧
    ((locks []).cluster 0).held me < 4 ∧ ((locks [(b, ⟨some (me, 3), []⟩)]).cluster 0).lock b = ⟨some (me, 3), []⟩ ∧
    ((locks [(b, ⟨some (me, 4), []⟩)]).cluster 0).lock b = ⟨some (me, 4), []⟩ ∧ 4 ≤ ((locks four).cluster 0).held me ∧
    ((locks [(b, ⟨some (16, 1), []⟩)]).cluster 0).lock b = ⟨some (16, 1), []⟩ ∧ 16 ≠ me ∧
    (locks []).latch.src = .access ∧ Safety.Patient (locks []) 9 ∧ (locks []).me.lockLost = false ∧
    (locks []).eMemIdle = true ∧ (thr ({ · with lockLost := true }) (locks [])).me.lockLost = true ∧
    ((locks [(b, ⟨none, [me]⟩)]).cluster 0).lock b = ⟨none, [me]⟩ := by
  unfold Safety.Patient; decide

/-- Four bits held, and the fifth held by another thread. -/
theorem witness_Locks_fifth :
    let b := lockBitOf 0
    let me := (on 0 []).cur.key
    let s := locks ((b, ⟨some (16, 1), []⟩) :: ((List.range 5).filter (· != b)).map fun n => (n, ⟨some (me, 1), []⟩))
    (∀ n, ((s.cluster 0).lock b).holder ≠ some (me, n)) ∧ 4 ≤ (s.cluster 0).held me := by
  have h : ((locks ((lockBitOf 0, ⟨some (16, 1), []⟩) :: ((List.range 5).filter (· != lockBitOf 0)).map fun n =>
    (n, ⟨some ((on 0 []).cur.key, 1), []⟩)) |>.cluster 0).lock (lockBitOf 0)).holder = some (16, 1) := by decide
  exact ⟨fun n e => absurd (h.symm.trans e) (by simp only [Option.some.injEq, Prod.mk.injEq, not_and]; intro c; exact absurd c (by decide)), by decide⟩

/-- Buffer 2 of the own cluster, which runs for group 1: three slots of two lines from line 4 on. -/
def buffered (f : CircBuf → CircBuf) : State :=
  let b := { CircBuf.fresh with cfg := 4 + 3 * 2 ^ 16 + 2 * 2 ^ 32 + 2 ^ 47 + 2 ^ 48, free := 3 }
  (member (on 0 [(1, 0x100800), (2, 0x100C00)])).setCluster 0 { Cluster.fresh with cbs := [(2, f b)] }

theorem witness_CircularBuffers :
    let cb (s : State) : CircBuf := (s.cluster 0).cb 2
    let s := buffered id
    let claimed := buffered ({ · with pclm := 2, free := 1, ppend := 2 })
    let taken := buffered ({ · with ctake := 2, free := 1, cheld := 2 })
    let empty := buffered ({ · with free := 0 })
    okIs (s.cbOf (s.x 0) true 2) (· == (0, false, cb s)) = true ∧ s.inWait 1 = false ∧ s.inWait 2 = false ∧
    (cb s).free ≠ 0 ∧ (cb s).claimers = [] ∧ (cb s).filled = 0 ∧ (cb s).takers = [] ∧ Safety.PatientA s 2 ∧
    (cb empty).free = 0 ∧ Safety.PatientA empty 1 ∧ (cb (buffered ({ · with filled := 1 }))).filled ≠ 0 ∧
    okIs (claimed.cbOf (claimed.x 1) false 2) (· == (0, false, cb claimed)) = true ∧ (cb claimed).ops = [] ∧
    claimed.eMemIdle = true ∧ (cb claimed).slotOf (claimed.x 1) false = some 0 ∧ (cb claimed).slotOf (claimed.x 2) false = some 1 ∧
    (cb claimed).isClaimed 0 = true ∧ (cb claimed).isClaimed 1 = true ∧
    ((cb claimed).pclm + 3 - (cb claimed).ppend) % 3 = 0 ∧ (cb claimed).published = [] ∧ (cb s).isClaimed 0 = false ∧
    (cb taken).isTaken 0 = true ∧ (cb taken).isTaken 1 = true ∧ ((cb taken).ctake + 3 - (cb taken).cheld) % 3 = 0 := by
  unfold Safety.PatientA Safety.Patient; decide

theorem witness_CircularBuffers_steps :
    let cb (s : State) : CircBuf := (s.cluster 0).cb 2
    let p := buffered ({ · with pclm := 1, free := 2, ppend := 1, ops := [(true, 0)] })
    let r := buffered ({ · with ctake := 1, free := 2, cheld := 1, ops := [(false, 0)] })
    let c := buffered ({ · with claimers := [(16, none)] })
    let t := buffered ({ · with filled := 1, takers := [(16, none)] })
    let off := buffered (fun _ => CircBuf.fresh)
    let w : Word := 4 + 3 * 2 ^ 16 + 2 * 2 ^ 32 + 2 ^ 47 + 2 ^ 48
    (cb p).ops = [(true, 0)] ∧ (cb p).isClaimed 0 = true ∧ (cb r).ops = [(false, 0)] ∧ (cb r).isTaken 0 = true ∧
    (cb c).en = true ∧ (cb c).free ≠ 0 ∧ (cb c).claimers = [(16, none)] ∧ (cb t).filled ≠ 0 ∧ (cb t).takers = [(16, none)] ∧
    off.me.csr.priv = true ∧ (cb off).en = false ∧ w.getLsbD 47 = true ∧ off.mayEnable 0 (w &&& 0xFFFF8FFF00FF07FF) = true ∧
    (0 : Word).getLsbD 47 = false := by decide

theorem witness_VersionedWords :
    let s := versioned [⟨false, 5, 0⟩] []
    let l := spadLoc 0
    Safety.MayOpen s ⟨false, 0⟩ 2 ∧ okIs (s.vword (s.x 1 + 0) 8 false) (· == .inl l) = true ∧ s.myVreq 0 = none ∧
    (s.vcellsAt l).find? (·.ver == (s.readX 3).val.setWidth 16) = some ⟨false, 5, 0⟩ ∧
    (∀ c ∈ (versioned [] []).vcellsAt l, c.ver ≠ 5) ∧ Safety.PatientA (versioned [] []) 3 ∧
    okIs (s.vword (s.x 1 + 0) 8 true) (· == .inl l) = true ∧ (s.cluster 0).vreqs = [] ∧ s.mem.wf = true ∧
    (s.vcellsAt l).Pairwise (fun c e => c.ver ≠ e.ver) ∧ (∀ c ∈ s.vcellsAt l, c.shadow = false) ∧
    Safety.UnderCeil s l 8 0 ∧ 0 < (s.x 5).toNat ∧ (s.x 5).toNat ≤ 16384 ∧ 16384 < (s.x 8).toNat ∧ (s.x 6).toNat = 0 ∧
    (l - spadLoc 0) / 2 ^ 21 = (0 : BitVec 9).toNat := by
  unfold Safety.MayOpen Safety.PatientA Safety.Patient Safety.UnderCeil; decide

/-- Version 5 is not live: both cells hold others, or an older STV of the word waits; and the home has stored the thread's
own STV, or not yet, or refused it. -/
theorem witness_VersionedWords_waits :
    let l := spadLoc 0
    let me := (on 0 []).cur.key
    let req (who : Nat) (r : Option (Tagged 64)) (f : Option Mark) : VReq := ⟨some who, false, true, l, 5, plain 9, 0, r, f⟩
    let both := versioned [⟨false, 7, 0⟩, ⟨true, 8, 3⟩] []
    let older := versioned [] [req 16 none none]
    let own (r : Option (Tagged 64)) (f : Option Mark) : State := versioned [] [req me r f]
    okIs (both.vword (both.x 1 + 0) 8 true) (· == .inl l) = true ∧ both.myVreq 0 = none ∧ older.myVreq 0 = none ∧
    (∀ c ∈ both.vcellsAt l, c.ver ≠ 5) ∧ (∃ c ∈ both.vcellsAt l, c.shadow = true) ∧ (∃ c ∈ both.vcellsAt l, c.shadow = false) ∧
    (∃ q ∈ (older.cluster 0).vreqs, q.store = true ∧ q.loc = l ∧ q.result = none ∧ q.failed = none) ∧ Safety.PatientA both 4 ∧
    (own (some (plain 9)) none).myVreq 0 = some (req me (some (plain 9)) none) ∧ (own none none).myVreq 0 = some (req me none none) ∧
    (own none (some 1)).myVreq 0 = some (req me none (some 1)) := by
  unfold Safety.PatientA Safety.Patient; decide

/-- An image of CPSET at 0x40: 64 bytes from 0x400 to 0x800, one run. -/
def copyImage : Nat := 0x400 + 0x800 * 2 ^ 64 + 64 * 2 ^ 128

def copier : State :=
  csr ({ · with shadows := #v[plain 0x400, plain 0x800, plain 64, plain 0, plain 0, plain 0, plain 0] })
    (put 0x40 56 copyImage (on 0 [(1, 0x40)]))

theorem witness_Copies :
    let s := copier
    let vals : Vector Word 7 := s.me.csr.shadows.map (·.val)
    isCompute s.cur.unit = true ∧ (s.x 1).toNat % 8 = 0 ∧ Safety.LocalAt s (s.x 1) 56 0x40 ∧ Safety.Clean s 0x40 56 ∧
    s.cpBad vals = false ∧ field (shadow vals 0) 63 62 ≠ 1 ∧ field (shadow vals 1) 63 62 ≠ 1 ∧ cpCben vals = false ∧
    (s.eng (engKey 0)).copies.length + (s.eng (engKey 0)).marks 0 < copyCap 0 ∧
    s.cpBad (Vector.replicate 7 0) = true ∧
    (∀ i, i < 7 → vals.getD i 0 = (word (ofBytes (s.mem.read (0x40 + 8 * i) 8)) &&& csrMask (0x18 + i))) := by
  unfold Safety.LocalAt Safety.LocalIn Safety.Clean; decide +kernel

/-- One copy of the thread in a phase, alone in its engine. -/
def aCopy (p : CopyPhase) : Copy :=
  ⟨0, ⟨0, 0, 0⟩, #v[0x400, 0x800, 64, 0, 0, 0, 0], 0, fullWindow, 0, p, 0, 0, 0, none, false, none⟩

def copying (p : CopyPhase) : State :=
  { on 0 [] with engines := [(0x1000, { Engines.fresh with copyNext := 1, copies := [aCopy p] })] }

theorem witness_Copies_steps :
    let s := copying .queued
    let m := copying .moved
    let c := aCopy .queued
    (s.eng 0x1000).copies.find? (·.id == 0) = some c ∧ (s.eng 0x1000).mayRun 0x1000 c = true ∧ cpCben c.shadows = false ∧
    cpDist c.shadows = false ∧ cpCount c.shadows 1 = 1 ∧ cpCount c.shadows 2 = 1 ∧ cpCount c.shadows 3 = 1 ∧
    cpRun c.shadows = 64 ∧ Safety.LocalIn s 0 c.lwin (shadow c.shadows 0) 64 0x400 ∧
    Safety.LocalIn s 0 c.lwin (shadow c.shadows 1) 64 0x800 ∧ Safety.Clean s 0x400 64 ∧ Safety.UnderCeil s 0x800 64 0 ∧
    s.mem.wf = true ∧ (m.eng 0x1000).copies.find? (·.id == 0) = some (aCopy .moved) ∧ (aCopy .moved).phase = .moved ∧
    c.slot = none ∧ engKey c.thread.unit = 0x1000 ∧ ((copying .moving).eng 0x1000).copies = [aCopy .moving] ∧ (m.thread c.thread).mailbox.length < 8 ∧ m.mails = [] ∧
    (s.thread ⟨0, (s.core 0).sel, 3⟩).mailbox.length < 8 := by
  unfold Safety.LocalIn Safety.Clean Safety.UnderCeil; decide

/-- A descriptor of IXPOST at 0x40: one element of four bytes, by the 16-bit index at 0x200, from 0x400 on to the own
cluster's scratchpad; and the indirect copy that it describes. -/
def gather : State := put 0x40 32 (0x400 + 0x200 * 2 ^ 64 + 0x100000 * 2 ^ 128 + 4 * 2 ^ 224) (on 0 [(1, 0x40)])

def anIndirect (p : CopyPhase) (ctl : Word) : Indirect :=
  ⟨0, ⟨0, 0, 0⟩, 0x400, 0x200, 0x100000, ctl, fullWindow, 0, 0, p, 0, 0, 0, none⟩

def gathering (p : CopyPhase) (ctl : Word) : State :=
  { gather with engines := [(0x1000, { Engines.fresh with inds := [anIndirect p ctl] })] }

theorem witness_IndirectAndRows :
    let s := gather
    let w (k : Nat) : Word := word (ofBytes (s.mem.read (0x40 + 8 * k) 8))
    (s.x 1).toNat % 32 = 0 ∧ Safety.LocalAt s (s.x 1) 32 0x40 ∧ Safety.Clean s 0x40 32 ∧ isCompute s.cur.unit = true ∧
    s.ixOk (w 0) (w 1) (w 2) (w 3) = true ∧ s.ixOk (w 0) (w 1) 0 (w 3) = false ∧
    (s.eng (engKey 0)).inds.length + (s.eng (engKey 0)).marks 1 < 8 := by
  unfold Safety.LocalAt Safety.LocalIn Safety.Clean; decide

theorem witness_IndirectAndRows_steps :
    let q := anIndirect .queued (4 * 2 ^ 32)
    let s := gathering .queued (4 * 2 ^ 32)
    let m := gathering .moved (4 * 2 ^ 32 + 2 ^ 63)
    (∀ y, y ∈ (s.eng 0x1000).inds → y.phase ≠ .moved) ∧ (s.eng 0x1000).inds.find? (·.phase == .queued) = some q ∧
    q.total = 1 ∧ q.ctl.getLsbD 50 = false ∧ s.mem.wf = true ∧ q.iw = 2 ∧
    Safety.LocalIn s 0 q.lwin q.ibase 2 0x200 ∧ Safety.Clean s 0x200 2 ∧ ofBytes (s.mem.read 0x200 2) ≠ 2 ^ 15 ∧
    q.esize = 4 ∧ Safety.LocalIn s 0 q.lwin (q.base + word ((signExt 0 16).toNat * 4)) 4 0x400 ∧ Safety.Clean s 0x400 4 ∧
    Safety.LocalIn s 0 q.lwin q.pack 4 (spadLoc 0) ∧ Safety.UnderCeil s (spadLoc 0) 4 0 ∧
    (m.eng 0x1000).inds.find? (·.phase == .moved) = some (anIndirect .moved (4 * 2 ^ 32 + 2 ^ 63)) ∧
    (anIndirect .moved (4 * 2 ^ 32 + 2 ^ 63)).ctl.getLsbD 63 = true ∧ q.ctl.getLsbD 63 = false ∧
    engKey 0 = 0x1000 ∧ (m.thread ⟨0, 0, 0⟩).mailbox.length < 8 ∧ m.mails = [] := by
  unfold Safety.LocalIn Safety.Clean Safety.UnderCeil; decide

/-- A row set at 0x40 on a channel core: two rows of 64 bytes in HBM, none selected by the row mask. -/
def rower : State := put (unitLoc 0x1200 + 0x40) 32 (0x4000000000000000 + 64 * 2 ^ 64 + 2 * 2 ^ 160 + 64 * 2 ^ 192) (on 0x1200 [(1, 0x40), (2, 0x400)])

theorem witness_IndirectAndRows_rows :
    let s := rower
    let l := unitLoc 0x1200 + 0x40
    let r := rowSet (ofBytes (s.mem.read l 32))
    isChannel s.cur.unit = true ∧ (s.x 1).toNat % 32 = 0 ∧ Safety.LocalAt s (s.x 1) 32 l ∧ Safety.Clean s l 32 ∧
    Safety.LocalAt s (s.x 1) 128 l ∧ Safety.Clean s l 128 ∧ (s.x 2).toNat % 64 = 0 ∧ r.ok = true ∧
    (s.eng (engKey 0x1200)).rows.length + (s.eng (engKey 0x1200)).marks 4 < 4 ∧
    okIs (s.advance.rowRegions r false []) (fun o => decide (o = (s.advance, []))) = true ∧
    okIs (s.advance.regionOf s.agent (s.x 2) 128 true) (fun o => decide (o.1 = s.advance) &&
      (o.1.regionOver s.agent o.2 (s.rmark (.ldrows 2 1 0) ||| s.mem.markOf l 32 ||| s.me.rowMask.mark |||
        o.1.regionMarks [])).isNone &&
      (match o.2.target with | .loc _ => true | _ => false)) = true ∧
    okIs (s.advance.loadAs s.agent (s.x 2) 128) (fun o => decide (o.1 = s.advance) && decide (ofBytes o.2.1 < 2 ^ 2)) = true := by
  unfold Safety.LocalAt Safety.LocalIn Safety.Clean; decide

theorem witness_IndirectAndRows_unit :
    let c (st : Bool) : RowCmd :=
      ⟨0, ⟨0x1200, 0, 0⟩, st, [⟨0x800, 64, .loc 0x800, []⟩], 1, ⟨0x400, 192, .loc 0x400, []⟩, 3, 0, 0, fullWindow, none⟩
    let s (st : Bool) : State := { on 0x1200 [] with engines := [(0x1200, { Engines.fresh with rows := [c st] })] }
    ((s true).eng 0x1200).rows = c true :: [] ∧ ((s false).eng 0x1200).rows = c false :: [] ∧ (s true).mem.wf = true ∧ 0 < 64 ∧
    Safety.Clean (s false) 0x800 64 ∧ Safety.Clean (s true) 0x400 192 ∧ (s true).fullAt 0x400 = false := by
  unfold Safety.Clean; decide

theorem witness_IndirectAndRows_markers :
    let s := on 0 [(1, 1)]
    let q := s.markerQueue 1
    let m : Marker := ⟨1, ⟨0, 0, 0⟩, 5, [0]⟩
    let t : State := { on 0 [] with engines := [(0x1000, { Engines.fresh with markers := [m] })] }
    (isCompute s.cur.unit = true ∧ (s.x 1).toNat % 4 ≠ 3) ∧ (s.queueUse 0x1000 q).2 + (s.eng 0x1000).marks q < (s.queueUse 0x1000 q).1 ∧
    (t.eng 0x1000).markers = [] ++ m :: [] ∧ (∀ i, i ∈ m.ids → i ∉ t.outstanding 0x1000 m.queue m.thread) := by decide

/-- The MXU half of core 0's cluster. -/
def half (f : Half → Half) (s : State) : State := s.setCluster 0 { Cluster.fresh with half0 := f Half.fresh }

/-- Operand descriptors in pairs x4, x6, x8: one line of four elements each at scratchpad offsets 0, 512 and 1024, I8 times
I8 into I32 (Tables 15.5, 15.6). -/
def matrix : State :=
  let s := half ({ · with lease := some (⟨0, 0, 0⟩, 9) })
    (on 0 [(1, 0x100000), (4, 3 * 2 ^ 48), (5, 4), (6, 3 * 2 ^ 48 + 512), (7, 4), (8, 1024), (9, 4)])
  s.setMySet { s.mySet with fmt := ⟨0x977, 0⟩ }

theorem witness_MatrixForms :
    let s := matrix
    let f := s.mySet.fmt.c
    let (da, db, dc) := (s.pairDesc 4, s.pairDesc 6, s.pairDesc 8)
    isCompute s.cur.unit = true ∧ mfmtOk f = true ∧ s.holdsLease = true ∧ s.myHalf.queue = [] ∧
    (s.eng (engKey 0)).marks (halfQueue (s.halfOf s.cur)) < 8 ∧ da.kind ≠ 1 ∧ db.kind ≠ 1 ∧
    da.ok (fmtType f 0) s.tiles false = true ∧ db.ok (fmtType f 1) s.tiles false = true ∧
    dc.ok (fmtType f 2) s.tiles true = true ∧ db.len = da.len ∧ dc.lines = da.lines ∧ dc.len = db.lines ∧
    s.isSplit 0 = false ∧ s.cur.set < 4 ∧ s.mySet.fault = none ∧ s.mySet.results = [] ∧ s.myHalf.pending = [] ∧
    ((0x100000 ≤ (s.x 1).toNat ∧ (s.x 1).toNat < 0x200000 ∧ (s.x 1).toNat % 512 = 0) ∧
      s.saveBytes ≤ 512 * (lwinSpad s.me.csr.lwin.val).2) := by
  decide

theorem witness_MatrixForms_lease :
    let free := on 0 []
    let other := half ({ · with lease := some (⟨1, 0, 0⟩, 9) }) (on 0 [])
    free.myHalf.lease = none ∧ free.myHalf.requests = [] ∧ other.myHalf.lease = some (⟨1, 0, 0⟩, 9) ∧
    (⟨1, 0, 0⟩ : ThreadId) ≠ other.cur ∧ other.myHalf.requests = [] ∧ Safety.PatientA other 0x0E ∧ free.holdsLease = false ∧
    free.tileSlots = false ∧ isCompute (on 0x1200 []).cur.unit = false ∧ ((on 0x1200 []).x 1).toNat < 0x100000 := by
  unfold Safety.PatientA Safety.Patient; decide

/-- Without a lease, with the descriptor of MCONV readable. -/
theorem witness_MatrixForms_unleased :
    let s := on 0 [(1, 0x40)]
    s.holdsLease = false ∧ s.tileSlots = false ∧ (s.x 1).toNat % 64 = 0 ∧ Safety.LocalAt s (s.x 1) 64 0x40 ∧
    Safety.Clean s 0x40 64 ∧ Safety.MayOpen s ⟨false, 0⟩ 4 ∧ (∀ q, q ∈ s.myHalf.pending → q.thread ≠ s.cur) := by
  unfold Safety.LocalAt Safety.LocalIn Safety.Clean Safety.MayOpen; decide

/-- The descriptor of a convolution of one by one by four elements with a one-by-one window at 0x40 (Table 15.8). -/
theorem witness_MatrixForms_conv :
    let v := 2 ^ 64 + 2 ^ 80 + 2 ^ 96 + 4 * 2 ^ 112 + 2 ^ 128 + 2 ^ 136 + 2 ^ 144 + 2 ^ 152 + 2 ^ 176 + 2 ^ 184 + 2 ^ 192 + 2 ^ 208
    let s := put 0x40 64 v { matrix with cur := ⟨0, 0, 0⟩ }
    (convOf (ofBytes (s.mem.read 0x40 64))).isSome ∧ (convOf v).map (fun c => c.fh * c.fw * c.cin) = some (s.pairDesc 6).len ∧
    (convOf v).map (fun c => c.xbase % opSize .i8) = some 0 ∧ ETy.i8.coded = false := by decide

theorem witness_MatrixForms_tables :
    let s := put 0x40 8 0x4444444444444444 (on 0 [(1, 0x40)])
    (s.x 1).toNat % 8 = 0 ∧ Safety.LocalAt s (s.x 1) 8 0x40 ∧ Safety.Clean s 0x40 8 ∧
    tableValid (lengthsOf (ofBytes (s.mem.read 0x40 8)) 16) = true ∧ tableValid (lengthsOf 9 16) = false ∧
    (s.cluster 0).half0.queue = [] ∧ (s.cluster 0).half1.queue = [] ∧ s.windowsFull ⟨false, 0⟩ .x 4 = false ∧
    ((half (fun h => { h with queue := [] }) s).setMySet { s.mySet with results := [⟨5, 0⟩] }).mySet.results = [⟨5, 0⟩] := by
  unfold Safety.LocalAt Safety.LocalIn Safety.Clean; decide

/-- A command of one I8 product, before its first chunk step and before its output step. -/
def aCommand (step : Nat) (sums : List (BitVec 32)) : MatCmd :=
  { seq := 0, thread := ⟨0, 0, 0⟩, m := 1, n := 1, k := 4, a := .spad 0 4, b := .spad 512 4, cOff := 1024, cPitch := 4
    conv := none, fmt := ⟨0x977, 0⟩, tabsA := [], tabsB := [], acc := false, lwin := fullWindow, step := step, sums := sums
    flags := 0, mark := 0, outb := false, fault := none, badA := [], badB := [] }

theorem witness_MatrixForms_steps :
    let s := half ({ · with queue := [aCommand 0 []] }) (on 0 [])
    let o := half ({ · with queue := [aCommand 1 [7]] }) (on 0 [])
    let q := aCommand 0 []
    let l := spadLoc 0
    ((s.cluster 0).half 0).queue = q :: [] ∧ 0 < q.k ∧ q.k ≤ 32 ∧ fmtType q.fmt.c 0 = .i8 ∧ fmtType q.fmt.c 1 = .i8 ∧
    fmtType q.fmt.c 2 = .i32 ∧ (s.ctxSet 0 0).fault = none ∧ Safety.LocalIn s 0 q.lwin 0x100000 4 l ∧ Safety.Clean s l 4 ∧
    Safety.LocalIn s 0 q.lwin 0x100200 4 (l + 512) ∧ Safety.Clean s (l + 512) 4 ∧
    ((o.cluster 0).half 0).queue = aCommand 1 [7] :: [] ∧ (o.thread ⟨0, 0, 0⟩).csr.mstep.val.getLsbD 63 = false ∧
    (o.ctxSet 0 0).results.length < 8 ∧ Safety.LocalIn o 0 q.lwin 0x100400 4 (l + 1024) ∧ Safety.UnderCeil o (l + 1024) 4 0 ∧
    o.mem.wf = true := by
  unfold Safety.LocalIn Safety.Clean Safety.UnderCeil; decide

/-- Commands of the general form: E4M3 times E4M3 into FP32 of two lines, 33 elements long, that accumulates; and a
convolution of four rows over one batch of two, so that rows 2 and 3 lie past it (R388). -/
def bigger (step : Nat) (sums : List (BitVec 32)) : MatCmd :=
  { aCommand step sums with m := 2, k := 33, a := .spad 0 64, b := .spad 512 64, fmt := ⟨0x033, 0⟩, acc := true }

def convolved : MatCmd :=
  { aCommand 0 [] with m := 4, conv := some ⟨0, 1, 1, 2, 4, 1, 1, 1, 1, 0, 0, 1, 1, 1, 2, 0⟩ }

theorem witness_MatrixForms_general :
    let s := half ({ · with queue := [bigger 0 []] }) (on 0 [])
    let q := bigger 0 []
    let l := spadLoc 0
    let reads (o n : Nat) : Prop := Safety.LocalIn s 0 q.lwin (word (0x100000 + o)) n (l + o) ∧ Safety.Clean s (l + o) n
    mfmtOk q.fmt.c = true ∧ fmtType q.fmt.c 0 = .e4m3 ∧ fmtType q.fmt.c 1 = .e4m3 ∧ fmtType q.fmt.c 2 = .f32 ∧
    q.step < (q.k + 31) / 32 ∧ (∀ i, i < q.m → reads (0 + i * 64) 32) ∧ reads 512 32 ∧ (∀ i, i < q.m → reads (1024 + i * 4) 4) ∧
    (∃ m e, (matFmt .e4m3).unpack (ofBytes (s.mem.read l 1)) = .fin false m e) ∧
    (let v : Conv := ⟨0, 1, 1, 2, 4, 1, 1, 1, 1, 0, 0, 1, 1, 1, 2, 0⟩
     convolved.conv = some v ∧ (v.m0 + 1) / (v.p * v.q) < v.nb ∧ ¬(v.m0 + 2) / (v.p * v.q) < v.nb) := by
  refine ⟨by decide, by decide, by decide, by decide, by decide, ?_, ?_, ?_, ⟨_, _, rfl⟩, by decide⟩
  · unfold Safety.LocalIn Safety.Clean; decide
  · unfold Safety.LocalIn Safety.Clean; decide
  · unfold Safety.LocalIn Safety.Clean; decide

theorem witness_MatrixForms_grant :
    let s := half ({ · with requests := [(⟨1, 0, 0⟩, 3)] }) (on 0 [])
    ((s.cluster 0).half 0).lease = none ∧ ((s.cluster 0).half 0).requests = [(⟨1, 0, 0⟩, 3)] := by decide

/-- A DCP thread that names HT1 of core 0, which is as given. -/
def dcp (run : Run) (rs : List (Nat × Word)) : State :=
  let s := on 0x1380 ((1, 2 ^ 32) :: rs)
  s.setThread ⟨0, 0, 1⟩ { Thread.fresh with run := run }

theorem witness_ContextForms :
    let s := dcp .parkedFault [(2, 3), (3, 5)]
    let u := field (s.x 1) 31 19
    (isDcp s.cur.unit = true ∧ s.me.csr.priv = true) ∧ (s.x 2).toNat % 8 ≤ 4 ∧ 4 < (s.x 3).toNat % 8 ∧
    s.namedThread (s.x 1) = some ⟨0, 0, 1⟩ ∧ (s.thread ⟨0, 0, 1⟩).run = .parkedFault ∧ (s.thread ⟨0, 0, 1⟩).hold = none ∧
    ((dcp .parkedPre []).thread ⟨0, 0, 1⟩).run = .parkedPre ∧ ((dcp .running []).thread ⟨0, 0, 1⟩).run = .running ∧
    ((dcp .idle []).thread ⟨0, 0, 1⟩).run = .idle ∧ (dcp .running []).served ⟨0, 0, 1⟩ = false ∧
    s.leaseBusy ⟨0, 0, 1⟩ = false ∧ s.copiesBusy ⟨0, 0, 1⟩ = false ∧ s.me.target = none ∧ u = 0 ∧
    (s.thread ⟨0, 0, 1⟩).hold ≠ some .ending ∧ (s.thread ⟨0, 0, 1⟩).cont = none ∧
    s.namedThread (2 ^ 40) = none ∧ isDcp (on 0 []).cur.unit = false ∧
    (csr ({ · with priv := false }) s).me.csr.priv = false := by decide

theorem witness_ContextForms_sets :
    let s := on 0x1380 []
    (field (s.x 1) 63 32 = 0 ∧ field (s.x 1) 18 0 = s.chip ∧ s.coreHere 0 = true) ∧ (s.ctxSet 0 0).loaded = true ∧
    (s.core 0).sel = 0 ∧ s.saving 0 = false ∧ (s.ctxSet 0 1).loaded = false ∧
    ¬(field (2 ^ 40 : Word) 63 32 = 0) ∧ ((on 0x1380 []).x 4).toNat % 64 = 0 := by decide

theorem witness_ContextForms_image :
    Safety.LocalAt (on 0x1380 []) 0 16448 (unitLoc 0x1380) ∧ Safety.Clean (on 0x1380 []) (unitLoc 0x1380) 16448 :=
  ⟨by unfold Safety.LocalAt Safety.LocalIn; decide, rfl⟩

theorem witness_ContextForms_group :
    let s : State := { on 0x1380 [(1, 1)] with groups := (member (on 0 [])).groups }
    (isDcp s.cur.unit = true ∧ s.me.csr.priv = true) ∧ (s.namedGroup (s.x 1)).map (·.1) = some 1 := by decide

theorem witness_PartitionForms :
    let full := on 0x1380 [(1, 8), (2, 8), (4, 1), (5, 64), (6, 513)]
    let s : State := { full with parts := [] }
    let held : State := { full with parts := [(1, { Partition.fresh with base := 8, len := 8 })] }
    let t := csr ({ · with priv := false }) (on 0 [])
    let others (s : State) := (s.parts.filter fun e => e.1 != 1 && e.2.len != 0).map fun e => (e.2.base, e.2.len)
    (isDcp s.cur.unit = true ∧ s.me.csr.priv = true) ∧ (s.x 4).toNat = 1 ∧ (s.x 1).toNat ≤ 4095 ∧ (s.x 2).toNat ≤ 4096 ∧
    s.groups = [] ∧ s.cores = [] ∧ (∀ t, t ∈ s.threads → isCompute (t.1 / 16) = true → t.2.run = .idle) ∧ (s.x 2).toNat ≠ 0 ∧
    validParts (((s.x 1).toNat, (s.x 2).toNat) :: others s) = true ∧ ((s.part 1).base ≠ 8 ∨ (s.part 1).len ≠ 8) ∧
    (s.x 0).toNat = 0 ∧ validParts (others held) = true ∧ (held.part 1).len ≠ 0 ∧ ¬((s.x 5).toNat ≤ 63) ∧
    validParts (((full.x 1).toNat, (full.x 2).toNat) :: others full) = false ∧ 512 < (s.x 6).toNat ∧
    t.me.csr.priv = false ∧ isDcp t.cur.unit = false := by decide

theorem witness_PartitionForms_queues :
    let s := on 0x1380 [(1, 0x1000), (2, 0x4000000000000001), (3, 1), (4, 0x40)]
    field (s.x 1) 63 18 = 0 ∧ field (s.x 1) 15 13 = 0 ∧ s.spadHere (field (s.x 1) 12 0) = true ∧ field (s.x 2) 63 62 = 1 ∧
    field (s.x 2) 11 0 ≠ 0 ∧ 1 ≤ (s.x 3).toNat ∧ (s.x 3).toNat ≤ 512 ∧ (s.x 4).toNat % 64 = 0 ∧
    (s.x 4).toNat + 64 * (s.x 3).toNat ≤ 0x10000 ∧ (s.x 3).toNat ≤ 63 ∧ field (s.x 4) 63 18 = 0 ∧
    2 * (((s.parts.filter fun e => e.1 != (s.x 3).toNat && e.2.len != 0).map fun e => e.2.minbw.toNat).sum +
      field (s.x 4) 15 0) ≤ 175 * s.channelsUp ∧ s.eMemIdle = true ∧ isSec s.cur.unit = false := by decide

/-- A lease of core 0 on the half of cluster 0, and a command of its thread that has a save area and is half done. -/
theorem witness_PartitionForms_revoke :
    let q := { aCommand 0 [] with fmt := ⟨0x977, 0x101000⟩ }
    let s := half ({ · with lease := some (⟨0, 0, 0⟩, 3), queue := [q] }) (on 0x1380 [(1, 0x1000)])
    let e := half ({ · with lease := some (⟨0, 0, 0⟩, 3) }) (on 0x1380 [(1, 0x1000)])
    let u := field (s.x 1) 12 0
    field (s.x 1) 63 14 = 0 ∧ s.spadHere u = true ∧ s.me.target = none ∧ ((on 0x1380 []).cluster 0).half0.lease = none ∧
    ((on 0x1380 []).cluster 0).half0.queue = [] ∧ ((e.cluster 0).half 0).lease = some (⟨0, 0, 0⟩, 3) ∧
    ((e.cluster 0).half 0).queue = [] ∧ ((s.cluster 0).half 0).lease = some (⟨0, 0, 0⟩, 3) ∧ isCompute 0 = true ∧
    q.steps ≤ 2 ^ 16 ∧ ((s.cluster 0).half 0).queue.filter (fun c => c.thread == (⟨0, 0, 0⟩ : ThreadId)) = q :: [] ∧
    q.fmt.area ≠ 0 ∧ q.fault = none ∧ q.step < q.steps := by decide

theorem witness_MarkForms :
    let s := put 0x40 32 (0x200 + 0x100000 * 2 ^ 64 + 64 * 2 ^ 128 + 0x1000 * 2 ^ 192) (on 0 [(1, 0x40)])
    let v := ofBytes (s.mem.read 0x40 32)
    s.bound (3 : Reg).toNat = false ∧ (onStream false 0).bound (28 : Reg).toNat = true ∧ Safety.LocalAt s (s.x 1) 1 0x40 ∧
    Safety.Clean s 0x40 1 ∧ (7 : Reg).toNat < 8 ∧ Safety.LocalAt s (s.x 1) 32 0x40 ∧ Safety.Clean s 0x40 32 ∧
    (s.x 1).toNat % 32 = 0 ∧ v / 2 ^ 160 % 2 ^ 32 = 0 ∧ v / 2 ^ 128 % 2 ^ 32 = 64 ∧ s.gate.queue.length < 16 ∧
    s.me.csr.lwin.val = fullWindow ∧ ¬(((s.gate.next - 1 - BitVec.ofNat 16 0x40).toNat < 256)) ∧
    ((3 : BitVec 16) - 1 - BitVec.ofNat 16 2).toNat < 256 := by
  unfold Safety.LocalAt Safety.LocalIn Safety.Clean; decide

/-- Bytes of a number put into memory with the most significant first. -/
def putBe (l n v : Nat) (s : State) : State := { s with mem := s.mem.write l (toBytes n v).reverse }

/-- The body of a policy: version 1, DROP slot 0, 64 bytes to the start of cluster 0's scratchpad, one release, EXPIRY 1,000
(Table 20.3). -/
def policy : Nat := 1 + 2 ^ 32 + (2 * 2 ^ 62 + 0x1000 * 2 ^ 21) * 2 ^ 128 + 64 * 2 ^ 192 + 64 * 2 ^ 256 + 2 ^ 288 + 1000 * 2 ^ 320

/-- A signature of it, and the public key under which it verifies (worked out from FIPS 186-4). -/
def signature : Nat × Nat :=
  (0xBD574FE63DD5343D9E55965B33EC9343BF1C575412F0DF6DCDC43A05FCDF715F,
   0xDEABA7F29EEA9A1F4F2ACB2D99F649A1BE01A900DD043EF960BF02647CA14B58)

def signer : KeyEntry :=
  ⟨0xC5F932FB04FBCC9ABEFB55C01F0AA1FF4A275B10A476E91E2CC632E58E95D9C4,
   0xDB38C2F71405EC9E4C4D189A7C0B214EB493EA20CD22B908FB2E0951443CDA3E, true⟩

/-- A request for a release under it, whose slot 0 names key 0. -/
def request : GateReq :=
  ⟨5, ⟨0, 0, 0⟩, 0, 0x200 + 0x100000 * 2 ^ 64 + 64 * 2 ^ 128 + 0x1000 * 2 ^ 192, fullWindow, 1, some 3, none⟩

def releasing : State :=
  let s := { on 0 [] with gate := ⟨6, [request], []⟩, parts := [(0, { State.reset.part 0 with slots := [(0, 2 ^ 63)] })] }
  putBe 0x1080 32 signature.2 (putBe 0x1060 32 signature.1 (put 0x1000 96 policy
    { s with sec := { s.sec with keys := [(0, signer)] } }))

theorem witness_gateRun :
    let s := releasing
    let q := request
    s.gate.queue = q :: [] ∧ s.sec.halted = false ∧ s.mem.wf = true ∧ q.policy.toNat % 64 = 0 ∧ q.len = 64 ∧
    Safety.LocalIn s 0 q.lwin q.policy 1120 0x1000 ∧ Safety.LocalIn s 0 q.lwin q.src 64 0x200 ∧ Safety.Clean s 0x200 64 ∧
    Safety.LocalIn s 0 q.lwin q.dst 64 (spadLoc 0) ∧ Safety.UnderCeil s (spadLoc 0) 64 0 ∧ s.liveUses 0 = [] ∧
    q.id < 2 ^ 16 := by
  unfold Safety.LocalIn Safety.Clean Safety.UnderCeil; decide

/-- Every test of the release passes: the signature is valid, and the policy covers the data's origins. -/
theorem witness_gateRun_policy :
    let s := releasing
    let q := request
    let v := ofBytes (s.mem.read 0x1000 1120)
    let far := (q.far s.chip q.dst).toNat
    Safety.Clean s 0x1000 1120 ∧ policyOk v = true ∧ chop v 8 4 = s.chip ∧ chop v 0x0C 2 = (s.part 0).sgid.toNat ∧
    s.tbase.toNat < chop v 0x28 8 ∧ (q.mg ||| s.mem.markOf 0x200 64) &&& ~~~ (BitVec.ofNat 16 (chop v 4 2)) = 0 ∧
    64 ≤ chop v 0x20 4 ∧ chop v 0x10 8 ≤ far ∧ far + 64 ≤ chop v 0x10 8 + chop v 0x18 8 ∧ chop v 4 2 = 1 ∧
    s.slotSigned 0 v 0 = true ∧ 0 < chop v 0x24 4 := by
  unfold Safety.Clean; decide +kernel

theorem witness_MarkForms_unaligned :
    let q := { request with req := 0x1001 * 2 ^ 192 }
    let s := on 0 []
    q.policy.toNat % 64 ≠ 0 ∧ q.id < 2 ^ 16 ∧ s.sec.halted = false ∧
    (s.fullAt q.src || s.fullAt q.dst || s.fullAt q.policy) = false := by decide

/-- A cluster whose agent holds 16 requests of other clusters (R315). -/
def crowded (s : State) : State :=
  s.setCluster 0 { s.cluster 0 with vreqs := List.replicate 16 ⟨some 999, true, false, spadLoc 0, 5, plain 0, 0, none, none⟩ }

theorem witness_MarkForms_full :
    let q := { request with req := 0x8000000200000000 }
    let s := crowded { on 0 [] with gate := ⟨6, [q], []⟩ }
    s.gate.queue = [q] ∧ (s.fullAt q.src || s.fullAt q.dst || s.fullAt q.policy) = true := by decide

theorem witness_MarkForms_expiry :
    let u : UseEntry := ⟨0, 1, 100⟩
    let s (now : Nat) : State := { on 0 [] with parts := [(2, { Partition.fresh with uses := [u] })], now := now }
    ((s 100).part (2 : BitVec 6).toNat).uses = [] ++ u :: [] ∧ u.expiry.toNat ≤ (s 100).tbase.toNat ∧
    (s 99).tbase.toNat < u.expiry.toNat := by decide

theorem witness_SecurityForms :
    let s := on 0x1440 [(1, 0x40), (2, 0x80)]
    let m : State := { s with mem := { s.mem with marks := [(0x40, 1)] } }
    let l := unitLoc 0x1440 + 0x40
    isSec s.cur.unit = true ∧ isSec (on 0 []).cur.unit = false ∧ s.eMemIdle = true ∧ Safety.LocalAt s (s.x 1) 32 l ∧
    Safety.Clean s l 32 ∧ (s.x 1).toNat % 8 = 0 ∧ s.mem.markOf l 32 ||| s.xm 1 ||| s.base = 0 ∧
    Safety.LocalAt s (s.x 1) 448 l ∧ Safety.Clean s l 448 ∧ (s.x 1).toNat % 64 = 0 ∧ s.mem.wf = true ∧ m.mem.wf = true ∧
    Safety.LocalAt s (s.x 1) 192 l ∧ Safety.Clean s l 192 ∧ s.mem.markOf l 192 ||| s.xm 1 ||| s.base = 0 ∧ s.sec.dbg = false ∧
    ofBytes (s.mem.read l 4) ≠ 1 ∧ s.me.csr.priv = true ∧ s.sec.doorbells.length < 16 ∧ s.sec.halted = false ∧
    (csr ({ · with priv := false }) s).me.csr.priv = false ∧ (2 ^ 63 : Word).getLsbD 63 = true ∧
    (let t := { s with parts := [(0, { State.reset.part 0 with slots := [(0, 2 ^ 63)] })] }
     (t.slotWord (0 : BitVec 6).toNat 0).getLsbD 63 = true ∧ t.me.csr.priv = true) ∧
    (let t := { s with sec := { s.sec with dbg := true, doorbells := [plain 5] } }
     t.sec.dbg = true ∧ t.sec.doorbells = plain 5 :: []) := by
  unfold Safety.LocalAt Safety.LocalIn Safety.Clean; decide

theorem witness_SecurityForms_mark :
    let s := on 0x1440 [(1, 0x40)]
    let l := unitLoc 0x1440 + 0x40
    let m : State := { s with mem := { s.mem with marks := [(l / 64 * 64, 1)] } }
    m.mem.markOf l 32 ||| m.xm 1 ||| m.base ≠ 0 := by decide

/-- A debug token: version 1, lifecycle 7, unit 5, nonce 7, the generator as its public key, and a signature under it
(Table 21.6; worked out from FIPS 186-5). -/
def tokenKey : List Byte :=
  beBytes 32 0x6B17D1F2E12C4247F8BCE6E563A440F277037D812DEB33A0F4A13945D898C296 ++
    beBytes 32 0x4FE342E2FE1A7F9B8EE7EB4A7C0F9E162BCE33576B315ECECBB6406837BF51F5

def tokenBody : List Byte :=
  toBytes 32 (1 + 7 * 2 ^ 32 + 5 * 2 ^ 64 + 7 * 2 ^ 128) ++ tokenKey ++ List.replicate 32 0

def token : List Byte :=
  tokenBody ++ beBytes 32 0x672C4A514D9DE43EAADEE6863C1D68BC95F7EB56E81008FF044360F0018E22B1 ++
    beBytes 32 0xE34A18C59AF971D3DD19A3B452B4D1EE006006060EE44BA9C45347AAFEBC7739

/-- The security core with it in its memory. -/
def opening : State :=
  let s := on 0x1440 [(1, 0x40)]
  { s with mem := s.mem.write (unitLoc 0x1440 + 0x40) token, sec := { s.sec with lcs := some 7, wiped := true } }

theorem opening_token : opening.mem.read (unitLoc 0x1440 + 0x40) 192 = token := by decide +kernel

/-- The token's fields, where the fuses and the random source, which the model leaves free, hold what it names. -/
theorem witness_dbgopen (h1 : Config.fuse 1 = 5) (h6 : Config.fuse 6 = 0x362223EF7DDB75D8)
    (h7 : Config.fuse 7 = 0x803EBBB0C638C7AE) (h8 : Config.fuse 8 = 0x24DFF4D80F5D2F14)
    (h9 : Config.fuse 9 = 0x9F0DB5CBF5EED6FE) (hr : Config.randomSource 0 = 6) :
    let s := opening
    let l := unitLoc 0x1440 + 0x40
    let tok := s.mem.read l 192
    let le (o n : Nat) : Nat := ofBytes ((tok.drop o).take n)
    Safety.LocalAt s (s.x 1) 192 l ∧ Safety.Clean s l 192 ∧ (s.x 1).toNat % 64 = 0 ∧
    s.mem.markOf l 192 ||| s.xm 1 ||| s.base = 0 ∧ isSec s.cur.unit = true ∧ s.sec.dbg = false ∧ le 0 4 = 1 ∧
    le 0x18 8 = 0 ∧ le 0x60 32 = 0 ∧ s.sec.wiped = true ∧ s.sec.nkey = 0 ∧
    sha256 ((tok.drop 0x20).take 64) = s.fuseString 6 ∧ le 4 4 = s.lcs ∧ le 8 8 = (s.fuse 1).toNat ∧
    le 0x10 8 = s.sec.nonce.toNat := by
  have hn : opening.sec.nonceIx = 0 := by decide
  have hf (k : Nat) (h : k ≤ 10) (h0 : k ≠ 0) : opening.fuse k = Config.fuse k := by simp [State.fuse, h, h0]
  intro s l tok
  have ht : tok = token := opening_token
  rw [ht]
  refine ⟨?_, ?_, by decide, by decide, by decide, by decide, by decide, by decide, by decide +kernel, by decide,
    by decide, ?_, by decide, ?_, ?_⟩
  · unfold Safety.LocalAt Safety.LocalIn; decide
  · unfold Safety.Clean; decide
  · simp only [s, State.fuseString, span, List.range, List.range.loop, List.map_cons, List.map_nil, List.flatMap_cons,
      List.flatMap_nil, Nat.reduceAdd, hf 6 (by decide) (by decide), hf 7 (by decide) (by decide),
      hf 8 (by decide) (by decide), hf 9 (by decide) (by decide), h6, h7, h8, h9]
    decide +kernel
  · rw [hf 1 (by decide) (by decide), h1]; decide +kernel
  · rw [Sec.nonce, hn, hr]; decide +kernel

/-! The signature, in parts: the digest, the two products, and the sum. -/

def tokenDigest : Nat := 0xE096A5389213C8CA613CB6663DE869B905763205575BCAF934650C9D5CF333BE

theorem token_digest : sha256 (token.take 128) = tokenDigest := by decide +kernel

theorem token_left : mulPoint 0x84B75718EB6ACB059ED913AB8D752A4E7AE09A221C391AF4813FCA547859A561 g256 256 none =
    some (0x288353D20A90C7C26DCC09E3FF907A347116F629E278693B151BDB422BE0CE2F,
      0xA0A4A60A8C429EED0B41002EFCF561563F3404848066E3596D597069BC383C28) := by decide +kernel

theorem token_right : mulPoint 0x7B48A8E6149534FB6126EC54728AD5B14206608B8ADE8390727A006E84098023 g256 256 none =
    some (0x9B1CE1FA877FC2709C064BB7E8D61790F5027A186BC0E35B84DD1F6EC9DAF0CD,
      0xD0D5539108EEF99C441598032DA90B00A6F47C9FDDC2618CD6AD220E202B3CF7) := by decide +kernel

theorem witness_dbgopen_signature :
    let tok := opening.mem.read (unitLoc 0x1440 + 0x40) 192
    let be (o : Nat) : Nat := ofBe ((tok.drop o).take 32)
    ecdsaVerify (be 0x20) (be 0x40) (sha256 (tok.take 128)) (be 0x80) (be 0xA0) = true := by
  intro tok
  have ht : tok = token := opening_token
  have hx : ofBe ((token.drop 0x20).take 32) = 0x6B17D1F2E12C4247F8BCE6E563A440F277037D812DEB33A0F4A13945D898C296 := by decide
  have hy : ofBe ((token.drop 0x40).take 32) = 0x4FE342E2FE1A7F9B8EE7EB4A7C0F9E162BCE33576B315ECECBB6406837BF51F5 := by decide
  have hr : ofBe ((token.drop 0x80).take 32) = 0x672C4A514D9DE43EAADEE6863C1D68BC95F7EB56E81008FF044360F0018E22B1 := by decide
  have hs : ofBe ((token.drop 0xA0).take 32) = 0xE34A18C59AF971D3DD19A3B452B4D1EE006006060EE44BA9C45347AAFEBC7739 := by decide
  have hw : invMod n256 0xE34A18C59AF971D3DD19A3B452B4D1EE006006060EE44BA9C45347AAFEBC7739 =
      0x8BC18F76EE5F74EB59240AAEFB93191F8BFB1D66770439D78F492DCE2B100507 := by decide +kernel
  have hu1 : tokenDigest * 0x8BC18F76EE5F74EB59240AAEFB93191F8BFB1D66770439D78F492DCE2B100507 % n256 =
      0x84B75718EB6ACB059ED913AB8D752A4E7AE09A221C391AF4813FCA547859A561 := by decide
  have hu2 : 0x672C4A514D9DE43EAADEE6863C1D68BC95F7EB56E81008FF044360F0018E22B1 *
      0x8BC18F76EE5F74EB59240AAEFB93191F8BFB1D66770439D78F492DCE2B100507 % n256 =
      0x7B48A8E6149534FB6126EC54728AD5B14206608B8ADE8390727A006E84098023 := by decide
  simp only [ht, hx, hy, hr, hs, token_digest]
  unfold ecdsaVerify
  rw [hw]
  simp only [hu1, hu2, token_left]
  rw [show (some (0x6B17D1F2E12C4247F8BCE6E563A440F277037D812DEB33A0F4A13945D898C296,
    0x4FE342E2FE1A7F9B8EE7EB4A7C0F9E162BCE33576B315ECECBB6406837BF51F5) : Point) = g256 from rfl, token_right]
  decide +kernel

/-! ### The scheduler -/

/-- A launch of that record in partition 0's queue. -/
def queued (num : BitVec 32) (pri since : Nat) : QLaunch := ⟨record, num, none, pri, since⟩

/-- Partition 0 with two cores and a queue. -/
def launching (q : List QLaunch) (f : Partition → Partition) : State :=
  { on 0 [] with
    now := 2 ^ 20
    parts := [(0, f { State.reset.part 0 with len := 2, queue := q, domains := [(3, { Domain.fresh with dcfg := 2 })] })] }

theorem witness_LaunchSteps :
    let s := { launching [] id with launches := [(7, ⟨record, 0, 0, none, 0, 0, [], false, none⟩)] }
    let w := launching [queued 5 0 2, queued 6 1 1, queued 4 1 1] id
    let l := queued 4 1 1
    let s0 := w.setPart 0 { w.part 0 with queue := [queued 5 0 2] ++ [queued 6 1 1] }
    let e := (s0.enrol 0 l 1).1
    let bad : QLaunch := { l with record := 0 }
    let x : Gang := ⟨9, 0, [{ queued 8 1 0 with record := record ||| (2 : BitVec 1024) <<< (8 * 0x54) ||| 32 <<< 256 }]⟩
    (s.launches.find? fun x => x.2.part == 0 && decide (x.2.placed < launchGroups x.2.record)) =
      some (7, ⟨record, 0, 0, none, 0, 0, [], false, none⟩) ∧
    (s.part 0).base ≤ 0 ∧ 0 < (s.part 0).base + (s.part 0).len ∧ (s.placeAt 0 7 record 0 0).isSome = true ∧
    w.launches = [] ∧ (w.part 0).gangs = [] ∧ (∀ m, m ∈ (w.part 0).queue → launchGang m.record = false) ∧
    (w.part 0).queue = [queued 5 0 2, queued 6 1 1] ++ l :: [] ∧
    (∀ m, m ∈ [queued 5 0 2, queued 6 1 1] → m.pri < l.pri ∨ (m.pri = l.pri ∧ l.since < m.since) ∨
      (m.pri = l.pri ∧ l.since = m.since ∧ m.num ≠ l.num ∧ (m.num - l.num).toNat < 2 ^ 31)) ∧
    w.recordOk 0 l.record = true ∧ w.recordOk 0 bad.record = false ∧
    ((s0.vacant.enrol 0 l 1).1.placeLowest 0 [(w.pkg.nextLaunch, l.record, 0)]).isSome = true ∧
    (e.placeAt 0 w.pkg.nextLaunch l.record 0 0).isSome = true ∧ l.pri < 3 ∧ 2 ^ 16 ≤ w.now - l.since ∧
    x.complete = false ∧ 2 ^ 20 ≤ w.now - x.since := by decide

/-- Group 1 of that record, placed on core 0, whose initial record is or is not enqueued. -/
def placing (enq : Bool) (live : Nat) : State :=
  { launching [] id with
    groups := [(1, ⟨7, 0, 0, 0, 1, [⟨0, 0, 0, 0, 1⟩], [⟨0, 0, 0, 0⟩], live, [], enq, [], false, false, false, none⟩)]
    launches := [(7, ⟨record, 0, 0, none, 1, 0, [], false, none⟩)] }

theorem witness_LaunchSteps_initial :
    let s := placing false 1
    let g : Group := ⟨7, 0, 0, 0, 1, [⟨0, 0, 0, 0, 1⟩], [⟨0, 0, 0, 0⟩], 1, [], false, [], false, false, false, none⟩
    let c := initialRec s.chip 1 record g 0
    let t := { s with groups := (2, { g with launch := 3 }) :: s.groups }
    s.group? 1 = some g ∧ (s.launchOf g).map (·.record) = some record ∧ s.stageTaken g = false ∧ t.stageTaken g = true ∧
    g.sent = [] ∧ launchTpg record = 1 ∧ s.mem.wf = true ∧ Safety.HomeAt s 0 (homeOf record g 0) 64 0 ∧
    Safety.Clean s 0 64 ∧ Safety.UnderCeil s 0 64 c.mark ∧ c.chip = s.chip ∧ s.routeOf c = some (0x1000, c) ∧
    ((s.readyQ 0x1000).levels.getD c.pri []).length < 32 := by
  unfold Safety.HomeAt Safety.LocalIn Safety.Clean Safety.UnderCeil; decide

theorem witness_LaunchSteps_end :
    let s := placing true 0
    (s.group? 1).map (fun g => (g.enqueued, g.live)) = some (true, 0) ∧
    ((placing true 1).group? 1).map (fun g => (g.enqueued, g.live)) = some (true, 1) ∧ launchDone record = 0 ∧
    s.groups.sorted = true ∧ s.launches.sorted = true ∧ launchGroups record ≤ 0 + 1 := by decide

/-- A record of group 1 for a thread of core 0, of level 2, in a STATE. -/
def aRec (st : Nat) (join : BitVec 32) : ContRec :=
  { code := 0x400, frame := 0x40, join := join, flags := BitVec.ofNat 32 (2 + 16 * st), wid := 0, succ := 0
    aff := affOf 1 1 0 0, arg0 := 5, arg1 := 6 }

/-- Group 1, whose one thread HT0 is idle, with that record in its queue. -/
def waiting (since : Nat) : State :=
  let s := placing true 1
  let q : ReadyQueue := { ReadyQueue.fresh with levels := #v[[], [], [⟨aRec 1 0, 0x40, 0, 0, since⟩], []] }
  put 0x40 64 (ofBytes (aRec 1 0).bytes)
    { s.setThread ⟨0, 0, 0⟩ Thread.fresh with ready := [(0x1000, q)] }

theorem witness_ContinuationSteps :
    let s := waiting 3
    let w : ThreadId := ⟨0, (s.core 0).sel, 0⟩
    let r : Machine.Ready := ⟨aRec 1 0, 0x40, 0, 0, 3⟩
    let lv (n : Nat) : List Machine.Ready := (s.readyQ 0x1000).levels.getD n []
    s.mem.wf = true ∧ s.nextStart (engKey 0) = some w ∧ engKey 0 = 0x1000 ∧ lv 3 = [] ∧ lv 2 = [] ++ r :: [] ∧
    s.eligible w r = true ∧ Safety.HomeAt s 0 r.home 64 0x40 ∧ Safety.Clean s 0x40 64 ∧
    Safety.UnderCeil s (0x40 + 0x10) 8 0 ∧ 2 ^ 16 ≤ s.now - r.since ∧ (lv 3).length < 32 ∧
    (waiting (2 ^ 20)).now - 2 ^ 20 < 2 ^ 16 := by
  unfold Safety.HomeAt Safety.LocalIn Safety.Clean Safety.UnderCeil; decide

/-- A decrement of that record, which waits with a count or stands in another STATE. -/
def decrementing (st : Nat) (join : BitVec 32) : State :=
  { put 0x40 64 (ofBytes (aRec st join).bytes) (placing true 1) with decs := [⟨0x40, 0, 0, 0, fullWindow, 0, none⟩] }

theorem witness_ContinuationSteps_join :
    let d : Decrement := ⟨0x40, 0, 0, 0, fullWindow, 0, none⟩
    let s := decrementing 0 1
    let at_ (s : State) : ContRec := recOfBytes (s.mem.read 0x40 64)
    let r := at_ s
    let up : ContRec := { r with join := 0, flags := flagsWith r.flags 1 r.trigd }
    s.decs = d :: [] ∧ s.mem.wf = true ∧ Safety.HomeAt s d.unit d.addr 64 0x40 ∧ Safety.Clean s 0x40 64 ∧
    Safety.UnderCeil s (0x40 + 0x10) 8 d.mark ∧ r.state = 0 ∧ r.join = 1 ∧ r.chip = s.chip ∧
    s.routeOf up = some (0x1000, up) ∧ ((s.readyQ 0x1000).levels.getD r.pri []).length < 32 ∧
    (at_ (decrementing 0 2)).state = 0 ∧ (at_ (decrementing 0 2)).join ≠ 1 ∧ (at_ (decrementing 2 0)).state = 2 ∧
    (at_ (decrementing 1 0)).state = 1 ∧ (at_ (decrementing 3 0)).state = 3 := by
  unfold Safety.HomeAt Safety.LocalIn Safety.Clean Safety.UnderCeil; decide

/-- 16 bytes on their way to core 1's local memory, in a domain that has more pending. -/
def sending : State :=
  let s := { State.reset with sends := [⟨0, ⟨0, 0, 0⟩, 0, 3, 1, false, (2 : Word) <<< 62 ||| 0x200040, 16, List.replicate 16 7, 1, none⟩] }
  s.setDom 0 3 { Domain.fresh with dcfg := 2, epoch := 1, pend := 20 }

theorem witness_ContinuationSteps_send :
    let s := sending
    let up := { s with clusters := [(0, { Cluster.fresh with ceil0 := 0, ceil1 := 0 })] }
    let y : Send := ⟨0, ⟨0, 0, 0⟩, 0, 3, 1, false, (2 : Word) <<< 62 ||| 0x200040, 16, List.replicate 16 7, 1, none⟩
    let z := { y with dst := (2 : Word) <<< 62 ||| 0x200000040 }
    s.sends[0]? = some y ∧ field y.dst 52 34 = s.chip ∧ y.vsn = false ∧
    Safety.FarAt s (fun _ => True) y.dst y.data.length (unitLoc 1 + 0x40) ∧ (s.dom 0 3).arr ≠ (s.dom 0 3).exp ∧
    y.count < (s.dom 0 3).pend ∧ Safety.UnderCeil s (unitLoc 1 + 0x40) 16 y.mark ∧
    Safety.FarAt s (fun _ => True) z.dst z.data.length (unitLoc 0x1000 + 0x40) ∧
    ¬Safety.UnderCeil up (unitLoc 0x1000 + 0x40) 16 z.mark := by
  unfold Safety.FarAt Safety.UnderCeil; decide

/-- Group 1 of a launch with a deadline of 100 ticks, whose first continuation started at tick 0. -/
def timed (now : Nat) (table posted : Bool) : State :=
  let r := (record ||| (100 : BitVec 1024) <<< (8 * 0x58)) ^^^ (8 : BitVec 1024) <<< (8 * 0x40)
  let g : Group := ⟨7, 0, 0, 0, 1, [⟨0, 0, 0, 0, 1⟩], [⟨0, 0, 0, 0⟩], 1, [], true, [], table, false, posted, none⟩
  { on 0 [] with now := now, groups := [(1, g)], launches := [(7, ⟨r, 0, 0, none, 1, 0, [], false, some 0⟩)] }

theorem witness_ContinuationSteps_deadline :
    let s := timed 100
    ((s false false).group? 1).isSome = true ∧
    (((s false false).group? 1).bind (s false false).launchOf).map
      (fun e => (launchDom e.record, e.firstAt, launchDeadline e.record)) = some (0, some 0, 100) ∧
    ((s false false).group? 1).map (fun g => (g.hasTable, g.deadlinePosted)) = some (false, false) ∧
    ((s true false).group? 1).map (fun g => (g.hasTable, g.deadlinePosted)) = some (true, false) ∧
    ((s false true).group? 1).map (·.deadlinePosted) = some true ∧ (timed 99 false false).now < 0 + 100 ∧
    (s false false).clusters = [] ∧ ((s false false).thread ⟨0, 0, 0⟩).run = .running := by decide

/-- The same launch with domain 3 in DOM, whose latest milestone was at tick 40. -/
theorem witness_ContinuationSteps_milestone :
    let r := record ||| (100 : BitVec 1024) <<< (8 * 0x58)
    let s : State := { timed 140 false false with
      launches := [(7, ⟨r, 0, 0, none, 1, 0, [], false, some 0⟩)]
      parts := [(0, { State.reset.part 0 with domains := [(3, { Domain.fresh with mtbNow := some 40 })] })] }
    ((s.group? 1).bind s.launchOf).map (fun e => (e.firstAt, launchDeadline e.record, bit (launchDom e.record) 3)) =
      some (some 0, 100, true) ∧ (s.dom 0 3).mtbNow = some 40 ∧ 0 ≤ 40 ∧ s.now = 40 + 100 := by decide

/-- No thread of it has been given what it waits for. -/
theorem witness_ContinuationSteps_unserved : ∀ v, (timed 100 false false).served v = false := fun _ => rfl

theorem witness_ContinuationSteps_parks :
    let s := thr ({ · with reqs := ⟨false, false, true, some 50⟩ }) (timed 100 true false)
    let e := thr ({ · with reqs := ⟨false, false, true, some 500⟩ }) (timed 100 true false)
    let w : ThreadId := ⟨0, (s.core 0).sel, 0⟩
    (s.thread w).reqs.force = some 50 ∧ w.set < 4 ∧
    (∀ k, k < 4 → k ≠ w.set → (s.thread ⟨0, k, 0⟩).reqs.force = none) ∧ 50 ≤ s.now ∧ (s.thread w).run = .running ∧
    s.served w = false ∧ (e.thread w).reqs.force = some 500 ∧ e.now < 500 := by decide

/-- The thread of that group at a safe point at which x5 alone is live. -/
def stopping (still : Bool) : State :=
  let g : Group := ⟨7, 0, 0, 0, 1, [⟨0, 0, 0, 0, 1⟩], [⟨0, 0, 0, 0⟩], 1, [], true, [(0, 0x20, 0)], true, false, false, none⟩
  let c : Cont := ⟨aRec 2 0, 0x40, 0, 0, false⟩
  thr (fun t => { t with reqs := ⟨false, false, true, none⟩, cont := some c, wheel := { t.wheel with act := !still } })
    { on 0 [(5, 9)] with groups := [(1, g)] }

theorem witness_ContinuationSteps_safe :
    let s := stopping true
    s.atSafePoint s.cur = some (0x20, 0) ∧ s.cur = ⟨0, (s.core 0).sel, 0⟩ ∧ s.me.still = true ∧ s.served s.cur = false ∧
    (stopping false).me.still = false ∧ (stopping false).atSafePoint s.cur = some (0x20, 0) := by decide

/-- The event queue of die 0's DCP, four records long, with one that waits. -/
def queueing (placed : Bool) : State :=
  let d := { State.reset.die 0 with evPlaced := placed, evBase := 0x400, evLen := 4, evNext := 3, waiting := [⟨5, 1, 0⟩] }
  let c := { State.reset.core 0 with sets := (State.reset.core 0).sets.set 0 { State.reset.ctxSet 0 0 with qrem := 10 } }
  { State.reset with dies := [(0, d)], now := 10, cores := [(0, c)] }

theorem witness_ContinuationSteps_events :
    let s := queueing true
    let l := unitLoc (0x1380 + 0) + (s.die 0).evBase.toNat + 64 * (s.die 0).evNext
    let c := s.ctxSet 0 (s.core 0).sel
    (s.die 0).waiting = ⟨5, 1, 0⟩ :: [] ∧ (s.die 0).evPlaced = true ∧ s.mem.get (l + 7) = 0 ∧
    ((queueing false).die 0).evPlaced = false ∧ c.qrem ≠ 0 ∧ c.qrem.toNat ≤ s.now - c.qremAt ∧ (s.core 0).sel < 4 ∧
    (({ s with now := 9 } : State).now - c.qremAt < c.qrem.toNat) := by decide

/-! ### Waits and walks -/

/-- A thread that has waited in WFE 3 since tick 0, with that line set or clear. -/
def asleep (now : Nat) (lines : BitVec 64) : State :=
  let s := { placed ((encode (.wfe 3)).getD []) with now := now, cur := ⟨0, 0, 0⟩ }
  csr ({ · with tvec := plain 0x80 }) (thr ({ · with aWait := some ⟨6, 3, 0, 0, 0⟩, lines := lines }) s)

theorem witness_WaitSteps :
    let s := asleep (2 ^ 30) 0
    let ready := asleep (2 ^ 30) 8
    let w : Wait := ⟨6, 3, 0, 0, 0⟩
    let found (s : State) (p : State → Bool) : Bool := match s.waiting false with
      | some (i, s1, x) => i == .wfe 3 && x == w && p s1
      | none => false
    found s (fun s1 => s1.waitOver 6 0 && (s.completes (.wfe 3) s1 w).isNone) = true ∧ s.me.run = .running ∧
    s.me.csr.intrap = false ∧ s.me.csr.tvec.val &&& 0xFFFFFFFFFFFFFFFC ≠ 0 ∧ s.me.lines.getLsbD 3 = false ∧
    found ready (fun s1 => s1.waitOver 6 0 && (ready.completes (.wfe 3) s1 w).isSome) = true ∧
    ready.me.lines.getLsbD 3 = true ∧ found (asleep (2 ^ 30 - 1) 0) (fun s1 => !s1.waitOver 6 0) = true ∧
    (on 0 []).me.aWait = none := by decide

/-- A set line at the limit completes the WFE (R320). -/
theorem witness_WaitSteps_met :
    (match (asleep (2 ^ 30) 8).waiting false with
      | some (i, s1, w) => s1.waitOver w.kind w.since && ((asleep (2 ^ 30) 8).completes i s1 w).isSome
      | none => false) = true := by decide

theorem witness_WaitSteps_remote :
    let r : RemoteWait := ⟨0, 5, none⟩
    let s (now : Nat) (r : RemoteWait) : State := { thr ({ · with remote := some r }) (on 0 []) with now := now }
    let w : ThreadId := ⟨0, ((s 0 r).core 0).sel, 0⟩
    ((s (2 ^ 24) r).thread w).remote = some r ∧ r.answer = none ∧ 2 ^ 24 ≤ (s (2 ^ 24) r).now - r.since ∧
    (s (2 ^ 24 - 1) r).now - r.since < 2 ^ 24 ∧ ({ r with answer := some .refused } : RemoteWait).answer ≠ none ∧ r.chip ≠ hostChip ∧
    ({ r with chip := hostChip } : RemoteWait).chip = hostChip := by decide

/-- A package with a port, in a recording mode, with a ceiling on cluster 0. -/
def linked (mode : BitVec 2) (ceil : BitVec 16) : State :=
  { State.reset with pkg := { State.reset.pkg with portsUp := 1 }
                     parts := [(0, { State.reset.part 0 with recMode := mode })]
                     clusters := [(0, { Cluster.fresh with ceil0 := ceil, ceil1 := ceil })] }

theorem witness_WaitSteps_requests :
    let s := linked 0 0xFFFF
    let r : RemoteReq := ⟨.store, 5, 0, 0, (2 : Word) <<< 62 ||| 0x200000040, 8, 7, 1, 0⟩
    State.reset.pkg.portsUp = 0 ∧ s.pkg.portsUp ≠ 0 ∧ s.acceptor { r with sgid := 9 } = none ∧ s.acceptor r = some 0 ∧
    (linked 2 0).acceptor r = some 0 ∧ ((linked 2 0).part 0).recMode = 2 ∧ s.acceptor { r with kind := .load } = some 0 ∧
    (s.part 0).recMode = 0 ∧ s.mem.wf = true ∧ s.remoteFits r r.len r.mark = true ∧ s.agentTakes r = true ∧
    (crowded s).agentTakes { r with addr := 0x8000000200000000 } = false ∧
    (linked 0 0).acceptor r = some 0 ∧ (linked 0 0).remoteFits r r.len r.mark = false ∧
    s.acceptor { r with kind := .deliver, aux := 0 } = some 0 := by decide

/-- Four levels of tables that map the first 64-KiB page (Table 11.11). -/
def mapped (troot : Word) (e0 : Nat) : State :=
  let s := put (hbmLoc + 0x40000) 8 2 (put (hbmLoc + 0x30000) 8 (1 + 4 * 2 ^ 5) (put (hbmLoc + 0x20000) 8 (1 + 3 * 2 ^ 5)
    (put (hbmLoc + 0x10000) 8 e0 State.reset)))
  s.setPart 0 { s.part 0 with troot := troot }

theorem witness_WaitSteps_walk :
    let s := mapped 0x10001 (1 + 2 * 2 ^ 5)
    let next (e : Word) : Nat := field e 28 5 * 2 ^ 16 + field e 44 37 * 2 ^ 8
    let e0 := s.entryAt (field (s.part 0).troot 39 12 * 2 ^ 12)
    let e1 := s.entryAt (next e0)
    let e2 := s.entryAt (next e1)
    let e3 := s.entryAt (next e2)
    s.xlats = [] ∧ s.entryBad (field (s.part 0).troot 39 12 * 2 ^ 12) = false ∧ s.entryBad (next e0) = false ∧
    s.entryBad (next e1) = false ∧ s.entryBad (next e2) = false ∧ (s.part 0).troot.getLsbD 0 = true ∧
    field e0 1 0 = 1 ∧ badPointer e0 0 = false ∧ field e1 1 0 = 1 ∧ badPointer e1 1 = false ∧ field e2 1 0 = 1 ∧
    badPointer e2 2 = false ∧ field e3 1 0 = 2 ∧ ((mapped 0x10000 0).part 0).troot.getLsbD 0 = false ∧
    field ((mapped 0x10001 0).entryAt 0x10000) 1 0 = 0 ∧
    (let x : Xlat := ⟨0, sliceOf 0, 0, 2 ^ 16, 2⟩; x.part = 0 ∧ x.slice = sliceOf 0 ∧ x.vbase ≤ 0 ∧ 0 < x.vbase + x.size) := by decide

theorem witness_WaitSteps_fetch :
    let s := onStream false 2
    let x := s.slot 0
    let at_ := x.pos + x.lanes * x.fetched.length
    let c := min x.lanes (x.len - at_)
    s.me.run = .running ∧ x.opened = true ∧ x.wr = false ∧ x.indirect = false ∧ at_ < x.len ∧
    x.fetched.length < (if x.vec then 4 else 16) ∧ affineOk x.desc = true ∧ 0 < c ∧
    (∀ j, j < c → Safety.LocalAt s (affineAt x.desc (at_ + j)) (x.width / 8) (0x1008 + 4 * j) ∧
      Safety.Clean s (0x1008 + 4 * j) (x.width / 8)) ∧
    ((onStream false 4).slot 0).len ≤ ((onStream false 4).slot 0).pos := by
  unfold Safety.LocalAt Safety.LocalIn Safety.Clean; decide

/-! ### Rings -/

/-- A tile of a tag that two tasks need. -/
def tile (tag : BitVec 16) : Tile := ⟨tag, 2, 0, 0, 3, 0, 0, 1, [(5, 7)], [], none⟩

/-- Segment 0 of quadrant 0 with given stops; group 1 owns it and has its clusters with 200 lines of each. -/
def segment (f : Segment → Segment) (stops : List (Nat × Stop)) : State :=
  let q := { Quadrant.fresh with segs := Quadrant.fresh.segs.set 0 (f { Segment.fresh with owner := 1 }) }
  let g : Group := ⟨7, 0, 0, 0, 128, [], (List.range 16).map (⟨·, 0, 200, 0⟩), 1, [], true, [], false, false, false, none⟩
  { on 0 [] with
    now := 1000, quads := [(0, q)], groups := [(1, g)]
    clusters := stops.map fun x => (x.1, { Cluster.fresh with stop := x.2 }) }

/-- Smooth, from checks that can be run. -/
theorem smooth_of (s : State) (q j : Nat) (hf : ((s.quad q).sg j).force = false)
    (h : ∀ k, k < (s.segStops q j).length →
      let x := Safety.stopAt s q j k
      ((x.e.toList ++ x.w.toList).all (fun t => t.removal == none && decide (t.lap + 1 < ((s.quad q).sg j).laplim.toNat)) &&
        (x.injE ++ x.injW).all (·.removal == none)) = true) : Safety.Smooth s q j where
  force := hf
  tiles k x hk hx := by
    have := h k hk
    simp only [Bool.and_eq_true, List.all_eq_true, List.mem_append, Option.mem_toList, beq_iff_eq, decide_eq_true_eq] at this
    exact this.1 x (by simpa using hx)
  queues k x hk hx := by
    have := h k hk
    simp only [Bool.and_eq_true, List.all_eq_true, List.mem_append, beq_iff_eq] at this
    exact this.2 x hx

/-- A template for group 1, with a JOIN. -/
def aTemplate (join : BitVec 32) : ContRec := { aRec 0 join with flags := 2, aff := affOf 1 0 0x1000 0 }

/-- An E-tile at stop 0 that is about to cross to stop 1, where a W-tile waits and an entry matches both. -/
def meeting (slots : Nat) : State :=
  segment ({ · with en := true, beatAt := some 960 })
    [(0, { Stop.fresh with e := some (tile 4) }),
     (1, { Stop.fresh with w := some (tile 5), rstop := word (slots * 2 ^ 32), junctions := [(6, ⟨true, 4, 5, aTemplate 0, 1, 0, 0⟩)] })]

theorem witness_RingSteps_beat :
    let s := segment ({ · with en := true, beatAt := some 1000 }) [(0, { Stop.fresh with e := some (tile 4), injE := [tile 9] })]
    let g := (s.quad 0).sg 0
    g.en = true ∧ g.parked = false ∧ g.parkReq = false ∧ g.beatAt = some 1000 ∧ 1000 ≤ s.now ∧ Safety.Smooth s 0 0 ∧
    (∀ k, k < (s.segStops 0 0).length → (Safety.stopAt s 0 0 k).junctions = []) ∧ ((segment id []).quad 0 |>.sg 0).en = false ∧
    (let early := segment ({ · with en := true, beatAt := some 1001 }) []
     ((early.quad 0).sg 0).beatAt = some 1001 ∧ early.now < 1001) := by
  exact ⟨by decide, by decide, by decide, by decide, by decide, smooth_of _ _ _ (by decide) (by decide), by decide, by decide,
    by decide⟩

theorem witness_RingSteps_meeting :
    let s := meeting 1
    let none_ := meeting 0
    let old := Safety.stopAt s 0 0 1
    Safety.Smooth s 0 0 ∧ Safety.Smooth none_ 0 0 ∧ ((s.quad 0).sg 0).en = true ∧
    Safety.crossed s 0 0 1 true = some (tile 4) ∧ Safety.crossed s 0 0 1 false = some (tile 5) ∧ (tile 4).need ≠ 0 ∧
    old.bypass = false ∧ (old.junctions.find? fun x => x.2.valid && x.2.etag == (tile 4).tag && x.2.wtag == (tile 5).tag) =
      some (6, ⟨true, 4, 5, aTemplate 0, 1, 0, 0⟩) ∧
    old.captures.length < 4 ∧ 0 < old.nslot ∧ old.slotHeld 0 = false ∧ (Safety.stopAt none_ 0 0 1).nslot = 0 := by
  exact ⟨smooth_of _ _ _ (by decide) (by decide), smooth_of _ _ _ (by decide) (by decide), by decide, by decide, by decide,
    by decide, by decide, by decide, by decide, by decide, by decide, by decide⟩

/-- A pair captured at a tick, whose record has a JOIN. -/
def aCapture (at_ : Nat) (join : BitVec 32) : Capture := ⟨0, at_, 6, tile 4, tile 5, aTemplate join, 1⟩

theorem witness_RingSteps_copy :
    let s (at_ : Nat) (join : BitVec 32) : State :=
      segment id [(1, { Stop.fresh with captures := [aCapture at_ join], slots := [(0, 128)], rstop := 2 ^ 32 })]
    let x := (s 0 0).stop 1
    let k := aCapture 0 0
    let r := captureRec x k 1
    x.captures = k :: [] ∧ x.copyDue k ≤ (s 0 0).now ∧ (s 990 0).now < ((s 990 0).stop 1).copyDue (aCapture 990 0) ∧
    (s 0 0).mem.wf = true ∧ cellsWf k.e.payload = true ∧ cellsWf k.w.payload = true ∧
    (∀ b, b ∈ k.e.payload ∨ b ∈ k.w.payload → b.1 < 16384) ∧ k.template.join = 0 ∧ (aCapture 0 1).template.join ≠ 0 ∧
    r.chip = (s 0 0).chip ∧ (s 0 0).routeOf r = some (0x1000, r) ∧ (((s 0 0).readyQ 0x1000).levels.getD r.pri []).length < 32 := by
  refine ⟨by decide, by decide, by decide, by decide, by decide, by decide, ?_, by decide, by decide, by decide, by decide, by decide⟩
  intro b h
  simp only [aCapture, tile, List.mem_singleton, or_self] at h
  subst h; decide

theorem witness_RingSteps_park :
    let s := segment ({ · with en := true, parkReq := true, beatAt := some 999 }) [(0, { Stop.fresh with e := some (tile 4) })]
    let p := segment ({ · with en := true, parked := true }) [(0, { Stop.fresh with parkE := some (tile 4) })]
    let held := p.setThread ⟨0, 0, 0⟩ { Thread.fresh with run := .parkedPre }
    let both : State := { held with groups := held.groups.map fun (e : Nat × Group) => (e.1, { e.2 with places := [⟨0, 0, 0, 0, 1⟩] }) }
    let g (s : State) : Segment := (s.quad 0).sg 0
    (g s).en = true ∧ (g s).parked = false ∧ (g s).parkReq = true ∧ (∀ d, (g s).beatAt = some d → d ≤ s.now) ∧
    Safety.Smooth s 0 0 ∧ s.mem.wf = true ∧
    (∀ k, k < (s.segStops 0 0).length → let x := Safety.stopAt s 0 0 k; x.captures = [] ∧ x.injE = [] ∧ x.injW = []) ∧
    (g p).en = true ∧ (g p).parked = true ∧ p.groupParked (g p).owner.toNat = false ∧
    (∀ k, k < (p.segStops 0 0).length → let x := Safety.stopAt p 0 0 k; x.injE = [] ∧ x.injW = []) ∧
    both.groupParked (g both).owner.toNat = true := by
  exact ⟨by decide, by decide, by decide, fun d h => by cases h; decide, smooth_of _ _ _ (by decide) (by decide), by decide,
    by decide, by decide, by decide, by decide, by decide, by decide⟩

/-- A park that finds a capture in progress at its beat, and one whose beat has not come. -/
theorem witness_RingSteps_park_late :
    let s (d : Nat) : State := segment ({ · with en := true, parkReq := true, beatAt := some d })
      [(1, { Stop.fresh with captures := [aCapture 990 0], rstop := 2 ^ 32 })]
    let g (s : State) : Segment := (s.quad 0).sg 0
    (g (s 1000)).en = true ∧ (g (s 1000)).parked = false ∧ (g (s 1000)).parkReq = true ∧ (g (s 1000)).beatAt = some 1000 ∧
    1000 ≤ (s 1000).now ∧ 1 < ((s 1000).segStops 0 0).length ∧ (Safety.stopAt (s 1000) 0 0 1).captures ≠ [] ∧
    (g (s 1001)).beatAt = some 1001 ∧ (s 1001).now < 1001 := by decide

theorem witness_RingSteps_writes :
    let s := segment id []
    let run := segment ({ · with en := true }) []
    let v : Word := 2 ^ 48 + 2 ^ 47
    let g (s : State) : Segment := (s.quad 0).sg 0
    s.me.csr.priv = true ∧ (g s).en = false ∧ v.getLsbD 47 = true ∧ s.mayRun 0 0 (BitVec.ofNat 16 (field v 63 48)) = true ∧
    (1 : Word).getLsbD 47 = false ∧ (g run).en = true ∧ field (1 : Word) 1 0 ≠ 3 ∧ field (3 : Word) 1 0 = 3 ∧
    (∀ k, k < 4 → ((s.quad 0).sg k).en = false) ∧ (s.dom (s.partIx s.cur) 0).arr = 0 ∧ (s.dom (s.partIx s.cur) 0).pend = 0 ∧
    (csr ({ · with priv := false }) s).me.csr.priv = false := by decide

/-! ### The host -/

/-- A command: operation, device address, length, tag and value, with host address 0x100 (Table 19.3). -/
def command (op daddr len tag value : Nat) : BitVec 512 :=
  BitVec.ofNat 512 (op + daddr * 2 ^ 64 + 0x100 * 2 ^ 128 + len * 2 ^ 192 + tag * 2 ^ 224 + value * 2 ^ 256)

/-- A running package with that command on channel 2, of partition 0, which carries mark 1, and with host bytes. -/
def commanded (c : BitVec 512) (chcfg : Word) (f : Partition → Partition) : State :=
  put (hostLoc + 0x100) 16 0x1122334455667788
    { on 0 [] with
      pkg := { State.reset.pkg with devst := 0x10 }
      channels := [(2, { Channel.fresh (chcfg + 2 ^ 48) with cmds := [c], evbase := 0x2000, evlen := 64 })]
      parts := [(0, f (State.reset.part 0))] }

/-- 16 bytes of core 1's local memory in space 10. -/
def core1 : Nat := 2 ^ 63 + 0x200040

/-- The checks of a command at the head of channel 2. -/
def heads (s : State) (op : Nat) (c : HostCmd) : Bool :=
  s.pkg.devst == 0x10 && !s.pkg.stopped && s.headCmd 2 == some c && !c.malformed && c.op == op

theorem cmdAt_of (s : State) (op : Nat) (c : HostCmd) (h : heads s op c = true) : Safety.CmdAt s 2 op c := by
  simp only [heads, Bool.and_eq_true, beq_iff_eq, Bool.not_eq_true'] at h
  exact ⟨h.1.1.1.1, h.1.1.1.2, h.1.1.2, h.1.2, h.2⟩

theorem witness_HostCommands :
    let w := commanded (command 1 core1 16 9 0) 0x11 id
    let r := commanded (command 2 core1 16 9 0) 0x11 id
    let c (op : Nat) : HostCmd := hostCmdOf (command op core1 16 9 0)
    let l := unitLoc 1 + 0x40
    Safety.CmdAt w 2 1 (c 1) ∧ Safety.CmdAt r 2 2 (c 2) ∧ w.mem.wf = true ∧ (w.channel 2).part = 0 ∧
    Safety.HostAt w 0 (c 1).daddr (c 1).len l ∧ Safety.UnderCeil w l (c 1).len (w.channel 2).mark ∧ (w.part 0).recMode = 0 ∧
    okIs (w.hostWrite (w.channelAgent 2) (c 1).daddr (w.mem.read (hostLoc + (c 1).haddr.toNat) (c 1).len) (w.channel 2).mark) (fun _ => true) = true ∧
    Safety.HostAt r 0 (c 2).daddr (c 2).len l ∧ Safety.Clean r l (c 2).len ∧ r.mem.markOf l (c 2).len &&& ~~~(r.channel 2).mark = 0 ∧
    ((commanded (command 1 core1 16 9 0) 0x11 ({ · with recMode := 2 })).part 0).recMode = 2 := by
  refine ⟨cmdAt_of _ _ _ (by decide), cmdAt_of _ _ _ (by decide), ?_⟩
  unfold Safety.HostAt Safety.FarAt Safety.UnderCeil Safety.Clean; decide

/-- A unit whose agent is full, and a host that gives no answer to a WRITE's bytes (R315, R456). -/
theorem witness_HostCommands_waits :
    let spad := 2 ^ 63 + 0x1000 * 2 ^ 21 + 0x40
    let c (op : Nat) : HostCmd := hostCmdOf (command op spad 16 9 0)
    let s (op : Nat) : State := crowded (commanded (command op spad 16 9 0) 0x11 id)
    Safety.CmdAt (s 1) 2 1 (c 1) ∧ Safety.CmdAt (s 2) 2 2 (c 2) ∧ (s 1).fullAt (c 1).daddr = true ∧
    (s 2).fullAt (c 2).daddr = true ∧ ((s 1).part 0).recMode ≠ 2 ∧
    (commanded (command 1 core1 16 9 0) 0x11 id).fullAt (hostCmdOf (command 1 core1 16 9 0)).daddr = false := by
  refine ⟨cmdAt_of _ _ _ (by decide), cmdAt_of _ _ _ (by decide), ?_⟩
  decide

theorem witness_HostCommands_refused :
    let spad := 2 ^ 63 + 0x1000 * 2 ^ 21 + 0x40
    let w := { commanded (command 1 spad 16 9 0) 0x11 id with clusters := [(0, { Cluster.fresh with ceil0 := 0, ceil1 := 0 })] }
    let l := unitLoc 0x1000 + 0x40
    let bad := commanded (command 2 0 16 9 0) 0x11 id
    let r := commanded (command 2 core1 16 9 0) 0x11 id
    let marked : State := { r with mem := { r.mem with marks := [((unitLoc 1 + 0x40) / 64 * 64, 2)] } }
    let poisoned : State := { r with mem := { r.mem with poison := [(unitLoc 1 + 0x40) / 64 * 64] } }
    let c (op a : Nat) : HostCmd := hostCmdOf (command op a 16 9 0)
    Safety.CmdAt w 2 1 (c 1 spad) ∧ Safety.CmdAt bad 2 2 (c 2 0) ∧ Safety.HostAt w 0 (c 1 spad).daddr (c 1 spad).len l ∧
    ¬Safety.UnderCeil w l (c 1 spad).len (w.channel 2).mark ∧
    okIs (w.hostWrite (w.channelAgent 2) (c 1 spad).daddr (w.mem.read (hostLoc + (c 1 spad).haddr.toNat) 16) (w.channel 2).mark) (fun _ => true) = false ∧
    okIs (bad.hostRange (bad.channelAgent 2) (c 2 0).daddr 16 false) (fun _ => true) = false ∧
    Safety.Clean marked (unitLoc 1 + 0x40) 16 ∧ marked.mem.markOf (unitLoc 1 + 0x40) 16 &&& ~~~(marked.channel 2).mark ≠ 0 ∧
    Safety.HostAt marked 0 (c 2 core1).daddr 16 (unitLoc 1 + 0x40) ∧ ¬Safety.Clean poisoned (unitLoc 1 + 0x40) 16 := by
  refine ⟨cmdAt_of _ _ _ (by decide), cmdAt_of _ _ _ (by decide), ?_⟩
  unfold Safety.HostAt Safety.FarAt Safety.UnderCeil Safety.Clean; decide

theorem witness_HostCommands_launch :
    let full := fun q : Partition => { q with queue := List.replicate 64 (queued 1 0 0) }
    let s (chcfg : Word) (f : Partition → Partition) (r : Nat) : State := put (hostLoc + 0x100) 128 r (commanded (command 3 0 0 9 0) chcfg f)
    let denied (s : State) : Bool :=
      let r : BitVec 1024 := BitVec.ofNat 1024 (ofBytes (s.mem.read (hostLoc + 0x100) 128))
      (launchCtl r).testBit 2 && !(s.channel 2).chcfg.getLsbD 2 || (launchCtl r).testBit 3 && !(s.channel 2).chcfg.getLsbD 3
    Safety.CmdAt (s 0x11 id record.toNat) 2 3 (hostCmdOf (command 3 0 0 9 0)) ∧ denied (s 0x11 id record.toNat) = false ∧
    denied (s 0x11 id (record.toNat + 4 * 2 ^ 256)) = true ∧ denied (s 0x15 id (record.toNat + 4 * 2 ^ 256)) = false ∧
    ((s 0x11 id 0).part 0).queue.length < 64 ∧ 64 ≤ ((s 0x11 full 0).part 0).queue.length ∧ ((s 0x11 id 0).channel 2).qfull = false ∧
    (({ Channel.fresh 0x11 with qfull := true } : Channel).qfull = true) := by
  refine ⟨cmdAt_of _ _ _ (by decide), ?_⟩
  decide

theorem witness_HostCommands_page :
    let s := commanded (command 1 core1 16 9 0) 0x11 id
    let x := s.channel 2
    let e : HostEvent := ⟨1, 2, 3, 4⟩
    let y := { x with evlen := word (2 ^ 6), events := [e] }
    x.chcfg.getLsbD 0 = true ∧ x.cmds.length < 64 ∧ (Channel.fresh 0).chcfg.getLsbD 0 = false ∧ y.events = e :: [] ∧ y.evbase ≠ 0 ∧
    (4 ≤ 6 ∧ 6 ≤ 16 ∧ y.evlen = word (2 ^ 6)) ∧ (y.evhead - y.evtail).toNat ≠ y.evlen.toNat ∧
    ({ y with evhead := 64 }.evhead - y.evtail).toNat = y.evlen.toNat ∧ x.events = [] := by decide

/-- A recording area of partition 0 on a mapped page, with a first entry of a KIND that carries 16 bytes (Table 20.1). -/
def replaying (kind now : Nat) (f : Partition → Partition) : State :=
  let s := put (hbmLoc + 32) 16 7 (put hbmLoc 32 (50 + (kind * 2 ^ 56 + 1) * 2 ^ 64 + core1 * 2 ^ 128 + 16 * 2 ^ 192) State.reset)
  let x : Xlat := ⟨0, sliceOf 0, 0, 2 ^ 16, 2⟩
  let s1 := { s with xlats := [x] }.setPart 0 (f { s.part 0 with
    troot := 1, recBase := 2 ^ 62, recLen := 4096, recMode := 2, replayStart := some (100, 40) })
  { s1 with now := now }

theorem witness_HostCommands_replay :
    let s (kind now : Nat) : State := replaying kind now id
    let full := replaying 2 110 fun q => { q with queue := List.replicate 64 (queued 1 0 0) }
    let first (s : State) (p : RecEntry → Bool) : Bool := match s.recAt 0 (s.part 0).recPos with
      | .ok (some e) => p e
      | .ok none => false
      | .error _ => false
    ((s 1 110).part 0).recMode = 2 ∧ ((s 1 110).part 0).replayStart = some (100, 40) ∧
    first (s 1 110) (fun e => e.stamp == 50 && e.kind == 1 && e.payload.length == 16 &&
      okIs ((s 1 110).hostWrite (engineAgent 0 ((s 1 110).part 0).recSince (s 1 110).now) e.daddr e.payload e.mark) (fun _ => true)) = true ∧
    (s 1 109).now < 100 + ((50 : Word) - 40).toNat ∧ 100 + ((50 : Word) - 40).toNat ≤ (s 1 110).now ∧
    first (s 2 110) (fun e => e.kind == 2) = true ∧ ((s 2 110).part 0).queue.length < 64 ∧
    first full (fun e => e.kind == 2) = true ∧ 64 ≤ (full.part 0).queue.length ∧ first (s 4 110) (fun e => e.kind == 4) = true := by
  decide

/-- A CONFIG command of an item with a value at the head of channel 2, which has or has not CONF. -/
def configured (item v : Nat) (chcfg : Word) : State := commanded (command 4 item 0 9 v) chcfg id

theorem configAt_of (s : State) (item ix : Nat) (v : Word) (c : HostCmd) (h : heads s 4 c = true)
    (h2 : ((s.channel 2).chcfg.getLsbD 4 && decide (ix < 64) && c.daddr == word (ix * 2 ^ 16 + item) && c.value == v) = true) :
    Safety.ConfigAt s 2 item ix v c := by
  simp only [Bool.and_eq_true, beq_iff_eq, decide_eq_true_eq] at h2
  exact ⟨cmdAt_of s 4 c h, h2.1.1.1, h2.1.1.2, h2.1.2, h2.2⟩

theorem witness_ConfigItems :
    let s (item v : Nat) : State := configured item v 0x11
    let c (item v : Nat) : HostCmd := hostCmdOf (command 4 item 0 9 v)
    Safety.ConfigAt (s 1 3) 2 1 0 3 (c 1 3) ∧ Safety.ConfigAt (s 2 3) 2 2 0 3 (c 2 3) ∧
    Safety.ConfigAt (s (5 * 2 ^ 16 + 3) 3) 2 3 5 3 (c (5 * 2 ^ 16 + 3) 3) ∧ Safety.ConfigAt (s 4 3) 2 4 0 3 (c 4 3) ∧
    Safety.ConfigAt (s (2 ^ 16 + 5) 1) 2 5 1 1 (c (2 ^ 16 + 5) 1) ∧ Safety.ConfigAt (s 6 3) 2 6 0 3 (c 6 3) ∧
    Safety.ConfigAt (s 7 3) 2 7 0 3 (c 7 3) ∧ Safety.ConfigAt (s 8 (2 ^ 62)) 2 8 0 (2 ^ 62) (c 8 (2 ^ 62)) ∧
    Safety.ConfigAt (s 9 4096) 2 9 0 4096 (c 9 4096) ∧ Safety.ConfigAt (s 10 2) 2 10 0 2 (c 10 2) ∧
    Safety.ConfigAt (s 11 800) 2 11 0 800 (c 11 800) ∧ Safety.CmdAt (configured 1 3 1) 2 4 (c 1 3) ∧
    (s 1 3).groups = [] ∧ ((configured 1 3 1).channel 2).chcfg.getLsbD 4 = false := by
  refine ⟨?_, ?_, ?_, ?_, ?_, ?_, ?_, ?_, ?_, ?_, ?_, cmdAt_of _ _ _ (by decide), by decide, by decide⟩ <;>
    exact configAt_of _ _ _ _ _ (by decide) (by decide)

/-- CHCFG on channel 0 (R459). -/
theorem witness_ConfigItems_channel :
    let v : Word := 2 ^ 48 + 0x11
    let s := { configured 5 3 0x11 with
      channels := [(0, { Channel.fresh 0x1D with cmds := [command 4 (2 ^ 16 + 5) 0 9 v.toNat] })] }
    let c := hostCmdOf (command 4 (2 ^ 16 + 5) 0 9 v.toNat)
    s.headCmd 0 = some c ∧ c.malformed = false ∧ c.op = 4 ∧ s.pkg.devst = 0x10 ∧ s.pkg.stopped = false ∧
    (s.channel 0).chcfg.getLsbD 4 = true ∧ c.daddr = word (1 * 2 ^ 16 + 5) ∧ c.value = v ∧
    v &&& ~~~0xFFFFFC000000001D#64 = 0 ∧ popcount 16 (field v 63 48) ≤ 1 := by decide

/-! ### Power and bring-up -/

/-- Die 0 with other state, at a tick. -/
def dieWith (now : Nat) (f : Die → Die) : State := { State.reset with dies := [(0, f (State.reset.die 0))], now := now }

theorem witness_PowerSteps :
    let x := State.reset.die 0
    let late := (dieWith (2 ^ 16) ({ · with freqAt := some 0 })).die 0
    let soon := dieWith 100 ({ · with freqAt := some 0 })
    let hot := dieWith (2 ^ 10) ({ · with thermal := some 1000, thermAt := some 0 })
    let step_ (mhz : Nat) : Nat := max 700 (min 1100 (mhz / 50 * 50))
    State.reset.util 0 ≤ 80 ∧
    1000 = min 1100 (min (min 1100 1000) (min (x.thermal.getD 1100).toNat 1200)) ∧ step_ 1000 ≠ x.fclk.toNat ∧
    step_ 1100 = x.fclk.toNat ∧ x.freqAt = none ∧ late.freqAt = some 0 ∧ 2 ^ 16 ≤ (2 ^ 16 : Nat) - 0 ∧
    (soon.die 0).freqAt = some 0 ∧ soon.now - 0 < 2 ^ 16 ∧ step_ 1000 < x.fclk.toNat ∧ x.thermal = none ∧
    95 ≤ (95 : BitVec 8).toNat ∧ (hot.die 0).thermal = some 1000 ∧ (hot.die 0).thermAt = some 0 ∧ 2 ^ 10 ≤ hot.now - 0 ∧
    ({ hot with now := 1023 } : State).now - 0 < 2 ^ 10 ∧ (94 : BitVec 8).toNat < 95 ∧ (89 : BitVec 8).toNat < 90 ∧
    (hot.die 0).thermal ≠ none ∧ 90 ≤ (90 : BitVec 8).toNat ∧ 110 ≤ (110 : BitVec 8).toNat ∧ (109 : BitVec 8).toNat < 110 := by
  decide

theorem witness_PowerSteps_lock :
    let s (now : Nat) (locked : Bool) (m : BitVec 19) : State :=
      { State.reset with now := now, pkg := { State.reset.pkg with locked := locked, tmaster := m } }
    let silent (s : State) : Prop := s.pkg.tmaster ≠ s.pkg.pchip ∧ s.pkg.syncAt + 2 ^ 20 ≤ s.now
    ((s (2 ^ 20) true 5).pkg.locked = true ∧ silent (s (2 ^ 20) true 5)) ∧ ¬silent (s (2 ^ 20 - 1) true 5) ∧
    ¬silent (s (2 ^ 20) true 0) ∧ (s 0 false 0).pkg.locked = false ∧ (s 0 false 0).pkg.tmaster = (s 0 false 0).pkg.pchip := by
  decide

theorem witness_PowerSteps_correct :
    let s : State := { State.reset with agenda := [⟨.correct true, 1, false⟩], pkg := { State.reset.pkg with tmaster := 5 } }
    let y : State := { State.reset with agenda := [⟨.sync, 1, false⟩] }
    s.agenda = ⟨.correct true, 1, false⟩ :: [] ∧ s.pkg.tmaster ≠ s.pkg.pchip ∧ s.pkg.corrAt = none ∧
    s.runners.filter s.served = [] ∧ s.dueStep (s.now + 1) = none ∧
    y.agenda = ⟨.sync, 1, false⟩ :: [] ∧ y.runners.filter y.served = [] ∧ y.dueStep (y.now + 1) = none := by decide

/-- A package at a stage of its bring-up. -/
def atStage (devst : BitVec 8) : State := { State.reset with pkg := { State.reset.pkg with devst := devst } }

/-- Stage 2 goes one of two ways, as the firmware verifies or not; the fuses that decide it are free. -/
theorem witness_BringUpSteps :
    (atStage 1).pkg.devst = 1 ∧ (atStage 2).pkg.devst = 2 ∧
    ((atStage 2).firmwareOk (atStage 2).sec.nonceIx = true ∨ (atStage 2).firmwareOk (atStage 2).sec.nonceIx = false) ∧
    (atStage 3).pkg.devst = 3 ∧ (atStage 4).pkg.devst = 4 ∧ (atStage 0x10).pkg.devst = 0x10 ∧ (atStage 0xFF).pkg.devst = 0xFF ∧
    State.reset.mem.wf = true := by
  refine ⟨by decide, by decide, ?_, by decide, by decide, by decide, by decide, by decide⟩
  cases (atStage 2).firmwareOk (atStage 2).sec.nonceIx <;> simp

theorem witness_BringUpSteps_errors :
    let s (t : Nat) : State := { State.reset with now := t, pkg := { State.reset.pkg with softAt := [(5, 0)] } }
    let r : DcpRec := ⟨dcpRecord 8 ⟨5, 0, 0⟩ 0 1 0 0 0 0 0 0, 0, 5⟩
    let w := { State.reset with dies := [(dieOf 5, { State.reset.die 0 with waiting := [r] })] }
    let run := on 0 []
    (s (2 ^ 16)).pkg.softAt.get? 5 = some 0 ∧ 2 ^ 16 ≤ (s (2 ^ 16)).now - 0 ∧ (s 100).now - 0 < 2 ^ 16 ∧
    (s 100).pkg.softAt.get? 6 = none ∧ (s 100).die (dieOf 5) = State.reset.die 0 ∧ (State.reset.die 0).waiting = [] ∧
    (r ∈ (w.die (dieOf 5)).waiting ∧ r.source = 5 ∧ r.word.toNat / 2 ^ 56 % 256 = 8 ∧ r.word.getLsbD 64 = true) ∧
    0 < hbmLoc ∧ hbmLoc ≤ hbmLoc ∧ hbmLoc < hostLoc ∧ hostLoc ≤ hostLoc ∧ (run.thread ⟨0, (run.core 0).sel, 0⟩).run = .running ∧ run.me.csr.intrap = false ∧
    (run.thread ⟨1, (run.core 1).sel, 0⟩).run ≠ .running := by decide

theorem witness_BringUpSteps_retired :
    let s : State := { State.reset with pkg := { State.reset.pkg with retired := [0x1001] } }
    0x1000 ∉ s.pkg.retired ∧ (0x1000 ≤ 0x1000 ∧ 0x1000 < 0x1200) ∧ 0x1200 ∉ s.pkg.retired ∧ isChannel 0x1200 = true ∧
    0x1001 ∈ s.pkg.retired ∧ isChannel 5 = false ∧ ¬(0x1000 ≤ 5 ∧ 5 < 0x1200) := by decide

end Sys2Proof.Tests
end

section
/-! PROOFS. The writes of control registers (R23, R128): what a register reads back, and what a write leaves alone. -/

namespace Sys2Proof

/-- The row of the table of a write form (R128). -/
def CsOp.row (op : CsOp) (d : Reg) (c : BitVec 6) : Instr :=
  match op with
  | .w => .csrw d c
  | .s => .csrs d c
  | .c => .csrc d c

/-- What a write form makes of the register's old value and of X(D), over every bit (R128). -/
def CsOp.value (op : CsOp) (old x : Word) : Word :=
  match op with
  | .w => x
  | .s => old ||| x
  | .c => old &&& ~~~x

/-- The mark a write form gives: the instruction's, joined with the old one where the old value is read. -/
def CsOp.mark (op : CsOp) (m old : Mark) : Mark :=
  match op with
  | .w => m
  | .s => m ||| old
  | .c => m ||| old

namespace Machine

open Safety

/-! ## What a control register reads -/

/-- Control registers read none of what moves with the program counter. -/
@[simp] theorem State.csrGet_advance (s : State) (n : Nat) : s.advance.csrGet n = s.csrGet n := by
  unfold State.csrGet State.fibre
  rw [State.me_advance]
  rfl

/-- Control registers read none of what the E-side instructions have captured. -/
@[simp] theorem State.csrGet_keep (s : State) (key n : Nat) (v : Tagged 64) : (s.keep key v).csrGet n = s.csrGet n := by
  unfold State.csrGet State.fibre State.keep
  rw [State.me_setMe]
  rfl

@[simp] theorem State.csrGet_keepOld (s : State) (c n : Nat) : (s.keepOld c).csrGet n = s.csrGet n := by
  unfold State.keepOld
  split
  · exact s.csrGet_keep _ _ _
  · split
    · exact s.csrGet_keep _ _ _
    · rfl

/-- CPSRC to CPMESH are the seven shadows of the copy unit. -/
theorem csrGet_shadow (s : State) (c : Nat) (h : 0x18 ≤ c ∧ c < 0x1F) :
    s.csrGet c = s.me.csr.shadows.getD (c - 0x18) (plain 0) := by
  unfold State.csrGet
  split
  case h_27 => exact if_pos h
  all_goals omega

@[simp] theorem State.fibre_setMe (s : State) (x : Thread) (n : Nat) :
    (s.setMe x).fibre n = x.fibres.getD n Fibre.closed := by
  rw [State.fibre, State.me_setMe]

@[simp] theorem State.core_setMe (s : State) (x : Thread) (u : Nat) : (s.setMe x).core u = s.core u := rfl

@[simp] theorem State.hpbase_setMe (s : State) (x : Thread) (u : Nat) : (s.setMe x).hpbase u = s.hpbase u := rfl

@[simp] theorem State.hplen_setMe (s : State) (x : Thread) (u : Nat) : (s.setMe x).hplen u = s.hplen u := rfl

@[simp] theorem State.eIdle_advance (s : State) : s.advance.eIdle = s.eIdle := by
  unfold State.eIdle
  rw [State.me_advance]

/-! ## The registers that a write changes -/

/-- The registers that have RW fields. -/
theorem writable_of_csrMask (c : Nat) (h : csrMask c ≠ 0) :
    (0x18 ≤ c ∧ c < 0x1F) ∨ c = 0x09 ∨ c = 0x00 ∨ c = 0x02 ∨ c = 0x03 ∨ c = 0x06 ∨ c = 0x07 ∨ c = 0x08 ∨ c = 0x0D := by
  unfold csrMask at h
  split at h
  case h_11 =>
    split at h
    · omega
    · exact absurd rfl h
  all_goals omega

theorem csrPut_shadow (s : State) (c : Nat) (v : Tagged 64) (h : 0x18 ≤ c ∧ c < 0x1F) :
    s.csrPut c v =
      s.setMe { s.me with csr := { s.me.csr with shadows := s.me.csr.shadows.setIfInBounds (c - 0x18) v } } := by
  unfold State.csrPut
  split
  case h_9 => exact if_pos h
  all_goals omega

/-- A write of a register that has RW fields changes the thread's control registers and nothing else. -/
theorem csrPut_eq_setMe (s : State) (c : Nat) (v : Tagged 64) (hc : csrMask c ≠ 0) :
    ∃ k, s.csrPut c v = s.setMe { s.me with csr := k } := by
  rcases writable_of_csrMask c hc with hs | rfl | rfl | rfl | rfl | rfl | rfl | rfl | rfl
  · exact ⟨_, csrPut_shadow s c v hs⟩
  all_goals exact ⟨_, rfl⟩

/-- A write of one of the seven shadows leaves every other control register. -/
theorem csrGet_csrPut_shadow_ne (s : State) (c n : Nat) (v : Tagged 64) (hc : 0x18 ≤ c ∧ c < 0x1F) (h : n ≠ c) :
    (s.csrPut c v).csrGet n = s.csrGet n := by
  rw [csrPut_shadow s c v hc]
  by_cases hn : 0x18 ≤ n ∧ n < 0x1F
  · rw [csrGet_shadow _ _ hn, csrGet_shadow _ _ hn, State.me_setMe]
    exact Vector.getD_setIfInBounds_ne _ _ _ _ _ (by omega)
  · simp only [State.csrGet, State.fibre_setMe, State.core_setMe, State.hpbase_setMe, State.hplen_setMe,
      State.setMe_cur, State.me_setMe]
    simp only [State.fibre]
    generalize s.me = t
    split
    case h_27 => rw [if_neg hn, if_neg hn]
    all_goals rfl

/-- A write of a control register leaves every other one. -/
theorem csrGet_csrPut_ne (s : State) (c n : Nat) (v : Tagged 64) (hc : csrMask c ≠ 0) (h : n ≠ c) :
    (s.csrPut c v).csrGet n = s.csrGet n := by
  rcases writable_of_csrMask c hc with hs | rfl | rfl | rfl | rfl | rfl | rfl | rfl | rfl
  · exact csrGet_csrPut_shadow_ne s c n v hs h
  all_goals
    simp only [State.csrPut, State.csrGet, State.fibre_setMe, State.core_setMe, State.hpbase_setMe, State.hplen_setMe,
      State.setMe_cur, State.me_setMe]
    simp only [State.fibre]
    generalize s.me = t
    split
    any_goals exact absurd rfl h
    all_goals rfl

/-! ## The value that a register reads back -/

/-- The lowest bit of a number given with that bit apart. -/
theorem testBit_zero_b2n_add (b : Bool) (n : Nat) : (b2n b + 2 * n).testBit 0 = b := by
  rw [Nat.testBit_zero]
  cases b
  · exact decide_eq_false (by change ¬(0 + 2 * n) % 2 = 1; omega)
  · exact decide_eq_true (by change (1 + 2 * n) % 2 = 1; omega)

/-- The bits above the lowest of a number given with that bit apart. -/
theorem testBit_succ_b2n_add (b : Bool) (n j : Nat) : (b2n b + 2 * n).testBit (j + 1) = n.testBit j := by
  have h : (b2n b + 2 * n) / 2 = n := by
    cases b
    · change (0 + 2 * n) / 2 = n; omega
    · change (1 + 2 * n) / 2 = n; omega
  rw [Nat.testBit_succ, h]

/-- STATUS as a number, its three low bits apart (Table 1.3). -/
theorem status_bits (g p i : Bool) (a b w : Nat) : a * 2 ^ 11 + b * 2 ^ 8 + w * 8 + b2n g * 4 + b2n p * 2 + b2n i =
    b2n i + 2 * (b2n p + 2 * (b2n g + 2 * (a * 2 ^ 8 + b * 2 ^ 5 + w))) := by
  omega

/-- STATUS with PRIV and GCP replaced (Table 1.3): bits 2 and 1 are new, the others as before. -/
theorem statusOf_write (t : ThreadId) (x : Thread) (v : Word) (m : Mark) :
    statusOf t { x with csr := { x.csr with gcp := v.getLsbD 2, priv := v.getLsbD 1, statusMark := m } } =
      (v &&& 6) ||| (statusOf t x &&& ~~~6) := by
  apply BitVec.eq_of_getLsbD_eq
  intro j hj
  simp only [statusOf, Thread.wstat, status_bits, BitVec.getLsbD_or, BitVec.getLsbD_and, BitVec.getLsbD_not,
    getLsbD_word _ _ hj]
  match j with
  | 0 =>
    have h6 : (6 : Word).getLsbD 0 = false := by decide
    simp only [testBit_zero_b2n_add, h6, hj, decide_true, Bool.and_false, Bool.false_or, Bool.not_false, Bool.and_true]
  | 1 =>
    have h6 : (6 : Word).getLsbD 1 = true := by decide
    simp only [testBit_succ_b2n_add _ _ 0, testBit_zero_b2n_add, h6, Bool.and_true, Bool.not_true, Bool.and_false,
      Bool.or_false]
  | 2 =>
    have h6 : (6 : Word).getLsbD 2 = true := by decide
    simp only [testBit_succ_b2n_add _ _ 1, testBit_succ_b2n_add _ _ 0, testBit_zero_b2n_add, h6, Bool.and_true,
      Bool.not_true, Bool.and_false, Bool.or_false]
  | j + 3 =>
    have h6 : (6 : Word).getLsbD (j + 3) = false := by simp [BitVec.getLsbD_ofNat, Nat.testBit_succ]
    simp only [testBit_succ_b2n_add, h6, hj, decide_true, Bool.and_false, Bool.false_or, Bool.not_false, Bool.and_true]

theorem csrGet_csrPut_status (s : State) (v : Word) (m : Mark) :
    let w := (v &&& 6) ||| ((s.csrGet 0x00).val &&& ~~~6)
    (s.csrPut 0x00 ⟨w, m⟩).csrGet 0x00 = ⟨w, m⟩ := by
  intro w
  have h : (w &&& 6) ||| (statusOf s.cur s.me &&& ~~~6) = w := by
    ext j
    simp only [w, State.csrGet, BitVec.getElem_or, BitVec.getElem_and, BitVec.getElem_not]
    cases (6#64)[j] <;> simp
  simp only [State.csrPut, State.csrGet, State.me_setMe, State.setMe_cur, statusOf_write, h]

/-- The RW fields written read back and the others as before, in every register but FRM. -/
theorem csrGet_csrPut_self (s : State) (c : Nat) (v : Word) (m : Mark) (hc : csrMask c ≠ 0) (h9 : c ≠ 0x09) :
    let w := (v &&& csrMask c) ||| ((s.csrGet c).val &&& ~~~csrMask c)
    (s.csrPut c ⟨w, m⟩).csrGet c = ⟨w, m⟩ := by
  intro w
  rcases writable_of_csrMask c hc with hs | rfl | rfl | rfl | rfl | rfl | rfl | rfl | rfl
  · rw [csrGet_shadow _ _ hs, csrPut_shadow _ _ _ hs, State.me_setMe]
    exact Vector.getD_setIfInBounds_self _ _ _ _ (by omega)
  · exact absurd rfl h9
  · exact csrGet_csrPut_status s v m
  all_goals simp only [State.csrPut, State.csrGet, State.me_setMe]

/-- FRM takes no MODE above 4 (R128, Table 1.7), but the mark of the write. -/
theorem csrGet_csrPut_frm (s : State) (v : Word) (m : Mark) :
    (s.csrPut 0x09 ⟨v, m⟩).csrGet 0x09 = ⟨if 4 < v.toNat then (s.csrGet 0x09).val else v, m⟩ := by
  simp only [State.csrPut, State.csrGet, State.me_setMe]
  split <;> rfl

/-! ## The write forms -/

theorem exec_row (op : CsOp) (d : Reg) (c : BitVec 6) (s : State) :
    exec (op.row d c) s = runA (op.row d c) (csrWrite op d c) s := by
  cases op <;> rfl

/-- What a write form makes of the register named: its RW fields from the form's value, the others as before. -/
def CsOp.written (op : CsOp) (s : State) (d : Reg) (c : Nat) : Tagged 64 :=
  ⟨(op.value (s.csrGet c).val (s.x d) &&& csrMask c) ||| ((s.csrGet c).val &&& ~~~csrMask c),
    op.mark (s.xm d ||| s.base) (s.csrGet c).mark⟩

@[simp] theorem CsOp.written_advance (op : CsOp) (s : State) (d : Reg) (c : Nat) :
    CsOp.written op s.advance d c = CsOp.written op s d c := by
  simp [CsOp.written]

theorem csrWrite_ok (op : CsOp) (d : Reg) (c : BitVec 6) (s : State) (hm : csrMask c.toNat ≠ 0)
    (hp : privWrites c.toNat = false ∨ s.me.csr.priv = true) (he : c.toNat ≠ 0x08 ∨ s.eIdle = true) :
    csrWrite op d c s = .ok ((s.keepOld c.toNat).csrPut c.toNat (CsOp.written op s d c.toNat)) := by
  have h1 : (privWrites c.toNat && !s.me.csr.priv) = false := by rcases hp with h | h <;> simp [h]
  have h2 : (c.toNat == 0x08 && !s.eIdle) = false := by rcases he with h | h <;> simp [h]
  simp only [csrWrite, h1, h2, hm, Bool.false_eq_true, if_false]
  cases op <;> simp [CsOp.written, CsOp.value, CsOp.mark, joins]

theorem csrWrite_user (op : CsOp) (d : Reg) (c : BitVec 6) (s : State) (hp : privWrites c.toNat = true)
    (hu : s.me.csr.priv = false) : csrWrite op d c s = ill s := by
  simp [csrWrite, hp, hu]

theorem csrWrite_ro (op : CsOp) (d : Reg) (c : BitVec 6) (s : State) (hp : privWrites c.toNat = false)
    (hm : csrMask c.toNat = 0) : csrWrite op d c s = .ok s := by
  simp [csrWrite, hp, hm]

/-! ## What a write form leaves alone -/

/-- The registers, the value windows, the program counter and all but the running thread are as before. -/
structure OnlyControl (s t : State) : Prop where
  regs : t.me.regs = s.me.regs
  windows : WindowsSame s t
  pc : t.me.pc = s.me.pc
  only : OnlyThread s t

theorem OnlyControl.refl (s : State) : OnlyControl s s := ⟨rfl, rfl, rfl, rfl, fun _ => rfl, fun _ _ => rfl⟩

theorem OnlyControl.trans {s t u : State} (h : OnlyControl s t) (g : OnlyControl t u) : OnlyControl s u :=
  ⟨g.regs.trans h.regs, Eq.trans g.windows h.windows, g.pc.trans h.pc, onlyThread_trans h.only g.only⟩

theorem onlyControl_keep (s : State) (key : Nat) (v : Tagged 64) : OnlyControl s (s.keep key v) := by
  refine ⟨?_, ?_, ?_, onlyThread_setMe _ _⟩ <;> simp [WindowsSame, State.keep]

theorem onlyControl_keepOld (s : State) (c : Nat) : OnlyControl s (s.keepOld c) := by
  unfold State.keepOld
  split
  · exact onlyControl_keep s _ _
  · split
    · exact onlyControl_keep s _ _
    · exact .refl s

theorem onlyControl_csrPut (s : State) (c : Nat) (v : Tagged 64) (hc : csrMask c ≠ 0) : OnlyControl s (s.csrPut c v) := by
  obtain ⟨k, hk⟩ := csrPut_eq_setMe s c v hc
  rw [hk]
  refine ⟨?_, ?_, ?_, onlyThread_setMe _ _⟩ <;> simp [WindowsSame]

/-- An A-side instruction that has no effect. -/
theorem noEffect_advance (s : State) : NoEffect s s.advance := by
  refine ⟨?_, ?_, ?_, ?_, ?_, ?_, onlyThread_advance s⟩
  · intro n _; rw [State.me_advance]
  · intro n _; rw [State.me_advance]
  · intro n _; rw [State.me_advance]
  · unfold WindowsSame; rw [State.me_advance]
  · unfold ControlKept; rw [State.me_advance]
  · unfold Passed; rw [State.me_advance]

/-! ## What a write form answers -/

/-- A write form has given a control register a value and changed nothing else. -/
def WroteCsr (s t : State) (c : BitVec 6) (r : Tagged 64) : Prop :=
  t.csrGet c.toNat = r ∧
  (∀ k, csNumbers.contains k = true → k ≠ c.toNat → t.csrGet k = s.csrGet k) ∧
  t.me.regs = s.me.regs ∧ WindowsSame s t ∧ Passed s t ∧ OnlyThread s t

theorem wroteCsr_of_csrPut (s : State) (c : BitVec 6) (v : Tagged 64) (hm : csrMask c.toNat ≠ 0) :
    let t := (s.advance.keepOld c.toNat).csrPut c.toNat v
    WroteCsr s t c (t.csrGet c.toNat) := by
  intro t
  have h : OnlyControl s.advance t := (onlyControl_keepOld _ _).trans (onlyControl_csrPut _ _ _ hm)
  refine ⟨rfl, fun k _ hk => ?_, ?_, ?_, ?_, onlyThread_trans (onlyThread_advance s) h.only⟩
  · rw [csrGet_csrPut_ne _ _ _ _ hm hk, State.csrGet_keepOld, State.csrGet_advance]
  · rw [h.regs, State.me_advance]
  · exact Eq.trans h.windows (noEffect_advance s).windows
  · exact h.pc.trans (noEffect_advance s).pc

theorem answers_row (op : CsOp) (s : State) (d : Reg) (c : BitVec 6) (hm : csrMask c.toNat ≠ 0)
    (hp : privWrites c.toNat = false ∨ s.me.csr.priv = true) (he : c.toNat ≠ 0x08 ∨ s.eIdle = true) :
    Answers (op.row d c) s fun t =>
      WroteCsr s t c (((s.advance.keepOld c.toNat).csrPut c.toNat (CsOp.written op s d c.toNat)).csrGet c.toNat) := by
  have h := csrWrite_ok op d c s.advance hm (by simpa using hp) (by simpa using he)
  rw [CsOp.written_advance] at h
  exact ⟨_, (exec_row op d c s).trans (runA_ok _ _ _ _ h), wroteCsr_of_csrPut s c _ hm⟩

/-- A write form of a register whose RW fields take every value. -/
theorem answers_row_fields (op : CsOp) (s : State) (d : Reg) (c : BitVec 6) (hm : csrMask c.toNat ≠ 0)
    (hp : privWrites c.toNat = false ∨ s.me.csr.priv = true) (he : c.toNat ≠ 0x08 ∨ s.eIdle = true)
    (h9 : c.toNat ≠ 0x09) :
    Answers (op.row d c) s fun t => WroteCsr s t c (CsOp.written op s d c.toNat) := by
  have h := csrGet_csrPut_self (s.advance.keepOld c.toNat) c.toNat (op.value (s.csrGet c.toNat).val (s.x d))
    (op.mark (s.xm d ||| s.base) (s.csrGet c.toNat).mark) hm h9
  simp only [State.csrGet_keepOld, State.csrGet_advance] at h
  have a := answers_row op s d c hm hp he
  unfold CsOp.written at a ⊢
  rwa [h] at a

/-- The value that FRM would take from a form, or the old one where its MODE is above 4 (R128, Table 1.7). -/
def frmMode (old v : Word) : Word := if (v &&& 7).toNat < 5 then v else old

/-- A MODE of FRM below 5 is all that FRM holds. -/
theorem frm_fields (old : Word) (h : old.toNat < 5) : old &&& 7 = old ∧ old &&& ~~~7 = 0#64 := by
  have hold : old = 0 ∨ old = 1 ∨ old = 2 ∨ old = 3 ∨ old = 4 := by bv_omega
  rcases hold with rfl | rfl | rfl | rfl | rfl <;> decide

/-- A MODE above 4 leaves the old one. -/
theorem frm_kept (old v : Word) (h : old.toNat < 5) (hv : 5 ≤ (v &&& 7).toNat) :
    (frmMode old v &&& 7) ||| (old &&& ~~~7) = old := by
  obtain ⟨h7, h0⟩ := frm_fields old h
  rw [frmMode, if_neg (by omega), h7, h0, BitVec.or_zero]

theorem frm_stored (old v : Word) (h : old.toNat < 5) :
    let w := (v &&& 7) ||| (old &&& ~~~7)
    (if 4 < w.toNat then old else w) = (frmMode old v &&& 7) ||| (old &&& ~~~7) := by
  intro w
  have hw : w = v &&& 7 := by simp only [w, (frm_fields old h).2, BitVec.or_zero]
  by_cases hv : (v &&& 7).toNat < 5
  · rw [if_neg (by rw [hw]; omega), frmMode, if_pos hv]
  · rw [if_pos (by rw [hw]; omega), frm_kept old v h (by omega)]

/-- A write form of FRM: a MODE above 4 leaves the old one, and the mark is the write's. -/
theorem answers_row_frm (op : CsOp) (s : State) (d : Reg) (h : (s.csrGet 0x09).val.toNat < 5) :
    Answers (op.row d 0x09) s fun t =>
      WroteCsr s t 0x09 ⟨(frmMode (s.csrGet 0x09).val (op.value (s.csrGet 0x09).val (s.x d)) &&& 7) |||
        ((s.csrGet 0x09).val &&& ~~~7), op.mark (s.xm d ||| s.base) (s.csrGet 0x09).mark⟩ := by
  have a := answers_row op s d 0x09 (by decide) (.inl rfl) (.inl (by decide))
  have e : (0x09 : BitVec 6).toNat = 0x09 := rfl
  rw [e] at a
  unfold CsOp.written at a
  rw [csrGet_csrPut_frm, State.csrGet_keepOld, State.csrGet_advance] at a
  rwa [← frm_stored _ _ h]

theorem exec_row_user (op : CsOp) (d : Reg) (c : BitVec 6) (s : State) (hp : privWrites c.toNat = true)
    (hu : s.me.csr.priv = false) :
    exec (op.row d c) s = .next (s.trapEntry 0x01 0 s.latch.finfo false 0 (s.trapMark (op.row d c))) :=
  (exec_row op d c s).trans
    (runA_error _ _ _ _ (csrWrite_user op d c s.advance hp (by rw [State.me_advance]; exact hu)))

theorem answers_row_ro (op : CsOp) (s : State) (d : Reg) (c : BitVec 6) (hp : privWrites c.toNat = false)
    (hm : csrMask c.toNat = 0) : Answers (op.row d c) s (NoEffect s) :=
  ⟨_, (exec_row op d c s).trans (runA_ok _ _ _ _ (csrWrite_ro op d c s.advance hp hm)), noEffect_advance s⟩

/-- A register whose write has no effect (Table 1.2). -/
theorem readOnly (c : BitVec 6)
    (h : c = 0x01 ∨ c = 0x04 ∨ c = 0x05 ∨ c = 0x0A ∨ c = 0x0B ∨ c = 0x0C ∨ c = 0x0E ∨ c = 0x0F ∨ c = 0x10 ∨ c = 0x11 ∨
      c = 0x12 ∨ c = 0x13 ∨ c = 0x1F ∨ (0x20 ≤ c.toNat ∧ c.toNat ≤ 0x25)) :
    privWrites c.toNat = false ∧ csrMask c.toNat = 0 := by
  revert c
  decide

end Machine

open Machine

/-- Settles O16: each write form is `csrWrite` of its operation; the value read back is `csrGet_csrPut_self` for every
register but FRM, and `frm_stored` for FRM. -/
theorem controlRegisterWrites : Obligations.ControlRegisterWrites := by
  unfold Obligations.ControlRegisterWrites
  refine ⟨fun s d c => ?_, fun s d hv hf => ?_⟩
  · intro old writes all
    have fields (rw : Word) (hrw : csrMask c.toNat = rw) (h0 : rw ≠ 0)
        (hp : privWrites c.toNat = false ∨ s.me.csr.priv = true) (he : c.toNat ≠ 0x08 ∨ s.eIdle = true)
        (h9 : c.toNat ≠ 0x09) : all rw := by
      subst hrw
      exact ⟨answers_row_fields .w s d c h0 hp he h9, answers_row_fields .s s d c h0 hp he h9,
        answers_row_fields .c s d c h0 hp he h9⟩
    refine ⟨?_, ?_, ?_, ?_, ?_, ?_, ?_, ?_, ?_⟩
    · rintro (rfl | rfl | rfl | rfl | rfl | rfl | rfl | rfl | rfl) <;>
        exact fields _ rfl (by decide) (.inl rfl) (.inl (by decide)) (by decide)
    · rintro rfl he
      exact fields _ rfl (by decide) (.inl rfl) (.inr he) (by decide)
    · rintro rfl hp
      exact fields _ rfl (by decide) (.inr hp) (.inl (by decide)) (by decide)
    · rintro rfl hp
      exact fields _ rfl (by decide) (.inr hp) (.inl (by decide)) (by decide)
    · rintro rfl
      exact fields _ rfl (by decide) (.inl rfl) (.inl (by decide)) (by decide)
    · rintro rfl
      exact fields _ rfl (by decide) (.inl rfl) (.inl (by decide)) (by decide)
    · rintro rfl hold
      exact ⟨answers_row_frm .w s d hold, answers_row_frm .s s d hold, answers_row_frm .c s d hold⟩
    · intro hc hu
      have hp : privWrites c.toNat = true := by rcases hc with rfl | rfl <;> rfl
      exact ⟨exec_row_user .w d c s hp hu, exec_row_user .s d c s hp hu, exec_row_user .c d c s hp hu⟩
    · intro hc
      obtain ⟨hp, hm⟩ := readOnly c hc
      exact ⟨answers_row_ro .w s d c hp hm, answers_row_ro .s s d c hp hm, answers_row_ro .c s d c hp hm⟩
  · obtain ⟨t, ht, hfrm, -, hregs, -, -, honly⟩ := answers_row_frm .w s d hf
    exact ⟨t, ht, hfrm.trans (congrArg (Tagged.mk · _) (frm_kept _ _ hf hv)), hregs, honly⟩

end Sys2Proof
end
